-- ==== Sys2Proof/Word.lean ====
section
/-! DEFINITION. The bit-vector types of JDB's values: a register word (R24), a 16-bit table entry, coefficient or
predictor (R7), a stream byte or sample (R7). -/
namespace Sys2Proof

/-- A host register word: 32 bits (R24). -/
abbrev Word := BitVec 32

/-- A 16-bit value: a staging or quantisation entry (R60, R62), a coefficient or a DC predictor (R66, R67). -/
abbrev Half := BitVec 16

/-- An 8-bit value: a stream byte, a Huffman symbol, a sample (R7). -/
abbrev Byte := BitVec 8

end Sys2Proof
end

