-- ==== Sys2Proof/Config.lean ====
section
/-! DEFINITION. What an implementation of JDB fixes (R7's parameters) and the values the spec leaves open (free values).
`Params` is plain data that State carries and no step changes, so a statement over every state is a statement over every
value of the parameters; the free values are constants without a body, so that no proof can see one. -/
namespace Sys2Proof

/-- R7, R365: the inverse-transform parameter `IDCT_IMPL`. -/
inductive IdctImpl where
  /-- `FIXED`, the bit-exact integer transform of R366-R368 (the default) -/
  | fixed
  /-- another transform of the implementation's own, told apart by a number -/
  | other (id : Nat)
  deriving DecidableEq, Repr

/-- R7: the implementation parameters that reach one instance. -/
structure Params where
  /-- `IN_DEPTH`, entries of the input FIFO, 1 to 255 -/
  inDepth  : Nat
  /-- `OUT_DEPTH`, bytes of the output FIFO, 1 to 255 -/
  outDepth : Nat
  /-- `PLANE_CAPACITY` in bytes; `none` is unbounded (R221) -/
  planeCap : Option Nat
  /-- `IDCT_IMPL` (R365) -/
  idct     : IdctImpl
  /-- `REG_BASE`, the platform's base address of the register window (R101) -/
  regBase  : Nat
  deriving DecidableEq, Repr

/-- The ranges R7 gives the parameters. -/
def Params.wf (p : Params) : Bool :=
  decide (1 ≤ p.inDepth ∧ p.inDepth ≤ 255 ∧ 1 ≤ p.outDepth ∧ p.outDepth ≤ 255)

/-- The defaults of R7 and of the spec's table of open parameters (92): both depths 16, unbounded planes, FIXED.
`REG_BASE` has no default there; offsets alone matter, so the model names 0 (log 3, DESIGN CHOICE). -/
def Params.defaults : Params :=
  { inDepth := 16, outDepth := 16, planeCap := none, idct := .fixed, regBase := 0 }

/-- FREE VALUE (log 5): what a 32-bit count (BR_P, TRAILING, OUT_COUNT) reads once it has been counted past 2^32 - 1,
which the spec leaves open (R264 and `91_not_in_source.md` G14). One value for each use. -/
opaque Config.freeCount : Nat → Word

/-- FREE VALUE (log 4): sample `n` (natural order) that an `IDCT_IMPL` other than FIXED chooses for a dequantised block;
the transform keeps it within R365's tolerance (`withinTolerance`). -/
opaque Config.idctOther : (impl : Nat) → (dq : List Half) → (n : Nat) → Byte

end Sys2Proof
end

