-- ==== Sys2Proof/Syntax.lean ====
section
/-! DEFINITION. JDB's encoded things: one constructor of `Instr` per row of spec/opcode_table.json (R157), the five word
formats the rows use, the input FIFO's entries (R144), and the moves of the world outside the engine (R12, R101). -/
namespace Sys2Proof

/-- R69, R144: an entry of the input FIFO. -/
inductive InEntry where
  | byte (b : Byte)
  /-- the end-of-input token -/
  | eof
  deriving DecidableEq, Repr

/-- R157: the words a JDB decoder reads. Each constructor is one row of the opcode table. -/
inductive Instr where
  -- command words, written to CMD (R140, R141)
  | nop
  | loadQt (id : BitVec 2)
  | loadHt (id : BitVec 2) (cls : BitVec 1)
  | startFrame
  | startScan
  | convert
  | abort
  /-- the catch-all row: a word R142 makes illegal -/
  | cmdRejected (w : Word)
  -- register accesses with side effects (R250); `v` is the word written
  | tblDataWr (v : Word)
  | inDataWr (v : Word)
  | outDataRd
  | intStatusWr (v : Word)
  /-- a write of CTRL; with bit 0 = 0 it only sets UPS_MODE (R32) -/
  | ctrlSoftReset (v : Word)
  -- byte tokens of the entropy-coded stream (R145)
  | stuffed
  | fillRun
  | rstN (n : BitVec 3)
  | marker (x : Byte)
  | dangling
  | data (b : Byte)
  | endTok
  -- DC symbols (R148); `t` is the magnitude category
  | dcZero
  | dcDiffLow (t : Byte)
  | dcDiffHigh (t : Byte)
  | dcIllegal (t : Byte)
  -- AC symbols RRRRSSSS (R149)
  | acEob
  | acZrl
  | acRunOnly (r : BitVec 4)
  | acRunValue (r s : BitVec 4)
  deriving DecidableEq, Repr

/-- The five formats of the opcode table: which decoder a word is for. -/
inductive Format where
  /-- a 32-bit command word (R140) -/
  | cmd
  /-- a register access: offset [7:0], write bit [8], then the 32-bit write data at [47:16] -/
  | regAccess
  /-- two input entries: E0_EOF [17], E0_BYTE [16:9], E1_EOF [8], E1_BYTE [7:0] (R145) -/
  | token
  /-- a DC symbol byte (R148) -/
  | dcSym
  /-- an AC symbol byte (R149) -/
  | acSym
  deriving DecidableEq, Repr

/-- An encoded word and the format it is read in. Bits above the format's own are 0. -/
structure IWord where
  fmt  : Format
  bits : BitVec 48
  deriving DecidableEq, Repr

/-- R101, R104: one host access, as the bus carries it. -/
structure Access where
  write : Bool
  /-- the byte address, `REG_BASE` included -/
  addr  : Nat
  /-- bytes accessed; only 4 has a meaning (R104) -/
  width : Nat
  /-- the word written (not looked at by a read) -/
  data  : Word
  deriving DecidableEq, Repr

/-- R12, R120: who moves next. The world outside the engine is a list of these in State: the interleaving as plain data. -/
inductive Turn where
  /-- the host makes one register access -/
  | host (a : Access)
  /-- the engine takes one step, from one boundary of R13 to the next -/
  | engine
  /-- the power-on reset of R500 -/
  | powerOn
  deriving DecidableEq, Repr

end Sys2Proof
end

