-- ==== Sys2Proof/WellFormed.lean ====
section
/-! DEFINITION. Which terms of `Instr` stand for a word of the spec: the conditions under which the rows of R142, R145,
R148 and R149 apply. -/
namespace Sys2Proof

/-- R142: the command words that are rejected whatever the engine state. -/
def illegalCmd (w : Word) : Bool :=
  let op := (w.extractLsb' 0 4).toNat
  let id := w.extractLsb' 4 2
  let cls := w.extractLsb' 6 1
  let reserved := w.extractLsb' 7 25
  decide ((6 ≤ op ∧ op ≤ 14) ∨ reserved ≠ 0 ∨ (id ≠ 0 ∧ op ≠ 1 ∧ op ≠ 2) ∨ (cls = 1 ∧ op ≠ 2))

/-- R145, R146: a marker code that is neither stuffing, fill nor a restart marker. -/
def stopCode (x : Byte) : Bool :=
  decide (x ≠ 0x00 ∧ x ≠ 0xFF ∧ ¬(0xD0 ≤ x.toNat ∧ x.toNat ≤ 0xD7))

/-- The instruction is one the tables of R140-R149 can produce. -/
def Instr.wf : Instr → Bool
  | .nop => true
  | .loadQt _ => true
  | .loadHt _ _ => true
  | .startFrame => true
  | .startScan => true
  | .convert => true
  | .abort => true
  | .cmdRejected w => illegalCmd w
  | .tblDataWr _ => true
  | .inDataWr _ => true
  | .outDataRd => true
  | .intStatusWr _ => true
  | .ctrlSoftReset _ => true
  | .stuffed => true
  | .fillRun => true
  | .rstN _ => true
  | .marker x => stopCode x
  | .dangling => true
  | .data b => decide (b ≠ 0xFF)
  | .endTok => true
  | .dcZero => true
  | .dcDiffLow t => decide (1 ≤ t.toNat ∧ t.toNat ≤ 7)
  | .dcDiffHigh t => decide (8 ≤ t.toNat ∧ t.toNat ≤ 11)
  | .dcIllegal t => decide (12 ≤ t.toNat)
  | .acEob => true
  | .acZrl => true
  | .acRunOnly r => decide (1 ≤ r.toNat ∧ r.toNat ≤ 14)
  | .acRunValue _ s => decide (s ≠ 0)

end Sys2Proof
end

