-- ==== Sys2Proof/Decode.lean ====
section
/-! DEFINITION. The decoders of R157 (one per format of the opcode table), total on every word, and the encoder written
from the same tables. -/
namespace Sys2Proof

/-- Why a word is no instruction. -/
inductive DecodeError where
  /-- a register access that is none of the rows of R250: a plain register read or write (R24, R25) -/
  | plainAccess
  /-- a bit above the format's own bits is set -/
  | strayBits
  deriving DecidableEq, Repr

/-- R140, R141, R142: a command word. Every word R142 makes illegal is the catch-all row. -/
def decodeCmd (w : Word) : Instr :=
  let op := w.extractLsb' 0 4
  let id := w.extractLsb' 4 2
  let cls := w.extractLsb' 6 1
  if w.extractLsb' 7 25 ≠ 0 then .cmdRejected w
  else if op = 1 then (if cls = 0 then .loadQt id else .cmdRejected w)
  else if op = 2 then .loadHt id cls
  else if id ≠ 0 ∨ cls ≠ 0 then .cmdRejected w
  else if op = 0 then .nop
  else if op = 3 then .startFrame
  else if op = 4 then .startScan
  else if op = 5 then .convert
  else if op = 15 then .abort
  else .cmdRejected w

/-- R250: a register access with a side effect, from its write bit, offset and data. -/
def decodeRegAccess (write : Bool) (off : Byte) (v : Word) : Except DecodeError Instr :=
  if write then
    if off = 0x34 then .ok (.tblDataWr v)
    else if off = 0x3C then .ok (.inDataWr v)
    else if off = 0x54 then .ok (.intStatusWr v)
    else if off = 0x04 then .ok (.ctrlSoftReset v)
    else .error .plainAccess
  else if off = 0x40 then .ok .outDataRd
  else .error .plainAccess

/-- R145, R146: a token, from the two oldest entries. (The table lists MARKER, whose mask leaves E1_EOF out, before
DANGLING; R262 decides by the entry being END, and the rule wins: log 10, DEDUCED.) -/
def decodeToken (w : BitVec 18) : Instr :=
  let e0 := w.extractLsb' 9 8
  let e1 := w.extractLsb' 0 8
  if w.getLsbD 17 then .endTok
  else if e0 ≠ 0xFF then .data e0
  else if w.getLsbD 8 then .dangling
  else if e1 = 0x00 then .stuffed
  else if e1 = 0xFF then .fillRun
  else if e1.extractLsb' 3 5 = 0x1A then .rstN (e1.extractLsb' 0 3)
  else .marker e1

/-- R148: a DC symbol. -/
def decodeDc (b : Byte) : Instr :=
  if b = 0 then .dcZero
  else if b.toNat ≤ 7 then .dcDiffLow b
  else if b.toNat ≤ 11 then .dcDiffHigh b
  else .dcIllegal b

/-- R149: an AC symbol RRRRSSSS, tried in the order EOB, ZRL, run-only, run/value. -/
def decodeAc (b : Byte) : Instr :=
  let r := b.extractLsb' 4 4
  let s := b.extractLsb' 0 4
  if b = 0x00 then .acEob
  else if b = 0xF0 then .acZrl
  else if s = 0 then .acRunOnly r
  else .acRunValue r s

/-- The decoder: any word of any format, to the instruction it stands for or to the reason it is none. -/
def decode (w : IWord) : Except DecodeError Instr :=
  match w.fmt with
  | .cmd =>
      if w.bits.extractLsb' 32 16 = 0 then .ok (decodeCmd (w.bits.extractLsb' 0 32)) else .error .strayBits
  | .regAccess =>
      if w.bits.extractLsb' 9 7 = 0 then
        decodeRegAccess (w.bits.getLsbD 8) (w.bits.extractLsb' 0 8) (w.bits.extractLsb' 16 32)
      else .error .strayBits
  | .token =>
      if w.bits.extractLsb' 18 30 = 0 then .ok (decodeToken (w.bits.extractLsb' 0 18)) else .error .strayBits
  | .dcSym =>
      if w.bits.extractLsb' 8 40 = 0 then .ok (decodeDc (w.bits.extractLsb' 0 8)) else .error .strayBits
  | .acSym =>
      if w.bits.extractLsb' 8 40 = 0 then .ok (decodeAc (w.bits.extractLsb' 0 8)) else .error .strayBits

/-- The two entries of a token as R157's 18-bit word. -/
def entryBits : InEntry → BitVec 9
  | .byte b => 0#1 ++ b
  | .eof => 1#1 ++ 0#8

/-- The token word of the entries taken so far; a token of one entry leaves E1 at 0. -/
def tokenWord : List InEntry → BitVec 18
  | [] => 0
  | [e0] => entryBits e0 ++ 0#9
  | e0 :: e1 :: _ => entryBits e0 ++ entryBits e1

/-- The word of a command (R140). -/
def cmdWord (op : BitVec 4) (id : BitVec 2) (cls : BitVec 1) : IWord :=
  ⟨.cmd, (0#41 ++ cls ++ id ++ op : BitVec 48)⟩

/-- The word of a register access: data, write bit, offset. -/
def accessWord (write : Bool) (off : Byte) (v : Word) : IWord :=
  ⟨.regAccess, (v ++ 0#7 ++ BitVec.ofBool write ++ off : BitVec 48)⟩

/-- The encoder: the word of an instruction, from the tables of R140-R149. -/
def encode : Instr → IWord
  | .nop => cmdWord 0 0 0
  | .loadQt id => cmdWord 1 id 0
  | .loadHt id cls => cmdWord 2 id cls
  | .startFrame => cmdWord 3 0 0
  | .startScan => cmdWord 4 0 0
  | .convert => cmdWord 5 0 0
  | .abort => cmdWord 15 0 0
  | .cmdRejected w => ⟨.cmd, w.setWidth 48⟩
  | .tblDataWr v => accessWord true 0x34 v
  | .inDataWr v => accessWord true 0x3C v
  | .outDataRd => accessWord false 0x40 0
  | .intStatusWr v => accessWord true 0x54 v
  | .ctrlSoftReset v => accessWord true 0x04 v
  | .stuffed => ⟨.token, (tokenWord [.byte 0xFF, .byte 0x00]).setWidth 48⟩
  | .fillRun => ⟨.token, (tokenWord [.byte 0xFF, .byte 0xFF]).setWidth 48⟩
  | .rstN n => ⟨.token, (tokenWord [.byte 0xFF, .byte (0x1A#5 ++ n)]).setWidth 48⟩
  | .marker x => ⟨.token, (tokenWord [.byte 0xFF, .byte x]).setWidth 48⟩
  | .dangling => ⟨.token, (tokenWord [.byte 0xFF, .eof]).setWidth 48⟩
  | .data b => ⟨.token, (tokenWord [.byte b]).setWidth 48⟩
  | .endTok => ⟨.token, (tokenWord [.eof]).setWidth 48⟩
  | .dcZero => ⟨.dcSym, 0⟩
  | .dcDiffLow t => ⟨.dcSym, t.setWidth 48⟩
  | .dcDiffHigh t => ⟨.dcSym, t.setWidth 48⟩
  | .dcIllegal t => ⟨.dcSym, t.setWidth 48⟩
  | .acEob => ⟨.acSym, 0⟩
  | .acZrl => ⟨.acSym, 0xF0⟩
  | .acRunOnly r => ⟨.acSym, (r ++ 0#4).setWidth 48⟩
  | .acRunValue r s => ⟨.acSym, (r ++ s).setWidth 48⟩

/-- The host access that carries an instruction's word, decoded: CMD writes (R33, R200) and the rows of R250. -/
def decodeAccess (write : Bool) (off : Byte) (v : Word) : Except DecodeError Instr :=
  if write ∧ off = 0x08 then .ok (decodeCmd v) else decodeRegAccess write off v

/-- The format and word of a table row's bits. The rows of 8 bits do not say whether they are DC or AC symbols (the
Huffman table in use does, R148, R149): a legal DC category 0..11 is read as a DC symbol, any other byte as an AC symbol
(log 11, DESIGN CHOICE). Bits of the instruction above `nbits` (the write data of an access) are 0. -/
def tableWord (nbits w : Nat) : Option IWord :=
  if 2 ^ nbits ≤ w then none
  else if nbits ≤ 8 then some ⟨if w ≤ 11 then .dcSym else .acSym, BitVec.ofNat 48 w⟩
  else if nbits ≤ 16 then some ⟨.regAccess, BitVec.ofNat 48 w⟩
  else if nbits ≤ 24 then some ⟨.token, BitVec.ofNat 48 w⟩
  else if nbits ≤ 32 then some ⟨.cmd, BitVec.ofNat 48 w⟩
  else if nbits ≤ 48 then some ⟨.regAccess, BitVec.ofNat 48 w⟩
  else none

/-- The instruction the decoder reads from a table row's bits. -/
def decodeTableWord (nbits w : Nat) : Option Instr :=
  match tableWord nbits w with
  | none => none
  | some iw =>
    match decode iw with
    | .ok i => some i
    | .error _ => none

end Sys2Proof
end

