-- ==== Sys2Proof/Machine/State.lean ====
section
/-! DEFINITION. Everything the spec gives JDB to hold (10_state.md), as plain data, the ways a step can stop, and the
machine right after reset (R77, R500). An `Option` is the spec's own unwritten value (R11), never a missing reset value. -/
namespace Sys2Proof.Machine

/-- Three like things, one per frame component. -/
structure Tri (α : Type) where
  c0 : α
  c1 : α
  c2 : α
  deriving DecidableEq, Repr

/-- Four like things, one per table id. -/
structure Quad (α : Type) where
  t0 : α
  t1 : α
  t2 : α
  t3 : α
  deriving DecidableEq, Repr

/-- R23: the engine state. -/
inductive EngState where
  | idle | frame | scan | convert | error
  deriving DecidableEq, Repr

/-- R68: the mode of the bit reader. -/
inductive BrMode where
  | data | marker | endMode
  deriving DecidableEq, Repr

/-- R21: the phases of the scan procedure. A MCU begins in `restartCheck` and ends in `store` with `b` past its last
block. -/
inductive Phase where
  | restartCheck | blockDc | blockAc | store | endSearch
  deriving DecidableEq, Repr

/-- What the entropy decoder is in the middle of (implied by R300, R303, R307: a decode is suspended wherever `InPop`
is a step boundary or holds). -/
inductive Bits where
  /-- `HuffDecode`: `len` bits read, accumulated in `code` (R300) -/
  | huff (code : Half) (len : Nat)
  /-- a symbol was decoded and has not acted yet -/
  | sym (b : Byte)
  /-- `ReadBits(t)` of a DC or an AC symbol: `n` bits read, accumulated in `v` (R267) -/
  | mag (dc : Bool) (t n : Nat) (v : Half)
  deriving DecidableEq, Repr

/-- One length of a built Huffman table: `FIRST`, `NUM`, `OFF` (R61, R213). -/
structure HuffRow where
  first : BitVec 17
  num   : Nat
  off   : Nat
  deriving DecidableEq, Repr

/-- R61: a built Huffman table. `rows` holds lengths 1..16 in order; entries of `VALS` past `vals` are unwritten. -/
structure HuffTable where
  rows : List HuffRow
  vals : List Byte
  deriving DecidableEq, Repr

/-- The table memories QT and HT and their valid bits (R43, R60, R61). -/
structure Tables where
  qt      : Quad (Option (List Half))
  dc      : Quad (Option HuffTable)
  ac      : Quad (Option HuffTable)
  qtValid : BitVec 4
  dcValid : BitVec 4
  acValid : BitVec 4
  deriving DecidableEq, Repr

/-- The registers the host reads and writes as stored fields (R32, R37-R41, R49); reserved bits are not held, but for
SCAN_CFG, whose gaps read 0. -/
structure Regs where
  upsMode         : BitVec 1
  frameDim        : Word
  frameCfg        : BitVec 12
  compCfg         : Tri (BitVec 10)
  scanCfg         : Word
  restartInterval : BitVec 16
  intEn           : BitVec 6
  deriving DecidableEq, Repr

/-- R63: one component of the frame snapshot: CH, CV, CTQ. -/
structure FrameComp where
  h  : Nat
  v  : Nat
  tq : BitVec 2
  deriving DecidableEq, Repr

/-- R63: the frame snapshot; NF is the number of components. -/
structure FrameSnap where
  fw    : BitVec 16
  fh    : BitVec 16
  comps : List FrameComp
  deriving DecidableEq, Repr

/-- R65: one slot of the scan snapshot: CIDX, TD, TA. -/
structure ScanSlot where
  cidx : Nat
  td   : BitVec 2
  ta   : BitVec 2
  deriving DecidableEq, Repr

/-- R65: the scan snapshot; NS is the number of slots and SMCUS is `srow * srows`. -/
structure ScanSnap where
  slots : List ScanSlot
  ri    : BitVec 16
  srow  : Nat
  srows : Nat
  deriving DecidableEq, Repr

/-- R68: the bit reader. `window`, `start` and `byte` are the inside of a `FetchByte()` in progress (R262): the entries
of the current token popped so far, the offset of the first, and a fetched byte its caller has not taken yet. -/
structure BitReader where
  cur      : Option Byte
  nbits    : Nat
  mode     : BrMode
  marker   : Option Byte
  p        : Word
  inCount  : Word
  fillUsed : Bool
  window   : List InEntry
  start    : Word
  byte     : Option Byte
  deriving DecidableEq, Repr

/-- R67: the block being decoded and the transform's working values. -/
structure BlockWork where
  coef : List (Option Half)
  dq   : List (Option Half)
  g    : List (Option Int)
  acc  : Option Int
  deriving DecidableEq, Repr

/-- R21: the sequencer cursor during a scan (M is `mcuCount`, R51), and EndSearch's `mayRst` (R335). -/
structure Sequencer where
  phase  : Phase
  b      : Nat
  k      : Nat
  bits   : Bits
  mayRst : Bool
  deriving DecidableEq, Repr

/-- R21, R231: the conversion cursor. -/
structure ConvCursor where
  x  : Nat
  y  : Nat
  ch : Nat
  deriving DecidableEq, Repr

/-- Memory a program's data lies in: the component planes (R71, R102), as addressed bytes. -/
abbrev Memory := List Host.Cell

/-- The state of one JDB instance, and of the world outside it (the last five fields). -/
structure State where
  /-- STATUS.STATE (R23) -/
  st        : EngState
  /-- CTRL.UPS_MODE, FRAME_DIM, FRAME_CFG, COMP_CFG0-2, SCAN_CFG, RESTART_INTERVAL, INT_EN -/
  regs      : Regs
  /-- INT_STATUS (R50) -/
  intStatus : BitVec 6
  /-- ERR (R35) -/
  err       : Word
  /-- ERR_POS (R36) -/
  errPos    : Word
  /-- QT, HT, TBL_VALID (R43, R60, R61) -/
  tabs      : Tables
  /-- STG; STG_PTR is its length, entries past it are unwritten (R62) -/
  stg       : List Half
  /-- STATUS.STG_OVF (R62) -/
  stgOvf    : Bool
  /-- the frame snapshot (R63) -/
  frame     : Option FrameSnap
  /-- GEOMETRY (R53) -/
  geometry  : Word
  /-- the scan snapshot (R65) -/
  scan      : Option ScanSnap
  /-- SCAN_GEOM (R54) -/
  scanGeom  : Word
  /-- STATUS.NEXT_RST (R65) -/
  nextRst   : BitVec 3
  /-- PRED (R66) -/
  pred      : Tri Half
  /-- COEF, DQ, G, the accumulator (R67) -/
  blk       : BlockWork
  /-- BR_CUR, BR_NBITS, BR_MODE, BR_MARKER, BR_P, IN_COUNT, FILL_USED (R47, R68) -/
  br        : BitReader
  /-- the input FIFO, oldest first (R69) -/
  inFifo    : List InEntry
  /-- STATUS.EOF_SEEN (R69) -/
  eofSeen   : Bool
  /-- the output FIFO, oldest first (R70) -/
  outFifo   : List Byte
  /-- OUT_COUNT (R55) -/
  outCount  : Word
  /-- PLANE (R71, R102); a sample that is not listed is unwritten -/
  planes    : Memory
  /-- STATUS.COMP_DONE (R72) -/
  compDone  : BitVec 3
  /-- CV_MODE (R73) -/
  cvMode    : Option (BitVec 1)
  /-- MARKER: VALID, CODE (R46) -/
  markerReg : BitVec 9
  /-- MCU_COUNT, which is the cursor M (R21, R51) -/
  mcuCount  : Word
  /-- PROGRESS.ROWS (R52) -/
  rows      : BitVec 16
  /-- TRAILING (R56) -/
  trailing  : Word
  /-- the scan cursor (R21) -/
  seq       : Sequencer
  /-- the conversion cursor (R21) -/
  conv      : ConvCursor
  /-- MODEL: the engine is inside a step of R13, where no other agent moves -/
  mid       : Bool
  /-- MODEL: the moves the outside world still makes, in order (R12, R120) -/
  turns     : List Turn
  /-- MODEL: the value the last host read returned -/
  rdata     : Word
  /-- MODEL: how many free values have been used (`Config.freeCount`) -/
  freeUsed  : Nat
  /-- MODEL: the implementation's parameters (R7); no step changes them -/
  par       : Params
  deriving DecidableEq, Repr

/-- What an unwritten-value fault would have read. -/
inductive Item where
  | qtTable | huffTable | huffVal | frameSnap | scanSnap | coef | plane | brCur | brMarker | cvMode
  deriving DecidableEq, Repr

/-- The ways the model itself stops. None is a JDB error: those are next states (R455). -/
inductive Fault where
  /-- A rule would read a value nothing has written (R11). Raised by the engine's reads of tables, snapshots, COEF,
  planes, BR_CUR, BR_MARKER and CV_MODE. Safe: R11 makes it a model fault and no admitted path reaches it. -/
  | unwritten (item : Item)
  /-- A sample or block index outside the planes (R102: no rule forms one). Raised by plane reads and block stores.
  Safe: no admitted path reaches it. -/
  | planeRange
  deriving DecidableEq, Repr

/-- The moves the model gives no meaning. -/
inductive Refusal where
  /-- An instruction rejected by name by `exec`. No arm raises it. Safe. -/
  | notModelled (mnemonic : String)
  /-- A host access that is not 32 bits wide or not word aligned; raised by the host port. Safe: R104 says a model
  refuses it. -/
  | badAccess
  /-- A host access outside the register window; raised by the host port. Safe: R101 and R111 leave it to the platform. -/
  | outsideWindow
  deriving DecidableEq, Repr

def BitReader.initial : BitReader :=
  { cur := none, nbits := 0, mode := .data, marker := none, p := 0, inCount := 0, fillUsed := false
    window := [], start := 0, byte := none }

def Sequencer.initial : Sequencer :=
  { phase := .restartCheck, b := 0, k := 0, bits := .huff 0 0, mayRst := false }

def Tables.empty : Tables :=
  { qt := ⟨none, none, none, none⟩, dc := ⟨none, none, none, none⟩, ac := ⟨none, none, none, none⟩
    qtValid := 0, dcValid := 0, acValid := 0 }

def Regs.initial : Regs :=
  { upsMode := 0, frameDim := 0, frameCfg := 0, compCfg := ⟨0, 0, 0⟩, scanCfg := 0, restartInterval := 0, intEn := 0 }

def BlockWork.unwritten : BlockWork :=
  { coef := List.replicate 64 none, dq := List.replicate 64 none, g := List.replicate 64 none, acc := none }

/-- R77, R500: the machine right after power-on. The cursor and the model's own fields are the model's (log 2, 6). -/
def State.reset : State :=
  { st := .idle, regs := Regs.initial, intStatus := 0, err := 0, errPos := 0
    tabs := Tables.empty, stg := [], stgOvf := false
    frame := none, geometry := 0, scan := none, scanGeom := 0, nextRst := 0
    pred := ⟨0, 0, 0⟩, blk := BlockWork.unwritten, br := BitReader.initial
    inFifo := [], eofSeen := false, outFifo := [], outCount := 0
    planes := [], compDone := 0, cvMode := none, markerReg := 0, mcuCount := 0, rows := 0, trailing := 0
    seq := Sequencer.initial, conv := ⟨0, 0, 0⟩
    mid := false, turns := [], rdata := 0, freeUsed := 0, par := Params.defaults }

end Sys2Proof.Machine
end

