-- ==== Sys2Proof/Machine/Tables.lean ====
section
/-! DEFINITION. The constant tables of the spec: the zig-zag order (R150), the IDCT matrix (R366), and the factors of the
ideal transform (R365). -/
namespace Sys2Proof.Machine

/-- R150, k = 0..31. -/
def zigzagLow : List Nat :=
  [ 0,  1,  8, 16,  9,  2,  3, 10, 17, 24, 32, 25, 18, 11,  4,  5] ++
  [12, 19, 26, 33, 40, 48, 41, 34, 27, 20, 13,  6,  7, 14, 21, 28]

/-- R150, k = 32..63. -/
def zigzagHigh : List Nat :=
  [35, 42, 49, 56, 57, 50, 43, 36, 29, 22, 15, 23, 30, 37, 44, 51] ++
  [58, 59, 52, 45, 38, 31, 39, 46, 53, 60, 61, 54, 47, 55, 62, 63]

/-- R150: `ZZ`, from zig-zag index to natural index. -/
def zigzag : List Nat := zigzagLow ++ zigzagHigh

/-- R150: `ZZ[k]`. -/
def zz (k : Nat) : Nat := zigzag.getD k 0

/-- R366: rows x = 0..3 of the IDCT matrix. -/
def idctMatrixLow : List (List Int) :=
  [[1448,  2009,  1892,  1703,  1448,  1138,   784,   400],
   [1448,  1703,   784,  -400, -1448, -2009, -1892, -1138],
   [1448,  1138,  -784, -2009, -1448,   400,  1892,  1703],
   [1448,   400, -1892, -1138,  1448,  1703,  -784, -2009]]

/-- R366: rows x = 4..7 of the IDCT matrix. -/
def idctMatrixHigh : List (List Int) :=
  [[1448,  -400, -1892,  1138,  1448, -1703,  -784,  2009],
   [1448, -1138,  -784,  2009, -1448,  -400,  1892, -1703],
   [1448, -1703,   784,   400, -1448,  2009, -1892,  1138],
   [1448, -2009,  1892, -1703,  1448, -1138,   784,  -400]]

/-- R366: `K`. -/
def idctMatrix : List (List Int) := idctMatrixLow ++ idctMatrixHigh

/-- R366: `K[x][u]`. -/
def kAt (x u : Nat) : Int := (idctMatrix.getD x []).getD u 0

/-- R365: `cos(k pi/16) / 2` for k = 1..7, in units of 2^-60, rounded. -/
def halfCosines : List Int :=
  [0, 565384220589370379, 532580290349191562, 479309598225361089,
   407619307041649444, 320264434483868187, 220601979315235930, 112461913796534443]

/-- R365: `cos(m pi/16) / 2` in units of 2^-60, for `m` no multiple of 8: the quarters of the circle from the first. -/
def halfCosAt (m : Nat) : Int :=
  let r := m % 32
  if r < 8 then halfCosines.getD r 0
  else if r < 16 then -halfCosines.getD (16 - r) 0
  else if r < 24 then -halfCosines.getD (r - 16) 0
  else halfCosines.getD (32 - r) 0

/-- R365: `C(u) cos((2x+1) u pi/16) / 2` in units of 2^-60; `C(0)` is `cos(4 pi/16)`. -/
def idealAt (x u : Nat) : Int := halfCosAt (if u = 0 then 4 else (2 * x + 1) * u)

end Sys2Proof.Machine
end

