-- ==== Sys2Proof/Machine/Operands.lean ====
section
/-! DEFINITION. Operand forms: indexed access to the small register arrays, the fields of the configuration registers,
and the number conversions of R9 and R304. -/
namespace Sys2Proof.Machine

/-- Element `i` of three (frame component i). -/
def Tri.get {α : Type} (t : Tri α) (i : Nat) : α :=
  if i = 0 then t.c0 else if i = 1 then t.c1 else t.c2

/-- Element `i` of three replaced; an index past 2 replaces nothing. -/
def Tri.set {α : Type} (t : Tri α) (i : Nat) (a : α) : Tri α :=
  if i = 0 then { t with c0 := a } else if i = 1 then { t with c1 := a } else if i = 2 then { t with c2 := a } else t

/-- The element of table id `i`. -/
def Quad.get {α : Type} (q : Quad α) (i : BitVec 2) : α :=
  if i = 0 then q.t0 else if i = 1 then q.t1 else if i = 2 then q.t2 else q.t3

/-- The element of table id `i` replaced. -/
def Quad.set {α : Type} (q : Quad α) (i : BitVec 2) (a : α) : Quad α :=
  if i = 0 then { q with t0 := a } else if i = 1 then { q with t1 := a }
  else if i = 2 then { q with t2 := a } else { q with t3 := a }

/-- The one-bit mask of table id `t` in a valid set (R43). -/
def idBit (t : BitVec 2) : BitVec 4 := (1#4 : BitVec 4) <<< t.toNat

/-- Is table id `t` valid (R43)? -/
def validAt (valid : BitVec 4) (t : BitVec 2) : Bool := valid.getLsbD t.toNat

/-- R9: `wrap16`, the 16-bit two's-complement value of an integer. -/
def wrap16 (a : Int) : Half := BitVec.ofInt 16 a

/-- R9: `sat16`. -/
def sat16 (a : Int) : Half := BitVec.ofInt 16 (min (max a (-32768)) 32767)

/-- R9: `clamp`, to an 8-bit sample. -/
def clamp8 (a : Int) : Byte := BitVec.ofNat 8 (min (max a 0) 255).toNat

/-- R9: `ceil(a / b)` for `b > 0`. -/
def ceilDiv (a b : Nat) : Nat := (a + b - 1) / b

/-- R304: the signed value of a `t`-bit magnitude field `v`. -/
def extend (v t : Nat) : Int :=
  if t = 0 then 0
  else if v.testBit (t - 1) then (v : Int)
  else (v : Int) - (2 ^ t - 1)

/-- R37: FRAME_DIM.WIDTH. -/
def Regs.width (r : Regs) : BitVec 16 := r.frameDim.extractLsb' 0 16

/-- R37: FRAME_DIM.HEIGHT. -/
def Regs.height (r : Regs) : BitVec 16 := r.frameDim.extractLsb' 16 16

/-- R38: FRAME_CFG.PRECISION. -/
def Regs.precision (r : Regs) : Nat := (r.frameCfg.extractLsb' 0 8).toNat

/-- R38: FRAME_CFG.NCOMP. -/
def Regs.ncomp (r : Regs) : Nat := (r.frameCfg.extractLsb' 8 4).toNat

/-- R39: COMP_CFGi as a frame component: H, V, TQ. -/
def compOf (c : BitVec 10) : FrameComp :=
  { h := (c.extractLsb' 0 4).toNat, v := (c.extractLsb' 4 4).toNat, tq := c.extractLsb' 8 2 }

/-- R39, R220: the components START_FRAME reads, COMP_CFG0 to COMP_CFG(n-1). -/
def Regs.comps (r : Regs) (n : Nat) : List FrameComp :=
  ([r.compCfg.c0, r.compCfg.c1, r.compCfg.c2].map compOf).take n

/-- R40: SCAN_CFG.NS. -/
def Regs.ns (r : Regs) : Nat := (r.scanCfg.extractLsb' 0 2).toNat

/-- R40: slot j of SCAN_CFG: CIDX_j, TD_j, TA_j. -/
def slotOf (w : Word) (j : Nat) : ScanSlot :=
  { cidx := (w.extractLsb' (8 + 8 * j) 2).toNat
    td := w.extractLsb' (10 + 8 * j) 2
    ta := w.extractLsb' (12 + 8 * j) 2 }

/-- R40, R225: the slots START_SCAN reads, j < NS. -/
def Regs.slots (r : Regs) : List ScanSlot :=
  ([0, 1, 2].map (slotOf r.scanCfg)).take r.ns

/-- R40: the defined bits of SCAN_CFG. -/
def scanCfgMask : Word := 0x3F3F3F03

/-- Every element, if none of them is unwritten (R11). -/
def allWritten {α : Type} : List (Option α) → Option (List α)
  | [] => some []
  | none :: _ => none
  | some a :: l =>
    match allWritten l with
    | none => none
    | some as => some (a :: as)

/-- A 32-bit count, one more. Past 2^32 - 1 the spec gives no value (R264, G14): a free one. -/
def countUp (w : Word) (used : Nat) : Word :=
  if w = BitVec.allOnes 32 then Config.freeCount used else w + 1

/-- How many free values are used once `countUp w used` has been taken. -/
def countUsed (w : Word) (used : Nat) : Nat :=
  if w = BitVec.allOnes 32 then used + 1 else used

end Sys2Proof.Machine
end

