-- ==== Sys2Proof/Machine/Geometry.lean ====
section
/-! DEFINITION. The geometry of a frame (R64) and of a scan (R320, R321): grids, plane sizes, and the blocks of a MCU in
the order they are decoded. -/
namespace Sys2Proof.Machine

/-- R63: NF. -/
def FrameSnap.nf (f : FrameSnap) : Nat := f.comps.length

/-- R64: HMAX. -/
def FrameSnap.hmax (f : FrameSnap) : Nat := f.comps.foldl (fun m c => max m c.h) 0

/-- R64: VMAX. -/
def FrameSnap.vmax (f : FrameSnap) : Nat := f.comps.foldl (fun m c => max m c.v) 0

/-- R64: MCUX. -/
def FrameSnap.mcux (f : FrameSnap) : Nat := ceilDiv f.fw.toNat (8 * f.hmax)

/-- R64: MCUY. -/
def FrameSnap.mcuy (f : FrameSnap) : Nat := ceilDiv f.fh.toNat (8 * f.vmax)

/-- R64: PW of a component. -/
def FrameSnap.pw (f : FrameSnap) (c : FrameComp) : Nat := f.mcux * c.h * 8

/-- R64: PH of a component. -/
def FrameSnap.ph (f : FrameSnap) (c : FrameComp) : Nat := f.mcuy * c.v * 8

/-- R64: CWID of a component. -/
def FrameSnap.cwid (f : FrameSnap) (c : FrameComp) : Nat := ceilDiv (f.fw.toNat * c.h) f.hmax

/-- R64: CHGT of a component. -/
def FrameSnap.chgt (f : FrameSnap) (c : FrameComp) : Nat := ceilDiv (f.fh.toNat * c.v) f.vmax

/-- R102, R221: the bytes the planes need. -/
def FrameSnap.planeBytes (f : FrameSnap) : Nat := (f.comps.map fun c => f.pw c * f.ph c).sum

/-- R222: the GEOMETRY register of a frame (R53). -/
def FrameSnap.geometry (f : FrameSnap) : Word := BitVec.ofNat 16 f.mcuy ++ BitVec.ofNat 16 f.mcux

/-- R225: the blocks of an interleaved MCU. -/
def blocksPerMcu (f : FrameSnap) (slots : List ScanSlot) : Nat :=
  (slots.map fun sl => match f.comps[sl.cidx]? with | some c => c.h * c.v | none => 0).sum

/-- R320, R321: SROW and SROWS of a scan: the component's own block grid when it is alone, else the frame's MCU grid. -/
def scanGrid (f : FrameSnap) (slots : List ScanSlot) : Nat × Nat :=
  match slots with
  | [sl] =>
    match f.comps[sl.cidx]? with
    | some c => (ceilDiv (f.cwid c) 8, ceilDiv (f.chgt c) 8)
    | none => (0, 0)
  | _ => (f.mcux, f.mcuy)

/-- R65: SMCUS. -/
def ScanSnap.smcus (sc : ScanSnap) : Nat := sc.srow * sc.srows

/-- R226: the SCAN_GEOM register of a scan (R54). -/
def ScanSnap.geom (sc : ScanSnap) : Word := BitVec.ofNat 16 sc.srows ++ BitVec.ofNat 16 sc.srow

/-- R320: a block of a MCU: its scan slot, its component, and its position in the component's plane, in blocks. -/
structure BlockPos where
  slot : ScanSlot
  comp : FrameComp
  bxp  : Nat
  byp  : Nat
  deriving DecidableEq, Repr

/-- R320: the blocks one scan slot puts into the MCU at (mx, my), in raster order. -/
def slotBlocks (f : FrameSnap) (mx my : Nat) (sl : ScanSlot) : List BlockPos :=
  match f.comps[sl.cidx]? with
  | none => []
  | some c =>
    (List.range c.v).flatMap fun dy =>
      (List.range c.h).map fun dx => ⟨sl, c, mx * c.h + dx, my * c.v + dy⟩

/-- R320, R321: the blocks of MCU `m`, in decoding order. -/
def mcuBlocks (f : FrameSnap) (sc : ScanSnap) (m : Nat) : List BlockPos :=
  match sc.slots with
  | [sl] =>
    match f.comps[sl.cidx]? with
    | some c => [⟨sl, c, m % sc.srow, m / sc.srow⟩]
    | none => []
  | slots => slots.flatMap (slotBlocks f (m % sc.srow) (m / sc.srow))

/-- R325, R330: must the restart check run before MCU `m`? -/
def restartDue (sc : ScanSnap) (m : Nat) : Bool :=
  decide (sc.ri ≠ 0 ∧ 0 < m ∧ m % sc.ri.toNat = 0)

/-- R335, R336: may one RSTn follow the last MCU? -/
def mayEndRst (sc : ScanSnap) : Bool :=
  decide (sc.ri ≠ 0 ∧ sc.smcus % sc.ri.toNat = 0)

end Sys2Proof.Machine
end

