-- ==== Sys2Proof/Machine/Sequencer.lean ====
section
/-! DEFINITION. What the engine does next, as a function of the state: the cursor of R21 read through the scan procedure
(R325) and the conversion procedure (R430), the two holds (R520), and the step boundaries of R13. -/
namespace Sys2Proof.Machine

/-- The engine's operations. One step of R13 is a row of these that ends after a boundary operation. -/
inductive EngineOp where
  /-- IDLE, FRAME or ERROR: the engine takes no step -/
  | noStep
  /-- `InPop()` (R260) -/
  | inPop
  /-- the token in the window acts (R262) -/
  | token
  /-- `Align()` before a restart check or the end search (R268) -/
  | align
  /-- an MCU starts: its first block (R302, R325) -/
  | beginMcu
  /-- the checks of `RestartCheck()` (R330) -/
  | restartJudge
  /-- bits for the code word or the magnitude field in progress (R266, R267) -/
  | readBits
  /-- the decoded symbol acts (R303, R307) -/
  | symbol
  /-- `TransformAndStore` (R360) -/
  | storeBlock
  /-- `MCUDone` (R326) -/
  | mcuDone
  /-- a data byte after the last MCU is discarded (R335) -/
  | trail
  /-- the end search looks at a marker or at END (R335) -/
  | endJudge
  /-- one `OutPush` of the conversion (R430, R431) -/
  | outPush
  /-- `ConvertDone` (R433) -/
  | convertDone
  deriving DecidableEq, Repr

/-- R262: has `FetchByte()` popped all it must look at? A 0xFF needs the entry after it. -/
def windowComplete : List InEntry → Bool
  | [] => false
  | [e] => decide (e ≠ .byte 0xFF)
  | _ :: _ :: _ => true

/-- R266: can the bit reader give a bit without popping an entry? -/
def bitAtHand (br : BitReader) : Bool :=
  decide (br.nbits ≠ 0) || br.byte.isSome || decide (br.mode ≠ .data)

/-- The cursor M (R21, R51). -/
def State.m (s : State) : Nat := s.mcuCount.toNat

/-- Is the restart check due at the current MCU (R325)? -/
def State.restartNow (s : State) : Bool :=
  match s.scan with
  | none => false
  | some sc => restartDue sc s.m

/-- The number of blocks of the current MCU (0 with no scan). -/
def State.mcuSize (s : State) : Nat :=
  match s.frame, s.scan with
  | some f, some sc => (mcuBlocks f sc s.m).length
  | _, _ => 0

/-- The next operation of a `FetchByte()` whose caller looks at the result with `judge` (R330, R335). -/
def fetchThen (br : BitReader) (judge : EngineOp) : EngineOp :=
  if br.mode = .data then .inPop else judge

/-- The scan procedure's next operation (R325). -/
def scanOp (s : State) : EngineOp :=
  if windowComplete s.br.window then .token
  else if s.br.window ≠ [] then .inPop
  else
    match s.seq.phase with
    | .restartCheck =>
      if !s.restartNow then .beginMcu
      else if s.br.nbits ≠ 0 then .align
      else if s.br.byte.isSome then .restartJudge
      else fetchThen s.br .restartJudge
    | .blockDc | .blockAc =>
      match s.seq.bits with
      | .sym _ => .symbol
      | .huff _ _ | .mag _ _ _ _ => if bitAtHand s.br then .readBits else .inPop
    | .store => if s.seq.b < s.mcuSize then .storeBlock else .mcuDone
    | .endSearch =>
      if s.br.nbits ≠ 0 then .align
      else if s.br.byte.isSome then .trail
      else fetchThen s.br .endJudge

/-- The conversion procedure's next operation (R430). -/
def convertOp (s : State) : EngineOp :=
  match s.frame with
  | none => .outPush
  | some f => if s.conv.y < f.fh.toNat then .outPush else .convertDone

/-- The engine's next operation. -/
def nextOp (s : State) : EngineOp :=
  match s.st with
  | .scan => scanOp s
  | .convert => convertOp s
  | .idle | .frame | .error => .noStep

/-- R34, R260: the engine's next operation is `InPop()` on an empty input FIFO. (The EOF token stays in the FIFO, so an
empty FIFO holds none.) -/
def inWait (s : State) : Bool :=
  decide (s.st = .scan) && decide (nextOp s = .inPop) && s.inFifo.isEmpty

/-- R34, R431: the engine's next operation is `OutPush()` on a full output FIFO. -/
def outWait (s : State) : Bool :=
  decide (s.st = .convert) && decide (nextOp s = .outPush) && decide (s.par.outDepth ≤ s.outFifo.length)

/-- R520, R521: outside a hold, an engine in SCAN or CONVERT has a next step. -/
def engineReady (s : State) : Bool :=
  decide (nextOp s ≠ .noStep) && !inWait s && !outWait s

/-- R13: the operations after which the host can observe the engine. -/
def boundaryOp : EngineOp → Bool
  | .inPop | .storeBlock | .mcuDone | .outPush | .convertDone => true
  | .noStep | .token | .align | .beginMcu | .restartJudge | .readBits | .symbol | .trail | .endJudge => false

end Sys2Proof.Machine
end

