-- ==== Sys2Proof/Machine/Flags.lean ====
section
/-! DEFINITION. The status flags (R74): INT_STATUS and its set and clear points (R50), the IRQ line (R75), and the words
STATUS (R34), FIFO_STATUS (R48), TBL_VALID (R43) and ERR (R35) the host reads. -/
namespace Sys2Proof.Machine

/-- R50: the six interrupt bits. -/
inductive IntBit where
  | scanDone | frameDone | error | rowDone | cmdRejected | inOverflow
  deriving DecidableEq, Repr

/-- R50: the mask of an interrupt bit. -/
def IntBit.mask : IntBit → BitVec 6
  | .scanDone => 0x01
  | .frameDone => 0x02
  | .error => 0x04
  | .rowDone => 0x08
  | .cmdRejected => 0x10
  | .inOverflow => 0x20

/-- R50: one update of INT_STATUS; the host's clear takes effect first, and a bit set in the same step ends set. -/
def intUpdate (old clear set : BitVec 6) : BitVec 6 := (old &&& ~~~clear) ||| set

/-- R50: the hardware sets one bit. -/
def setInt (b : IntBit) (s : State) : State :=
  { s with intStatus := intUpdate s.intStatus 0 b.mask }

/-- R75: the interrupt line. -/
def irq (s : State) : Bool := decide (s.intStatus &&& s.regs.intEn ≠ 0)

/-- R23: the encoding of STATUS.STATE. -/
def EngState.code : EngState → BitVec 3
  | .idle => 0
  | .frame => 1
  | .scan => 2
  | .convert => 3
  | .error => 4

/-- R34: STATUS.BUSY. -/
def busy (s : State) : Bool := decide (s.st = .scan ∨ s.st = .convert)

/-- R62: STG_PTR. -/
def stgPtr (s : State) : BitVec 9 := BitVec.ofNat 9 s.stg.length

/-- R34: the STATUS word, bit 31 first. -/
def statusWord (s : State) : Word :=
  0#7 ++ stgPtr s ++ 0#1 ++ s.nextRst ++ BitVec.ofBool s.eofSeen ++ s.compDone ++ BitVec.ofBool s.stgOvf ++
    BitVec.ofBool s.br.fillUsed ++ BitVec.ofBool (outWait s) ++ BitVec.ofBool (inWait s) ++ BitVec.ofBool (busy s) ++
    s.st.code

/-- R48: the FIFO_STATUS word. -/
def fifoStatusWord (s : State) : Word :=
  BitVec.ofNat 8 s.par.outDepth ++ BitVec.ofNat 8 s.outFifo.length ++
    BitVec.ofNat 8 s.par.inDepth ++ BitVec.ofNat 8 s.inFifo.length

/-- R43: the TBL_VALID word. -/
def tblValidWord (s : State) : Word :=
  0#20 ++ s.tabs.acValid ++ s.tabs.dcValid ++ s.tabs.qtValid

/-- R451: the error kinds. -/
inductive ErrKind where
  | malformedContainer | unsupportedEncoding | missingTable | invalidHuffmanCode | unexpectedEndOfData
  | restartSequenceError
  deriving DecidableEq, Repr

/-- R451: ERR.KIND. -/
def ErrKind.code : ErrKind → BitVec 4
  | .malformedContainer => 1
  | .unsupportedEncoding => 2
  | .missingTable => 3
  | .invalidHuffmanCode => 4
  | .unexpectedEndOfData => 5
  | .restartSequenceError => 6

/-- R35, R455: the ERR word of an error. -/
def errWord (kind : ErrKind) (detail : Byte) (arg : Nat) : Word :=
  0#8 ++ BitVec.ofNat 8 arg ++ detail ++ 0#4 ++ kind.code

end Sys2Proof.Machine
end

