-- ==== Sys2Proof/Machine/Ops.lean ====
section
/-! DEFINITION. The named operations over memory and state that the meanings share: plane memory (R102), the input FIFO
(R260, R69), error entry (R455), the exits from the error state (ABORT, R240, and reset, R500), command rejection (R201). -/
namespace Sys2Proof.Machine

/-- The canonical form of memory: addresses strictly rising. (Every unlisted sample is unwritten, so no listed byte
equals what an unlisted address reads as.) -/
abbrev Memory.wf (m : Memory) : Prop := m.Pairwise fun a b => a.1 < b.1

/-- The byte at an address; `none` is unwritten (R11, R71). -/
def Memory.read : Memory → Nat → Option Byte
  | [], _ => none
  | (a, b) :: m, x => if a = x then some b else Memory.read m x

/-- The memory with the byte at `x` written. -/
def Memory.write : Memory → Nat → Byte → Memory
  | [], x, v => [(x, v)]
  | (a, b) :: m, x, v =>
    if a = x then (x, v) :: m
    else if x < a then (x, v) :: (a, b) :: m
    else (a, b) :: Memory.write m x v

/-- The memory with a list of bytes written, in order. -/
def Memory.writeAll (m : Memory) (cells : List Host.Cell) : Memory :=
  cells.foldl (fun m c => Memory.write m c.1 c.2) m

/-- R102: where the model keeps sample (row, col) of plane `i`. The layout is not observable (log 7, DESIGN CHOICE). -/
def planeAddr (i row col : Nat) : Nat := i * 2 ^ 40 + row * 2 ^ 20 + col

/-- What an instruction's meaning answers, from a state that may not have been reached for want of a written value. -/
def answer : Except Fault State → Host.Outcome State Fault Refusal
  | .ok s => .next s
  | .error f => .fault f

/-- A value that must have been written (R11). -/
def written {α : Type} (item : Item) : Option α → Except Fault α
  | some a => .ok a
  | none => .error (.unwritten item)

/-- R102: `PlaneRead(i, row, col)`. -/
def planeRead (s : State) (f : FrameSnap) (i row col : Nat) : Except Fault Nat :=
  match f.comps[i]? with
  | none => .error .planeRange
  | some c =>
    if row < f.ph c ∧ col < f.pw c then
      match Memory.read s.planes (planeAddr i row col) with
      | some b => .ok b.toNat
      | none => .error (.unwritten .plane)
    else .error .planeRange

/-- R455: error entry, the one operation that takes an error. It writes ERR and ERR_POS, flushes the input FIFO, enters
ERROR and sets INT_STATUS.ERROR; what has already happened stays. -/
def raise (kind : ErrKind) (detail : Byte) (arg : Nat) (s : State) : State :=
  setInt .error
    { s with
      err := errWord kind detail arg
      errPos := if s.st = .scan then s.br.inCount else 0
      inFifo := [], eofSeen := false
      st := .error }

/-- R240, R457: error exit by ABORT, which is the same from every state: the frame is discarded and the engine is IDLE. -/
def abortFrame (s : State) : State :=
  { s with
    st := .idle
    frame := none, scan := none, nextRst := 0
    geometry := 0, scanGeom := 0
    planes := [], compDone := 0
    inFifo := [], eofSeen := false
    outFifo := [], outCount := 0
    stg := [], stgOvf := false
    br := { s.br with nbits := 0, mode := .data, p := 0 }
    pred := ⟨0, 0, 0⟩ }

/-- R500: the reset action, power-on or soft: all of JDB's state at R77. What lies outside JDB (the moves to come, the
value the host last read, the parameters) and the count of free values used stay. -/
def resetAction (s : State) : State :=
  { State.reset with turns := s.turns, rdata := s.rdata, freeUsed := s.freeUsed, par := s.par }

/-- R201: a rejected command changes INT_STATUS.CMD_REJECTED and nothing else. -/
def reject (s : State) : State := setInt .cmdRejected s

/-- R260: `InPop()` on a FIFO that is not empty, its entry kept for the token being fetched (R262, which keeps the offset
of a token's first entry). The EOF token stays in the FIFO. -/
def inPop (s : State) : State :=
  let start := if s.br.window = [] then s.br.p else s.br.start
  match s.inFifo with
  | [] => s
  | .eof :: _ => { s with br := { s.br with window := s.br.window ++ [.eof], start := start } }
  | .byte b :: rest =>
    { s with
      inFifo := rest
      br := { s.br with window := s.br.window ++ [.byte b], start := start, p := countUp s.br.p s.freeUsed }
      freeUsed := countUsed s.br.p s.freeUsed }

/-- The frame and scan snapshots a running scan reads. -/
def snapshots (s : State) : Except Fault (FrameSnap × ScanSnap) :=
  match s.frame, s.scan with
  | some f, some sc => .ok (f, sc)
  | none, _ => .error (.unwritten .frameSnap)
  | some _, none => .error (.unwritten .scanSnap)

/-- R322: the block the cursor (M, B) stands at. -/
def currentBlock (s : State) : Except Fault BlockPos :=
  match snapshots s with
  | .error e => .error e
  | .ok (f, sc) => written .scanSnap (mcuBlocks f sc s.m)[s.seq.b]?

end Sys2Proof.Machine
end

