-- ==== Sys2Proof/Machine/Convert.lean ====
section
/-! DEFINITION. Upsampling, colour conversion and output (44_upsample_color.md): the conversion procedure of R430, one
`OutPush` at a time. -/
namespace Sys2Proof.Machine

/-- R402: `SampleBox(c, x, y)`. -/
def sampleBox (s : State) (f : FrameSnap) (i : Nat) (c : FrameComp) (x y : Nat) : Except Fault Nat :=
  planeRead s f i (y * c.v / f.vmax) (x * c.h / f.hmax)

/-- R403, R404: the neighbour of sample `j` under position `p` of a doubled row of `n` samples, clamped at the edges. -/
def neighbour (p n : Nat) : Nat := if p % 2 = 1 then min (p / 2 + 1) (n - 1) else p / 2 - 1

/-- R403, R406: one step of the triangle filter, rounding half up. -/
def triangle (near far : Nat) : Nat := (3 * near + far + 2) / 4

/-- R403: `Vert(c, i, y)`: the value of column `col` at output line `y`. -/
def sampleVert (s : State) (f : FrameSnap) (i : Nat) (c : FrameComp) (col y : Nat) : Except Fault Nat :=
  if f.vmax = 2 * c.v then
    match planeRead s f i (y / 2) col, planeRead s f i (neighbour y (f.chgt c)) col with
    | .ok near, .ok far => .ok (triangle near far)
    | .error e, _ => .error e
    | .ok _, .error e => .error e
  else planeRead s f i (y * c.v / f.vmax) col

/-- R403: `SampleBilinear(c, x, y)`, that is `Hor(c, x, y)`. -/
def sampleBilinear (s : State) (f : FrameSnap) (i : Nat) (c : FrameComp) (x y : Nat) : Except Fault Nat :=
  if f.hmax = 2 * c.h then
    match sampleVert s f i c (x / 2) y, sampleVert s f i c (neighbour x (f.cwid c)) y with
    | .ok near, .ok far => .ok (triangle near far)
    | .error e, _ => .error e
    | .ok _, .error e => .error e
  else sampleVert s f i c (x * c.h / f.hmax) y

/-- R400: `Sample(i, x, y)` under a conversion mode. -/
def sample (s : State) (f : FrameSnap) (mode : BitVec 1) (i x y : Nat) : Except Fault Nat :=
  match f.comps[i]? with
  | none => .error .planeRange
  | some c => if mode = 0 then sampleBox s f i c x y else sampleBilinear s f i c x y

/-- R420: the red output. -/
def cscRed (y cr : Nat) : Byte := clamp8 ((y : Int) + (91881 * ((cr : Int) - 128) + 32768) / 65536)

/-- R420: the green output. -/
def cscGreen (y cb cr : Nat) : Byte :=
  clamp8 ((y : Int) + (-22554 * ((cb : Int) - 128) - 46802 * ((cr : Int) - 128) + 32768) / 65536)

/-- R420: the blue output. -/
def cscBlue (y cb : Nat) : Byte := clamp8 ((y : Int) + (116130 * ((cb : Int) - 128) + 32768) / 65536)

/-- R420: `CSC(Y, Cb, Cr)`, R, G, B in output order (R107). -/
def csc (y cb cr : Nat) : List Byte := [cscRed y cr, cscGreen y cb cr, cscBlue y cb]

/-- R430, R422: the output bytes of pixel (x, y). -/
def pixel (s : State) (f : FrameSnap) (mode : BitVec 1) (x y : Nat) : Except Fault (List Byte) :=
  if f.nf = 1 then
    match sample s f mode 0 x y with
    | .error e => .error e
    | .ok v => .ok [BitVec.ofNat 8 v]
  else
    match sample s f mode 0 x y, sample s f mode 1 x y, sample s f mode 2 x y with
    | .ok a, .ok b, .ok c => .ok (csc a b c)
    | .error e, _, _ => .error e
    | .ok _, .error e, _ => .error e
    | .ok _, .ok _, .error e => .error e

/-- R430: the conversion cursor after one byte: channels, then pixels left to right, then lines. -/
def advance (f : FrameSnap) (c : ConvCursor) : ConvCursor :=
  if c.ch + 1 < f.nf then { c with ch := c.ch + 1 }
  else if c.x + 1 < f.fw.toNat then { c with x := c.x + 1, ch := 0 }
  else { x := 0, y := c.y + 1, ch := 0 }

/-- R431: `OutPush(b)`, when the FIFO has room. -/
def pushOut (b : Byte) (s : State) : State :=
  { s with
    outFifo := s.outFifo ++ [b]
    outCount := countUp s.outCount s.freeUsed, freeUsed := countUsed s.outCount s.freeUsed }

/-- R430, R431: the conversion's next byte is pushed. -/
def outPush (s : State) : Except Fault State :=
  match s.frame, s.cvMode with
  | none, _ => .error (.unwritten .frameSnap)
  | some _, none => .error (.unwritten .cvMode)
  | some f, some mode =>
    match pixel s f mode s.conv.x s.conv.y with
    | .error e => .error e
    | .ok bytes => .ok { pushOut (bytes.getD s.conv.ch 0) s with conv := advance f s.conv }

/-- R433: `ConvertDone()`. -/
def convertDone (s : State) : State := setInt .frameDone { s with st := .idle }

end Sys2Proof.Machine
end

