-- ==== Sys2Proof/Machine/Commands.lean ====
section
/-! DEFINITION. The host commands (40_commands.md): what each accepted command does, and the acceptance table R201 in each
meaning. Checks run in the order of the rule; the first that fails is raised (R460). -/
namespace Sys2Proof.Machine

/-- R201: LOAD_QT and LOAD_HT are accepted in IDLE and FRAME. -/
def acceptsLoad (st : EngState) : Bool := decide (st = .idle ∨ st = .frame)

/-- NOP: nothing, in every state (R202). -/
def execNop (s : State) : Host.Outcome State Fault Refusal := .next s

/-- R210, R212: a load empties the staging buffer in every case. -/
def clearStaging (s : State) : State := { s with stg := [], stgOvf := false }

/-- R210: install quantisation table `t`. -/
def installQt (t : BitVec 2) (q : List Half) (s : State) : State :=
  { s with tabs := { s.tabs with qt := s.tabs.qt.set t (some q), qtValid := s.tabs.qtValid ||| idBit t } }

/-- R210: LOAD_QT, accepted. -/
def loadQt (t : BitVec 2) (s : State) : State :=
  if s.stgOvf ∨ s.stg.length ≠ 64 then raise .malformedContainer 0x01 t.toNat (clearStaging s)
  else installQt t s.stg (clearStaging s)

/-- LOAD_QT (R210, R201). -/
def execLoadQt (t : BitVec 2) (s : State) : Host.Outcome State Fault Refusal :=
  .next (if acceptsLoad s.st then loadQt t s else reject s)

/-- R212: the rows of the lengths `len`, `len + 1`, … from their counts; the error is the first length whose codes do not
fit. -/
def huffRows (len code k : Nat) : List Nat → Except Nat (List HuffRow)
  | [] => .ok []
  | num :: rest =>
    if 0 < num ∧ 2 ^ len - 2 < code + num - 1 then .error len
    else
      match huffRows (len + 1) ((code + num) * 2) (k + num) rest with
      | .error l => .error l
      | .ok rows => .ok (⟨BitVec.ofNat 17 code, num, k⟩ :: rows)

/-- R212: the table the staging buffer describes, or the detail and argument of the error. -/
def buildHuff (t : BitVec 2) (ovf : Bool) (stg : List Half) : Except (Byte × Nat) HuffTable :=
  let counts := (stg.take 16).map BitVec.toNat
  let syms := stg.drop 16
  let n := counts.sum
  if ovf ∨ stg.length < 16 then .error (0x02, t.toNat)
  else if 256 < n then .error (0x03, t.toNat)
  else if stg.length ≠ 16 + n then .error (0x02, t.toNat)
  else if syms.any fun v => decide (255 < v.toNat) then .error (0x04, t.toNat)
  else
    match huffRows 1 0 0 counts with
    | .error len => .error (0x05, len)
    | .ok rows => .ok ⟨rows, syms.map fun v => v.setWidth 8⟩

/-- R212: install Huffman table `t` of class `c`. -/
def installHt (c : BitVec 1) (t : BitVec 2) (h : HuffTable) (s : State) : State :=
  if c = 0 then
    { s with tabs := { s.tabs with dc := s.tabs.dc.set t (some h), dcValid := s.tabs.dcValid ||| idBit t } }
  else
    { s with tabs := { s.tabs with ac := s.tabs.ac.set t (some h), acValid := s.tabs.acValid ||| idBit t } }

/-- R212: LOAD_HT, accepted. -/
def loadHt (t : BitVec 2) (c : BitVec 1) (s : State) : State :=
  match buildHuff t s.stgOvf s.stg with
  | .error (detail, arg) => raise .malformedContainer detail arg (clearStaging s)
  | .ok h => installHt c t h (clearStaging s)

/-- LOAD_HT (R212, R201). -/
def execLoadHt (t : BitVec 2) (c : BitVec 1) (s : State) : Host.Outcome State Fault Refusal :=
  .next (if acceptsLoad s.st then loadHt t c s else reject s)

/-- R220: a sampling factor is legal. -/
def factorOk (n : Nat) : Bool := decide (1 ≤ n ∧ n ≤ 4)

/-- R63, R220: the frame the configuration registers describe. -/
def configuredFrame (r : Regs) : FrameSnap :=
  { fw := r.width, fh := r.height, comps := r.comps r.ncomp }

/-- R221: do the planes need more than the capacity? -/
def overCapacity (cap : Option Nat) (f : FrameSnap) : Bool :=
  match cap with
  | none => false
  | some n => decide (n < f.planeBytes)

/-- R220, R221: the error START_FRAME's checks raise, in their order. -/
def frameError (r : Regs) (cap : Option Nat) : Option (ErrKind × Byte × Nat) :=
  let f := configuredFrame r
  if r.precision ≠ 8 then some (.unsupportedEncoding, 0x01, r.precision)
  else if r.ncomp ≠ 1 ∧ r.ncomp ≠ 3 then some (.unsupportedEncoding, 0x02, r.ncomp)
  else if r.width = 0 then some (.malformedContainer, 0x10, 0)
  else if r.height = 0 then some (.malformedContainer, 0x10, 1)
  else
    match f.comps.findIdx? fun c => !(factorOk c.h && factorOk c.v) with
    | some i => some (.malformedContainer, 0x11, i)
    | none => if overCapacity cap f then some (.unsupportedEncoding, 0x03, 0) else none

/-- R222: the commit of START_FRAME. -/
def commitFrame (f : FrameSnap) (s : State) : State :=
  { s with
    frame := some f, geometry := f.geometry
    planes := [], compDone := 0
    outFifo := [], outCount := 0
    st := .frame }

/-- R220: START_FRAME, accepted. -/
def startFrame (s : State) : State :=
  let s1 := { s with err := 0, errPos := 0 }
  match frameError s.regs s.par.planeCap with
  | some (kind, detail, arg) => raise kind detail arg s1
  | none => commitFrame (configuredFrame s.regs) s1

/-- START_FRAME (R220, R201: accepted in IDLE). -/
def execStartFrame (s : State) : Host.Outcome State Fault Refusal :=
  .next (if s.st = .idle then startFrame s else reject s)

/-- R225: the first slot whose component index is out of range or repeated; `seen` holds the indices before it. -/
def badSlot (nf : Nat) : (j : Nat) → (seen : List Nat) → List ScanSlot → Option Nat
  | _, _, [] => none
  | j, seen, sl :: rest =>
    if nf ≤ sl.cidx ∨ sl.cidx ∈ seen then some j else badSlot nf (j + 1) (sl.cidx :: seen) rest

/-- R225: the first missing table of the slots, in slot order: quantisation, DC, AC. -/
def missingTable (tabs : Tables) (f : FrameSnap) : List ScanSlot → Option (Byte × Nat)
  | [] => none
  | sl :: rest =>
    let tq := match f.comps[sl.cidx]? with | some c => c.tq | none => 0
    if !validAt tabs.qtValid tq then some (0x01, tq.toNat)
    else if !validAt tabs.dcValid sl.td then some (0x02, sl.td.toNat)
    else if !validAt tabs.acValid sl.ta then some (0x03, sl.ta.toNat)
    else missingTable tabs f rest

/-- R225: the error START_SCAN's checks raise, in their order. -/
def scanError (r : Regs) (tabs : Tables) (f : FrameSnap) : Option (ErrKind × Byte × Nat) :=
  if r.ns = 0 ∨ f.nf < r.ns then some (.malformedContainer, 0x13, r.ns)
  else
    match badSlot f.nf 0 [] r.slots with
    | some j => some (.malformedContainer, 0x14, j)
    | none =>
      if 1 < r.ns ∧ 10 < blocksPerMcu f r.slots then some (.malformedContainer, 0x15, blocksPerMcu f r.slots)
      else
        match missingTable tabs f r.slots with
        | some (detail, id) => some (.missingTable, detail, id)
        | none => none

/-- R65, R226: the scan the configuration registers describe. -/
def configuredScan (r : Regs) (f : FrameSnap) : ScanSnap :=
  { slots := r.slots, ri := r.restartInterval, srow := (scanGrid f r.slots).1, srows := (scanGrid f r.slots).2 }

/-- R226, R265: the commit of START_SCAN. -/
def commitScan (sc : ScanSnap) (s : State) : State :=
  { s with
    scan := some sc, scanGeom := sc.geom
    pred := ⟨0, 0, 0⟩, nextRst := 0
    inFifo := [], eofSeen := false
    br := BitReader.initial
    mcuCount := 0, rows := 0, trailing := 0, markerReg := 0
    seq := Sequencer.initial
    st := .scan }

/-- R225: START_SCAN, accepted, with the frame snapshot it reads. -/
def startScan (f : FrameSnap) (s : State) : State :=
  match scanError s.regs s.tabs f with
  | some (kind, detail, arg) => raise kind detail arg s
  | none => commitScan (configuredScan s.regs f) s

/-- START_SCAN (R225, R201: accepted in FRAME). -/
def execStartScan (s : State) : Host.Outcome State Fault Refusal :=
  if s.st = .frame then
    match s.frame with
    | none => .fault (.unwritten .frameSnap)
    | some f => .next (startScan f s)
  else .next (reject s)

/-- R231: the first component of the frame that no scan has completed. -/
def undecoded (done : BitVec 3) (nf : Nat) : Option Nat :=
  (List.range nf).find? fun i => !done.getLsbD i

/-- R231: CONVERT, accepted, with the frame snapshot it reads. -/
def convert (f : FrameSnap) (s : State) : State :=
  match undecoded s.compDone f.nf with
  | some i => raise .malformedContainer 0x16 i s
  | none =>
    { s with cvMode := some s.regs.upsMode, outCount := 0, conv := ⟨0, 0, 0⟩, st := .convert }

/-- CONVERT (R230, R231, R201: accepted in FRAME). -/
def execConvert (s : State) : Host.Outcome State Fault Refusal :=
  if s.st = .frame then
    match s.frame with
    | none => .fault (.unwritten .frameSnap)
    | some f => .next (convert f s)
  else .next (reject s)

/-- ABORT, in every state (R240). -/
def execAbort (s : State) : Host.Outcome State Fault Refusal := .next (abortFrame s)

/-- A word R142 makes illegal: rejected, whatever the engine state (R201). -/
def execCmdRejected (_w : Word) (s : State) : Host.Outcome State Fault Refusal := .next (reject s)

end Sys2Proof.Machine
end

