-- ==== Sys2Proof/Machine/BitReader.lean ====
section
/-! DEFINITION. The bit reader (41_bitreader.md): the meanings of the seven token rows, which finish one turn of
`FetchByte()` (R262), and the bit-level operations over the byte it fetched (R266-R270). -/
namespace Sys2Proof.Machine

/-- R262: `FetchByte()` returns the data byte `b`; it counts every entry popped so far. -/
def fetchedByte (b : Byte) (s : State) : State :=
  { s with br := { s.br with inCount := s.br.p, byte := some b, window := [] } }

/-- R262: `FetchByte()` returns NONE, the reader leaving DATA mode with IN_COUNT at `count`. -/
def fetchedNone (mode : BrMode) (count : Word) (s : State) : State :=
  { s with br := { s.br with mode := mode, inCount := count, window := [] } }

/-- R262: a marker is detected and not counted: IN_COUNT is the offset of the token's first 0xFF. -/
def detectMarker (x : Byte) (s : State) : State :=
  let s1 := fetchedNone .marker s.br.start s
  { s1 with br := { s1.br with marker := some x } }

/-- STUFFED, 0xFF 0x00: one data byte 0xFF (R262). -/
def execStuffed (s : State) : Host.Outcome State Fault Refusal := .next (fetchedByte 0xFF s)

/-- FILLRUN, 0xFF 0xFF: the first 0xFF is fill and dropped; the token goes on from the second (R262). -/
def execFillRun (s : State) : Host.Outcome State Fault Refusal :=
  .next { s with br := { s.br with window := [.byte 0xFF] } }

/-- RSTn, 0xFF 0xD0+n: a marker like any other to `FetchByte()` (R146, R262). -/
def execRstN (n : BitVec 3) (s : State) : Host.Outcome State Fault Refusal :=
  .next (detectMarker (0x1A#5 ++ n) s)

/-- MARKER, 0xFF x (R262). -/
def execMarker (x : Byte) (s : State) : Host.Outcome State Fault Refusal := .next (detectMarker x s)

/-- DANGLING, 0xFF then END: the input has ended and the 0xFF run is no data (R262). -/
def execDangling (s : State) : Host.Outcome State Fault Refusal :=
  .next (fetchedNone .endMode s.br.start s)

/-- DATA, a byte other than 0xFF (R262). -/
def execData (b : Byte) (s : State) : Host.Outcome State Fault Refusal := .next (fetchedByte b s)

/-- END, the EOF token (R262). -/
def execEndTok (s : State) : Host.Outcome State Fault Refusal :=
  .next (fetchedNone .endMode s.br.p s)

/-- R266: `ReadBit()`. It answers no bit where a byte must be fetched first. -/
def readBit (s : State) : Except Fault (Option (Bool × State)) :=
  match s.br.nbits with
  | 0 =>
    match s.br.byte with
    | some b => .ok (some (b.getLsbD 7, { s with br := { s.br with cur := some b, nbits := 7, byte := none } }))
    | none =>
      if s.br.mode = .data then .ok none
      else .ok (some (true, { s with br := { s.br with fillUsed := true } }))
  | n + 1 =>
    match s.br.cur with
    | none => .error (.unwritten .brCur)
    | some b => .ok (some (b.getLsbD n, { s with br := { s.br with nbits := n } }))

/-- R267: the value of a field with one more bit read, the new bit at the low end. -/
def pushBit (v : Half) (bit : Bool) : Half := (v <<< 1) ||| (BitVec.ofBool bit).setWidth 16

/-- R268: `Align()`. -/
def align (s : State) : State := { s with br := { s.br with nbits := 0 } }

/-- R270: `ConsumeMarker()`. -/
def consumeMarker (s : State) : State :=
  { s with br := { s.br with mode := .data, inCount := s.br.p, nbits := 0, marker := none } }

end Sys2Proof.Machine
end

