-- ==== Sys2Proof/Machine/Transform.lean ====
section
/-! DEFINITION. Dequantisation, the inverse DCT and the plane store (43_transform.md): `TransformAndStore` of R360, one
engine step. -/
namespace Sys2Proof.Machine

/-- R361, R362: one dequantised coefficient, the exact product saturated to 16 bits. -/
def dequantOne (c q : Half) : Half := sat16 (c.toInt * (q.toNat : Int))

/-- R361: `Dequant(COEF, Q)`: coefficients in natural order, quantisation entries in zig-zag order. -/
def dequant (coef q : List Half) : List Half :=
  (List.range 64).foldl (fun dq k => dq.set (zz k) (dequantOne (coef.getD (zz k) 0) (q.getD k 0)))
    (List.replicate 64 0)

/-- The sum of a term over 0..7, exactly. -/
def sum8 (term : Nat → Int) : Int := ((List.range 8).map term).sum

/-- R367: the row-pass accumulator of row `v`, column `x`. -/
def rowAcc (dq : List Half) (v x : Nat) : Int := sum8 fun u => kAt x u * (dq.getD (8 * v + u) 0).toInt

/-- R367: the row pass, `G[v][x]` at index `8v + x`. The shift is arithmetic: floor division by 2^8 (R9). -/
def rowPass (dq : List Half) : List Int :=
  (List.range 64).map fun i => (rowAcc dq (i / 8) (i % 8) + 128) / 256

/-- R368: the column-pass accumulator of row `y`, column `x`. -/
def colAcc (g : List Int) (y x : Nat) : Int := sum8 fun v => kAt y v * g.getD (8 * v + x) 0

/-- R368: the sample of an accumulator: rounded, shifted, level-shifted and clamped. -/
def sampleOf (acc : Int) : Byte := clamp8 ((acc + 32768) / 65536 + 128)

/-- R368: the column pass, `S[8y + x]`. -/
def colPass (g : List Int) : List Byte :=
  (List.range 64).map fun i => sampleOf (colAcc g (i / 8) (i % 8))

/-- R365-R368: the FIXED inverse transform of a block. -/
def idctFixed (dq : List Half) : List Byte := colPass (rowPass dq)

/-- R365: the ideal transform of a block at sample `n`, before the level shift, in units of 2^-120; `idealSlack` bounds
what the rounded factors leave out. -/
def idealScaled (dq : List Half) (n : Nat) : Int :=
  sum8 fun v => sum8 fun u => idealAt (n % 8) u * idealAt (n / 8) v * (dq.getD (8 * v + u) 0).toInt

/-- The slack of `idealScaled`: 2^-38 of a level. -/
def idealSlack : Int := 2 ^ 82

/-- R365: a rounded transform value as a level: shifted by 128 and clamped. -/
def levelOf (r : Int) : Int := min (max (r + 128) 0) 255

/-- R365: two levels below the least level the ideal value rounds to. -/
def toleranceLow (dq : List Half) (n : Nat) : Int :=
  levelOf (-((idealSlack + 2 ^ 119 - idealScaled dq n) / 2 ^ 120)) - 2

/-- R365: two levels above the greatest level the ideal value rounds to. -/
def toleranceHigh (dq : List Half) (n : Nat) : Int :=
  levelOf ((idealScaled dq n + idealSlack + 2 ^ 119) / 2 ^ 120) + 2

/-- R365: the sample nearest to `b` within the tolerance of 2 levels around the ideal transform. -/
def withinTolerance (dq : List Half) (n : Nat) (b : Byte) : Byte :=
  clamp8 (max (toleranceLow dq n) (min (toleranceHigh dq n) b.toNat))

/-- R365: the samples of a dequantised block under the implementation's `IDCT_IMPL`: FIXED, or any other within the
tolerance. -/
def idct (impl : IdctImpl) (dq : List Half) : List Byte :=
  match impl with
  | .fixed => idctFixed dq
  | .other id => (List.range 64).map fun n => withinTolerance dq n (Config.idctOther id dq n)

/-- R67: the working values the transform leaves: DQ, and G and the last accumulator of the FIXED method. -/
def transformWork (impl : IdctImpl) (dq : List Half) (w : BlockWork) : BlockWork :=
  match impl with
  | .fixed => { w with dq := dq.map some, g := (rowPass dq).map some, acc := some (colAcc (rowPass dq) 7 7) }
  | .other _ => { w with dq := dq.map some }

/-- R370: the cells `StoreBlock` writes: sample `S[8y + x]` at row `8*byp + y`, column `8*bxp + x` of plane `c`. -/
def blockCells (c bxp byp : Nat) (samples : List Byte) : List Host.Cell :=
  (List.range 64).map fun i => (planeAddr c (8 * byp + i / 8) (8 * bxp + i % 8), samples.getD i 0)

/-- R322, R370: does the block lie inside its plane? -/
def blockInPlane (f : FrameSnap) (bp : BlockPos) : Bool :=
  decide (8 * bp.byp + 8 ≤ f.ph bp.comp ∧ 8 * bp.bxp + 8 ≤ f.pw bp.comp)

/-- R370: `StoreBlock(c, bxp, byp, S)`. -/
def storeSamples (f : FrameSnap) (bp : BlockPos) (samples : List Byte) (s : State) : Except Fault State :=
  if blockInPlane f bp then
    .ok { s with planes := Memory.writeAll s.planes (blockCells bp.slot.cidx bp.bxp bp.byp samples) }
  else .error .planeRange

/-- R360: `TransformAndStore` of the current block. -/
def transformAndStore (f : FrameSnap) (bp : BlockPos) (s : State) : Except Fault State :=
  match allWritten s.blk.coef with
  | none => .error (.unwritten .coef)
  | some coef =>
    match s.tabs.qt.get bp.comp.tq with
    | none => .error (.unwritten .qtTable)
    | some q =>
      storeSamples f bp (idct s.par.idct (dequant coef q))
        { s with blk := transformWork s.par.idct (dequant coef q) s.blk }

end Sys2Proof.Machine
end

