-- ==== Sys2Proof/Machine/Entropy.lean ====
section
/-! DEFINITION. Huffman and coefficient decoding, MCU sequencing, restarts and the end of a scan (42_entropy.md): the
meanings of the eight symbol rows, and the engine's operations around them. A symbol with magnitude bits reads them itself
(R267); where the reader must fetch a byte first, the field waits in `Bits.mag` and `takeBits` goes on with it. -/
namespace Sys2Proof.Machine

/-- Where the entropy decoder is in the current block. -/
def setBits (b : Bits) (s : State) : State := { s with seq := { s.seq with bits := b } }

/-- R302: a block starts: COEF all zero, K at 0, a DC code word to read. -/
def startBlock (b : Nat) (s : State) : State :=
  { s with
    blk := { s.blk with coef := List.replicate 64 (some 0) }
    seq := { s.seq with phase := .blockDc, b := b, k := 0, bits := .huff 0 0 } }

/-- `COEF[n] <- v`. -/
def setCoef (n : Nat) (v : Half) (s : State) : State :=
  { s with blk := { s.blk with coef := s.blk.coef.set n (some v) } }

/-- R307: the AC loop goes on at zig-zag index `k`, or the block is complete at 64. -/
def acContinue (k : Nat) (s : State) : State :=
  { s with seq := { s.seq with phase := if k ≤ 63 then .blockAc else .store, k := k, bits := .huff 0 0 } }

/-- R303, R306: the tail of `DecodeDC`: the predictor of component `c` and `COEF[0]` take the wrapped sum. -/
def dcDone (c : Nat) (diff : Int) (s : State) : State :=
  let p := wrap16 ((s.pred.get c).toInt + diff)
  acContinue 1 (setCoef 0 p { s with pred := s.pred.set c p })

/-- R303: the tail of `DecodeDC` for the current block. -/
def dcDoneHere (diff : Int) (s : State) : Except Fault State :=
  match currentBlock s with
  | .error e => .error e
  | .ok bp => .ok (dcDone bp.slot.cidx diff s)

/-- R312: does a run of `r` zeros and a coefficient pass the last coefficient? -/
def runOverrun (r : BitVec 4) (s : State) : Bool := decide (63 < s.seq.k + r.toNat)

/-- R312: the overrun error, with the index the run started at. -/
def raiseOverrun (s : State) : State := raise .invalidHuffmanCode 0x03 s.seq.k s

/-- R307: the zero run is skipped. -/
def skipRun (r : BitVec 4) (s : State) : State := { s with seq := { s.seq with k := s.seq.k + r.toNat } }

/-- R307, R311: the coefficient at zig-zag index `k` is `v`. -/
def acStore (k : Nat) (v : Int) (s : State) : State := acContinue (k + 1) (setCoef (zz k) (wrap16 v) s)

/-- R303, R311: the `t` magnitude bits `v` of a DC or an AC symbol have been read. -/
def magnitudeDone (dc : Bool) (t : Nat) (v : Half) (s : State) : Except Fault State :=
  if dc then dcDoneHere (extend v.toNat t) s
  else .ok (acStore s.seq.k (extend v.toNat t) s)

/-- R267: `ReadBits` of a magnitude field of `t` bits, `left` of them still to read and `v` read so far. Where a byte must
be fetched first, the field is kept and the engine goes on to `InPop()`. -/
def readMagnitude (dc : Bool) (t : Nat) : (left : Nat) → (v : Half) → State → Except Fault State
  | 0, v, s => magnitudeDone dc t v s
  | left + 1, v, s =>
    match readBit s with
    | .error e => .error e
    | .ok none => .ok (setBits (.mag dc t (t - (left + 1)) v) s)
    | .ok (some (bit, s1)) => readMagnitude dc t left (pushBit v bit) s1

/-- DC_ZERO: difference 0, no magnitude bits (R303). -/
def execDcZero (s : State) : Host.Outcome State Fault Refusal := answer (dcDoneHere 0 s)

/-- DC_DIFF_1_7: `t` magnitude bits, then the difference (R303). -/
def execDcDiffLow (t : Byte) (s : State) : Host.Outcome State Fault Refusal :=
  answer (readMagnitude true t.toNat t.toNat 0 s)

/-- DC_DIFF_8_11: `t` magnitude bits, then the difference (R303). -/
def execDcDiffHigh (t : Byte) (s : State) : Host.Outcome State Fault Refusal :=
  answer (readMagnitude true t.toNat t.toNat 0 s)

/-- DC_ILLEGAL: InvalidHuffmanCode 0x02 with the category, before any magnitude bit is read (R305). -/
def execDcIllegal (t : Byte) (s : State) : Host.Outcome State Fault Refusal :=
  .next (raise .invalidHuffmanCode 0x02 t.toNat s)

/-- AC_EOB: the block's remaining coefficients stay zero (R308). -/
def execAcEob (s : State) : Host.Outcome State Fault Refusal :=
  .next { s with seq := { s.seq with phase := .store, bits := .huff 0 0 } }

/-- AC_ZRL: 16 zero coefficients, or the overrun of R312 (R309). -/
def execAcZrl (s : State) : Host.Outcome State Fault Refusal :=
  .next (if 64 < s.seq.k + 16 then raiseOverrun s else acContinue (s.seq.k + 16) s)

/-- AC_RUN_ONLY: `r` zeros and one coefficient of value 0, no bit read (R310, R312). -/
def execAcRunOnly (r : BitVec 4) (s : State) : Host.Outcome State Fault Refusal :=
  .next (if runOverrun r s then raiseOverrun s else acStore (s.seq.k + r.toNat) 0 s)

/-- AC_RUN_VALUE: `r` zeros, then one coefficient from `sz` magnitude bits; the overrun is raised before any of them is
read (R311, R312). -/
def execAcRunValue (r sz : BitVec 4) (s : State) : Host.Outcome State Fault Refusal :=
  if runOverrun r s then .next (raiseOverrun s)
  else answer (readMagnitude false sz.toNat sz.toNat 0 (skipRun r s))

/-- R300, R213: the symbol a code of `len` bits stands for in a built table, if any. -/
def lookup (h : HuffTable) (len : Nat) (code : Half) : Except Fault (Option Byte) :=
  match h.rows[len - 1]? with
  | none => .ok none
  | some row =>
    if 0 < row.num ∧ row.first.toNat ≤ code.toNat ∧ code.toNat < row.first.toNat + row.num then
      match h.vals[row.off + code.toNat - row.first.toNat]? with
      | none => .error (.unwritten .huffVal)
      | some v => .ok (some v)
    else .ok none

/-- R322: the Huffman table the current block's next code word is read with: DC in BLOCK_DC, AC in BLOCK_AC. -/
def currentHuff (s : State) : Except Fault HuffTable :=
  match currentBlock s with
  | .error e => .error e
  | .ok bp =>
    written .huffTable
      (if s.seq.phase = .blockDc then s.tabs.dc.get bp.slot.td else s.tabs.ac.get bp.slot.ta)

/-- R301: the class of the table in use, the argument of the no-match error. -/
def classArg (s : State) : Nat := if s.seq.phase = .blockDc then 0 else 1

/-- R300, R301: `HuffDecode` with one bit more: `len` bits make `code`. -/
def huffBit (code : Half) (len : Nat) (s : State) : Except Fault State :=
  match currentHuff s with
  | .error e => .error e
  | .ok h =>
    match lookup h len code with
    | .error e => .error e
    | .ok (some sym) => .ok (setBits (.sym sym) s)
    | .ok none =>
      if 16 ≤ len then .ok (raise .invalidHuffmanCode 0x01 (classArg s) s)
      else .ok (setBits (.huff code len) s)

/-- R266: bits are read and go to the field in progress: one to a code word, as many as there are to a magnitude field. -/
def takeBits (s : State) : Except Fault State :=
  match s.seq.bits with
  | .huff code len =>
    match readBit s with
    | .error e => .error e
    | .ok none => .ok s
    | .ok (some (bit, s1)) => huffBit (pushBit code bit) (len + 1) s1
  | .mag dc t n v => readMagnitude dc t (t - n) v s
  | .sym _ => .ok s

/-- R302, R325: the MCU's first block starts. -/
def beginMcu (s : State) : Except Fault State :=
  match currentBlock { s with seq := { s.seq with b := 0 } } with
  | .error e => .error e
  | .ok _ => .ok (startBlock 0 s)

/-- R325, R360: the current block is transformed and stored; the next block starts, if the MCU has one. -/
def storeBlock (s : State) : Except Fault State :=
  match snapshots s, currentBlock s with
  | .error e, _ => .error e
  | _, .error e => .error e
  | .ok (f, sc), .ok bp =>
    match transformAndStore f bp s with
    | .error e => .error e
    | .ok s1 =>
      if s.seq.b + 1 < (mcuBlocks f sc s.m).length then .ok (startBlock (s.seq.b + 1) s1)
      else .ok { s1 with seq := { s1.seq with b := s.seq.b + 1 } }

/-- R326, R325: MCU M is complete; the next one starts, or the end search. -/
def mcuDone (s : State) : Except Fault State :=
  match s.scan with
  | none => .error (.unwritten .scanSnap)
  | some sc =>
    let s1 := { s with mcuCount := s.mcuCount + 1 }
    let s2 := if (s.m + 1) % sc.srow = 0 then setInt .rowDone { s1 with rows := s1.rows + 1 } else s1
    if s.m + 1 < sc.smcus then .ok { s2 with seq := Sequencer.initial }
    else .ok { s2 with seq := { Sequencer.initial with phase := .endSearch, mayRst := mayEndRst sc } }

/-- R146: is a marker code a restart marker? -/
def isRst (x : Byte) : Bool := decide (x.extractLsb' 3 5 = 0x1A)

/-- R146: the number of a restart marker. -/
def rstNum (x : Byte) : BitVec 3 := x.extractLsb' 0 3

/-- R330: the expected restart marker is accepted; the MCU's first block starts. -/
def acceptRestart (s : State) : Except Fault State :=
  beginMcu { consumeMarker s with nextRst := s.nextRst + 1, pred := ⟨0, 0, 0⟩ }

/-- R330: the checks of `RestartCheck()`, in their order. -/
def restartJudge (s : State) : Except Fault State :=
  if s.br.byte.isSome then .ok (raise .restartSequenceError 0x02 0 s)
  else if s.br.mode = .endMode then .ok (raise .unexpectedEndOfData 0x02 0 s)
  else
    match s.br.marker with
    | none => .error (.unwritten .brMarker)
    | some x =>
      if !isRst x then .ok (raise .restartSequenceError 0x02 x.toNat s)
      else if rstNum x ≠ s.nextRst then .ok (raise .restartSequenceError 0x01 (rstNum x).toNat s)
      else acceptRestart s

/-- R335: a data byte after the last MCU is discarded and counted. -/
def trail (s : State) : State :=
  { s with
    br := { s.br with byte := none }
    trailing := countUp s.trailing s.freeUsed, freeUsed := countUsed s.trailing s.freeUsed }

/-- R337: the COMP_DONE bits of the scan's components. -/
def doneMask (slots : List ScanSlot) : BitVec 3 :=
  slots.foldl (fun m sl => m ||| (1#3 <<< sl.cidx)) 0

/-- R337: `Complete()`, with the stop marker's code. -/
def completeScan (x : Byte) (s : State) : Except Fault State :=
  match s.scan with
  | none => .error (.unwritten .scanSnap)
  | some sc =>
    .ok (setInt .scanDone
      { s with
        markerReg := 1#1 ++ x
        compDone := s.compDone ||| doneMask sc.slots
        inFifo := [], eofSeen := false
        st := .frame })

/-- R335, R336: the end search looks at END or at a marker. -/
def endJudge (s : State) : Except Fault State :=
  if s.br.mode = .endMode then .ok (raise .unexpectedEndOfData 0x01 0 s)
  else
    match s.br.marker with
    | none => .error (.unwritten .brMarker)
    | some x =>
      if isRst x then
        if s.seq.mayRst ∧ rstNum x = s.nextRst ∧ s.trailing = 0 then
          .ok { consumeMarker s with nextRst := s.nextRst + 1, seq := { s.seq with mayRst := false } }
        else .ok (raise .restartSequenceError 0x03 (rstNum x).toNat s)
      else completeScan x s

end Sys2Proof.Machine
end

