-- ==== Sys2Proof/Machine/RegAccess.lean ====
section
/-! DEFINITION. The register port (10_state.md section 2): the meanings of the five accesses with side effects (R250), and
the plain reads and writes of the other registers (R24-R26). -/
namespace Sys2Proof.Machine

/-- R24: the registers of the window, in the order of their offsets. -/
inductive Reg where
  | id | ctrl | cmd | status | err | errPos | frameDim | frameCfg | compCfg0 | compCfg1 | compCfg2 | scanCfg
  | restartInterval | tblData | tblValid | inData | outData | marker | inCount | fifoStatus | intEn | intStatus
  | mcuCount | progress | geometry | scanGeom | outCount | trailing
  deriving DecidableEq, Repr

/-- R24: the register map, one register every four bytes from offset 0. -/
def regMap : List Reg :=
  [.id, .ctrl, .cmd, .status, .err, .errPos, .frameDim, .frameCfg, .compCfg0, .compCfg1, .compCfg2, .scanCfg] ++
  [.restartInterval, .tblData, .tblValid, .inData, .outData, .marker, .inCount, .fifoStatus, .intEn, .intStatus] ++
  [.mcuCount, .progress, .geometry, .scanGeom, .outCount, .trailing]

/-- R24: the register at an aligned offset; `none` is unmapped. -/
def regAt (off : Nat) : Option Reg := regMap[off / 4]?

/-- The word a register reads as, without OUT_DATA's side effect (R31-R56). Write-only registers read 0 (R25). -/
def regRead (s : State) : Reg → Word
  | .id => 0x4A444231
  | .ctrl => 0#30 ++ s.regs.upsMode ++ 0#1
  | .cmd => 0
  | .status => statusWord s
  | .err => s.err
  | .errPos => s.errPos
  | .frameDim => s.regs.frameDim
  | .frameCfg => s.regs.frameCfg.setWidth 32
  | .compCfg0 => s.regs.compCfg.c0.setWidth 32
  | .compCfg1 => s.regs.compCfg.c1.setWidth 32
  | .compCfg2 => s.regs.compCfg.c2.setWidth 32
  | .scanCfg => s.regs.scanCfg
  | .restartInterval => s.regs.restartInterval.setWidth 32
  | .tblData => 0
  | .tblValid => tblValidWord s
  | .inData => 0
  | .outData =>
    match s.outFifo with
    | [] => 0
    | b :: _ => 0#23 ++ 1#1 ++ b
  | .marker => s.markerReg.setWidth 32
  | .inCount => s.br.inCount
  | .fifoStatus => fifoStatusWord s
  | .intEn => s.regs.intEn.setWidth 32
  | .intStatus => s.intStatus.setWidth 32
  | .mcuCount => s.mcuCount
  | .progress => s.rows.setWidth 32
  | .geometry => s.geometry
  | .scanGeom => s.scanGeom
  | .outCount => s.outCount
  | .trailing => s.trailing

/-- R25, R26: a plain write: an RW register stores its defined fields, every other ignores it. (CTRL and the registers
with write side effects are instructions and do not come here.) -/
def regWrite (v : Word) (r : Regs) : Reg → Regs
  | .frameDim => { r with frameDim := v }
  | .frameCfg => { r with frameCfg := v.setWidth 12 }
  | .compCfg0 => { r with compCfg := r.compCfg.set 0 (v.setWidth 10) }
  | .compCfg1 => { r with compCfg := r.compCfg.set 1 (v.setWidth 10) }
  | .compCfg2 => { r with compCfg := r.compCfg.set 2 (v.setWidth 10) }
  | .scanCfg => { r with scanCfg := v &&& scanCfgMask }
  | .restartInterval => { r with restartInterval := v.setWidth 16 }
  | .intEn => { r with intEn := v.setWidth 6 }
  | .id | .ctrl | .cmd | .status | .err | .errPos | .tblData | .tblValid | .inData | .outData | .marker | .inCount
  | .fifoStatus | .intStatus | .mcuCount | .progress | .geometry | .scanGeom | .outCount | .trailing => r

/-- R24-R26: a read with no side effect; an unmapped offset reads 0. -/
def plainRead (off : Nat) (s : State) : State :=
  { s with rdata := match regAt off with | some r => regRead s r | none => 0 }

/-- R24-R26: a write with no side effect; an unmapped offset ignores it. -/
def plainWrite (off : Nat) (v : Word) (s : State) : State :=
  { s with regs := match regAt off with | some r => regWrite v s.regs r | none => s.regs }

/-- TBL_DATA write (R62): one staging entry more, or the overflow flag. -/
def execTblDataWr (v : Word) (s : State) : Host.Outcome State Fault Refusal :=
  .next (if s.stg.length < 272 then { s with stg := s.stg ++ [v.setWidth 16] } else { s with stgOvf := true })

/-- R261: is an IN_DATA write accepted? -/
def acceptsInput (s : State) : Bool :=
  decide (s.st = .scan) && !s.eofSeen && decide (s.inFifo.length < s.par.inDepth)

/-- IN_DATA write (R261, R44): an entry is appended, or the write is dropped and INT_STATUS.IN_OVERFLOW set. -/
def execInDataWr (v : Word) (s : State) : Host.Outcome State Fault Refusal :=
  .next (
    if acceptsInput s then
      if v.getLsbD 8 then { s with inFifo := s.inFifo ++ [.eof], eofSeen := true }
      else { s with inFifo := s.inFifo ++ [.byte (v.setWidth 8)] }
    else setInt .inOverflow s)

/-- OUT_DATA read (R45): the oldest byte with VALID, popped; 0 from an empty FIFO. -/
def execOutDataRd (s : State) : Host.Outcome State Fault Refusal :=
  .next { s with rdata := regRead s .outData, outFifo := s.outFifo.tail }

/-- INT_STATUS write (R50): each bit written as 1 is cleared. -/
def execIntStatusWr (v : Word) (s : State) : Host.Outcome State Fault Refusal :=
  .next { s with intStatus := intUpdate s.intStatus (v.setWidth 6) 0 }

/-- CTRL write (R32, R500): SOFT_RESET resets and the write's other bits are lost; else UPS_MODE is stored. -/
def execCtrlSoftReset (v : Word) (s : State) : Host.Outcome State Fault Refusal :=
  .next (if v.getLsbD 0 then resetAction s else { s with regs := { s.regs with upsMode := v.extractLsb' 1 1 } })

end Sys2Proof.Machine
end

