-- ==== Sys2Proof/Machine/Dispatch.lean ====
section
/-! DEFINITION. One arm per row of the opcode table (R157): the meaning each instruction calls. -/
namespace Sys2Proof.Machine

/-- What one instruction does to a state. -/
def exec (i : Instr) (s : State) : Host.Outcome State Fault Refusal :=
  match i with
  -- command words (R141, R142)
  | .nop => Sys2Proof.Machine.execNop s
  | .loadQt id => Sys2Proof.Machine.execLoadQt id s
  | .loadHt id cls => Sys2Proof.Machine.execLoadHt id cls s
  | .startFrame => Sys2Proof.Machine.execStartFrame s
  | .startScan => Sys2Proof.Machine.execStartScan s
  | .convert => Sys2Proof.Machine.execConvert s
  | .abort => Sys2Proof.Machine.execAbort s
  | .cmdRejected w => Sys2Proof.Machine.execCmdRejected w s
  -- register accesses with side effects (R250)
  | .tblDataWr v => Sys2Proof.Machine.execTblDataWr v s
  | .inDataWr v => Sys2Proof.Machine.execInDataWr v s
  | .outDataRd => Sys2Proof.Machine.execOutDataRd s
  | .intStatusWr v => Sys2Proof.Machine.execIntStatusWr v s
  | .ctrlSoftReset v => Sys2Proof.Machine.execCtrlSoftReset v s
  -- stream tokens (R145)
  | .stuffed => Sys2Proof.Machine.execStuffed s
  | .fillRun => Sys2Proof.Machine.execFillRun s
  | .rstN n => Sys2Proof.Machine.execRstN n s
  | .marker x => Sys2Proof.Machine.execMarker x s
  | .dangling => Sys2Proof.Machine.execDangling s
  | .data b => Sys2Proof.Machine.execData b s
  | .endTok => Sys2Proof.Machine.execEndTok s
  -- DC symbols (R148)
  | .dcZero => Sys2Proof.Machine.execDcZero s
  | .dcDiffLow t => Sys2Proof.Machine.execDcDiffLow t s
  | .dcDiffHigh t => Sys2Proof.Machine.execDcDiffHigh t s
  | .dcIllegal t => Sys2Proof.Machine.execDcIllegal t s
  -- AC symbols (R149)
  | .acEob => Sys2Proof.Machine.execAcEob s
  | .acZrl => Sys2Proof.Machine.execAcZrl s
  | .acRunOnly r => Sys2Proof.Machine.execAcRunOnly r s
  | .acRunValue r sz => Sys2Proof.Machine.execAcRunValue r sz s

end Sys2Proof.Machine
end

