-- ==== Sys2Proof/Machine/Engine.lean ====
section
/-! DEFINITION. The two agents of R12: one engine operation, one host access, and how an instruction reaches the place the
machine takes it from. -/
namespace Sys2Proof.Machine

/-- R147-R149: the instruction of a decoded symbol, by the class of the table it was decoded with. -/
def symbolInstr (phase : Phase) (b : Byte) : Instr := if phase = .blockDc then decodeDc b else decodeAc b

/-- The instruction the engine's next operation runs: the token in the window, or the decoded symbol. -/
def engineInstr (s : State) : Option Instr :=
  match nextOp s, s.seq.bits with
  | .token, _ => some (decodeToken (tokenWord s.br.window))
  | .symbol, .sym b => some (symbolInstr s.seq.phase b)
  | _, _ => none

/-- The engine's operations that are no instruction of the table. -/
def engineOther (op : EngineOp) (s : State) : Except Fault State :=
  match op with
  | .noStep | .token | .symbol => .ok s
  | .inPop => .ok (inPop s)
  | .align => .ok (align s)
  | .beginMcu => beginMcu s
  | .restartJudge => restartJudge s
  | .readBits => takeBits s
  | .storeBlock => storeBlock s
  | .mcuDone => mcuDone s
  | .trail => .ok (trail s)
  | .endJudge => endJudge s
  | .outPush => outPush s
  | .convertDone => .ok (convertDone s)

/-- R13: after an operation `op`, is the engine still inside its step? A boundary, and the end of the command or an error,
end the step. -/
def markStep (op : EngineOp) (s : State) : State := { s with mid := !boundaryOp op && busy s }

/-- What an outcome becomes when its next state is taken on by `f`. -/
def mapNext (f : State → State) : Host.Outcome State Fault Refusal → Host.Outcome State Fault Refusal
  | .next s => .next (f s)
  | .fault r => .fault r
  | .refused r => .refused r

/-- R12, R13: one operation of the engine: the instruction it stands at, or its operation that is none. -/
def engineStep (s : State) : Host.Outcome State Fault Refusal :=
  mapNext (markStep (nextOp s))
    (match engineInstr s with
     | some i => exec i s
     | none => answer (engineOther (nextOp s) s))

/-- R101: is the access one of the register window's? -/
def inWindow (p : Params) (a : Access) : Bool := decide (p.regBase ≤ a.addr ∧ a.addr < p.regBase + 256)

/-- R104, R108: is the access 32 bits wide and word aligned? -/
def aligned (p : Params) (a : Access) : Bool := decide (a.width = 4 ∧ (a.addr - p.regBase) % 4 = 0)

/-- R101, R104, R110: one host access, atomic: an instruction of the table (a CMD write or an access of R250), or a plain
register read or write. -/
def hostAccess (a : Access) (s : State) : Host.Outcome State Fault Refusal :=
  let off := a.addr - s.par.regBase
  if !inWindow s.par a then .refused .outsideWindow
  else if !aligned s.par a then .refused .badAccess
  else
    match decodeAccess a.write (BitVec.ofNat 8 off) a.data with
    | .ok i => exec i s
    | .error _ => .next (if a.write then plainWrite off a.data s else plainRead off s)

/-- R12: the outside world's next move is taken, and the engine is between two steps. -/
def takeTurn (rest : List Turn) (s : State) : State := { s with turns := rest, mid := false }

/-- One engine operation where the engine has a step, else nothing (R520, R521). -/
def engineMove (s : State) : Host.Outcome State Fault Refusal :=
  if engineReady s then engineStep s else .next s

/-- R12, R120: one move of the interleaving. With no move of the outside world left, the engine runs (R521). -/
def move (s : State) : Host.Outcome State Fault Refusal :=
  match s.turns with
  | [] => engineMove s
  | .engine :: rest => engineMove (takeTurn rest s)
  | .host a :: rest => hostAccess a (takeTurn rest s)
  | .powerOn :: rest => .next (resetAction (takeTurn rest s))

/-- The bus access that carries a register-access word: offset [7:0], write bit [8], data [47:16]. -/
def accessOf (base : Nat) (bits : BitVec 48) : Access :=
  { write := bits.getLsbD 8, addr := base + (bits.extractLsb' 0 8).toNat, width := 4, data := bits.extractLsb' 16 32 }

/-- The next move is this host access. -/
def placeAccess (a : Access) (s : State) : State := { s with turns := .host a :: s.turns, mid := false }

/-- The entries of a token word: one if the first decides (R262), else two. -/
def tokenEntries (w : BitVec 18) : List InEntry :=
  let e0 : InEntry := if w.getLsbD 17 then .eof else .byte (w.extractLsb' 9 8)
  let e1 : InEntry := if w.getLsbD 8 then .eof else .byte (w.extractLsb' 0 8)
  if windowComplete [e0] then [e0] else [e0, e1]

/-- The engine stands at a token: SCAN, `FetchByte()` in progress, its entries popped (R262). -/
def placeToken (w : BitVec 18) (s : State) : State :=
  { s with st := .scan, br := { s.br with mode := .data, window := tokenEntries w, start := s.br.p }, mid := true }

/-- A frame of one 8x8 block, for a symbol to belong to. -/
def oneBlockFrame : FrameSnap := { fw := 8, fh := 8, comps := [⟨1, 1, 0⟩] }

/-- The scan of `oneBlockFrame`. -/
def oneBlockScan : ScanSnap := { slots := [⟨0, 0, 0⟩], ri := 0, srow := 1, srows := 1 }

/-- The engine stands at a decoded symbol of class DC or AC: SCAN, in a block of the scan that runs, or of a one-block
scan where none does. -/
def placeSymbol (dc : Bool) (b : Byte) (s : State) : State :=
  let s1 :=
    match currentBlock s with
    | .ok _ => s
    | .error _ => { startBlock 0 s with frame := some oneBlockFrame, scan := some oneBlockScan, mcuCount := 0 }
  { s1 with
    st := .scan
    br := { s1.br with window := [] }
    seq := { s1.seq with
             phase := if dc then .blockDc else .blockAc
             k := if dc then 0 else max 1 s1.seq.k
             bits := .sym b }
    mid := true }

/-- A decoder word placed where the machine takes it from. -/
def placeWord (iw : IWord) (s : State) : State :=
  match iw.fmt with
  | .cmd => placeAccess ⟨true, s.par.regBase + 0x08, 4, iw.bits.extractLsb' 0 32⟩ s
  | .regAccess => placeAccess (accessOf s.par.regBase iw.bits) s
  | .token => placeToken (iw.bits.extractLsb' 0 18) s
  | .dcSym => placeSymbol true (iw.bits.extractLsb' 0 8) s
  | .acSym => placeSymbol false (iw.bits.extractLsb' 0 8) s

end Sys2Proof.Machine
end

