-- ==== Sys2Proof/Machine/Step.lean ====
section
/-! DEFINITION. One step of the machine, and the placing of one instruction where the next step takes it from. -/
namespace Sys2Proof.Machine

/-- R12, R13, R120: inside a step of R13 the engine goes on; between two steps the next move of the interleaving is
made. -/
def step (s : State) : Host.Outcome State Fault Refusal :=
  if s.mid && engineReady s then engineStep s else move s

/-- The state with the instruction of a table word placed where the next step takes it from: a command or register access
as the host's next move, a token in the bit reader's window, a symbol in the entropy decoder (log 9). A word that is no
table word changes nothing. -/
def State.withFetchWord (s : State) (nbits w : Nat) : State :=
  match tableWord nbits w with
  | none => s
  | some iw => placeWord iw s

end Sys2Proof.Machine
end

