-- ==== Sys2Proof/Safety.lean ====
section
/-! DEFINITION. What a claim about JDB may assume of a state and what it calls safe: the storage invariant (parameters,
bounds, reserved bits, memory's form), the live invariant (what a frame, a scan and a conversion in progress have written,
R11, R408), and a run that neither faults nor is refused. -/
namespace Sys2Proof.Machine

/-- What the FIFOs, the staging buffer, the tables' valid bits, the reserved bits and memory keep in every state. -/
structure StorageInv (s : State) : Prop where
  /-- R7: the parameters lie in their ranges -/
  params : s.par.wf = true
  /-- memory is canonical -/
  planes_wf : Memory.wf s.planes
  /-- R69 -/
  in_bound : s.inFifo.length ≤ s.par.inDepth
  /-- R70 -/
  out_bound : s.outFifo.length ≤ s.par.outDepth
  /-- R62 -/
  stg_bound : s.stg.length ≤ 272
  /-- R26, R40: the reserved bits of SCAN_CFG read 0 -/
  scan_cfg : s.regs.scanCfg &&& ~~~scanCfgMask = 0
  /-- R68 -/
  nbits_bound : s.br.nbits ≤ 8
  /-- R69: the EOF token, once accepted, stays until the FIFO is flushed -/
  eof_seen : s.eofSeen = true ↔ InEntry.eof ∈ s.inFifo
  /-- R43, R60: a quantisation table is valid exactly when it is written -/
  qt_valid : ∀ t, validAt s.tabs.qtValid t = (s.tabs.qt.get t).isSome
  /-- R43, R61 -/
  dc_valid : ∀ t, validAt s.tabs.dcValid t = (s.tabs.dc.get t).isSome
  /-- R43, R61 -/
  ac_valid : ∀ t, validAt s.tabs.acValid t = (s.tabs.ac.get t).isSome

/-- R61, R213: every code a built table matches has its symbol written. -/
def HuffTable.sound (h : HuffTable) : Prop := ∀ row ∈ h.rows, row.off + row.num ≤ h.vals.length

/-- R220: what START_FRAME's checks leave of a frame. -/
structure FrameSnap.Sound (f : FrameSnap) : Prop where
  nf : f.nf = 1 ∨ f.nf = 3
  fw : f.fw ≠ 0
  fh : f.fh ≠ 0
  factors : ∀ c ∈ f.comps, 1 ≤ c.h ∧ c.h ≤ 4 ∧ 1 ≤ c.v ∧ c.v ≤ 4

/-- Is the sample at (row, col) of plane `i` written? -/
def sampleWritten (m : Memory) (i row col : Nat) : Bool := (Memory.read m (planeAddr i row col)).isSome

/-- R401: every sample of component `i`'s valid region is written. -/
def regionWritten (f : FrameSnap) (m : Memory) (i : Nat) : Prop :=
  ∀ c, f.comps[i]? = some c → ∀ row col, row < f.chgt c → col < f.cwid c → sampleWritten m i row col = true

/-- R370: the 64 samples of a block are written. -/
def blockWritten (m : Memory) (bp : BlockPos) : Prop :=
  ∀ y x, y < 8 → x < 8 → sampleWritten m bp.slot.cidx (8 * bp.byp + y) (8 * bp.bxp + x) = true

/-- R225: what START_SCAN's checks leave of a scan: its geometry, and slots that name components and loaded tables. -/
structure ScanSnap.Sound (f : FrameSnap) (tabs : Tables) (sc : ScanSnap) : Prop where
  slots_ne : sc.slots ≠ []
  grid : (sc.srow, sc.srows) = scanGrid f sc.slots
  slot : ∀ sl ∈ sc.slots, ∃ c, f.comps[sl.cidx]? = some c ∧ (tabs.qt.get c.tq).isSome = true ∧
    (tabs.dc.get sl.td).isSome = true ∧ (tabs.ac.get sl.ta).isSome = true

/-- R21, R325: where a running scan stands: the cursor lies in the scan, what it has passed is stored, and what the next
operation reads is written. -/
structure ScanPos (f : FrameSnap) (sc : ScanSnap) (s : State) : Prop where
  /-- the cursor M -/
  mcu : if s.seq.phase = .endSearch then s.m = sc.smcus else s.m < sc.smcus
  /-- the cursor B -/
  block : match s.seq.phase with
    | .blockDc | .blockAc => s.seq.b < (mcuBlocks f sc s.m).length
    | .restartCheck | .store | .endSearch => True
  /-- every block of the MCUs before M is stored -/
  stored_before : ∀ m, m < s.m → ∀ bp ∈ mcuBlocks f sc m, blockWritten s.planes bp
  /-- every block of M before B is stored -/
  stored_here : s.seq.phase ≠ .endSearch → s.seq.phase ≠ .restartCheck →
    ∀ j bp, j < s.seq.b → (mcuBlocks f sc s.m)[j]? = some bp → blockWritten s.planes bp
  /-- R302: COEF is written from the block's start to its store -/
  coef : match s.seq.phase with
    | .blockDc | .blockAc | .store => ∀ v ∈ s.blk.coef, v.isSome = true
    | .restartCheck | .endSearch => True
  /-- R68: BR_CUR holds the byte whose bits are unread -/
  cur : s.br.nbits ≠ 0 → s.br.cur.isSome = true
  /-- R68: BR_MARKER is meaningful in MARKER mode -/
  marker : s.br.mode = .marker → s.br.marker.isSome = true

/-- R11, R408: what is written when: the invariant under which no rule reads an unwritten value. -/
structure LiveInv (s : State) : Prop where
  dc_sound : ∀ t h, s.tabs.dc.get t = some h → h.sound
  ac_sound : ∀ t h, s.tabs.ac.get t = some h → h.sound
  /-- a frame is configured in FRAME, SCAN and CONVERT, and the components done have their valid region written -/
  frame : s.st = .frame ∨ s.st = .scan ∨ s.st = .convert →
    ∃ f, s.frame = some f ∧ f.Sound ∧ ∀ i, i < f.nf → s.compDone.getLsbD i = true → regionWritten f s.planes i
  /-- a scan in progress -/
  scan : s.st = .scan → ∀ f, s.frame = some f → ∃ sc, s.scan = some sc ∧ sc.Sound f s.tabs ∧ ScanPos f sc s
  /-- a conversion in progress: every component is done and the cursor lies in the image or past its end -/
  convert : s.st = .convert → ∀ f, s.frame = some f → s.cvMode.isSome = true ∧
    (∀ i, i < f.nf → s.compDone.getLsbD i = true) ∧ s.conv.x < f.fw.toNat ∧ s.conv.ch < f.nf

/-- A run of `n` steps that neither faults nor is refused. -/
def SafeRun (n : Nat) (s : State) : Prop := ∃ t, Sys2Proof.core.run n s = .next t

/-- The next step is a reset: the power-on move, or a CTRL write with SOFT_RESET = 1, made between two engine steps. -/
def resetNext (s : State) : Bool :=
  !(s.mid && engineReady s) &&
    match s.turns with
    | .powerOn :: _ => true
    | .host a :: _ =>
      a.write && a.data.getLsbD 0 && decide (a.addr = s.par.regBase + 0x04) && decide (a.width = 4)
    | _ => false

/-- The next step is a host write of the register at `off`. -/
def hostWriteNext (off : Nat) (s : State) : Bool :=
  !(s.mid && engineReady s) &&
    match s.turns with
    | .host a :: _ => a.write && decide (a.addr = s.par.regBase + off) && decide (a.width = 4)
    | _ => false

/-- The command word of the next step's host write, if it is one. -/
def nextWriteData (s : State) : Word :=
  match s.turns with
  | .host a :: _ => a.data
  | _ => 0

end Sys2Proof.Machine
end

