-- ==== Sys2Proof/Certificates/Slice0/Obligations.lean ====
section
/-! DEFINITION. The statements for the provers, in the order of OBLIGATIONS.json. A statement of an instruction's result says
`exec i s = .next t`, so it is the instruction's completion and, where `t` is written as an update of `s` or gives `s` back
when the named fields are restored, its frame (memory included). -/

namespace Sys2Proof.Claim
open Sys2Proof.Machine

/-- R201: the columns of the acceptance table. -/
def accepted : Instr → EngState → Prop
  | .nop, _ => True
  | .abort, _ => True
  | .loadQt _, st => st = .idle ∨ st = .frame
  | .loadHt _ _, st => st = .idle ∨ st = .frame
  | .startFrame, st => st = .idle
  | .startScan, st => st = .frame
  | .convert, st => st = .frame
  | _, _ => False

/-- R141: the seven commands. -/
def isCommand (i : Instr) : Prop :=
  i = .nop ∨ (∃ id, i = .loadQt id) ∨ (∃ id c, i = .loadHt id c) ∨ i = .startFrame ∨ i = .startScan ∨ i = .convert ∨
    i = .abort

/-- R200: bits of INT_STATUS, as the host reads them. -/
def withInt (bits : BitVec 6) (s : State) : State := { s with intStatus := s.intStatus ||| bits }

/-- R24-R26: what a read of an aligned offset other than OUT_DATA returns. -/
def readsAs (s : State) (off : Nat) : Word :=
  match regAt off with
  | some r => regRead s r
  | none => 0

/-- R25, R32-R49: the stored bits of the RW registers that are not CTRL; 0 for every other offset. -/
def storedBits : Nat → Word
  | 0x18 => 0xFFFFFFFF
  | 0x1C => 0x00000FFF
  | 0x20 => 0x000003FF
  | 0x24 => 0x000003FF
  | 0x28 => 0x000003FF
  | 0x2C => 0x3F3F3F03
  | 0x30 => 0x0000FFFF
  | 0x50 => 0x0000003F
  | _ => 0

/-- A table's new entry at one id. -/
def replacedAt {α : Type} (old new : Quad (Option α)) (t : BitVec 2) (x : α) : Prop :=
  new.get t = some x ∧ ∀ u, u ≠ t → new.get u = old.get u

/-- R43: one more valid bit. -/
def validatedAt (old new : BitVec 4) (t : BitVec 2) : Prop :=
  ∀ u, validAt new u = (decide (u = t) || validAt old u)

/-- R212: BITS[n+1], the count of the codes of `n + 1` bits. -/
def bitsOf (stg : List Half) (n : Nat) : Nat := (stg.getD n 0).toNat

/-- R212: `code` where length `n + 1` is reached. -/
def codeAt (stg : List Half) : Nat → Nat
  | 0 => 0
  | n + 1 => (codeAt stg n + bitsOf stg n) * 2

/-- R212: the symbols before those of length `n + 1`. -/
def symbolsBefore (stg : List Half) : Nat → Nat
  | 0 => 0
  | n + 1 => symbolsBefore stg n + bitsOf stg n

/-- R212: the codes of `n + 1` bits do not fit below the all-ones code. -/
def exceeds (stg : List Half) (n : Nat) : Prop :=
  0 < bitsOf stg n ∧ 2 ^ (n + 1) - 2 < codeAt stg n + bitsOf stg n - 1

/-- R220: the frame header the configuration registers hold, for `n` components. -/
def headerOf (r : Regs) (n : Nat) : FrameSnap :=
  { fw := r.frameDim.extractLsb' 0 16, fh := r.frameDim.extractLsb' 16 16
    comps := (List.range n).map fun i =>
      { h := ((r.compCfg.get i).extractLsb' 0 4).toNat, v := ((r.compCfg.get i).extractLsb' 4 4).toNat
        tq := (r.compCfg.get i).extractLsb' 8 2 } }

/-- R220: the sampling factors of COMP_CFGi are legal. -/
def legalFactors (r : Regs) (i : Nat) : Prop :=
  let h := ((r.compCfg.get i).extractLsb' 0 4).toNat
  let v := ((r.compCfg.get i).extractLsb' 4 4).toNat
  1 ≤ h ∧ h ≤ 4 ∧ 1 ≤ v ∧ v ≤ 4

/-- R40: scan slot j of SCAN_CFG. -/
def slotAt (r : Regs) (j : Nat) : ScanSlot :=
  { cidx := (r.scanCfg.extractLsb' (8 + 8 * j) 2).toNat
    td := r.scanCfg.extractLsb' (10 + 8 * j) 2
    ta := r.scanCfg.extractLsb' (12 + 8 * j) 2 }

/-- R40: SCAN_CFG.NS. -/
def scanCount (r : Regs) : Nat := (r.scanCfg.extractLsb' 0 2).toNat

/-- R225: slot j's component index is out of range or repeated. -/
def badIndex (r : Regs) (nf j : Nat) : Prop :=
  nf ≤ (slotAt r j).cidx ∨ ∃ i, i < j ∧ (slotAt r i).cidx = (slotAt r j).cidx

/-- R225: the quantisation table id of slot j's component. -/
def slotTq (r : Regs) (f : FrameSnap) (j : Nat) : BitVec 2 :=
  match f.comps[(slotAt r j).cidx]? with
  | some c => c.tq
  | none => 0

/-- R225: the three tables of slot j are loaded. -/
def slotLoaded (r : Regs) (tabs : Tables) (f : FrameSnap) (j : Nat) : Prop :=
  validAt tabs.qtValid (slotTq r f j) = true ∧ validAt tabs.dcValid (slotAt r j).td = true ∧
    validAt tabs.acValid (slotAt r j).ta = true

/-- R225: the blocks of an interleaved MCU. -/
def scanBlocks (r : Regs) (f : FrameSnap) (ns : Nat) : Nat :=
  ((List.range ns).map fun j =>
    match f.comps[(slotAt r j).cidx]? with
    | some c => c.h * c.v
    | none => 0).sum

/-- R226, R320, R321: the scan header the configuration registers hold. -/
def scanOf (r : Regs) (f : FrameSnap) : ScanSnap :=
  let slots := (List.range (scanCount r)).map (slotAt r)
  { slots := slots, ri := r.restartInterval, srow := (scanGrid f slots).1, srows := (scanGrid f slots).2 }

/-- R320, R321: SROW and SROWS of a scan: one slot's own blocks, as the ceilings of CWID / 8 and CHGT / 8, or the frame's
MCU grid. -/
def GridIs (f : FrameSnap) (slots : List ScanSlot) (srow srows : Nat) : Prop :=
  (∀ sl c, slots = [sl] → f.comps[sl.cidx]? = some c →
    (srow - 1) * 8 < f.cwid c ∧ f.cwid c ≤ srow * 8 ∧ (srows - 1) * 8 < f.chgt c ∧ f.chgt c ≤ srows * 8) ∧
  (1 < slots.length → srow = f.mcux ∧ srows = f.mcuy)

/-- R320: the blocks that the first `j` slots of an interleaved scan put into an MCU. -/
def blocksBefore (f : FrameSnap) (slots : List ScanSlot) (j : Nat) : Nat :=
  ((slots.take j).map fun sl => match f.comps[sl.cidx]? with | some c => c.h * c.v | none => 0).sum

/-- R265: the bit reader of a new scan. -/
def freshReader : BitReader :=
  { cur := none, nbits := 0, mode := .data, marker := none, p := 0, inCount := 0, fillUsed := false
    window := [], start := 0, byte := none }

/-- R307, R309: the cursor after zig-zag index `k - 1` was filled. -/
def cursorAt (k : Nat) (q : Sequencer) : Sequencer :=
  { q with phase := if k ≤ 63 then .blockAc else .store, k := k, bits := .huff 0 0 }

/-- R303, R306: what a DC difference does: the predictor and COEF[0] take the wrapped sum, and the AC loop begins. -/
def afterDc (c : Nat) (diff : Int) (s : State) : State :=
  { s with
    pred := s.pred.set c (BitVec.ofInt 16 ((s.pred.get c).toInt + diff))
    blk := { s.blk with coef := s.blk.coef.set 0 (some (BitVec.ofInt 16 ((s.pred.get c).toInt + diff))) }
    seq := cursorAt 1 s.seq }

/-- R307, R311: what a coefficient value does at zig-zag index `k`. -/
def afterAc (k : Nat) (v : Int) (s : State) : State :=
  { s with
    blk := { s.blk with coef := s.blk.coef.set (zz k) (some (BitVec.ofInt 16 v)) }
    seq := cursorAt (k + 1) s.seq }

/-- The bit reader with `n` bits of its byte left. -/
def leftBits (n : Nat) (s : State) : State := { s with br := { s.br with nbits := n } }

/-- The bit reader after fill bits. -/
def filled (s : State) : State := { s with br := { s.br with nbits := 0, fillUsed := true } }

/-- The unread bits of the byte at hand, as a number. -/
def unread (s : State) : Nat := (s.br.cur.getD 0).toNat % 2 ^ s.br.nbits

/-- R262: the reader returns a data byte. -/
def gotByte (b : Byte) (s : State) : State :=
  { s with br := { s.br with byte := some b, inCount := s.br.p, window := [] } }

/-- R262: the reader detects a marker, which is not counted. -/
def gotMarker (x : Byte) (s : State) : State :=
  { s with br := { s.br with mode := .marker, marker := some x, inCount := s.br.start, window := [] } }

/-- R262: the reader reaches END with IN_COUNT at `n`. -/
def gotEnd (n : Word) (s : State) : State :=
  { s with br := { s.br with mode := .endMode, inCount := n, window := [] } }

/-- R365: the ideal transform of a block at column `x`, row `y`, before the level shift. -/
noncomputable def idealSample (dq : List Half) (y x : Nat) : ℝ :=
  1 / 4 * ∑ v ∈ Finset.range 8, ∑ u ∈ Finset.range 8,
    (if u = 0 then 1 / √2 else 1) * (if v = 0 then 1 / √2 else 1) * ((dq.getD (8 * v + u) 0).toInt : ℝ) *
      Real.cos ((2 * x + 1) * u * Real.pi / 16) * Real.cos ((2 * y + 1) * v * Real.pi / 16)

/-- R365: a level, of a rounded transform value: shifted by 128 and clamped. -/
def level (r : Int) : Int := min (max (r + 128) 0) 255

/-- R403, R404: the neighbour row or column of position `p` where the ratio is 2, clamped to the `n` valid ones. -/
def farOf (p n : Nat) : Nat := if p % 2 = 1 then min (p / 2 + 1) (n - 1) else max (p / 2 - 1) 0

/-- R13: after an operation that ends no step, the engine is inside its step while the scan or the conversion goes on. -/
def insideStep (t : State) : State := { t with mid := decide (t.st = .scan ∨ t.st = .convert) }

/-- R13: after an operation that ends a step the engine is between two steps. -/
def betweenSteps (t : State) : State := { t with mid := false }

/-- `n` operations of the engine in a row, where each answers a state. -/
def engineRun : Nat → State → Option State
  | 0, s => some s
  | n + 1, s =>
    match engineStep s with
    | .next t => engineRun n t
    | _ => none

/-- R430: the number of bytes of the output image before the conversion cursor. -/
def bytesBefore (f : FrameSnap) (c : ConvCursor) : Nat := (c.y * f.fw.toNat + c.x) * f.nf + c.ch

/-- R430, R432: a conversion stands inside the image or at its end, and OUT_COUNT is the number of bytes before its cursor,
for an image whose size fits the register. -/
def CountInv (s : State) : Prop :=
  s.st = .convert → ∃ f, s.frame = some f ∧ 0 < f.nf ∧ s.conv.x < f.fw.toNat ∧ s.conv.ch < f.nf ∧
    s.conv.y ≤ f.fh.toNat ∧ (s.conv.y = f.fh.toNat → s.conv.x = 0 ∧ s.conv.ch = 0) ∧
    (f.fw.toNat * f.fh.toNat * f.nf < 2 ^ 32 → s.outCount.toNat = bytesBefore f s.conv)

end Sys2Proof.Claim

open Sys2Proof Sys2Proof.Machine

/-- R140-R149: no bit of an encoding is dropped: an encoded well-formed instruction decodes to itself. -/
def Obligations.DecodingAnEncodedInstructionGivesItBack : Prop :=
  ∀ i : Instr, i.wf = true → decode (encode i) = .ok i

/-- R142, R145-R149: whatever a decoder reads, from a word or from a host access, is well formed. -/
def Obligations.DecodedInstructionsAreWellFormed : Prop :=
  (∀ w i, decode w = .ok i → i.wf = true) ∧
  ∀ write off v i, decodeAccess write off v = .ok i → i.wf = true

/-- R140, R148, R149: a command word and a symbol byte is the word of the one instruction it decodes to, so no two words are
one instruction. -/
def Obligations.CommandAndSymbolWordsHaveOneMeaning : Prop :=
  ∀ w i, w.fmt = .cmd ∨ w.fmt = .dcSym ∨ w.fmt = .acSym → decode w = .ok i → encode i = w

/-- R142, R201: which command words are illegal, and that they only set CMD_REJECTED, in every engine state. -/
def Obligations.IllegalCommandWordsAreOnlyRejected : Prop :=
  (∀ (w : Word) (s : State), exec (.cmdRejected w) s = .next { s with intStatus := s.intStatus ||| 0x10 }) ∧
  ∀ w : Word,
    let op := (w.extractLsb' 0 4).toNat
    ((6 ≤ op ∧ op ≤ 14) ∨ w.extractLsb' 7 25 ≠ 0 ∨ (w.extractLsb' 4 2 ≠ 0 ∧ op ≠ 1 ∧ op ≠ 2) ∨
      (w.extractLsb' 6 1 = 1 ∧ op ≠ 2)) ↔ decodeCmd w = .cmdRejected w

/-- R141, R145, R146, R148, R149, R250: words written out from the spec's tables, one of each family. -/
def Obligations.WordsOfTheSpecDecode : Prop :=
  decodeTableWord 32 0x00000062 = some (.loadHt 2 1) ∧ decodeTableWord 32 0x0000000F = some .abort ∧
  decodeTableWord 48 0x00AB0134 = some (.tblDataWr 0xAB) ∧ decodeTableWord 16 0x0040 = some .outDataRd ∧
  decodeTableWord 24 0x01FED5 = some (.rstN 5) ∧ decodeTableWord 24 0x01FFFF = some .dangling ∧
  decode ⟨.dcSym, 0x0B⟩ = .ok (.dcDiffHigh 11) ∧ decode ⟨.acSym, 0xE0⟩ = .ok (.acRunOnly 14)

/-- R101, R104, R108: an access that is not an aligned word of the window has no meaning. (The refusal of an access outside
the window is the model's: R101 leaves it to the platform, log 14.) -/
def Obligations.OtherAccessesAreRefused : Prop :=
  ∀ (a : Access) (s : State),
    (s.par.regBase ≤ a.addr → a.addr < s.par.regBase + 256 → a.width ≠ 4 ∨ (a.addr - s.par.regBase) % 4 ≠ 0 →
      hostAccess a s = .refused .badAccess) ∧
    (a.addr < s.par.regBase ∨ s.par.regBase + 256 ≤ a.addr → hostAccess a s = .refused .outsideWindow)

/-- R500, R32, R77: a CTRL write with SOFT_RESET = 1, and the power-on move, give the reset state: what the host reads is the
reset column of R24, and what it cannot read is R77's. A CTRL write with SOFT_RESET = 0 stores UPS_MODE alone. -/
def Obligations.ResetAndCtrlWrites : Prop :=
  (∀ (s : State) (v : Word), v.getLsbD 0 = true → ∃ t, exec (.ctrlSoftReset v) s = .next t ∧
    (∀ rest, s.turns = .powerOn :: rest → s.mid = false → step s = .next { t with turns := rest }) ∧
    (∀ r : Reg, r ≠ .id → r ≠ .fifoStatus → regRead t r = 0) ∧ regRead t .id = 0x4A444231 ∧
    regRead t .fifoStatus = BitVec.ofNat 8 s.par.outDepth ++ 0#8 ++ BitVec.ofNat 8 s.par.inDepth ++ 0#8 ∧
    irq t = false ∧ t.st = .idle ∧ t.stg = [] ∧ t.inFifo = [] ∧ t.outFifo = [] ∧
    (∀ u, t.tabs.qt.get u = none ∧ t.tabs.dc.get u = none ∧ t.tabs.ac.get u = none) ∧
    t.frame = none ∧ t.scan = none ∧ t.cvMode = none ∧ t.pred = ⟨0, 0, 0⟩ ∧ (∀ x, Memory.read t.planes x = none) ∧
    t.blk.coef = List.replicate 64 none ∧ t.blk.dq = List.replicate 64 none ∧ t.blk.g = List.replicate 64 none ∧
    t.blk.acc = none ∧ t.br.nbits = 0 ∧ t.br.mode = .data ∧ t.br.p = 0 ∧
    t.turns = s.turns ∧ t.par = s.par) ∧
  ∀ (s : State) (v : Word), v.getLsbD 0 = false →
    exec (.ctrlSoftReset v) s = .next { s with regs := { s.regs with upsMode := v.extractLsb' 1 1 } }

/-- R25, R26, R109: a plain write stores the defined bits of its register, and no read of another register, and no other
state, changes; a read-only or unmapped offset ignores it. -/
def Obligations.PlainWritesStoreTheDefinedBits : Prop :=
  ∀ (s : State) (off : Nat) (v : Word), off < 256 → off % 4 = 0 → off ∉ [0x04, 0x08, 0x34, 0x3C, 0x54] →
    ∃ t, hostAccess ⟨true, s.par.regBase + off, 4, v⟩ s = .next t ∧ { t with regs := s.regs } = s ∧
      (Claim.storedBits off ≠ 0 → Claim.readsAs t off = v &&& Claim.storedBits off) ∧
      (Claim.storedBits off = 0 → t = s) ∧
      ∀ other, other % 4 = 0 → other ≠ off → Claim.readsAs t other = Claim.readsAs s other

/-- R25, R26, R109: a read of any register but OUT_DATA has no side effect; write-only registers and unmapped offsets read
0. -/
def Obligations.ReadsHaveNoSideEffect : Prop :=
  ∀ (s : State) (off : Nat) (d : Word), off < 256 → off % 4 = 0 → off ≠ 0x40 →
    hostAccess ⟨false, s.par.regBase + off, 4, d⟩ s = .next { s with rdata := Claim.readsAs s off } ∧
    (off = 0x08 ∨ off = 0x34 ∨ off = 0x3C ∨ 0x70 ≤ off → Claim.readsAs s off = 0)

/-- R34, R43, R48: the fields of STATUS, TBL_VALID and FIFO_STATUS. -/
def Obligations.StatusRegistersShowTheState : Prop :=
  ∀ s : State,
    let w := regRead s .status
    w.extractLsb' 0 3 = s.st.code ∧ (w.getLsbD 3 = true ↔ s.st = .scan ∨ s.st = .convert) ∧
    (w.getLsbD 4 = true ↔ s.st = .scan ∧ nextOp s = .inPop ∧ s.inFifo = []) ∧
    (w.getLsbD 5 = true ↔ s.st = .convert ∧ nextOp s = .outPush ∧ s.par.outDepth ≤ s.outFifo.length) ∧
    w.getLsbD 6 = s.br.fillUsed ∧ w.getLsbD 7 = s.stgOvf ∧ w.extractLsb' 8 3 = s.compDone ∧
    w.getLsbD 11 = s.eofSeen ∧ w.extractLsb' 12 3 = s.nextRst ∧ w.getLsbD 15 = false ∧
    w.extractLsb' 16 9 = BitVec.ofNat 9 s.stg.length ∧ w.extractLsb' 25 7 = 0 ∧
    regRead s .tblValid = 0#20 ++ s.tabs.acValid ++ s.tabs.dcValid ++ s.tabs.qtValid ∧
    regRead s .fifoStatus = BitVec.ofNat 8 s.par.outDepth ++ BitVec.ofNat 8 s.outFifo.length ++
      BitVec.ofNat 8 s.par.inDepth ++ BitVec.ofNat 8 s.inFifo.length

/-- R75: the interrupt line is the enabled OR of the pending bits, and 0 after reset. -/
def Obligations.IrqIsTheEnabledOr : Prop :=
  (∀ s : State, irq s = true ↔ ∃ i, i < 6 ∧ s.intStatus.getLsbD i = true ∧ s.regs.intEn.getLsbD i = true) ∧
  irq State.reset = false

/-- R201: the acceptance table: a command out of its states changes INT_STATUS.CMD_REJECTED and nothing else; an accepted one
leaves CMD_REJECTED as it was. -/
def Obligations.CommandsAreAcceptedByTheTable : Prop :=
  ∀ (i : Instr) (s : State), Claim.isCommand i →
    (¬ Claim.accepted i s.st → exec i s = .next { s with intStatus := s.intStatus ||| 0x10 }) ∧
    (Claim.accepted i s.st → ∀ t, exec i s = .next t → t.intStatus.getLsbD 4 = s.intStatus.getLsbD 4)

/-- R202: NOP does nothing in every state, and a word with OP 0 and any other bit set is rejected. -/
def Obligations.NopChangesNothing : Prop :=
  (∀ s : State, exec .nop s = .next s) ∧ decodeCmd 0 = .nop ∧
  ∀ w : Word, w.extractLsb' 0 4 = 0 → w.extractLsb' 4 28 ≠ 0 → decodeCmd w = .cmdRejected w

/-- R210: LOAD_QT, accepted: 64 staged entries become the table, else MalformedContainer 0x01 is raised; the staging buffer
is cleared in both cases. First its command word. -/
def Obligations.LoadQtInstallsTheStagedTable : Prop :=
  (∀ t : BitVec 2, decodeCmd (BitVec.ofNat 32 (0x01 + 16 * t.toNat)) = .loadQt t) ∧
  ∀ (s : State) (t : BitVec 2), s.st = .idle ∨ s.st = .frame →
    (s.stgOvf = false → s.stg.length = 64 → ∃ u, exec (.loadQt t) s = .next u ∧
      Claim.replacedAt s.tabs.qt u.tabs.qt t s.stg ∧ Claim.validatedAt s.tabs.qtValid u.tabs.qtValid t ∧
      u.tabs.dc = s.tabs.dc ∧ u.tabs.ac = s.tabs.ac ∧ u.tabs.dcValid = s.tabs.dcValid ∧ u.tabs.acValid = s.tabs.acValid ∧
      u.stg = [] ∧ u.stgOvf = false ∧ { u with tabs := s.tabs, stg := s.stg, stgOvf := s.stgOvf } = s) ∧
    (s.stgOvf = true ∨ s.stg.length ≠ 64 →
      exec (.loadQt t) s = .next (raise .malformedContainer 0x01 t.toNat { s with stg := [], stgOvf := false }))

/-- R212: LOAD_HT, accepted: the checks in their order, and the canonical table of a buffer that passes them. First its
command word. -/
def Obligations.LoadHtBuildsTheCanonicalTable : Prop :=
  (∀ (t : BitVec 2) (c : BitVec 1), decodeCmd (BitVec.ofNat 32 (0x02 + 16 * t.toNat + 64 * c.toNat)) = .loadHt t c) ∧
  ∀ (s : State) (t : BitVec 2) (c : BitVec 1), s.st = .idle ∨ s.st = .frame →
    let n := Claim.symbolsBefore s.stg 16
    let empty := { s with stg := [], stgOvf := false }
    let wrongLength := exec (.loadHt t c) s = .next (raise .malformedContainer 0x02 t.toNat empty)
    (s.stgOvf = true ∨ s.stg.length < 16 → wrongLength) ∧
    (s.stgOvf = false → 16 ≤ s.stg.length →
      (256 < n → exec (.loadHt t c) s = .next (raise .malformedContainer 0x03 t.toNat empty)) ∧
      (n ≤ 256 → s.stg.length ≠ 16 + n → wrongLength) ∧
      (n ≤ 256 → s.stg.length = 16 + n →
        ((∃ v ∈ s.stg.drop 16, 255 < v.toNat) →
          exec (.loadHt t c) s = .next (raise .malformedContainer 0x04 t.toNat empty)) ∧
        ((∀ v ∈ s.stg.drop 16, v.toNat ≤ 255) →
          (∀ m, m < 16 → Claim.exceeds s.stg m → (∀ k, k < m → ¬ Claim.exceeds s.stg k) →
            exec (.loadHt t c) s = .next (raise .malformedContainer 0x05 (m + 1) empty)) ∧
          ((∀ m, m < 16 → ¬ Claim.exceeds s.stg m) → ∃ u h, exec (.loadHt t c) s = .next u ∧
            h.rows.length = 16 ∧
            (∀ m, m < 16 → ∃ row, h.rows[m]? = some row ∧ row.first.toNat = Claim.codeAt s.stg m ∧
              row.num = Claim.bitsOf s.stg m ∧ row.off = Claim.symbolsBefore s.stg m) ∧
            h.vals = (s.stg.drop 16).map (fun v => v.setWidth 8) ∧
            (c = 0 → Claim.replacedAt s.tabs.dc u.tabs.dc t h ∧ Claim.validatedAt s.tabs.dcValid u.tabs.dcValid t ∧
              u.tabs.ac = s.tabs.ac ∧ u.tabs.acValid = s.tabs.acValid) ∧
            (c = 1 → Claim.replacedAt s.tabs.ac u.tabs.ac t h ∧ Claim.validatedAt s.tabs.acValid u.tabs.acValid t ∧
              u.tabs.dc = s.tabs.dc ∧ u.tabs.dcValid = s.tabs.dcValid) ∧
            u.tabs.qt = s.tabs.qt ∧ u.tabs.qtValid = s.tabs.qtValid ∧ u.stg = [] ∧ u.stgOvf = false ∧
            { u with tabs := s.tabs, stg := s.stg, stgOvf := s.stgOvf } = s))))

/-- R212, R272, R300: the codes of a table LOAD_HT builds are prefix-free, and the all-ones code of every length stands for
no symbol, so fill bits alone never decode. -/
def Obligations.BuiltCodesArePrefixFreeAndNeverAllOnes : Prop :=
  ∀ t ovf stg h, buildHuff t ovf stg = .ok h →
    (∀ n, 1 ≤ n → n ≤ 16 → lookup h n (BitVec.ofNat 16 (2 ^ n - 1)) = .ok none) ∧
    ∀ n m (c d : Half) v, 1 ≤ n → n < m → m ≤ 16 → d.toNat < 2 ^ m → d.toNat / 2 ^ (m - n) = c.toNat →
      lookup h n c = .ok (some v) → lookup h m d = .ok none

/-- R220, R221, R222: START_FRAME, accepted: the checks in their order, and the commit, whose grid fits GEOMETRY. -/
def Obligations.StartFrameChecksThenCommits : Prop :=
  decodeCmd 0x03 = .startFrame ∧ ∀ s : State, s.st = .idle →
    let p := (s.regs.frameCfg.extractLsb' 0 8).toNat
    let n := (s.regs.frameCfg.extractLsb' 8 4).toNat
    let f := Claim.headerOf s.regs n
    let cleared := { s with err := 0, errPos := 0 }
    (p ≠ 8 → exec .startFrame s = .next (raise .unsupportedEncoding 0x01 p cleared)) ∧
    (p = 8 → n ≠ 1 → n ≠ 3 → exec .startFrame s = .next (raise .unsupportedEncoding 0x02 n cleared)) ∧
    (p = 8 → n = 1 ∨ n = 3 →
      (f.fw = 0 → exec .startFrame s = .next (raise .malformedContainer 0x10 0 cleared)) ∧
      (f.fw ≠ 0 → f.fh = 0 → exec .startFrame s = .next (raise .malformedContainer 0x10 1 cleared)) ∧
      (f.fw ≠ 0 → f.fh ≠ 0 →
        (∀ i, i < n → ¬ Claim.legalFactors s.regs i → (∀ j, j < i → Claim.legalFactors s.regs j) →
          exec .startFrame s = .next (raise .malformedContainer 0x11 i cleared)) ∧
        ((∀ i, i < n → Claim.legalFactors s.regs i) →
          (∀ cap, s.par.planeCap = some cap → cap < f.planeBytes →
            exec .startFrame s = .next (raise .unsupportedEncoding 0x03 0 cleared)) ∧
          ((∀ cap, s.par.planeCap = some cap → f.planeBytes ≤ cap) →
            exec .startFrame s = .next
              { s with
                err := 0, errPos := 0, frame := some f, geometry := f.geometry, planes := [], compDone := 0
                outFifo := [], outCount := 0, st := .frame } ∧
            f.mcux ≤ 8192 ∧ f.mcuy ≤ 8192 ∧ f.geometry = BitVec.ofNat 16 f.mcuy ++ BitVec.ofNat 16 f.mcux))))

/-- R64, R222: what the geometry of a legal frame is: the maxima, the grid as a ceiling, the valid region as a ceiling,
inside the padded plane; and the GEOMETRY register holds both grid sizes whole. -/
def Obligations.FrameGeometryIsTheCeilings : Prop :=
  ∀ f : FrameSnap, f.Sound →
    (∃ c ∈ f.comps, c.h = f.hmax) ∧ (∃ c ∈ f.comps, c.v = f.vmax) ∧ (∀ c ∈ f.comps, c.h ≤ f.hmax ∧ c.v ≤ f.vmax) ∧
    (f.mcux - 1) * (8 * f.hmax) < f.fw.toNat ∧ f.fw.toNat ≤ f.mcux * (8 * f.hmax) ∧
    (f.mcuy - 1) * (8 * f.vmax) < f.fh.toNat ∧ f.fh.toNat ≤ f.mcuy * (8 * f.vmax) ∧
    (f.geometry.extractLsb' 0 16).toNat = f.mcux ∧ (f.geometry.extractLsb' 16 16).toNat = f.mcuy ∧
    ∀ c ∈ f.comps, f.pw c = f.mcux * c.h * 8 ∧ f.ph c = f.mcuy * c.v * 8 ∧
      (f.cwid c - 1) * f.hmax < f.fw.toNat * c.h ∧ f.fw.toNat * c.h ≤ f.cwid c * f.hmax ∧ f.cwid c ≤ f.pw c ∧
      (f.chgt c - 1) * f.vmax < f.fh.toNat * c.v ∧ f.fh.toNat * c.v ≤ f.chgt c * f.vmax ∧ f.chgt c ≤ f.ph c

/-- R225, R226, R265: START_SCAN, accepted: the checks in their order, and the commit, whose grid is that of R320, R321. -/
def Obligations.StartScanChecksThenCommits : Prop :=
  decodeCmd 0x04 = .startScan ∧ ∀ (s : State) (f : FrameSnap), s.st = .frame → s.frame = some f → f.Sound →
    let ns := Claim.scanCount s.regs
    let bad := Claim.badIndex s.regs f.nf
    let sc := Claim.scanOf s.regs f
    (ns = 0 ∨ f.nf < ns → exec .startScan s = .next (raise .malformedContainer 0x13 ns s)) ∧
    (1 ≤ ns → ns ≤ f.nf →
      (∀ j, j < ns → bad j → (∀ i, i < j → ¬ bad i) →
        exec .startScan s = .next (raise .malformedContainer 0x14 j s)) ∧
      ((∀ j, j < ns → ¬ bad j) →
        (1 < ns → 10 < Claim.scanBlocks s.regs f ns →
          exec .startScan s = .next (raise .malformedContainer 0x15 (Claim.scanBlocks s.regs f ns) s)) ∧
        (ns = 1 ∨ Claim.scanBlocks s.regs f ns ≤ 10 →
          (∀ j, j < ns → (∀ i, i < j → Claim.slotLoaded s.regs s.tabs f i) →
            let tq := Claim.slotTq s.regs f j
            let sl := Claim.slotAt s.regs j
            (validAt s.tabs.qtValid tq = false → exec .startScan s = .next (raise .missingTable 0x01 tq.toNat s)) ∧
            (validAt s.tabs.qtValid tq = true → validAt s.tabs.dcValid sl.td = false →
              exec .startScan s = .next (raise .missingTable 0x02 sl.td.toNat s)) ∧
            (validAt s.tabs.qtValid tq = true → validAt s.tabs.dcValid sl.td = true →
              validAt s.tabs.acValid sl.ta = false →
              exec .startScan s = .next (raise .missingTable 0x03 sl.ta.toNat s))) ∧
          ((∀ j, j < ns → Claim.slotLoaded s.regs s.tabs f j) →
            exec .startScan s = .next
              { s with
                scan := some sc, scanGeom := BitVec.ofNat 16 sc.srows ++ BitVec.ofNat 16 sc.srow
                pred := ⟨0, 0, 0⟩, nextRst := 0, inFifo := [], eofSeen := false, br := Claim.freshReader
                mcuCount := 0, rows := 0, trailing := 0, markerReg := 0
                seq := { phase := .restartCheck, b := 0, k := 0, bits := .huff 0 0, mayRst := false }
                st := .scan } ∧
            Claim.GridIs f sc.slots sc.srow sc.srows ∧ sc.smcus = sc.srow * sc.srows))))

/-- R230, R231: CONVERT, accepted: the first component no scan completed is an error, else the conversion begins. -/
def Obligations.ConvertNeedsEveryComponent : Prop :=
  decodeCmd 0x05 = .convert ∧ ∀ (s : State) (f : FrameSnap), s.st = .frame → s.frame = some f →
    (∀ i, i < f.nf → s.compDone.getLsbD i = false → (∀ j, j < i → s.compDone.getLsbD j = true) →
      exec .convert s = .next (raise .malformedContainer 0x16 i s)) ∧
    ((∀ i, i < f.nf → s.compDone.getLsbD i = true) →
      exec .convert s = .next
        { s with cvMode := some s.regs.upsMode, outCount := 0, conv := ⟨0, 0, 0⟩, st := .convert })

/-- R240: ABORT, from every state: what it clears; every sample is unwritten after it. That nothing else changes (BR_CUR,
BR_MARKER, COEF, the cursor, CV_MODE) is the model's reading of R240's list as whole (log 18, DEDUCED). -/
def Obligations.AbortDiscardsTheFrame : Prop :=
  decodeCmd 0x0F = .abort ∧ ∀ s : State, ∃ t, exec .abort s = .next t ∧
    t = { s with
      st := .idle, frame := none, scan := none, nextRst := 0, geometry := 0, scanGeom := 0, planes := [], compDone := 0
      inFifo := [], eofSeen := false, outFifo := [], outCount := 0, stg := [], stgOvf := false
      br := { s.br with nbits := 0, mode := .data, p := 0 }, pred := ⟨0, 0, 0⟩ } ∧
    (∀ x, Memory.read t.planes x = none) ∧ inWait t = false ∧ outWait t = false

/-- R62, R42: a TBL_DATA write stages 16 bits, in every engine state, or sets STG_OVF when 272 are staged. -/
def Obligations.TblDataWritesStageEntries : Prop :=
  ∀ (s : State) (v : Word),
    (s.stg.length < 272 → exec (.tblDataWr v) s = .next { s with stg := s.stg ++ [v.extractLsb' 0 16] }) ∧
    (272 ≤ s.stg.length → exec (.tblDataWr v) s = .next { s with stgOvf := true })

/-- R261, R44: an IN_DATA write is taken in SCAN, before EOF and with room; else it is dropped and IN_OVERFLOW set. -/
def Obligations.InDataWritesEnterOrAreDropped : Prop :=
  (∀ v, decodeAccess true 0x3C v = .ok (.inDataWr v)) ∧ ∀ (s : State) (v : Word),
    (s.st = .scan → s.eofSeen = false → s.inFifo.length < s.par.inDepth →
      (v.getLsbD 8 = false → exec (.inDataWr v) s = .next { s with inFifo := s.inFifo ++ [.byte (v.extractLsb' 0 8)] }) ∧
      (v.getLsbD 8 = true → exec (.inDataWr v) s = .next { s with inFifo := s.inFifo ++ [.eof], eofSeen := true })) ∧
    (s.st ≠ .scan ∨ s.eofSeen = true ∨ s.par.inDepth ≤ s.inFifo.length →
      exec (.inDataWr v) s = .next { s with intStatus := s.intStatus ||| 0x20 })

/-- R45: an OUT_DATA read returns the oldest byte with VALID and removes it, or 0 from an empty FIFO; a write is ignored. -/
def Obligations.OutDataReadsPop : Prop :=
  (∀ v, decodeAccess false 0x40 v = .ok .outDataRd) ∧
  (∀ (s : State) (b : Byte) (rest : List Byte), s.outFifo = b :: rest →
    exec .outDataRd s = .next { s with rdata := BitVec.ofNat 32 (256 + b.toNat), outFifo := rest }) ∧
  (∀ s : State, s.outFifo = [] → exec .outDataRd s = .next { s with rdata := 0 }) ∧
  ∀ (s : State) (v : Word), hostAccess ⟨true, s.par.regBase + 0x40, 4, v⟩ s = .next s

/-- R50, R25: an INT_STATUS write clears each bit written as 1 and leaves each bit written as 0. -/
def Obligations.IntStatusWritesClearOnes : Prop :=
  ∀ (s : State) (v : Word), ∃ t, exec (.intStatusWr v) s = .next t ∧ { t with intStatus := s.intStatus } = s ∧
    ∀ i, i < 6 → t.intStatus.getLsbD i = (s.intStatus.getLsbD i && !v.getLsbD i)

/-- R101, R110, R120: a step that takes a host access is that access, whatever it is, made between two engine steps, the move
used up; when it carries an instruction it is that instruction. (The list of moves is the model's: log 21.) -/
def Obligations.AStepRunsTheHostsInstruction : Prop :=
  ∀ (s : State) (a : Access) (rest : List Turn), s.turns = .host a :: rest → s.mid = false ∨ engineReady s = false →
    step s = hostAccess a { s with turns := rest, mid := false } ∧
    ∀ (off : Byte) (i : Instr), a.width = 4 → off.toNat % 4 = 0 → a.addr = s.par.regBase + off.toNat →
      decodeAccess a.write off a.data = .ok i → step s = exec i { s with turns := rest, mid := false }

/-- R12, R13, R145, R147: where the engine stands at a token or at a decoded symbol, its next step runs that instruction; R21,
R325, R430: which operation is next elsewhere (the restart check and the end search have their own statements), what it does,
and whether it ends a step of R13. The engine moves at once inside a step of R13 (log 13) and where no move is left, else by an
engine move; in a hold it does nothing. (The moves, and that the engine runs on with none left, are the model's: log 21.) -/
def Obligations.AStepRunsTheEnginesInstruction : Prop :=
  (∀ (s : State) (i : Instr),
    (s.st = .scan ∧ windowComplete s.br.window = true ∧ i = decodeToken (tokenWord s.br.window)) ∨
    (s.st = .scan ∧ s.br.window = [] ∧ ∃ b, s.seq.bits = .sym b ∧
      ((s.seq.phase = .blockDc ∧ i = decodeDc b) ∨ (s.seq.phase = .blockAc ∧ i = decodeAc b))) →
    (s.mid = true ∨ s.turns = [] → ∀ t, exec i s = .next t → step s = .next (Claim.insideStep t)) ∧
    (s.mid = false → ∀ rest t, s.turns = .engine :: rest → exec i { s with turns := rest } = .next t →
      step s = .next (Claim.insideStep t))) ∧
  (∀ w, windowComplete w = true ↔ (∃ e, w = [e] ∧ e ≠ .byte 0xFF) ∨ 2 ≤ w.length) ∧
  (∀ s : State, s.st = .scan →
    (windowComplete s.br.window = true → nextOp s = .token) ∧
    (windowComplete s.br.window = false → s.br.window ≠ [] → nextOp s = .inPop) ∧
    (s.br.window = [] →
      (s.seq.phase = .blockDc ∨ s.seq.phase = .blockAc →
        (∀ b, s.seq.bits = .sym b → nextOp s = .symbol) ∧
        ((∀ b, s.seq.bits ≠ .sym b) →
          (s.br.nbits ≠ 0 ∨ s.br.byte.isSome = true ∨ s.br.mode ≠ .data → nextOp s = .readBits) ∧
          (s.br.nbits = 0 → s.br.byte = none → s.br.mode = .data → nextOp s = .inPop))) ∧
      (s.seq.phase = .store → ∀ f sc, s.frame = some f → s.scan = some sc →
        (s.seq.b < (mcuBlocks f sc s.mcuCount.toNat).length → nextOp s = .storeBlock) ∧
        ((mcuBlocks f sc s.mcuCount.toNat).length ≤ s.seq.b → nextOp s = .mcuDone)))) ∧
  (∀ s : State, s.st = .convert → ∀ f, s.frame = some f →
    (s.conv.y < f.fh.toNat → nextOp s = .outPush) ∧ (f.fh.toNat ≤ s.conv.y → nextOp s = .convertDone)) ∧
  (∀ s : State, nextOp s = .noStep ↔ s.st = .idle ∨ s.st = .frame ∨ s.st = .error) ∧
  (∀ s : State,
    (nextOp s = .inPop → engineStep s = .next (Claim.betweenSteps (inPop s))) ∧
    (nextOp s = .align → engineStep s = .next (Claim.insideStep (align s))) ∧
    (nextOp s = .trail → engineStep s = .next (Claim.insideStep (trail s))) ∧
    (nextOp s = .convertDone → engineStep s = .next (Claim.betweenSteps (convertDone s))) ∧
    ∀ t,
      (nextOp s = .beginMcu → beginMcu s = .ok t → engineStep s = .next (Claim.insideStep t)) ∧
      (nextOp s = .restartJudge → restartJudge s = .ok t → engineStep s = .next (Claim.insideStep t)) ∧
      (nextOp s = .readBits → takeBits s = .ok t → engineStep s = .next (Claim.insideStep t)) ∧
      (nextOp s = .storeBlock → storeBlock s = .ok t → engineStep s = .next (Claim.betweenSteps t)) ∧
      (nextOp s = .mcuDone → mcuDone s = .ok t → engineStep s = .next (Claim.betweenSteps t)) ∧
      (nextOp s = .endJudge → endJudge s = .ok t → engineStep s = .next (Claim.insideStep t)) ∧
      (nextOp s = .outPush → outPush s = .ok t → engineStep s = .next (Claim.betweenSteps t))) ∧
  ∀ s : State,
    (engineReady s = true ↔ nextOp s ≠ .noStep ∧ (nextOp s = .inPop → s.inFifo ≠ []) ∧
      (nextOp s = .outPush → s.outFifo.length < s.par.outDepth)) ∧
    (engineReady s = true →
      (s.mid = true ∨ s.turns = [] → step s = engineStep s) ∧
      (s.mid = false → ∀ rest, s.turns = .engine :: rest → step s = engineStep { s with turns := rest })) ∧
    (engineReady s = false →
      (s.turns = [] → step s = .next s) ∧
      (∀ rest, s.turns = .engine :: rest → step s = .next { s with turns := rest, mid := false }))

/-- R520, R521, R260, R431: the engine, in SCAN or CONVERT, holds at exactly two places; a hold changes no state; and an
accepted IN_DATA write, an OUT_DATA read that pops, ABORT and reset lift it. -/
def Obligations.TheEngineHoldsAtTwoPlacesOnly : Prop :=
  ∀ s : State, s.st = .scan ∨ s.st = .convert →
    (engineReady s = false ↔
      (s.st = .scan ∧ nextOp s = .inPop ∧ s.inFifo = []) ∨
      (s.st = .convert ∧ nextOp s = .outPush ∧ s.par.outDepth ≤ s.outFifo.length)) ∧
    (engineReady s = false → s.turns = [] → step s = .next s) ∧
    (inWait s = true → ∀ v t, s.eofSeen = false → 0 < s.par.inDepth → exec (.inDataWr v) s = .next t →
      engineReady t = true) ∧
    (outWait s = true → ∀ t, s.outFifo.length = s.par.outDepth → 0 < s.par.outDepth → exec .outDataRd s = .next t →
      engineReady t = true) ∧
    ∀ t, exec .abort s = .next t ∨ exec (.ctrlSoftReset 1) s = .next t → inWait t = false ∧ outWait t = false

/-- R338, R520: an accepted IN_DATA write commutes with the engine's operation, as long as the scan goes on: the stream alone
matters, not how the host interleaves its writes. -/
def Obligations.InputWritesCommuteWithTheEngine : Prop :=
  ∀ (s t : State) (v : Word), s.st = .scan → engineReady s = true → s.eofSeen = false →
    s.inFifo.length < s.par.inDepth → engineStep s = .next t → t.st = .scan →
    ∃ s' t', exec (.inDataWr v) s = .next s' ∧ engineStep s' = .next t' ∧ exec (.inDataWr v) t = .next t' ∧
      s'.intStatus = s.intStatus

/-- R262, R145, R146, R264: what each of the seven tokens does to the bit reader, and that it does nothing else. -/
def Obligations.TokensActAsFetchByteSays : Prop :=
  ∀ s : State,
    (∀ b, exec (.data b) s = .next (Claim.gotByte b s)) ∧
    exec .stuffed s = .next (Claim.gotByte 0xFF s) ∧
    exec .fillRun s = .next { s with br := { s.br with window := [.byte 0xFF] } } ∧
    (∀ x, exec (.marker x) s = .next (Claim.gotMarker x s)) ∧
    (∀ n : BitVec 3, exec (.rstN n) s = .next (Claim.gotMarker (BitVec.ofNat 8 (0xD0 + n.toNat)) s)) ∧
    exec .endTok s = .next (Claim.gotEnd s.br.p s) ∧
    exec .dangling s = .next (Claim.gotEnd s.br.start s)

/-- R260, R262, R145: `FetchByte()` from its first InPop, for each shape of the stream. A byte that is not 0xFF is DATA. The
EOF token is END and stays in the FIFO. A run of `n + 1` bytes 0xFF and what ends it is one token, whatever its length: 0x00
makes it the data byte 0xFF and counts the whole run, another byte is a marker, detected at the run's first byte and not counted,
and EOF leaves it uncounted, DANGLING. The stream after it is left in the FIFO, and nothing else changes. -/
def Obligations.AFillRunIsOneToken : Prop :=
  ∀ s : State, nextOp s = .inPop → s.br.window = [] →
    let kept (t : State) : Prop := t.br.window = [] ∧ { t with inFifo := s.inFifo, br := s.br, mid := s.mid } = s ∧
      { t.br with p := s.br.p, window := s.br.window, start := s.br.start, byte := s.br.byte, inCount := s.br.inCount
                  mode := s.br.mode, marker := s.br.marker } = s.br
    (∀ (x : Byte) (rest : List InEntry), s.inFifo = .byte x :: rest → x ≠ 0xFF → s.br.p.toNat + 1 < 2 ^ 32 →
      ∃ t, Claim.engineRun 2 s = some t ∧ t.inFifo = rest ∧ t.br.p = s.br.p + 1 ∧ t.br.byte = some x ∧
        t.br.inCount = t.br.p ∧ t.br.mode = s.br.mode ∧ t.br.marker = s.br.marker ∧ kept t) ∧
    (∀ rest : List InEntry, s.inFifo = .eof :: rest →
      ∃ t, Claim.engineRun 2 s = some t ∧ t.inFifo = s.inFifo ∧ t.br.p = s.br.p ∧ t.br.mode = .endMode ∧
        t.br.inCount = s.br.p ∧ t.br.byte = s.br.byte ∧ t.br.marker = s.br.marker ∧ kept t) ∧
    (∀ (n : Nat) (x : Byte) (rest : List InEntry), s.inFifo = List.replicate (n + 1) (.byte 0xFF) ++ .byte x :: rest →
      x ≠ 0xFF → s.br.p.toNat + n + 2 < 2 ^ 32 →
      ∃ t, Claim.engineRun (2 * n + 3) s = some t ∧ t.inFifo = rest ∧ t.br.p = s.br.p + BitVec.ofNat 32 (n + 2) ∧
        (x = 0 → t.br.byte = some 0xFF ∧ t.br.inCount = t.br.p ∧ t.br.mode = s.br.mode ∧ t.br.marker = s.br.marker) ∧
        (x ≠ 0 → t.br.mode = .marker ∧ t.br.marker = some x ∧ t.br.inCount = s.br.p ∧ t.br.byte = s.br.byte) ∧
        kept t) ∧
    ∀ (n : Nat) (rest : List InEntry), s.inFifo = List.replicate (n + 1) (.byte 0xFF) ++ .eof :: rest →
      s.br.p.toNat + n + 1 < 2 ^ 32 →
      ∃ t, Claim.engineRun (2 * n + 3) s = some t ∧ t.inFifo = .eof :: rest ∧
        t.br.p = s.br.p + BitVec.ofNat 32 (n + 1) ∧ t.br.mode = .endMode ∧ t.br.inCount = s.br.p ∧
        t.br.byte = s.br.byte ∧ t.br.marker = s.br.marker ∧ kept t

/-- R300, R301, R322: `HuffDecode` with one bit more, by the DC or AC table of the block's slot: a code of the current length
that is in range is its symbol; else the code grows, and after 16 bits the decode fails with the class of the table. -/
def Obligations.HuffmanDecodingReadsOneBitMore : Prop :=
  (∀ (s : State) (bp : BlockPos) (h : HuffTable), currentBlock s = .ok bp →
    (s.seq.phase = .blockDc → s.tabs.dc.get bp.slot.td = some h → currentHuff s = .ok h) ∧
    (s.seq.phase ≠ .blockDc → s.tabs.ac.get bp.slot.ta = some h → currentHuff s = .ok h)) ∧
  ∀ (s s1 : State) (code : Half) (len : Nat) (bit : Bool) (h : HuffTable), s.seq.bits = .huff code len → len < 16 →
    readBit s = .ok (some (bit, s1)) → currentHuff s1 = .ok h → h.sound →
    let code' : Half := BitVec.ofNat 16 (2 * code.toNat + bit.toNat)
    let hit (row : HuffRow) : Prop :=
      0 < row.num ∧ row.first.toNat ≤ code'.toNat ∧ code'.toNat < row.first.toNat + row.num
    (∀ row, h.rows[len]? = some row → hit row → ∃ v, h.vals[row.off + (code'.toNat - row.first.toNat)]? = some v ∧
      takeBits s = .ok { s1 with seq := { s1.seq with bits := .sym v } }) ∧
    ((∀ row, h.rows[len]? = some row → ¬ hit row) →
      (len + 1 < 16 → takeBits s = .ok { s1 with seq := { s1.seq with bits := .huff code' (len + 1) } }) ∧
      (len + 1 = 16 →
        takeBits s = .ok (raise .invalidHuffmanCode 0x01 (if s1.seq.phase = .blockDc then 0 else 1) s1)))

/-- R303: a DC symbol 0 reads no bit and leaves the predictor; COEF[0] takes the predictor of the block's component. -/
def Obligations.DcZeroRepeatsThePredictor : Prop :=
  ∀ (s : State) (bp : BlockPos), currentBlock s = .ok bp →
    exec .dcZero s = .next
      { s with
        blk := { s.blk with coef := s.blk.coef.set 0 (some (s.pred.get bp.slot.cidx)) }
        seq := Claim.cursorAt 1 s.seq }

/-- R303, R304, R306, R266: a DC symbol of category 1 to 11: the difference comes from `t` magnitude bits: of the byte at
hand, the most significant first; with 1-bits after them where the data has ended; and where a byte must be fetched first the
field waits with the bits it has. -/
def Obligations.DcDifferencesUpdateThePredictor : Prop :=
  ∀ (s : State) (i : Instr) (t : Byte) (bp : BlockPos),
    (i = .dcDiffLow t ∧ 1 ≤ t.toNat ∧ t.toNat ≤ 7) ∨ (i = .dcDiffHigh t ∧ 8 ≤ t.toNat ∧ t.toNat ≤ 11) →
    currentBlock s = .ok bp →
    (∀ b, s.br.cur = some b → t.toNat ≤ s.br.nbits →
      exec i s = .next (Claim.afterDc bp.slot.cidx (extend (Claim.unread s / 2 ^ (s.br.nbits - t.toNat)) t.toNat)
        (Claim.leftBits (s.br.nbits - t.toNat) s))) ∧
    (s.br.nbits < t.toNat → s.br.cur.isSome = true ∨ s.br.nbits = 0 → s.br.byte = none →
      (s.br.mode ≠ .data →
        exec i s = .next (Claim.afterDc bp.slot.cidx
          (extend (Claim.unread s * 2 ^ (t.toNat - s.br.nbits) + (2 ^ (t.toNat - s.br.nbits) - 1)) t.toNat)
          (Claim.filled s))) ∧
      (s.br.mode = .data →
        exec i s = .next { Claim.leftBits 0 s with
          seq := { s.seq with bits := .mag true t.toNat s.br.nbits (BitVec.ofNat 16 (Claim.unread s)) } }))

/-- R267, R266, R272: a magnitude field that waited goes on with what `FetchByte()` returned: with a byte, whose first bits
are its missing ones, and a field that needs more than 8 waits again; with NONE, where 1-bits complete it and FILL_USED is
set. The DC or AC value is stored as if all bits had been at hand. -/
def Obligations.AWaitingFieldGoesOnWithTheNextByte : Prop :=
  ∀ (s : State) (dc : Bool) (t n : Nat) (v : Half) (bp : BlockPos),
    s.seq.bits = .mag dc t n v → n < t → t ≤ 15 → v.toNat < 2 ^ n → s.br.nbits = 0 → currentBlock s = .ok bp →
    (∀ b, s.br.byte = some b → s.br.mode = .data →
      let took : State := { s with br := { s.br with cur := some b, nbits := 8 - (t - n), byte := none } }
      let field := v.toNat * 2 ^ (t - n) + b.toNat / 2 ^ (8 - (t - n))
      (t - n ≤ 8 →
        (dc = true → takeBits s = .ok (Claim.afterDc bp.slot.cidx (extend field t) took)) ∧
        (dc = false → takeBits s = .ok (Claim.afterAc s.seq.k (extend field t) took))) ∧
      (8 < t - n →
        takeBits s = .ok { took with
          seq := { s.seq with bits := .mag dc t (n + 8) (BitVec.ofNat 16 (v.toNat * 256 + b.toNat)) } })) ∧
    (s.br.byte = none → s.br.mode ≠ .data →
      let field := v.toNat * 2 ^ (t - n) + (2 ^ (t - n) - 1)
      (dc = true → takeBits s = .ok (Claim.afterDc bp.slot.cidx (extend field t) (Claim.filled s))) ∧
      (dc = false → takeBits s = .ok (Claim.afterAc s.seq.k (extend field t) (Claim.filled s))))

/-- R305: a DC category above 11 is InvalidHuffmanCode 0x02 with the category, before any magnitude bit is read. -/
def Obligations.DcCategoriesAboveElevenAreErrors : Prop :=
  (∀ (s : State) (t : Byte), exec (.dcIllegal t) s = .next (raise .invalidHuffmanCode 0x02 t.toNat s)) ∧
  ∀ b : Byte, 11 < b.toNat → decodeDc b = .dcIllegal b

/-- R308, R309, R310: the AC symbols without magnitude bits: EOB ends the block, ZRL skips 16 zeros (to 64 exactly at most),
a run-only symbol skips its zeros and stores a 0. The bit reader and the predictors are untouched. -/
def Obligations.AcSymbolsWithoutBitsMoveTheCursor : Prop :=
  decodeAc 0x00 = .acEob ∧ decodeAc 0xF0 = .acZrl ∧
  (∀ r : BitVec 4, 1 ≤ r.toNat → r.toNat ≤ 14 → decodeAc (BitVec.ofNat 8 (16 * r.toNat)) = .acRunOnly r) ∧ ∀ s : State,
    exec .acEob s = .next { s with seq := { s.seq with phase := .store, bits := .huff 0 0 } } ∧
    (s.seq.k + 16 ≤ 64 → exec .acZrl s = .next { s with seq := Claim.cursorAt (s.seq.k + 16) s.seq }) ∧
    (64 < s.seq.k + 16 → exec .acZrl s = .next (raise .invalidHuffmanCode 0x03 s.seq.k s)) ∧
    ∀ r : BitVec 4, s.seq.k + r.toNat ≤ 63 → exec (.acRunOnly r) s = .next (Claim.afterAc (s.seq.k + r.toNat) 0 s)

/-- R311, R304, R266: a run/value symbol: after the zero run, the coefficient comes from `S` magnitude bits, taken as a DC
difference takes its bits. -/
def Obligations.AcRunValuesStoreACoefficient : Prop :=
  ∀ (s : State) (r sz : BitVec 4), 1 ≤ sz.toNat → s.seq.k + r.toNat ≤ 63 →
    (∀ b, s.br.cur = some b → sz.toNat ≤ s.br.nbits →
      exec (.acRunValue r sz) s = .next (Claim.afterAc (s.seq.k + r.toNat)
        (extend (Claim.unread s / 2 ^ (s.br.nbits - sz.toNat)) sz.toNat)
        (Claim.leftBits (s.br.nbits - sz.toNat) s))) ∧
    (s.br.nbits < sz.toNat → s.br.cur.isSome = true ∨ s.br.nbits = 0 → s.br.byte = none →
      (s.br.mode ≠ .data →
        exec (.acRunValue r sz) s = .next (Claim.afterAc (s.seq.k + r.toNat)
          (extend (Claim.unread s * 2 ^ (sz.toNat - s.br.nbits) + (2 ^ (sz.toNat - s.br.nbits) - 1)) sz.toNat)
          (Claim.filled s))) ∧
      (s.br.mode = .data →
        exec (.acRunValue r sz) s = .next { Claim.leftBits 0 s with
          seq := { s.seq with
                   k := s.seq.k + r.toNat
                   bits := .mag false sz.toNat s.br.nbits (BitVec.ofNat 16 (Claim.unread s)) } }))

/-- R312: a run past the last coefficient is InvalidHuffmanCode 0x03 with the index it started at, before any magnitude bit
is read. -/
def Obligations.RunsPastTheLastCoefficientAreErrors : Prop :=
  ∀ (s : State) (r sz : BitVec 4),
    let overrun := raise .invalidHuffmanCode 0x03 s.seq.k s
    (63 < s.seq.k + r.toNat → exec (.acRunValue r sz) s = .next overrun ∧ exec (.acRunOnly r) s = .next overrun) ∧
    (64 < s.seq.k + 16 → exec .acZrl s = .next overrun)

/-- R304: the sign extension: the upper half of the range is positive, the lower half negative, 0 never results, 16 bits hold
every result, and no two fields of one category give one value. -/
def Obligations.SignExtensionSplitsTheRange : Prop :=
  (∀ v, extend v 0 = 0) ∧
  ∀ t v, 1 ≤ t → t ≤ 15 → v < 2 ^ t →
    (v.testBit (t - 1) = true → extend v t = v ∧ 2 ^ (t - 1) ≤ extend v t ∧ extend v t ≤ 2 ^ t - 1) ∧
    (v.testBit (t - 1) = false → extend v t = (v : Int) - (2 ^ t - 1) ∧ -(2 ^ t - 1) ≤ extend v t ∧
      extend v t ≤ -(2 ^ (t - 1))) ∧
    extend v t ≠ 0 ∧ (BitVec.ofInt 16 (extend v t)).toInt = extend v t ∧
    ∀ w, w < 2 ^ t → extend w t = extend v t → w = v

/-- R330, R325: where the restart check is due, and that elsewhere the MCU's first block starts at once; its checks, in their
order, once the reader is aligned and has looked for the marker; the expected RSTn is consumed, the cycle advances, every
predictor is 0 and the MCU's first block starts. -/
def Obligations.RestartBoundariesAreChecked : Prop :=
  (∀ (s : State) (sc : ScanSnap), s.scan = some sc →
    (s.restartNow = true ↔ sc.ri ≠ 0 ∧ 0 < s.mcuCount.toNat ∧ s.mcuCount.toNat % sc.ri.toNat = 0)) ∧
  (∀ s : State, s.st = .scan → s.br.window = [] → s.seq.phase = .restartCheck → s.restartNow = false →
    nextOp s = .beginMcu ∧ ∀ bp, currentBlock { s with seq := { s.seq with b := 0 } } = .ok bp →
      beginMcu s = .ok { s with
        blk := { s.blk with coef := List.replicate 64 (some 0) }
        seq := { s.seq with phase := .blockDc, b := 0, k := 0, bits := .huff 0 0 } }) ∧
  (∀ s : State, s.st = .scan → s.br.window = [] → s.seq.phase = .restartCheck → s.restartNow = true →
    (s.br.nbits ≠ 0 → nextOp s = .align ∧ align s = { s with br := { s.br with nbits := 0 } }) ∧
    (s.br.nbits = 0 → s.br.byte = none → s.br.mode = .data → nextOp s = .inPop) ∧
    (s.br.nbits = 0 → s.br.byte.isSome = true ∨ s.br.mode ≠ .data → nextOp s = .restartJudge)) ∧
  ∀ s : State,
    (s.br.byte.isSome = true → restartJudge s = .ok (raise .restartSequenceError 0x02 0 s)) ∧
    (s.br.byte = none → s.br.mode = .endMode → restartJudge s = .ok (raise .unexpectedEndOfData 0x02 0 s)) ∧
    ∀ x, s.br.byte = none → s.br.mode = .marker → s.br.marker = some x →
      (x.toNat < 0xD0 ∨ 0xD7 < x.toNat → restartJudge s = .ok (raise .restartSequenceError 0x02 x.toNat s)) ∧
      ∀ n : BitVec 3, x = BitVec.ofNat 8 (0xD0 + n.toNat) →
        (n ≠ s.nextRst → restartJudge s = .ok (raise .restartSequenceError 0x01 n.toNat s)) ∧
        (n = s.nextRst → ∀ bp, currentBlock { s with seq := { s.seq with b := 0 } } = .ok bp →
          restartJudge s = .ok { s with
            br := { s.br with mode := .data, inCount := s.br.p, nbits := 0, marker := none }
            nextRst := s.nextRst + 1, pred := ⟨0, 0, 0⟩
            blk := { s.blk with coef := List.replicate 64 (some 0) }
            seq := { s.seq with phase := .blockDc, b := 0, k := 0, bits := .huff 0 0 } })

/-- R335, R336, R337: the end search aligns the reader, then fetches while it is in DATA mode: a data byte is counted and
discarded, END is an error, one expected RSTn may follow a full last interval, any other RSTn is an error, and a stop marker
completes the scan. -/
def Obligations.TheEndSearchFindsTheStopMarker : Prop :=
  (∀ s : State, s.st = .scan → s.br.window = [] → s.seq.phase = .endSearch →
    (s.br.nbits ≠ 0 → nextOp s = .align ∧ align s = { s with br := { s.br with nbits := 0 } }) ∧
    (s.br.nbits = 0 → s.br.byte.isSome = true → nextOp s = .trail) ∧
    (s.br.nbits = 0 → s.br.byte = none → s.br.mode = .data → nextOp s = .inPop) ∧
    (s.br.nbits = 0 → s.br.byte = none → s.br.mode ≠ .data → nextOp s = .endJudge)) ∧
  (∀ s : State, s.trailing ≠ BitVec.allOnes 32 →
    trail s = { s with br := { s.br with byte := none }, trailing := s.trailing + 1 }) ∧
  ∀ s : State,
    (s.br.mode = .endMode → endJudge s = .ok (raise .unexpectedEndOfData 0x01 0 s)) ∧
    ∀ x, s.br.mode = .marker → s.br.marker = some x →
      (∀ n : BitVec 3, x = BitVec.ofNat 8 (0xD0 + n.toNat) →
        (s.seq.mayRst = true → n = s.nextRst → s.trailing = 0 →
          endJudge s = .ok { s with
            br := { s.br with mode := .data, inCount := s.br.p, nbits := 0, marker := none }
            nextRst := s.nextRst + 1, seq := { s.seq with mayRst := false } }) ∧
        (s.seq.mayRst = false ∨ n ≠ s.nextRst ∨ s.trailing ≠ 0 →
          endJudge s = .ok (raise .restartSequenceError 0x03 n.toNat s))) ∧
      (x.toNat < 0xD0 ∨ 0xD7 < x.toNat → ∀ sc, s.scan = some sc → ∃ t, endJudge s = .ok t ∧
        t.markerReg = BitVec.ofNat 9 (256 + x.toNat) ∧ t.inFifo = [] ∧ t.eofSeen = false ∧ t.st = .frame ∧
        t.intStatus = s.intStatus ||| 0x01 ∧
        (∀ i, i < 3 → (t.compDone.getLsbD i = true ↔ s.compDone.getLsbD i = true ∨ ∃ sl ∈ sc.slots, sl.cidx = i)) ∧
        { t with markerReg := s.markerReg, inFifo := s.inFifo, eofSeen := s.eofSeen, st := s.st
                 intStatus := s.intStatus, compDone := s.compDone } = s)

/-- R326, R325: the MCU is counted; at the end of a MCU row ROWS and ROW_DONE; then the next MCU, or the end search with its
`mayRst`. -/
def Obligations.McusAndRowsAreCounted : Prop :=
  ∀ (s : State) (sc : ScanSnap), s.scan = some sc → s.mcuCount.toNat + 1 < 2 ^ 32 →
    ∃ t, mcuDone s = .ok t ∧ t.mcuCount.toNat = s.mcuCount.toNat + 1 ∧
      (t.mcuCount.toNat % sc.srow = 0 → t.rows = s.rows + 1 ∧ t.intStatus = s.intStatus ||| 0x08) ∧
      (t.mcuCount.toNat % sc.srow ≠ 0 → t.rows = s.rows ∧ t.intStatus = s.intStatus) ∧
      (t.mcuCount.toNat < sc.smcus → t.seq.phase = .restartCheck) ∧
      (sc.smcus ≤ t.mcuCount.toNat → t.seq.phase = .endSearch ∧
        (t.seq.mayRst = true ↔ sc.ri ≠ 0 ∧ sc.smcus % sc.ri.toNat = 0)) ∧
      t.seq.b = 0 ∧ t.seq.k = 0 ∧ t.seq.bits = .huff 0 0 ∧
      { t with mcuCount := s.mcuCount, rows := s.rows, intStatus := s.intStatus, seq := s.seq } = s

/-- R320, R321, R322: the blocks of an MCU, in order, and that they lie in their planes. R370: TransformAndStore: the block's
64 samples read back from its place in the component's plane, every other byte of memory reads as before, memory stays
canonical, and the next block, or the MCU's end, follows. -/
def Obligations.BlocksAreStoredInTheirPlace : Prop :=
  (∀ (f : FrameSnap) (sc : ScanSnap) (m : Nat), sc.smcus = sc.srow * sc.srows ∧
    (∀ sl c, sc.slots = [sl] → f.comps[sl.cidx]? = some c →
      mcuBlocks f sc m = [⟨sl, c, m % sc.srow, m / sc.srow⟩]) ∧
    (1 < sc.slots.length → (mcuBlocks f sc m).length = Claim.blocksBefore f sc.slots sc.slots.length ∧
      ∀ j sl c y x, sc.slots[j]? = some sl → f.comps[sl.cidx]? = some c → y < c.v → x < c.h →
        (mcuBlocks f sc m)[Claim.blocksBefore f sc.slots j + y * c.h + x]? =
          some ⟨sl, c, m % sc.srow * c.h + x, m / sc.srow * c.v + y⟩)) ∧
  (∀ (f : FrameSnap) (sc : ScanSnap) (tabs : Tables), f.Sound → sc.Sound f tabs →
    Claim.GridIs f sc.slots sc.srow sc.srows ∧
    ∀ m, m < sc.smcus → ∀ bp ∈ mcuBlocks f sc m,
      8 * bp.byp + 8 ≤ f.ph bp.comp ∧ 8 * bp.bxp + 8 ≤ f.pw bp.comp) ∧
  (∀ (s : State) (bp : BlockPos), currentBlock s = .ok bp ↔
    ∃ f sc, s.frame = some f ∧ s.scan = some sc ∧ (mcuBlocks f sc s.mcuCount.toNat)[s.seq.b]? = some bp) ∧
  ∀ (s : State) (f : FrameSnap) (sc : ScanSnap) (bp : BlockPos) (coef q : List Half), s.frame = some f →
    s.scan = some sc → currentBlock s = .ok bp → s.blk.coef = coef.map some → s.tabs.qt.get bp.comp.tq = some q →
    8 * bp.byp + 8 ≤ f.ph bp.comp → 8 * bp.bxp + 8 ≤ f.pw bp.comp →
    let samples := idct s.par.idct (dequant coef q)
    let addr (y x : Nat) := planeAddr bp.slot.cidx (8 * bp.byp + y) (8 * bp.bxp + x)
    ∃ t, storeBlock s = .ok t ∧
      (∀ y x, y < 8 → x < 8 → Memory.read t.planes (addr y x) = some (samples.getD (8 * y + x) 0)) ∧
      (∀ a, (∀ y x, y < 8 → x < 8 → a ≠ addr y x) → Memory.read t.planes a = Memory.read s.planes a) ∧
      (Memory.wf s.planes → Memory.wf t.planes) ∧ t.seq.b = s.seq.b + 1 ∧
      (s.seq.b + 1 < (mcuBlocks f sc s.m).length → t.seq.phase = .blockDc ∧ t.blk.coef = List.replicate 64 (some 0)) ∧
      ((mcuBlocks f sc s.m).length ≤ s.seq.b + 1 → t.seq.phase = s.seq.phase) ∧
      { t with planes := s.planes, blk := s.blk, seq := s.seq } = s

/-- R150: the zig-zag order. R361: dequantisation, saturated to 16 bits (R362's cases are values of it). R369: the widths of
the transform: no intermediate of the FIXED method overflows. -/
def Obligations.TransformIntermediatesStayInWidth : Prop :=
  (List.range 64).map zz =
    [0, 1, 8, 16, 9, 2, 3, 10] ++ [17, 24, 32, 25, 18, 11, 4, 5] ++ [12, 19, 26, 33, 40, 48, 41, 34] ++
    [27, 20, 13, 6, 7, 14, 21, 28] ++ [35, 42, 49, 56, 57, 50, 43, 36] ++ [29, 22, 15, 23, 30, 37, 44, 51] ++
    [58, 59, 52, 45, 38, 31, 39, 46] ++ [53, 60, 61, 54, 47, 55, 62, 63] ∧
  (zz 0 = 0 ∧ zz 63 = 63 ∧ ∀ n, n < 64 → ∃ k, k < 64 ∧ zz k = n ∧ ∀ j, j < 64 → zz j = n → j = k) ∧
  (∀ (coef q : List Half) (k : Nat), coef.length = 64 → q.length = 64 → k < 64 → (dequant coef q).length = 64 ∧
    ((dequant coef q).getD (zz k) 0).toInt =
      min (max ((coef.getD (zz k) 0).toInt * ((q.getD k 0).toNat : Int)) (-32768)) 32767) ∧
  ∀ (dq : List Half) (v x : Nat), v < 8 → x < 8 →
    (∀ n, -32768 ≤ (dq.getD n 0).toInt ∧ (dq.getD n 0).toInt ≤ 32767) ∧
    -354615296 ≤ rowAcc dq v x ∧ rowAcc dq v x ≤ 354615296 ∧
    -1385216 ≤ (rowPass dq).getD (8 * v + x) 0 ∧ (rowPass dq).getD (8 * v + x) 0 ≤ 1385216 ∧
    -14990807552 ≤ colAcc (rowPass dq) v x ∧ colAcc (rowPass dq) v x ≤ 14990807552

/-- R371: a block with a DC coefficient alone is flat under FIXED, with the value the rule gives. R365: FIXED is the default;
each sample of another transform lies within 2 levels of the ideal transform rounded to an integer, shifted and clamped, and
the tolerance is all that binds it. (The rounding is to a nearest integer, up to 2^-37: log 4.) -/
def Obligations.DcOnlyBlocksAreFlat : Prop :=
  Params.defaults.idct = .fixed ∧ (∀ dq, idct .fixed dq = idctFixed dq) ∧
  (∀ (id : Nat) (dq : List Half) (n : Nat), n < 64 →
    (idct (.other id) dq)[n]? = some (withinTolerance dq n (Config.idctOther id dq n))) ∧
  (∀ (dq : List Half) (y x : Nat) (b : Byte), y < 8 → x < 8 →
    (∃ r : Int, |(r : ℝ) - Claim.idealSample dq y x| ≤ 1 / 2 + 1 / 2 ^ 37 ∧
      |((withinTolerance dq (8 * y + x) b).toNat : Int) - Claim.level r| ≤ 2) ∧
    ∀ r : Int, |(r : ℝ) - Claim.idealSample dq y x| ≤ 1 / 2 → |(b.toNat : Int) - Claim.level r| ≤ 2 →
      withinTolerance dq (8 * y + x) b = b) ∧
  ∀ (d : Half) (n : Nat), n < 64 →
    (idctFixed (d :: List.replicate 63 0)).getD n 0 =
      BitVec.ofNat 8 (min (max ((1448 * ((1448 * d.toInt + 128) / 256) + 32768) / 65536 + 128) 0) 255).toNat

/-- R420: the colour conversion; its grey case is R421's: with Cb = Cr = 128 every channel is Y; and each channel is Y plus
the rounded term of its chroma, clamped. -/
def Obligations.GreyChromaGivesGrey : Prop :=
  ∀ y, y ≤ 255 →
    csc y 128 128 = [BitVec.ofNat 8 y, BitVec.ofNat 8 y, BitVec.ofNat 8 y] ∧
    ∀ cb cr, cb ≤ 255 → cr ≤ 255 → ∃ r g b : Byte, csc y cb cr = [r, g, b] ∧
      (r.toNat : Int) = min (max (y + (91881 * ((cr : Int) - 128) + 32768) / 65536) 0) 255 ∧
      (g.toNat : Int) = min (max (y + (-22554 * ((cb : Int) - 128) - 46802 * ((cr : Int) - 128) + 32768) / 65536) 0) 255 ∧
      (b.toNat : Int) = min (max (y + (116130 * ((cb : Int) - 128) + 32768) / 65536) 0) 255

/-- R422: a one-component frame is read one to one in both modes, whatever its factors: the output byte of a pixel is the
plane sample under it. R402 to R406: the sample of a component under a pixel: the box index in mode 0; in mode 1 first the
lines, then the columns, each by the triangle step with the neighbour clamped to the valid region where its ratio is 2, else
by the box index; a sample has 8 bits. R420, R430: the three bytes of a pixel are those of its three samples. -/
def Obligations.GrayscaleFramesAreReadOneToOne : Prop :=
  (∀ (s : State) (f : FrameSnap) (mode : BitVec 1) (x y : Nat) (b : Byte), f.Sound → f.nf = 1 → x < f.fw.toNat →
    y < f.fh.toNat → Memory.read s.planes (planeAddr 0 y x) = some b → pixel s f mode x y = .ok [b]) ∧
  (∀ (s : State) (f : FrameSnap) (mode : BitVec 1) (x y v0 v1 v2 : Nat), f.nf ≠ 1 → sample s f mode 0 x y = .ok v0 →
    sample s f mode 1 x y = .ok v1 → sample s f mode 2 x y = .ok v2 → pixel s f mode x y = .ok (csc v0 v1 v2)) ∧
  (∀ (s : State) (f : FrameSnap) (mode : BitVec 1) (i x y v : Nat), sample s f mode i x y = .ok v → v ≤ 255) ∧
  ∀ (s : State) (f : FrameSnap) (i : Nat) (c : FrameComp) (x y : Nat), f.Sound → f.comps[i]? = some c →
    x < f.fw.toNat → y < f.fh.toNat →
    let boxRow := y * c.v / f.vmax
    let boxCol := x * c.h / f.hmax
    let cell (row col : Nat) := Memory.read s.planes (planeAddr i row col)
    (∀ b, cell boxRow boxCol = some b → sample s f 0 i x y = .ok b.toNat) ∧
    (∀ col b, col < f.cwid c → f.vmax ≠ 2 * c.v → cell boxRow col = some b → sampleVert s f i c col y = .ok b.toNat) ∧
    (∀ col (near far : Byte), col < f.cwid c → f.vmax = 2 * c.v → cell (y / 2) col = some near →
      cell (Claim.farOf y (f.chgt c)) col = some far →
      sampleVert s f i c col y = .ok ((3 * near.toNat + far.toNat + 2) / 4)) ∧
    (f.hmax ≠ 2 * c.h → sample s f 1 i x y = sampleVert s f i c boxCol y) ∧
    (∀ near far, f.hmax = 2 * c.h → sampleVert s f i c (x / 2) y = .ok near →
      sampleVert s f i c (Claim.farOf x (f.cwid c)) y = .ok far →
      sample s f 1 i x y = .ok ((3 * near + far + 2) / 4))

/-- R430, R431: where `OutPush` is next and there is room, the engine pushes the cursor's channel of the cursor's pixel, and
the cursor goes to the next channel, pixel or line. R432, R433: every step keeps the count: OUT_COUNT is the number of image
bytes before the cursor; so the conversion, which ends in IDLE with FRAME_DONE, ends after width x height x components bytes.
-/
def Obligations.AConversionPushesTheWholeImage : Prop :=
  (∀ (s : State) (f : FrameSnap) (mode : BitVec 1) (bytes : List Byte) (b : Byte), s.st = .convert →
    nextOp s = .outPush → s.outFifo.length < s.par.outDepth → s.frame = some f → s.cvMode = some mode →
    pixel s f mode s.conv.x s.conv.y = .ok bytes → bytes[s.conv.ch]? = some b →
    ∃ t, outPush s = .ok t ∧ engineReady s = true ∧ engineStep s = .next { t with mid := false } ∧
      t.outFifo = s.outFifo ++ [b] ∧
      (s.outCount.toNat + 1 < 2 ^ 32 → t.outCount = s.outCount + 1 ∧ t.freeUsed = s.freeUsed) ∧
      (s.conv.ch + 1 < f.nf → t.conv = { s.conv with ch := s.conv.ch + 1 }) ∧
      (f.nf ≤ s.conv.ch + 1 → s.conv.x + 1 < f.fw.toNat → t.conv = { s.conv with x := s.conv.x + 1, ch := 0 }) ∧
      (f.nf ≤ s.conv.ch + 1 → f.fw.toNat ≤ s.conv.x + 1 → t.conv = { x := 0, y := s.conv.y + 1, ch := 0 }) ∧
      { t with outFifo := s.outFifo, outCount := s.outCount, freeUsed := s.freeUsed, conv := s.conv } = s) ∧
  (∀ s t : State, LiveInv s → Claim.CountInv s → step s = .next t → Claim.CountInv t) ∧
  ∀ s : State, LiveInv s → Claim.CountInv s → nextOp s = .convertDone → ∃ f, s.frame = some f ∧
    (f.fw.toNat * f.fh.toNat * f.nf < 2 ^ 32 → s.outCount.toNat = f.fw.toNat * f.fh.toNat * f.nf) ∧
    convertDone s = { s with st := .idle, intStatus := s.intStatus ||| 0x02 }

/-- R455, R35, R36: error entry: ERR, ERR_POS, the flush, the ERROR state and the interrupt, and nothing else. -/
def Obligations.ErrorEntryRecordsTheError : Prop :=
  ∀ (kind : ErrKind) (detail : Byte) (arg : Nat) (s : State), ∃ t, raise kind detail arg s = t ∧
    t.err.extractLsb' 0 4 = kind.code ∧ t.err.extractLsb' 4 4 = 0 ∧ t.err.extractLsb' 8 8 = detail ∧
    t.err.extractLsb' 16 8 = BitVec.ofNat 8 arg ∧ t.err.extractLsb' 24 8 = 0 ∧
    (s.st = .scan → t.errPos = s.br.inCount) ∧ (s.st ≠ .scan → t.errPos = 0) ∧ t.inFifo = [] ∧ t.eofSeen = false ∧
    t.st = .error ∧ t.intStatus = s.intStatus ||| 0x04 ∧
    { t with err := s.err, errPos := s.errPos, inFifo := s.inFifo, eofSeen := s.eofSeen, st := s.st
             intStatus := s.intStatus } = s

/-- R457, R458: ERROR is left only by ABORT or reset, to IDLE; until then the first error stays recorded. -/
def Obligations.OnlyAbortOrResetLeavesError : Prop :=
  ∀ s t : State, s.st = .error → step s = .next t →
    (t.st = .error ∧ t.err = s.err ∧ t.errPos = s.errPos) ∨
    (t.st = .idle ∧ resetNext s = true) ∨
    (t.st = .idle ∧ t.err = s.err ∧ t.errPos = s.errPos ∧ hostWriteNext 0x08 s = true ∧
      decodeCmd (nextWriteData s) = .abort)

/-- R50, R465: a set bit of INT_STATUS stays set until the host writes 1 to it or the machine is reset. -/
def Obligations.InterruptBitsStayUntilCleared : Prop :=
  ∀ (s t : State) (i : Nat), i < 6 → step s = .next t → s.intStatus.getLsbD i = true →
    t.intStatus.getLsbD i = true ∨ resetNext s = true ∨
      (hostWriteNext 0x54 s = true ∧ (nextWriteData s).getLsbD i = true)

/-- R127, R459, R231: a byte enters the output FIFO only in CONVERT, one at a time at its end, and no step of CONVERT raises
an error. -/
def Obligations.OutputIsProducedOnlyByAConversion : Prop :=
  ∀ s t : State, step s = .next t →
    (t.outFifo = s.outFifo ∨ t.outFifo = s.outFifo.tail ∨ t.outFifo = [] ∨
      (s.st = .convert ∧ t.st = .convert ∧ ∃ b, t.outFifo = s.outFifo ++ [b])) ∧
    (s.st = .convert → t.st ≠ .error)

/-- R124: during a scan or a conversion no step but a reset changes a table, and while it goes on no step changes a snapshot.
-/
def Obligations.TablesAndSnapshotsAreFrozenInUse : Prop :=
  ∀ s t : State, s.st = .scan ∨ s.st = .convert → step s = .next t →
    (t.tabs = s.tabs ∨ resetNext s = true) ∧
    (t.st = s.st → t.frame = s.frame ∧ t.scan = s.scan ∧ t.cvMode = s.cvMode)

/-- R23, R201, R337, R433, R455: the transitions between the engine states, over every step. -/
def Obligations.EngineStatesMoveAlongTheGraph : Prop :=
  ∀ s t : State, step s = .next t → t.st ≠ s.st →
    (s.st = .idle ∧ (t.st = .frame ∨ t.st = .error)) ∨
    (s.st = .frame ∧ (t.st = .scan ∨ t.st = .convert ∨ t.st = .error)) ∨
    (s.st = .scan ∧ (t.st = .frame ∨ t.st = .error)) ∨
    t.st = .idle

/-- R71, R370: an instruction stores no sample: after any but START_FRAME, ABORT and a soft reset every byte of memory reads
as before. -/
def Obligations.InstructionsStoreNoSample : Prop :=
  ∀ (i : Instr) (s t : State), exec i s = .next t →
    (∀ a, Memory.read t.planes a = Memory.read s.planes a) ∨
    (t.planes = [] ∧ (i = .startFrame ∨ i = .abort ∨ ∃ v, i = .ctrlSoftReset v))

/-- R77, R69-R71, R102: the invariants of the storage and of what is written hold at reset. (The second, and the form of
memory, are the model's own.) -/
def Obligations.ResetSatisfiesTheInvariants : Prop :=
  StorageInv State.reset ∧ LiveInv State.reset ∧ Claim.CountInv State.reset

/-- R26, R43, R62, R68-R70, R102: every step keeps the storage invariant: the parameters, the FIFOs' and the buffer's bounds,
the reserved bits, the valid bits, and memory's canonical form. -/
def Obligations.EveryStepKeepsTheStorageInvariant : Prop :=
  ∀ s t : State, StorageInv s → step s = .next t → StorageInv t

/-- R21, R220, R225, R325, R408: every step keeps what is written when: the frame and the scan in progress, the blocks stored
so far, and the whole valid region of every component done. -/
def Obligations.EveryStepKeepsTheLiveInvariant : Prop :=
  ∀ s t : State, StorageInv s → LiveInv s → step s = .next t → LiveInv t

/-- R11, R408: where the invariants hold no step reads an unwritten value or leaves a plane: the machine never faults. -/
def Obligations.NoStepFaults : Prop :=
  ∀ (s : State) (r : Fault), StorageInv s → LiveInv s → step s ≠ .fault r
end

