-- ==== Sys2Proof/Laws/State.lean ====
section
/-! SUPPORT. What each shared operation does to every field of State, as rewriting rules: a field the operation writes has
its new value, every other field is unchanged. -/
namespace Sys2Proof.Machine

variable (s : State)

/-- R50: with nothing to clear, an update sets bits. -/
@[simp] theorem intUpdate_set (old set : BitVec 6) : intUpdate old 0 set = old ||| set := by
  revert old set; decide

/-- R50. -/
@[simp] theorem setInt_fields (b : IntBit) :
    (setInt b s).st = s.st ∧ (setInt b s).regs = s.regs ∧ (setInt b s).intStatus = intUpdate s.intStatus 0 b.mask ∧
    (setInt b s).err = s.err ∧ (setInt b s).errPos = s.errPos ∧ (setInt b s).tabs = s.tabs ∧
    (setInt b s).stg = s.stg ∧ (setInt b s).stgOvf = s.stgOvf ∧ (setInt b s).frame = s.frame ∧
    (setInt b s).geometry = s.geometry ∧ (setInt b s).scan = s.scan ∧ (setInt b s).scanGeom = s.scanGeom ∧
    (setInt b s).nextRst = s.nextRst ∧ (setInt b s).pred = s.pred ∧ (setInt b s).blk = s.blk ∧
    (setInt b s).br = s.br ∧ (setInt b s).inFifo = s.inFifo ∧ (setInt b s).eofSeen = s.eofSeen ∧
    (setInt b s).outFifo = s.outFifo ∧ (setInt b s).outCount = s.outCount ∧ (setInt b s).planes = s.planes ∧
    (setInt b s).compDone = s.compDone ∧ (setInt b s).cvMode = s.cvMode ∧ (setInt b s).markerReg = s.markerReg ∧
    (setInt b s).mcuCount = s.mcuCount ∧ (setInt b s).rows = s.rows ∧ (setInt b s).trailing = s.trailing ∧
    (setInt b s).seq = s.seq ∧ (setInt b s).conv = s.conv ∧ (setInt b s).mid = s.mid ∧ (setInt b s).turns = s.turns ∧
    (setInt b s).rdata = s.rdata ∧ (setInt b s).freeUsed = s.freeUsed ∧ (setInt b s).par = s.par := by
  refine ⟨?_, ?_, ?_, ?_, ?_, ?_, ?_, ?_, ?_, ?_, ?_, ?_, ?_, ?_, ?_, ?_, ?_, ?_, ?_, ?_, ?_, ?_, ?_, ?_, ?_, ?_, ?_, ?_, ?_,
    ?_, ?_, ?_, ?_, ?_⟩ <;> rfl

/-- R201. -/
@[simp] theorem reject_fields :
    (reject s).st = s.st ∧ (reject s).regs = s.regs ∧ (reject s).intStatus = intUpdate s.intStatus 0 0x10 ∧
    (reject s).err = s.err ∧ (reject s).errPos = s.errPos ∧ (reject s).tabs = s.tabs ∧ (reject s).stg = s.stg ∧
    (reject s).stgOvf = s.stgOvf ∧ (reject s).frame = s.frame ∧ (reject s).geometry = s.geometry ∧
    (reject s).scan = s.scan ∧ (reject s).scanGeom = s.scanGeom ∧ (reject s).nextRst = s.nextRst ∧
    (reject s).pred = s.pred ∧ (reject s).blk = s.blk ∧ (reject s).br = s.br ∧ (reject s).inFifo = s.inFifo ∧
    (reject s).eofSeen = s.eofSeen ∧ (reject s).outFifo = s.outFifo ∧ (reject s).outCount = s.outCount ∧
    (reject s).planes = s.planes ∧ (reject s).compDone = s.compDone ∧ (reject s).cvMode = s.cvMode ∧
    (reject s).markerReg = s.markerReg ∧ (reject s).mcuCount = s.mcuCount ∧ (reject s).rows = s.rows ∧
    (reject s).trailing = s.trailing ∧ (reject s).seq = s.seq ∧ (reject s).conv = s.conv ∧ (reject s).mid = s.mid ∧
    (reject s).turns = s.turns ∧ (reject s).rdata = s.rdata ∧ (reject s).freeUsed = s.freeUsed ∧
    (reject s).par = s.par := by
  refine ⟨?_, ?_, ?_, ?_, ?_, ?_, ?_, ?_, ?_, ?_, ?_, ?_, ?_, ?_, ?_, ?_, ?_, ?_, ?_, ?_, ?_, ?_, ?_, ?_, ?_, ?_, ?_, ?_, ?_,
    ?_, ?_, ?_, ?_, ?_⟩ <;> rfl

/-- R455. -/
@[simp] theorem raise_fields (k : ErrKind) (d : Byte) (a : Nat) :
    (raise k d a s).st = .error ∧ (raise k d a s).regs = s.regs ∧
    (raise k d a s).intStatus = intUpdate s.intStatus 0 0x04 ∧ (raise k d a s).err = errWord k d a ∧
    (raise k d a s).errPos = (if s.st = .scan then s.br.inCount else 0) ∧ (raise k d a s).tabs = s.tabs ∧
    (raise k d a s).stg = s.stg ∧ (raise k d a s).stgOvf = s.stgOvf ∧ (raise k d a s).frame = s.frame ∧
    (raise k d a s).geometry = s.geometry ∧ (raise k d a s).scan = s.scan ∧ (raise k d a s).scanGeom = s.scanGeom ∧
    (raise k d a s).nextRst = s.nextRst ∧ (raise k d a s).pred = s.pred ∧ (raise k d a s).blk = s.blk ∧
    (raise k d a s).br = s.br ∧ (raise k d a s).inFifo = [] ∧ (raise k d a s).eofSeen = false ∧
    (raise k d a s).outFifo = s.outFifo ∧ (raise k d a s).outCount = s.outCount ∧ (raise k d a s).planes = s.planes ∧
    (raise k d a s).compDone = s.compDone ∧ (raise k d a s).cvMode = s.cvMode ∧
    (raise k d a s).markerReg = s.markerReg ∧ (raise k d a s).mcuCount = s.mcuCount ∧ (raise k d a s).rows = s.rows ∧
    (raise k d a s).trailing = s.trailing ∧ (raise k d a s).seq = s.seq ∧ (raise k d a s).conv = s.conv ∧
    (raise k d a s).mid = s.mid ∧ (raise k d a s).turns = s.turns ∧ (raise k d a s).rdata = s.rdata ∧
    (raise k d a s).freeUsed = s.freeUsed ∧ (raise k d a s).par = s.par := by
  refine ⟨?_, ?_, ?_, ?_, ?_, ?_, ?_, ?_, ?_, ?_, ?_, ?_, ?_, ?_, ?_, ?_, ?_, ?_, ?_, ?_, ?_, ?_, ?_, ?_, ?_, ?_, ?_, ?_, ?_,
    ?_, ?_, ?_, ?_, ?_⟩ <;> rfl

/-- R240. -/
@[simp] theorem abortFrame_fields :
    (abortFrame s).st = .idle ∧ (abortFrame s).regs = s.regs ∧ (abortFrame s).intStatus = s.intStatus ∧
    (abortFrame s).err = s.err ∧ (abortFrame s).errPos = s.errPos ∧ (abortFrame s).tabs = s.tabs ∧
    (abortFrame s).stg = [] ∧ (abortFrame s).stgOvf = false ∧ (abortFrame s).frame = none ∧
    (abortFrame s).geometry = 0 ∧ (abortFrame s).scan = none ∧ (abortFrame s).scanGeom = 0 ∧
    (abortFrame s).nextRst = 0 ∧ (abortFrame s).pred = ⟨0, 0, 0⟩ ∧ (abortFrame s).blk = s.blk ∧
    (abortFrame s).br = { s.br with nbits := 0, mode := .data, p := 0 } ∧ (abortFrame s).inFifo = [] ∧
    (abortFrame s).eofSeen = false ∧ (abortFrame s).outFifo = [] ∧ (abortFrame s).outCount = 0 ∧
    (abortFrame s).planes = [] ∧ (abortFrame s).compDone = 0 ∧ (abortFrame s).cvMode = s.cvMode ∧
    (abortFrame s).markerReg = s.markerReg ∧ (abortFrame s).mcuCount = s.mcuCount ∧ (abortFrame s).rows = s.rows ∧
    (abortFrame s).trailing = s.trailing ∧ (abortFrame s).seq = s.seq ∧ (abortFrame s).conv = s.conv ∧
    (abortFrame s).mid = s.mid ∧ (abortFrame s).turns = s.turns ∧ (abortFrame s).rdata = s.rdata ∧
    (abortFrame s).freeUsed = s.freeUsed ∧ (abortFrame s).par = s.par := by
  refine ⟨?_, ?_, ?_, ?_, ?_, ?_, ?_, ?_, ?_, ?_, ?_, ?_, ?_, ?_, ?_, ?_, ?_, ?_, ?_, ?_, ?_, ?_, ?_, ?_, ?_, ?_, ?_, ?_, ?_,
    ?_, ?_, ?_, ?_, ?_⟩ <;> rfl

/-- R262. -/
@[simp] theorem fetchedByte_fields (b : Byte) :
    (fetchedByte b s).st = s.st ∧ (fetchedByte b s).regs = s.regs ∧ (fetchedByte b s).intStatus = s.intStatus ∧
    (fetchedByte b s).err = s.err ∧ (fetchedByte b s).errPos = s.errPos ∧ (fetchedByte b s).tabs = s.tabs ∧
    (fetchedByte b s).stg = s.stg ∧ (fetchedByte b s).stgOvf = s.stgOvf ∧ (fetchedByte b s).frame = s.frame ∧
    (fetchedByte b s).geometry = s.geometry ∧ (fetchedByte b s).scan = s.scan ∧
    (fetchedByte b s).scanGeom = s.scanGeom ∧ (fetchedByte b s).nextRst = s.nextRst ∧
    (fetchedByte b s).pred = s.pred ∧ (fetchedByte b s).blk = s.blk ∧
    (fetchedByte b s).br = { s.br with inCount := s.br.p, byte := some b, window := [] } ∧
    (fetchedByte b s).inFifo = s.inFifo ∧ (fetchedByte b s).eofSeen = s.eofSeen ∧
    (fetchedByte b s).outFifo = s.outFifo ∧ (fetchedByte b s).outCount = s.outCount ∧
    (fetchedByte b s).planes = s.planes ∧ (fetchedByte b s).compDone = s.compDone ∧
    (fetchedByte b s).cvMode = s.cvMode ∧ (fetchedByte b s).markerReg = s.markerReg ∧
    (fetchedByte b s).mcuCount = s.mcuCount ∧ (fetchedByte b s).rows = s.rows ∧
    (fetchedByte b s).trailing = s.trailing ∧ (fetchedByte b s).seq = s.seq ∧ (fetchedByte b s).conv = s.conv ∧
    (fetchedByte b s).mid = s.mid ∧ (fetchedByte b s).turns = s.turns ∧ (fetchedByte b s).rdata = s.rdata ∧
    (fetchedByte b s).freeUsed = s.freeUsed ∧ (fetchedByte b s).par = s.par := by
  refine ⟨?_, ?_, ?_, ?_, ?_, ?_, ?_, ?_, ?_, ?_, ?_, ?_, ?_, ?_, ?_, ?_, ?_, ?_, ?_, ?_, ?_, ?_, ?_, ?_, ?_, ?_, ?_, ?_, ?_,
    ?_, ?_, ?_, ?_, ?_⟩ <;> rfl

/-- R262. -/
@[simp] theorem fetchedNone_fields (md : BrMode) (n : Word) :
    (fetchedNone md n s).st = s.st ∧ (fetchedNone md n s).regs = s.regs ∧
    (fetchedNone md n s).intStatus = s.intStatus ∧ (fetchedNone md n s).err = s.err ∧
    (fetchedNone md n s).errPos = s.errPos ∧ (fetchedNone md n s).tabs = s.tabs ∧ (fetchedNone md n s).stg = s.stg ∧
    (fetchedNone md n s).stgOvf = s.stgOvf ∧ (fetchedNone md n s).frame = s.frame ∧
    (fetchedNone md n s).geometry = s.geometry ∧ (fetchedNone md n s).scan = s.scan ∧
    (fetchedNone md n s).scanGeom = s.scanGeom ∧ (fetchedNone md n s).nextRst = s.nextRst ∧
    (fetchedNone md n s).pred = s.pred ∧ (fetchedNone md n s).blk = s.blk ∧
    (fetchedNone md n s).br = { s.br with mode := md, inCount := n, window := [] } ∧
    (fetchedNone md n s).inFifo = s.inFifo ∧ (fetchedNone md n s).eofSeen = s.eofSeen ∧
    (fetchedNone md n s).outFifo = s.outFifo ∧ (fetchedNone md n s).outCount = s.outCount ∧
    (fetchedNone md n s).planes = s.planes ∧ (fetchedNone md n s).compDone = s.compDone ∧
    (fetchedNone md n s).cvMode = s.cvMode ∧ (fetchedNone md n s).markerReg = s.markerReg ∧
    (fetchedNone md n s).mcuCount = s.mcuCount ∧ (fetchedNone md n s).rows = s.rows ∧
    (fetchedNone md n s).trailing = s.trailing ∧ (fetchedNone md n s).seq = s.seq ∧
    (fetchedNone md n s).conv = s.conv ∧ (fetchedNone md n s).mid = s.mid ∧ (fetchedNone md n s).turns = s.turns ∧
    (fetchedNone md n s).rdata = s.rdata ∧ (fetchedNone md n s).freeUsed = s.freeUsed ∧
    (fetchedNone md n s).par = s.par := by
  refine ⟨?_, ?_, ?_, ?_, ?_, ?_, ?_, ?_, ?_, ?_, ?_, ?_, ?_, ?_, ?_, ?_, ?_, ?_, ?_, ?_, ?_, ?_, ?_, ?_, ?_, ?_, ?_, ?_, ?_,
    ?_, ?_, ?_, ?_, ?_⟩ <;> rfl

/-- R262. -/
@[simp] theorem detectMarker_fields (x : Byte) :
    (detectMarker x s).st = s.st ∧ (detectMarker x s).regs = s.regs ∧ (detectMarker x s).intStatus = s.intStatus ∧
    (detectMarker x s).err = s.err ∧ (detectMarker x s).errPos = s.errPos ∧ (detectMarker x s).tabs = s.tabs ∧
    (detectMarker x s).stg = s.stg ∧ (detectMarker x s).stgOvf = s.stgOvf ∧ (detectMarker x s).frame = s.frame ∧
    (detectMarker x s).geometry = s.geometry ∧ (detectMarker x s).scan = s.scan ∧
    (detectMarker x s).scanGeom = s.scanGeom ∧ (detectMarker x s).nextRst = s.nextRst ∧
    (detectMarker x s).pred = s.pred ∧ (detectMarker x s).blk = s.blk ∧
    (detectMarker x s).br = { s.br with mode := .marker, inCount := s.br.start, window := [], marker := some x } ∧
    (detectMarker x s).inFifo = s.inFifo ∧ (detectMarker x s).eofSeen = s.eofSeen ∧
    (detectMarker x s).outFifo = s.outFifo ∧ (detectMarker x s).outCount = s.outCount ∧
    (detectMarker x s).planes = s.planes ∧ (detectMarker x s).compDone = s.compDone ∧
    (detectMarker x s).cvMode = s.cvMode ∧ (detectMarker x s).markerReg = s.markerReg ∧
    (detectMarker x s).mcuCount = s.mcuCount ∧ (detectMarker x s).rows = s.rows ∧
    (detectMarker x s).trailing = s.trailing ∧ (detectMarker x s).seq = s.seq ∧ (detectMarker x s).conv = s.conv ∧
    (detectMarker x s).mid = s.mid ∧ (detectMarker x s).turns = s.turns ∧ (detectMarker x s).rdata = s.rdata ∧
    (detectMarker x s).freeUsed = s.freeUsed ∧ (detectMarker x s).par = s.par := by
  refine ⟨?_, ?_, ?_, ?_, ?_, ?_, ?_, ?_, ?_, ?_, ?_, ?_, ?_, ?_, ?_, ?_, ?_, ?_, ?_, ?_, ?_, ?_, ?_, ?_, ?_, ?_, ?_, ?_, ?_,
    ?_, ?_, ?_, ?_, ?_⟩ <;> rfl

/-- R268. -/
@[simp] theorem align_fields :
    (align s).st = s.st ∧ (align s).regs = s.regs ∧ (align s).intStatus = s.intStatus ∧ (align s).err = s.err ∧
    (align s).errPos = s.errPos ∧ (align s).tabs = s.tabs ∧ (align s).stg = s.stg ∧ (align s).stgOvf = s.stgOvf ∧
    (align s).frame = s.frame ∧ (align s).geometry = s.geometry ∧ (align s).scan = s.scan ∧
    (align s).scanGeom = s.scanGeom ∧ (align s).nextRst = s.nextRst ∧ (align s).pred = s.pred ∧
    (align s).blk = s.blk ∧ (align s).br = { s.br with nbits := 0 } ∧ (align s).inFifo = s.inFifo ∧
    (align s).eofSeen = s.eofSeen ∧ (align s).outFifo = s.outFifo ∧ (align s).outCount = s.outCount ∧
    (align s).planes = s.planes ∧ (align s).compDone = s.compDone ∧ (align s).cvMode = s.cvMode ∧
    (align s).markerReg = s.markerReg ∧ (align s).mcuCount = s.mcuCount ∧ (align s).rows = s.rows ∧
    (align s).trailing = s.trailing ∧ (align s).seq = s.seq ∧ (align s).conv = s.conv ∧ (align s).mid = s.mid ∧
    (align s).turns = s.turns ∧ (align s).rdata = s.rdata ∧ (align s).freeUsed = s.freeUsed ∧
    (align s).par = s.par := by
  refine ⟨?_, ?_, ?_, ?_, ?_, ?_, ?_, ?_, ?_, ?_, ?_, ?_, ?_, ?_, ?_, ?_, ?_, ?_, ?_, ?_, ?_, ?_, ?_, ?_, ?_, ?_, ?_, ?_, ?_,
    ?_, ?_, ?_, ?_, ?_⟩ <;> rfl

/-- R270. -/
@[simp] theorem consumeMarker_fields :
    (consumeMarker s).st = s.st ∧ (consumeMarker s).regs = s.regs ∧ (consumeMarker s).intStatus = s.intStatus ∧
    (consumeMarker s).err = s.err ∧ (consumeMarker s).errPos = s.errPos ∧ (consumeMarker s).tabs = s.tabs ∧
    (consumeMarker s).stg = s.stg ∧ (consumeMarker s).stgOvf = s.stgOvf ∧ (consumeMarker s).frame = s.frame ∧
    (consumeMarker s).geometry = s.geometry ∧ (consumeMarker s).scan = s.scan ∧
    (consumeMarker s).scanGeom = s.scanGeom ∧ (consumeMarker s).nextRst = s.nextRst ∧
    (consumeMarker s).pred = s.pred ∧ (consumeMarker s).blk = s.blk ∧
    (consumeMarker s).br = { s.br with mode := .data, inCount := s.br.p, nbits := 0, marker := none } ∧
    (consumeMarker s).inFifo = s.inFifo ∧ (consumeMarker s).eofSeen = s.eofSeen ∧
    (consumeMarker s).outFifo = s.outFifo ∧ (consumeMarker s).outCount = s.outCount ∧
    (consumeMarker s).planes = s.planes ∧ (consumeMarker s).compDone = s.compDone ∧
    (consumeMarker s).cvMode = s.cvMode ∧ (consumeMarker s).markerReg = s.markerReg ∧
    (consumeMarker s).mcuCount = s.mcuCount ∧ (consumeMarker s).rows = s.rows ∧
    (consumeMarker s).trailing = s.trailing ∧ (consumeMarker s).seq = s.seq ∧ (consumeMarker s).conv = s.conv ∧
    (consumeMarker s).mid = s.mid ∧ (consumeMarker s).turns = s.turns ∧ (consumeMarker s).rdata = s.rdata ∧
    (consumeMarker s).freeUsed = s.freeUsed ∧ (consumeMarker s).par = s.par := by
  refine ⟨?_, ?_, ?_, ?_, ?_, ?_, ?_, ?_, ?_, ?_, ?_, ?_, ?_, ?_, ?_, ?_, ?_, ?_, ?_, ?_, ?_, ?_, ?_, ?_, ?_, ?_, ?_, ?_, ?_,
    ?_, ?_, ?_, ?_, ?_⟩ <;> rfl

/-- R62. -/
@[simp] theorem clearStaging_fields :
    (clearStaging s).st = s.st ∧ (clearStaging s).regs = s.regs ∧ (clearStaging s).intStatus = s.intStatus ∧
    (clearStaging s).err = s.err ∧ (clearStaging s).errPos = s.errPos ∧ (clearStaging s).tabs = s.tabs ∧
    (clearStaging s).stg = [] ∧ (clearStaging s).stgOvf = false ∧ (clearStaging s).frame = s.frame ∧
    (clearStaging s).geometry = s.geometry ∧ (clearStaging s).scan = s.scan ∧
    (clearStaging s).scanGeom = s.scanGeom ∧ (clearStaging s).nextRst = s.nextRst ∧ (clearStaging s).pred = s.pred ∧
    (clearStaging s).blk = s.blk ∧ (clearStaging s).br = s.br ∧ (clearStaging s).inFifo = s.inFifo ∧
    (clearStaging s).eofSeen = s.eofSeen ∧ (clearStaging s).outFifo = s.outFifo ∧
    (clearStaging s).outCount = s.outCount ∧ (clearStaging s).planes = s.planes ∧
    (clearStaging s).compDone = s.compDone ∧ (clearStaging s).cvMode = s.cvMode ∧
    (clearStaging s).markerReg = s.markerReg ∧ (clearStaging s).mcuCount = s.mcuCount ∧
    (clearStaging s).rows = s.rows ∧ (clearStaging s).trailing = s.trailing ∧ (clearStaging s).seq = s.seq ∧
    (clearStaging s).conv = s.conv ∧ (clearStaging s).mid = s.mid ∧ (clearStaging s).turns = s.turns ∧
    (clearStaging s).rdata = s.rdata ∧ (clearStaging s).freeUsed = s.freeUsed ∧ (clearStaging s).par = s.par := by
  refine ⟨?_, ?_, ?_, ?_, ?_, ?_, ?_, ?_, ?_, ?_, ?_, ?_, ?_, ?_, ?_, ?_, ?_, ?_, ?_, ?_, ?_, ?_, ?_, ?_, ?_, ?_, ?_, ?_, ?_,
    ?_, ?_, ?_, ?_, ?_⟩ <;> rfl

/-- R210. -/
@[simp] theorem installQt_fields (t : BitVec 2) (q : List Half) :
    (installQt t q s).st = s.st ∧ (installQt t q s).regs = s.regs ∧ (installQt t q s).intStatus = s.intStatus ∧
    (installQt t q s).err = s.err ∧ (installQt t q s).errPos = s.errPos ∧
    (installQt t q s).tabs = { s.tabs with qt := s.tabs.qt.set t (some q), qtValid := s.tabs.qtValid ||| idBit t } ∧
    (installQt t q s).stg = s.stg ∧ (installQt t q s).stgOvf = s.stgOvf ∧ (installQt t q s).frame = s.frame ∧
    (installQt t q s).geometry = s.geometry ∧ (installQt t q s).scan = s.scan ∧
    (installQt t q s).scanGeom = s.scanGeom ∧ (installQt t q s).nextRst = s.nextRst ∧
    (installQt t q s).pred = s.pred ∧ (installQt t q s).blk = s.blk ∧ (installQt t q s).br = s.br ∧
    (installQt t q s).inFifo = s.inFifo ∧ (installQt t q s).eofSeen = s.eofSeen ∧
    (installQt t q s).outFifo = s.outFifo ∧ (installQt t q s).outCount = s.outCount ∧
    (installQt t q s).planes = s.planes ∧ (installQt t q s).compDone = s.compDone ∧
    (installQt t q s).cvMode = s.cvMode ∧ (installQt t q s).markerReg = s.markerReg ∧
    (installQt t q s).mcuCount = s.mcuCount ∧ (installQt t q s).rows = s.rows ∧
    (installQt t q s).trailing = s.trailing ∧ (installQt t q s).seq = s.seq ∧ (installQt t q s).conv = s.conv ∧
    (installQt t q s).mid = s.mid ∧ (installQt t q s).turns = s.turns ∧ (installQt t q s).rdata = s.rdata ∧
    (installQt t q s).freeUsed = s.freeUsed ∧ (installQt t q s).par = s.par := by
  refine ⟨?_, ?_, ?_, ?_, ?_, ?_, ?_, ?_, ?_, ?_, ?_, ?_, ?_, ?_, ?_, ?_, ?_, ?_, ?_, ?_, ?_, ?_, ?_, ?_, ?_, ?_, ?_, ?_, ?_,
    ?_, ?_, ?_, ?_, ?_⟩ <;> rfl

/-- R222. -/
@[simp] theorem commitFrame_fields (f : FrameSnap) :
    (commitFrame f s).st = .frame ∧ (commitFrame f s).regs = s.regs ∧ (commitFrame f s).intStatus = s.intStatus ∧
    (commitFrame f s).err = s.err ∧ (commitFrame f s).errPos = s.errPos ∧ (commitFrame f s).tabs = s.tabs ∧
    (commitFrame f s).stg = s.stg ∧ (commitFrame f s).stgOvf = s.stgOvf ∧ (commitFrame f s).frame = some f ∧
    (commitFrame f s).geometry = f.geometry ∧ (commitFrame f s).scan = s.scan ∧
    (commitFrame f s).scanGeom = s.scanGeom ∧ (commitFrame f s).nextRst = s.nextRst ∧
    (commitFrame f s).pred = s.pred ∧ (commitFrame f s).blk = s.blk ∧ (commitFrame f s).br = s.br ∧
    (commitFrame f s).inFifo = s.inFifo ∧ (commitFrame f s).eofSeen = s.eofSeen ∧ (commitFrame f s).outFifo = [] ∧
    (commitFrame f s).outCount = 0 ∧ (commitFrame f s).planes = [] ∧ (commitFrame f s).compDone = 0 ∧
    (commitFrame f s).cvMode = s.cvMode ∧ (commitFrame f s).markerReg = s.markerReg ∧
    (commitFrame f s).mcuCount = s.mcuCount ∧ (commitFrame f s).rows = s.rows ∧
    (commitFrame f s).trailing = s.trailing ∧ (commitFrame f s).seq = s.seq ∧ (commitFrame f s).conv = s.conv ∧
    (commitFrame f s).mid = s.mid ∧ (commitFrame f s).turns = s.turns ∧ (commitFrame f s).rdata = s.rdata ∧
    (commitFrame f s).freeUsed = s.freeUsed ∧ (commitFrame f s).par = s.par := by
  refine ⟨?_, ?_, ?_, ?_, ?_, ?_, ?_, ?_, ?_, ?_, ?_, ?_, ?_, ?_, ?_, ?_, ?_, ?_, ?_, ?_, ?_, ?_, ?_, ?_, ?_, ?_, ?_, ?_, ?_,
    ?_, ?_, ?_, ?_, ?_⟩ <;> rfl

/-- R226. -/
@[simp] theorem commitScan_fields (sc : ScanSnap) :
    (commitScan sc s).st = .scan ∧ (commitScan sc s).regs = s.regs ∧ (commitScan sc s).intStatus = s.intStatus ∧
    (commitScan sc s).err = s.err ∧ (commitScan sc s).errPos = s.errPos ∧ (commitScan sc s).tabs = s.tabs ∧
    (commitScan sc s).stg = s.stg ∧ (commitScan sc s).stgOvf = s.stgOvf ∧ (commitScan sc s).frame = s.frame ∧
    (commitScan sc s).geometry = s.geometry ∧ (commitScan sc s).scan = some sc ∧
    (commitScan sc s).scanGeom = sc.geom ∧ (commitScan sc s).nextRst = 0 ∧ (commitScan sc s).pred = ⟨0, 0, 0⟩ ∧
    (commitScan sc s).blk = s.blk ∧ (commitScan sc s).br = BitReader.initial ∧ (commitScan sc s).inFifo = [] ∧
    (commitScan sc s).eofSeen = false ∧ (commitScan sc s).outFifo = s.outFifo ∧
    (commitScan sc s).outCount = s.outCount ∧ (commitScan sc s).planes = s.planes ∧
    (commitScan sc s).compDone = s.compDone ∧ (commitScan sc s).cvMode = s.cvMode ∧ (commitScan sc s).markerReg = 0 ∧
    (commitScan sc s).mcuCount = 0 ∧ (commitScan sc s).rows = 0 ∧ (commitScan sc s).trailing = 0 ∧
    (commitScan sc s).seq = Sequencer.initial ∧ (commitScan sc s).conv = s.conv ∧ (commitScan sc s).mid = s.mid ∧
    (commitScan sc s).turns = s.turns ∧ (commitScan sc s).rdata = s.rdata ∧ (commitScan sc s).freeUsed = s.freeUsed ∧
    (commitScan sc s).par = s.par := by
  refine ⟨?_, ?_, ?_, ?_, ?_, ?_, ?_, ?_, ?_, ?_, ?_, ?_, ?_, ?_, ?_, ?_, ?_, ?_, ?_, ?_, ?_, ?_, ?_, ?_, ?_, ?_, ?_, ?_, ?_,
    ?_, ?_, ?_, ?_, ?_⟩ <;> rfl

/-- R21. -/
@[simp] theorem setBits_fields (b : Bits) :
    (setBits b s).st = s.st ∧ (setBits b s).regs = s.regs ∧ (setBits b s).intStatus = s.intStatus ∧
    (setBits b s).err = s.err ∧ (setBits b s).errPos = s.errPos ∧ (setBits b s).tabs = s.tabs ∧
    (setBits b s).stg = s.stg ∧ (setBits b s).stgOvf = s.stgOvf ∧ (setBits b s).frame = s.frame ∧
    (setBits b s).geometry = s.geometry ∧ (setBits b s).scan = s.scan ∧ (setBits b s).scanGeom = s.scanGeom ∧
    (setBits b s).nextRst = s.nextRst ∧ (setBits b s).pred = s.pred ∧ (setBits b s).blk = s.blk ∧
    (setBits b s).br = s.br ∧ (setBits b s).inFifo = s.inFifo ∧ (setBits b s).eofSeen = s.eofSeen ∧
    (setBits b s).outFifo = s.outFifo ∧ (setBits b s).outCount = s.outCount ∧ (setBits b s).planes = s.planes ∧
    (setBits b s).compDone = s.compDone ∧ (setBits b s).cvMode = s.cvMode ∧ (setBits b s).markerReg = s.markerReg ∧
    (setBits b s).mcuCount = s.mcuCount ∧ (setBits b s).rows = s.rows ∧ (setBits b s).trailing = s.trailing ∧
    (setBits b s).seq = { s.seq with bits := b } ∧ (setBits b s).conv = s.conv ∧ (setBits b s).mid = s.mid ∧
    (setBits b s).turns = s.turns ∧ (setBits b s).rdata = s.rdata ∧ (setBits b s).freeUsed = s.freeUsed ∧
    (setBits b s).par = s.par := by
  refine ⟨?_, ?_, ?_, ?_, ?_, ?_, ?_, ?_, ?_, ?_, ?_, ?_, ?_, ?_, ?_, ?_, ?_, ?_, ?_, ?_, ?_, ?_, ?_, ?_, ?_, ?_, ?_, ?_, ?_,
    ?_, ?_, ?_, ?_, ?_⟩ <;> rfl

/-- R302. -/
@[simp] theorem startBlock_fields (b : Nat) :
    (startBlock b s).st = s.st ∧ (startBlock b s).regs = s.regs ∧ (startBlock b s).intStatus = s.intStatus ∧
    (startBlock b s).err = s.err ∧ (startBlock b s).errPos = s.errPos ∧ (startBlock b s).tabs = s.tabs ∧
    (startBlock b s).stg = s.stg ∧ (startBlock b s).stgOvf = s.stgOvf ∧ (startBlock b s).frame = s.frame ∧
    (startBlock b s).geometry = s.geometry ∧ (startBlock b s).scan = s.scan ∧
    (startBlock b s).scanGeom = s.scanGeom ∧ (startBlock b s).nextRst = s.nextRst ∧ (startBlock b s).pred = s.pred ∧
    (startBlock b s).blk = { s.blk with coef := List.replicate 64 (some 0) } ∧ (startBlock b s).br = s.br ∧
    (startBlock b s).inFifo = s.inFifo ∧ (startBlock b s).eofSeen = s.eofSeen ∧
    (startBlock b s).outFifo = s.outFifo ∧ (startBlock b s).outCount = s.outCount ∧
    (startBlock b s).planes = s.planes ∧ (startBlock b s).compDone = s.compDone ∧
    (startBlock b s).cvMode = s.cvMode ∧ (startBlock b s).markerReg = s.markerReg ∧
    (startBlock b s).mcuCount = s.mcuCount ∧ (startBlock b s).rows = s.rows ∧
    (startBlock b s).trailing = s.trailing ∧
    (startBlock b s).seq = { s.seq with phase := .blockDc, b := b, k := 0, bits := .huff 0 0 } ∧
    (startBlock b s).conv = s.conv ∧ (startBlock b s).mid = s.mid ∧ (startBlock b s).turns = s.turns ∧
    (startBlock b s).rdata = s.rdata ∧ (startBlock b s).freeUsed = s.freeUsed ∧ (startBlock b s).par = s.par := by
  refine ⟨?_, ?_, ?_, ?_, ?_, ?_, ?_, ?_, ?_, ?_, ?_, ?_, ?_, ?_, ?_, ?_, ?_, ?_, ?_, ?_, ?_, ?_, ?_, ?_, ?_, ?_, ?_, ?_, ?_,
    ?_, ?_, ?_, ?_, ?_⟩ <;> rfl

/-- R67. -/
@[simp] theorem setCoef_fields (n : Nat) (v : Half) :
    (setCoef n v s).st = s.st ∧ (setCoef n v s).regs = s.regs ∧ (setCoef n v s).intStatus = s.intStatus ∧
    (setCoef n v s).err = s.err ∧ (setCoef n v s).errPos = s.errPos ∧ (setCoef n v s).tabs = s.tabs ∧
    (setCoef n v s).stg = s.stg ∧ (setCoef n v s).stgOvf = s.stgOvf ∧ (setCoef n v s).frame = s.frame ∧
    (setCoef n v s).geometry = s.geometry ∧ (setCoef n v s).scan = s.scan ∧ (setCoef n v s).scanGeom = s.scanGeom ∧
    (setCoef n v s).nextRst = s.nextRst ∧ (setCoef n v s).pred = s.pred ∧
    (setCoef n v s).blk = { s.blk with coef := s.blk.coef.set n (some v) } ∧ (setCoef n v s).br = s.br ∧
    (setCoef n v s).inFifo = s.inFifo ∧ (setCoef n v s).eofSeen = s.eofSeen ∧ (setCoef n v s).outFifo = s.outFifo ∧
    (setCoef n v s).outCount = s.outCount ∧ (setCoef n v s).planes = s.planes ∧
    (setCoef n v s).compDone = s.compDone ∧ (setCoef n v s).cvMode = s.cvMode ∧
    (setCoef n v s).markerReg = s.markerReg ∧ (setCoef n v s).mcuCount = s.mcuCount ∧ (setCoef n v s).rows = s.rows ∧
    (setCoef n v s).trailing = s.trailing ∧ (setCoef n v s).seq = s.seq ∧ (setCoef n v s).conv = s.conv ∧
    (setCoef n v s).mid = s.mid ∧ (setCoef n v s).turns = s.turns ∧ (setCoef n v s).rdata = s.rdata ∧
    (setCoef n v s).freeUsed = s.freeUsed ∧ (setCoef n v s).par = s.par := by
  refine ⟨?_, ?_, ?_, ?_, ?_, ?_, ?_, ?_, ?_, ?_, ?_, ?_, ?_, ?_, ?_, ?_, ?_, ?_, ?_, ?_, ?_, ?_, ?_, ?_, ?_, ?_, ?_, ?_, ?_,
    ?_, ?_, ?_, ?_, ?_⟩ <;> rfl

/-- R307. -/
@[simp] theorem acContinue_fields (k : Nat) :
    (acContinue k s).st = s.st ∧ (acContinue k s).regs = s.regs ∧ (acContinue k s).intStatus = s.intStatus ∧
    (acContinue k s).err = s.err ∧ (acContinue k s).errPos = s.errPos ∧ (acContinue k s).tabs = s.tabs ∧
    (acContinue k s).stg = s.stg ∧ (acContinue k s).stgOvf = s.stgOvf ∧ (acContinue k s).frame = s.frame ∧
    (acContinue k s).geometry = s.geometry ∧ (acContinue k s).scan = s.scan ∧
    (acContinue k s).scanGeom = s.scanGeom ∧ (acContinue k s).nextRst = s.nextRst ∧ (acContinue k s).pred = s.pred ∧
    (acContinue k s).blk = s.blk ∧ (acContinue k s).br = s.br ∧ (acContinue k s).inFifo = s.inFifo ∧
    (acContinue k s).eofSeen = s.eofSeen ∧ (acContinue k s).outFifo = s.outFifo ∧
    (acContinue k s).outCount = s.outCount ∧ (acContinue k s).planes = s.planes ∧
    (acContinue k s).compDone = s.compDone ∧ (acContinue k s).cvMode = s.cvMode ∧
    (acContinue k s).markerReg = s.markerReg ∧ (acContinue k s).mcuCount = s.mcuCount ∧
    (acContinue k s).rows = s.rows ∧ (acContinue k s).trailing = s.trailing ∧
    (acContinue k s).seq = { s.seq with phase := if k ≤ 63 then .blockAc else .store, k := k, bits := .huff 0 0 } ∧
    (acContinue k s).conv = s.conv ∧ (acContinue k s).mid = s.mid ∧ (acContinue k s).turns = s.turns ∧
    (acContinue k s).rdata = s.rdata ∧ (acContinue k s).freeUsed = s.freeUsed ∧ (acContinue k s).par = s.par := by
  refine ⟨?_, ?_, ?_, ?_, ?_, ?_, ?_, ?_, ?_, ?_, ?_, ?_, ?_, ?_, ?_, ?_, ?_, ?_, ?_, ?_, ?_, ?_, ?_, ?_, ?_, ?_, ?_, ?_, ?_,
    ?_, ?_, ?_, ?_, ?_⟩ <;> rfl

/-- R311. -/
@[simp] theorem acStore_fields (k : Nat) (v : Int) :
    (acStore k v s).st = s.st ∧ (acStore k v s).regs = s.regs ∧ (acStore k v s).intStatus = s.intStatus ∧
    (acStore k v s).err = s.err ∧ (acStore k v s).errPos = s.errPos ∧ (acStore k v s).tabs = s.tabs ∧
    (acStore k v s).stg = s.stg ∧ (acStore k v s).stgOvf = s.stgOvf ∧ (acStore k v s).frame = s.frame ∧
    (acStore k v s).geometry = s.geometry ∧ (acStore k v s).scan = s.scan ∧ (acStore k v s).scanGeom = s.scanGeom ∧
    (acStore k v s).nextRst = s.nextRst ∧ (acStore k v s).pred = s.pred ∧
    (acStore k v s).blk = { s.blk with coef := s.blk.coef.set (zz k) (some (wrap16 v)) } ∧
    (acStore k v s).br = s.br ∧ (acStore k v s).inFifo = s.inFifo ∧ (acStore k v s).eofSeen = s.eofSeen ∧
    (acStore k v s).outFifo = s.outFifo ∧ (acStore k v s).outCount = s.outCount ∧ (acStore k v s).planes = s.planes ∧
    (acStore k v s).compDone = s.compDone ∧ (acStore k v s).cvMode = s.cvMode ∧
    (acStore k v s).markerReg = s.markerReg ∧ (acStore k v s).mcuCount = s.mcuCount ∧ (acStore k v s).rows = s.rows ∧
    (acStore k v s).trailing = s.trailing ∧
    (acStore k v s).seq = { s.seq with phase := if k + 1 ≤ 63 then .blockAc else .store, k := k + 1, bits := .huff 0 0 } ∧
    (acStore k v s).conv = s.conv ∧ (acStore k v s).mid = s.mid ∧ (acStore k v s).turns = s.turns ∧
    (acStore k v s).rdata = s.rdata ∧ (acStore k v s).freeUsed = s.freeUsed ∧ (acStore k v s).par = s.par := by
  refine ⟨?_, ?_, ?_, ?_, ?_, ?_, ?_, ?_, ?_, ?_, ?_, ?_, ?_, ?_, ?_, ?_, ?_, ?_, ?_, ?_, ?_, ?_, ?_, ?_, ?_, ?_, ?_, ?_, ?_,
    ?_, ?_, ?_, ?_, ?_⟩ <;> rfl

/-- R303. -/
@[simp] theorem dcDone_fields (c : Nat) (d : Int) :
    (dcDone c d s).st = s.st ∧ (dcDone c d s).regs = s.regs ∧ (dcDone c d s).intStatus = s.intStatus ∧
    (dcDone c d s).err = s.err ∧ (dcDone c d s).errPos = s.errPos ∧ (dcDone c d s).tabs = s.tabs ∧
    (dcDone c d s).stg = s.stg ∧ (dcDone c d s).stgOvf = s.stgOvf ∧ (dcDone c d s).frame = s.frame ∧
    (dcDone c d s).geometry = s.geometry ∧ (dcDone c d s).scan = s.scan ∧ (dcDone c d s).scanGeom = s.scanGeom ∧
    (dcDone c d s).nextRst = s.nextRst ∧ (dcDone c d s).pred = s.pred.set c (wrap16 ((s.pred.get c).toInt + d)) ∧
    (dcDone c d s).blk = { s.blk with coef := s.blk.coef.set 0 (some (wrap16 ((s.pred.get c).toInt + d))) } ∧
    (dcDone c d s).br = s.br ∧ (dcDone c d s).inFifo = s.inFifo ∧ (dcDone c d s).eofSeen = s.eofSeen ∧
    (dcDone c d s).outFifo = s.outFifo ∧ (dcDone c d s).outCount = s.outCount ∧ (dcDone c d s).planes = s.planes ∧
    (dcDone c d s).compDone = s.compDone ∧ (dcDone c d s).cvMode = s.cvMode ∧
    (dcDone c d s).markerReg = s.markerReg ∧ (dcDone c d s).mcuCount = s.mcuCount ∧ (dcDone c d s).rows = s.rows ∧
    (dcDone c d s).trailing = s.trailing ∧
    (dcDone c d s).seq = { s.seq with phase := .blockAc, k := 1, bits := .huff 0 0 } ∧ (dcDone c d s).conv = s.conv ∧
    (dcDone c d s).mid = s.mid ∧ (dcDone c d s).turns = s.turns ∧ (dcDone c d s).rdata = s.rdata ∧
    (dcDone c d s).freeUsed = s.freeUsed ∧ (dcDone c d s).par = s.par := by
  refine ⟨?_, ?_, ?_, ?_, ?_, ?_, ?_, ?_, ?_, ?_, ?_, ?_, ?_, ?_, ?_, ?_, ?_, ?_, ?_, ?_, ?_, ?_, ?_, ?_, ?_, ?_, ?_, ?_, ?_,
    ?_, ?_, ?_, ?_, ?_⟩ <;> rfl

/-- R307. -/
@[simp] theorem skipRun_fields (r : BitVec 4) :
    (skipRun r s).st = s.st ∧ (skipRun r s).regs = s.regs ∧ (skipRun r s).intStatus = s.intStatus ∧
    (skipRun r s).err = s.err ∧ (skipRun r s).errPos = s.errPos ∧ (skipRun r s).tabs = s.tabs ∧
    (skipRun r s).stg = s.stg ∧ (skipRun r s).stgOvf = s.stgOvf ∧ (skipRun r s).frame = s.frame ∧
    (skipRun r s).geometry = s.geometry ∧ (skipRun r s).scan = s.scan ∧ (skipRun r s).scanGeom = s.scanGeom ∧
    (skipRun r s).nextRst = s.nextRst ∧ (skipRun r s).pred = s.pred ∧ (skipRun r s).blk = s.blk ∧
    (skipRun r s).br = s.br ∧ (skipRun r s).inFifo = s.inFifo ∧ (skipRun r s).eofSeen = s.eofSeen ∧
    (skipRun r s).outFifo = s.outFifo ∧ (skipRun r s).outCount = s.outCount ∧ (skipRun r s).planes = s.planes ∧
    (skipRun r s).compDone = s.compDone ∧ (skipRun r s).cvMode = s.cvMode ∧ (skipRun r s).markerReg = s.markerReg ∧
    (skipRun r s).mcuCount = s.mcuCount ∧ (skipRun r s).rows = s.rows ∧ (skipRun r s).trailing = s.trailing ∧
    (skipRun r s).seq = { s.seq with k := s.seq.k + r.toNat } ∧ (skipRun r s).conv = s.conv ∧
    (skipRun r s).mid = s.mid ∧ (skipRun r s).turns = s.turns ∧ (skipRun r s).rdata = s.rdata ∧
    (skipRun r s).freeUsed = s.freeUsed ∧ (skipRun r s).par = s.par := by
  refine ⟨?_, ?_, ?_, ?_, ?_, ?_, ?_, ?_, ?_, ?_, ?_, ?_, ?_, ?_, ?_, ?_, ?_, ?_, ?_, ?_, ?_, ?_, ?_, ?_, ?_, ?_, ?_, ?_, ?_,
    ?_, ?_, ?_, ?_, ?_⟩ <;> rfl

/-- R335. -/
@[simp] theorem trail_fields :
    (trail s).st = s.st ∧ (trail s).regs = s.regs ∧ (trail s).intStatus = s.intStatus ∧ (trail s).err = s.err ∧
    (trail s).errPos = s.errPos ∧ (trail s).tabs = s.tabs ∧ (trail s).stg = s.stg ∧ (trail s).stgOvf = s.stgOvf ∧
    (trail s).frame = s.frame ∧ (trail s).geometry = s.geometry ∧ (trail s).scan = s.scan ∧
    (trail s).scanGeom = s.scanGeom ∧ (trail s).nextRst = s.nextRst ∧ (trail s).pred = s.pred ∧
    (trail s).blk = s.blk ∧ (trail s).br = { s.br with byte := none } ∧ (trail s).inFifo = s.inFifo ∧
    (trail s).eofSeen = s.eofSeen ∧ (trail s).outFifo = s.outFifo ∧ (trail s).outCount = s.outCount ∧
    (trail s).planes = s.planes ∧ (trail s).compDone = s.compDone ∧ (trail s).cvMode = s.cvMode ∧
    (trail s).markerReg = s.markerReg ∧ (trail s).mcuCount = s.mcuCount ∧ (trail s).rows = s.rows ∧
    (trail s).trailing = countUp s.trailing s.freeUsed ∧ (trail s).seq = s.seq ∧ (trail s).conv = s.conv ∧
    (trail s).mid = s.mid ∧ (trail s).turns = s.turns ∧ (trail s).rdata = s.rdata ∧
    (trail s).freeUsed = countUsed s.trailing s.freeUsed ∧ (trail s).par = s.par := by
  refine ⟨?_, ?_, ?_, ?_, ?_, ?_, ?_, ?_, ?_, ?_, ?_, ?_, ?_, ?_, ?_, ?_, ?_, ?_, ?_, ?_, ?_, ?_, ?_, ?_, ?_, ?_, ?_, ?_, ?_,
    ?_, ?_, ?_, ?_, ?_⟩ <;> rfl

/-- R431. -/
@[simp] theorem pushOut_fields (b : Byte) :
    (pushOut b s).st = s.st ∧ (pushOut b s).regs = s.regs ∧ (pushOut b s).intStatus = s.intStatus ∧
    (pushOut b s).err = s.err ∧ (pushOut b s).errPos = s.errPos ∧ (pushOut b s).tabs = s.tabs ∧
    (pushOut b s).stg = s.stg ∧ (pushOut b s).stgOvf = s.stgOvf ∧ (pushOut b s).frame = s.frame ∧
    (pushOut b s).geometry = s.geometry ∧ (pushOut b s).scan = s.scan ∧ (pushOut b s).scanGeom = s.scanGeom ∧
    (pushOut b s).nextRst = s.nextRst ∧ (pushOut b s).pred = s.pred ∧ (pushOut b s).blk = s.blk ∧
    (pushOut b s).br = s.br ∧ (pushOut b s).inFifo = s.inFifo ∧ (pushOut b s).eofSeen = s.eofSeen ∧
    (pushOut b s).outFifo = s.outFifo ++ [b] ∧ (pushOut b s).outCount = countUp s.outCount s.freeUsed ∧
    (pushOut b s).planes = s.planes ∧ (pushOut b s).compDone = s.compDone ∧ (pushOut b s).cvMode = s.cvMode ∧
    (pushOut b s).markerReg = s.markerReg ∧ (pushOut b s).mcuCount = s.mcuCount ∧ (pushOut b s).rows = s.rows ∧
    (pushOut b s).trailing = s.trailing ∧ (pushOut b s).seq = s.seq ∧ (pushOut b s).conv = s.conv ∧
    (pushOut b s).mid = s.mid ∧ (pushOut b s).turns = s.turns ∧ (pushOut b s).rdata = s.rdata ∧
    (pushOut b s).freeUsed = countUsed s.outCount s.freeUsed ∧ (pushOut b s).par = s.par := by
  refine ⟨?_, ?_, ?_, ?_, ?_, ?_, ?_, ?_, ?_, ?_, ?_, ?_, ?_, ?_, ?_, ?_, ?_, ?_, ?_, ?_, ?_, ?_, ?_, ?_, ?_, ?_, ?_, ?_, ?_,
    ?_, ?_, ?_, ?_, ?_⟩ <;> rfl

/-- R433. -/
@[simp] theorem convertDone_fields :
    (convertDone s).st = .idle ∧ (convertDone s).regs = s.regs ∧
    (convertDone s).intStatus = intUpdate s.intStatus 0 0x02 ∧ (convertDone s).err = s.err ∧
    (convertDone s).errPos = s.errPos ∧ (convertDone s).tabs = s.tabs ∧ (convertDone s).stg = s.stg ∧
    (convertDone s).stgOvf = s.stgOvf ∧ (convertDone s).frame = s.frame ∧ (convertDone s).geometry = s.geometry ∧
    (convertDone s).scan = s.scan ∧ (convertDone s).scanGeom = s.scanGeom ∧ (convertDone s).nextRst = s.nextRst ∧
    (convertDone s).pred = s.pred ∧ (convertDone s).blk = s.blk ∧ (convertDone s).br = s.br ∧
    (convertDone s).inFifo = s.inFifo ∧ (convertDone s).eofSeen = s.eofSeen ∧ (convertDone s).outFifo = s.outFifo ∧
    (convertDone s).outCount = s.outCount ∧ (convertDone s).planes = s.planes ∧
    (convertDone s).compDone = s.compDone ∧ (convertDone s).cvMode = s.cvMode ∧
    (convertDone s).markerReg = s.markerReg ∧ (convertDone s).mcuCount = s.mcuCount ∧ (convertDone s).rows = s.rows ∧
    (convertDone s).trailing = s.trailing ∧ (convertDone s).seq = s.seq ∧ (convertDone s).conv = s.conv ∧
    (convertDone s).mid = s.mid ∧ (convertDone s).turns = s.turns ∧ (convertDone s).rdata = s.rdata ∧
    (convertDone s).freeUsed = s.freeUsed ∧ (convertDone s).par = s.par := by
  refine ⟨?_, ?_, ?_, ?_, ?_, ?_, ?_, ?_, ?_, ?_, ?_, ?_, ?_, ?_, ?_, ?_, ?_, ?_, ?_, ?_, ?_, ?_, ?_, ?_, ?_, ?_, ?_, ?_, ?_,
    ?_, ?_, ?_, ?_, ?_⟩ <;> rfl

/-- R12. -/
@[simp] theorem takeTurn_fields (rest : List Turn) :
    (takeTurn rest s).st = s.st ∧ (takeTurn rest s).regs = s.regs ∧ (takeTurn rest s).intStatus = s.intStatus ∧
    (takeTurn rest s).err = s.err ∧ (takeTurn rest s).errPos = s.errPos ∧ (takeTurn rest s).tabs = s.tabs ∧
    (takeTurn rest s).stg = s.stg ∧ (takeTurn rest s).stgOvf = s.stgOvf ∧ (takeTurn rest s).frame = s.frame ∧
    (takeTurn rest s).geometry = s.geometry ∧ (takeTurn rest s).scan = s.scan ∧
    (takeTurn rest s).scanGeom = s.scanGeom ∧ (takeTurn rest s).nextRst = s.nextRst ∧
    (takeTurn rest s).pred = s.pred ∧ (takeTurn rest s).blk = s.blk ∧ (takeTurn rest s).br = s.br ∧
    (takeTurn rest s).inFifo = s.inFifo ∧ (takeTurn rest s).eofSeen = s.eofSeen ∧
    (takeTurn rest s).outFifo = s.outFifo ∧ (takeTurn rest s).outCount = s.outCount ∧
    (takeTurn rest s).planes = s.planes ∧ (takeTurn rest s).compDone = s.compDone ∧
    (takeTurn rest s).cvMode = s.cvMode ∧ (takeTurn rest s).markerReg = s.markerReg ∧
    (takeTurn rest s).mcuCount = s.mcuCount ∧ (takeTurn rest s).rows = s.rows ∧
    (takeTurn rest s).trailing = s.trailing ∧ (takeTurn rest s).seq = s.seq ∧ (takeTurn rest s).conv = s.conv ∧
    (takeTurn rest s).mid = false ∧ (takeTurn rest s).turns = rest ∧ (takeTurn rest s).rdata = s.rdata ∧
    (takeTurn rest s).freeUsed = s.freeUsed ∧ (takeTurn rest s).par = s.par := by
  refine ⟨?_, ?_, ?_, ?_, ?_, ?_, ?_, ?_, ?_, ?_, ?_, ?_, ?_, ?_, ?_, ?_, ?_, ?_, ?_, ?_, ?_, ?_, ?_, ?_, ?_, ?_, ?_, ?_, ?_,
    ?_, ?_, ?_, ?_, ?_⟩ <;> rfl

/-- R13. -/
@[simp] theorem markStep_fields (op : EngineOp) :
    (markStep op s).st = s.st ∧ (markStep op s).regs = s.regs ∧ (markStep op s).intStatus = s.intStatus ∧
    (markStep op s).err = s.err ∧ (markStep op s).errPos = s.errPos ∧ (markStep op s).tabs = s.tabs ∧
    (markStep op s).stg = s.stg ∧ (markStep op s).stgOvf = s.stgOvf ∧ (markStep op s).frame = s.frame ∧
    (markStep op s).geometry = s.geometry ∧ (markStep op s).scan = s.scan ∧ (markStep op s).scanGeom = s.scanGeom ∧
    (markStep op s).nextRst = s.nextRst ∧ (markStep op s).pred = s.pred ∧ (markStep op s).blk = s.blk ∧
    (markStep op s).br = s.br ∧ (markStep op s).inFifo = s.inFifo ∧ (markStep op s).eofSeen = s.eofSeen ∧
    (markStep op s).outFifo = s.outFifo ∧ (markStep op s).outCount = s.outCount ∧ (markStep op s).planes = s.planes ∧
    (markStep op s).compDone = s.compDone ∧ (markStep op s).cvMode = s.cvMode ∧
    (markStep op s).markerReg = s.markerReg ∧ (markStep op s).mcuCount = s.mcuCount ∧ (markStep op s).rows = s.rows ∧
    (markStep op s).trailing = s.trailing ∧ (markStep op s).seq = s.seq ∧ (markStep op s).conv = s.conv ∧
    (markStep op s).mid = (!boundaryOp op && busy s) ∧ (markStep op s).turns = s.turns ∧
    (markStep op s).rdata = s.rdata ∧ (markStep op s).freeUsed = s.freeUsed ∧ (markStep op s).par = s.par := by
  refine ⟨?_, ?_, ?_, ?_, ?_, ?_, ?_, ?_, ?_, ?_, ?_, ?_, ?_, ?_, ?_, ?_, ?_, ?_, ?_, ?_, ?_, ?_, ?_, ?_, ?_, ?_, ?_, ?_, ?_,
    ?_, ?_, ?_, ?_, ?_⟩ <;> rfl

/-- R500, R77. -/
@[simp] theorem resetAction_fields :
    (resetAction s).st = .idle ∧ (resetAction s).regs = Regs.initial ∧ (resetAction s).intStatus = 0 ∧
    (resetAction s).err = 0 ∧ (resetAction s).errPos = 0 ∧ (resetAction s).tabs = Tables.empty ∧
    (resetAction s).stg = [] ∧ (resetAction s).stgOvf = false ∧ (resetAction s).frame = none ∧
    (resetAction s).geometry = 0 ∧ (resetAction s).scan = none ∧ (resetAction s).scanGeom = 0 ∧
    (resetAction s).nextRst = 0 ∧ (resetAction s).pred = ⟨0, 0, 0⟩ ∧ (resetAction s).blk = BlockWork.unwritten ∧
    (resetAction s).br = BitReader.initial ∧ (resetAction s).inFifo = [] ∧ (resetAction s).eofSeen = false ∧
    (resetAction s).outFifo = [] ∧ (resetAction s).outCount = 0 ∧ (resetAction s).planes = [] ∧
    (resetAction s).compDone = 0 ∧ (resetAction s).cvMode = none ∧ (resetAction s).markerReg = 0 ∧
    (resetAction s).mcuCount = 0 ∧ (resetAction s).rows = 0 ∧ (resetAction s).trailing = 0 ∧
    (resetAction s).seq = Sequencer.initial ∧ (resetAction s).conv = ⟨0, 0, 0⟩ ∧ (resetAction s).mid = false ∧
    (resetAction s).turns = s.turns ∧ (resetAction s).rdata = s.rdata ∧ (resetAction s).freeUsed = s.freeUsed ∧
    (resetAction s).par = s.par := by
  refine ⟨?_, ?_, ?_, ?_, ?_, ?_, ?_, ?_, ?_, ?_, ?_, ?_, ?_, ?_, ?_, ?_, ?_, ?_, ?_, ?_, ?_, ?_, ?_, ?_, ?_, ?_, ?_, ?_, ?_,
    ?_, ?_, ?_, ?_, ?_⟩ <;> rfl

end Sys2Proof.Machine
end

