-- ==== Sys2Proof/Laws/BitReader.lean ====
section
/-! SUPPORT. The laws of the bit reader (R266, R267): what one bit and one magnitude field take from the byte at hand, from
the fill, and where they wait for a byte. -/
namespace Sys2Proof.Machine

/-- What reading bits can do to the bit reader: it takes bits of the byte at hand and may set FILL_USED, nothing else. -/
structure ReadsFrom (br br' : BitReader) : Prop where
  mode : br'.mode = br.mode
  marker : br'.marker = br.marker
  p : br'.p = br.p
  inCount : br'.inCount = br.inCount
  window : br'.window = br.window
  start : br'.start = br.start
  nbits : br.nbits ≤ 8 → br'.nbits ≤ 8
  cur : (br.nbits ≠ 0 → br.cur.isSome = true) → br'.nbits ≠ 0 → br'.cur.isSome = true
  byte : br'.byte = br.byte ∨ br'.byte = none

theorem ReadsFrom.refl (br : BitReader) : ReadsFrom br br :=
  ⟨rfl, rfl, rfl, rfl, rfl, rfl, id, id, .inl rfl⟩

theorem ReadsFrom.trans {a b c : BitReader} (h : ReadsFrom a b) (k : ReadsFrom b c) : ReadsFrom a c where
  mode := k.mode.trans h.mode
  marker := k.marker.trans h.marker
  p := k.p.trans h.p
  inCount := k.inCount.trans h.inCount
  window := k.window.trans h.window
  start := k.start.trans h.start
  nbits := fun x => k.nbits (h.nbits x)
  cur := fun x => k.cur (h.cur x)
  byte := by rcases k.byte with e | e <;> rcases h.byte with e' | e' <;> simp [e, e']

variable {s s' : State}

/-- R266: the three ways `ReadBit()` gives a bit. -/
theorem readBit_some {bit : Bool} (h : readBit s = .ok (some (bit, s'))) :
    (∃ n b, s.br.nbits = n + 1 ∧ s.br.cur = some b ∧ bit = b.getLsbD n ∧ s' = { s with br := { s.br with nbits := n } }) ∨
    (∃ b, s.br.nbits = 0 ∧ s.br.byte = some b ∧ bit = b.getLsbD 7 ∧
      s' = { s with br := { s.br with cur := some b, nbits := 7, byte := none } }) ∨
    (s.br.nbits = 0 ∧ s.br.byte = none ∧ s.br.mode ≠ .data ∧ bit = true ∧
      s' = { s with br := { s.br with fillUsed := true } }) := by
  unfold readBit at h
  split at h
  · next hn =>
    split at h
    · next b hb =>
      simp only [Except.ok.injEq, Option.some.injEq, Prod.mk.injEq] at h
      exact .inr (.inl ⟨b, hn, hb, h.1.symm, h.2.symm⟩)
    · next hb =>
      split at h
      · simp at h
      · next hm =>
        simp only [Except.ok.injEq, Option.some.injEq, Prod.mk.injEq] at h
        exact .inr (.inr ⟨hn, hb, hm, h.1.symm, h.2.symm⟩)
  · next n hn =>
    split at h
    · simp at h
    · next b hb =>
      simp only [Except.ok.injEq, Option.some.injEq, Prod.mk.injEq] at h
      exact .inl ⟨n, b, hn, hb, h.1.symm, h.2.symm⟩

theorem readBit_readsFrom {bit : Bool} (h : readBit s = .ok (some (bit, s'))) :
    ∃ br, s' = { s with br := br } ∧ ReadsFrom s.br br := by
  rcases readBit_some h with ⟨n, b, hn, hb, -, rfl⟩ | ⟨b, hn, hb, -, rfl⟩ | ⟨hn, hb, hm, -, rfl⟩
  · exact ⟨_, rfl, rfl, rfl, rfl, rfl, rfl, rfl, fun h => by simp only; omega, fun _ _ => by simp [hb], .inl rfl⟩
  · exact ⟨_, rfl, rfl, rfl, rfl, rfl, rfl, rfl, fun _ => by simp, fun _ _ => by simp, .inr rfl⟩
  · exact ⟨_, rfl, rfl, rfl, rfl, rfl, rfl, rfl, fun h => h, fun h => h, .inl rfl⟩

/-- `ReadBit()` reads an unwritten BR_CUR only where the bit reader holds bits of no byte. -/
theorem readBit_ne_error (h : s.br.nbits ≠ 0 → s.br.cur.isSome = true) (e : Fault) : readBit s ≠ .error e := by
  unfold readBit
  split
  · split
    · simp
    · split <;> simp
  · next n hn =>
    have := h (by omega)
    split
    · next hc => simp [hc] at this
    · simp

/-- Where `bitAtHand` says so, `ReadBit()` gives a bit. -/
theorem readBit_ne_none (h : bitAtHand s.br = true) : readBit s ≠ .ok none := by
  unfold readBit
  simp only [bitAtHand, Bool.or_eq_true, decide_eq_true_eq] at h
  split
  · next hn =>
    split
    · simp
    · next hb =>
      split
      · next hm => simp [hn, hb, hm] at h
      · simp
  · split <;> simp

/-- R267: a field either waits for a byte or is complete. -/
theorem readMagnitude_cases {dc : Bool} {t left : Nat} {v : Half} (h : readMagnitude dc t left v s = .ok s') :
    ∃ br, ReadsFrom s.br br ∧
      ((∃ n w, s' = setBits (.mag dc t n w) { s with br := br }) ∨
       ∃ w, magnitudeDone dc t w { s with br := br } = .ok s') := by
  induction left generalizing v s with
  | zero => exact ⟨s.br, .refl _, .inr ⟨v, h⟩⟩
  | succ left ih =>
    unfold readMagnitude at h
    split at h
    · simp at h
    · simp only [Except.ok.injEq] at h
      exact ⟨s.br, .refl _, .inl ⟨_, _, h.symm⟩⟩
    · next bit s1 hb =>
      obtain ⟨br1, rfl, h1⟩ := readBit_readsFrom hb
      obtain ⟨br2, h2, hc⟩ := ih h
      exact ⟨br2, h1.trans h2, hc⟩

/-- A magnitude field faults only as its tail does. -/
theorem readMagnitude_ne_error {dc : Bool} {t left : Nat} {v : Half} (hcur : s.br.nbits ≠ 0 → s.br.cur.isSome = true)
    (hdone : ∀ w br e, magnitudeDone dc t w { s with br := br } ≠ .error e) (e : Fault) :
    readMagnitude dc t left v s ≠ .error e := by
  induction left generalizing v s with
  | zero => exact hdone v s.br e
  | succ left ih =>
    unfold readMagnitude
    split
    · next e' he => exact absurd he (readBit_ne_error hcur e')
    · simp
    · next bit s1 hb =>
      obtain ⟨br1, rfl, h1⟩ := readBit_readsFrom hb
      exact ih (h1.cur hcur) (fun w br e => hdone w br e)

/-- R267: a field with one bit more, as numbers. -/
theorem pushBit_ofNat (v : Half) (bit : Bool) : pushBit v bit = BitVec.ofNat 16 (2 * v.toNat + bit.toNat) := by
  apply BitVec.eq_of_toNat_eq
  have hv := v.isLt
  cases bit
  · simp [pushBit, Nat.shiftLeft_eq, Nat.mul_comm]
  · have h : v <<< 1 &&& 1#16 = 0#16 := by
      apply BitVec.eq_of_getLsbD_eq
      intro i hi
      cases i <;> simp [BitVec.getLsbD_one]
    have e : (BitVec.ofBool true).setWidth 16 = 1#16 := rfl
    rw [pushBit, e, ← BitVec.add_eq_or_of_and_eq_zero _ _ h]
    simp [BitVec.toNat_add, Nat.shiftLeft_eq, Nat.mul_comm]

/-- Bits `n - 1 .. n - k` of a byte, as a number. -/
theorem byteBits_succ (b n k : Nat) (h : k + 1 ≤ n) :
    b / 2 ^ (n - (k + 1)) % 2 ^ (k + 1) = (b.testBit (n - 1)).toNat * 2 ^ k + b / 2 ^ (n - 1 - k) % 2 ^ k := by
  have e1 : n - (k + 1) = n - 1 - k := by omega
  have e2 : n - 1 = (n - 1 - k) + k := by omega
  have e3 : b / 2 ^ (n - 1) = b / 2 ^ (n - 1 - k) / 2 ^ k := by
    rw [Nat.div_div_eq_div_mul, ← pow_add, ← e2]
  rw [e1, Nat.testBit_eq_decide_div_mod_eq, e3]
  generalize b / 2 ^ (n - 1 - k) = x
  rw [Nat.pow_succ, Nat.mod_mul]
  rcases Nat.mod_two_eq_zero_or_one (x / 2 ^ k) with h0 | h0 <;> simp [h0]
  omega

/-- R266, R267: `a` bits of a field come from the bits at hand, the most significant first. -/
theorem readMagnitude_cur {dc : Bool} {t a left n : Nat} {v : Half} {b : Byte} (hn : s.br.nbits = n) (ha : a ≤ n)
    (hb : s.br.cur = some b) :
    readMagnitude dc t (a + left) v s =
      readMagnitude dc t left (BitVec.ofNat 16 (v.toNat * 2 ^ a + b.toNat / 2 ^ (n - a) % 2 ^ a))
        { s with br := { s.br with nbits := n - a } } := by
  induction a generalizing v s n with
  | zero =>
    subst hn
    simp [Nat.mod_one, BitVec.ofNat_toNat]
  | succ a ih =>
    obtain ⟨n', rfl⟩ : ∃ n', n = n' + 1 := ⟨n - 1, by omega⟩
    have hr : readBit s = .ok (some (b.getLsbD n', { s with br := { s.br with nbits := n' } })) := by
      unfold readBit
      rw [hn]
      simp [hb]
    rw [show a + 1 + left = (a + left) + 1 by omega, readMagnitude, hr]
    simp only
    rw [ih (s := { s with br := { s.br with nbits := n' } }) (n := n') rfl (by omega) hb, pushBit_ofNat]
    have hbits := byteBits_succ b.toNat (n' + 1) a ha
    have hcast : ∀ x : Nat, BitVec.ofNat 16 ((BitVec.ofNat 16 x).toNat * 2 ^ a + b.toNat / 2 ^ (n' - a) % 2 ^ a) =
        BitVec.ofNat 16 (x * 2 ^ a + b.toNat / 2 ^ (n' - a) % 2 ^ a) := by
      intro x
      apply BitVec.eq_of_toNat_eq
      simp only [BitVec.toNat_ofNat]
      rw [Nat.add_mod, Nat.mul_mod, Nat.mod_mod, ← Nat.mul_mod, ← Nat.add_mod]
    rw [hcast]
    simp only [Nat.add_sub_cancel] at hbits
    have hv : (2 * v.toNat + (b.getLsbD n').toNat) * 2 ^ a + b.toNat / 2 ^ (n' - a) % 2 ^ a =
        v.toNat * 2 ^ (a + 1) + b.toNat / 2 ^ (n' + 1 - (a + 1)) % 2 ^ (a + 1) := by
      rw [hbits]
      simp only [BitVec.getLsbD]
      ring
    rw [hv, Nat.add_sub_add_right]

/-- R266: past the data every bit read is 1 and sets FILL_USED. -/
theorem readMagnitude_fill {dc : Bool} {t left : Nat} {v : Half} (hn : s.br.nbits = 0) (hb : s.br.byte = none)
    (hm : s.br.mode ≠ .data) (hl : 0 < left) :
    readMagnitude dc t left v s =
      magnitudeDone dc t (BitVec.ofNat 16 (v.toNat * 2 ^ left + (2 ^ left - 1)))
        { s with br := { s.br with fillUsed := true } } := by
  have hr : ∀ w : State, w.br.nbits = 0 → w.br.byte = none → w.br.mode ≠ .data →
      readBit w = .ok (some (true, { w with br := { w.br with fillUsed := true } })) := by
    intro w h1 h2 h3
    unfold readBit
    rw [h1]
    simp [h2, h3]
  induction left generalizing v s with
  | zero => omega
  | succ left ih =>
    rw [readMagnitude, hr s hn hb hm]
    simp only
    rcases Nat.eq_zero_or_pos left with rfl | hpos
    · simp [readMagnitude, pushBit_ofNat, Nat.mul_comm]
    · rw [ih (s := { s with br := { s.br with fillUsed := true } }) hn hb hm hpos, pushBit_ofNat]
      congr 1
      apply BitVec.eq_of_toNat_eq
      simp only [BitVec.toNat_ofNat, Bool.toNat_true]
      rw [Nat.add_mod, Nat.mul_mod, Nat.mod_mod, ← Nat.mul_mod, ← Nat.add_mod]
      congr 1
      have hk : 1 ≤ 2 ^ left := Nat.one_le_two_pow
      rw [pow_succ]
      generalize 2 ^ left = x at hk
      have : x * 2 - 1 = x + (x - 1) := by omega
      rw [this]
      ring

/-- R260, R266: in DATA mode with no bits left the field waits for a byte. -/
theorem readMagnitude_wait {dc : Bool} {t left : Nat} {v : Half} (hn : s.br.nbits = 0) (hb : s.br.byte = none)
    (hm : s.br.mode = .data) (hl : 0 < left) :
    readMagnitude dc t left v s = .ok (setBits (.mag dc t (t - left) v) s) := by
  obtain ⟨l, rfl⟩ : ∃ l, left = l + 1 := ⟨left - 1, by omega⟩
  have hr : readBit s = .ok none := by
    unfold readBit
    rw [hn]
    simp [hb, hm]
  rw [readMagnitude, hr]

end Sys2Proof.Machine
end

