-- ==== Sys2Proof/Laws/Entropy.lean ====
section
/-! SUPPORT. What each operation of the scan procedure can do (42_entropy.md, 43_transform.md): if it answers a state, then
one of the named cases. -/
namespace Sys2Proof.Machine

theorem answer_eq_next {r : Except Fault State} {t : State} : answer r = .next t ↔ r = .ok t := by
  cases r <;> simp [answer]

theorem answer_ne_refused (r : Except Fault State) (x : Refusal) : answer r ≠ .refused x := by
  cases r <;> simp [answer]

theorem answer_eq_fault {r : Except Fault State} {e : Fault} : answer r = .fault e ↔ r = .error e := by
  cases r <;> simp [answer]

@[simp] theorem written_eq_ok {α : Type} {i : Item} {o : Option α} {a : α} : written i o = .ok a ↔ o = some a := by
  cases o <;> simp [written]

variable {s s' : State}

theorem snapshots_eq_ok {f : FrameSnap} {sc : ScanSnap} :
    snapshots s = .ok (f, sc) ↔ s.frame = some f ∧ s.scan = some sc := by
  unfold snapshots
  split <;> simp_all

/-- R322: the cursor stands at a block. -/
theorem currentBlock_eq_ok {bp : BlockPos} : currentBlock s = .ok bp ↔
    ∃ f sc, s.frame = some f ∧ s.scan = some sc ∧ (mcuBlocks f sc s.m)[s.seq.b]? = some bp := by
  unfold currentBlock
  cases h : snapshots s with
  | error e =>
    simp only [reduceCtorEq, false_iff, not_exists, not_and]
    intro f sc h1 h2
    rw [snapshots_eq_ok.mpr ⟨h1, h2⟩] at h
    simp at h
  | ok x =>
    obtain ⟨f, sc⟩ := x
    obtain ⟨h1, h2⟩ := snapshots_eq_ok.mp h
    simp [h1, h2]

theorem currentBlock_congr {u : State} (h1 : u.frame = s.frame) (h2 : u.scan = s.scan) (h3 : u.mcuCount = s.mcuCount)
    (h4 : u.seq.b = s.seq.b) : currentBlock u = currentBlock s := by
  unfold currentBlock snapshots State.m
  rw [h1, h2, h3, h4]

theorem dcDoneHere_ok {d : Int} (h : dcDoneHere d s = .ok s') :
    ∃ bp, currentBlock s = .ok bp ∧ s' = dcDone bp.slot.cidx d s := by
  unfold dcDoneHere at h
  split at h
  · simp at h
  · next bp hb => exact ⟨bp, hb, (Except.ok.inj h).symm⟩

/-- R303, R311: the tail of a magnitude field. -/
theorem magnitudeDone_ok {dc : Bool} {t : Nat} {v : Half} (h : magnitudeDone dc t v s = .ok s') :
    (dc = true ∧ ∃ bp, currentBlock s = .ok bp ∧ s' = dcDone bp.slot.cidx (extend v.toNat t) s) ∨
    (dc = false ∧ s' = acStore s.seq.k (extend v.toNat t) s) := by
  unfold magnitudeDone at h
  split at h
  · next hd => exact .inl ⟨hd, dcDoneHere_ok h⟩
  · next hd => exact .inr ⟨by simpa using hd, (Except.ok.inj h).symm⟩

/-- R300, R301: what one bit more does to a code word. -/
theorem huffBit_ok {code : Half} {len : Nat} (h : huffBit code len s = .ok s') :
    (∃ sym, s' = setBits (.sym sym) s) ∨ (16 ≤ len ∧ s' = raise .invalidHuffmanCode 0x01 (classArg s) s) ∨
    (len < 16 ∧ s' = setBits (.huff code len) s) := by
  unfold huffBit at h
  split at h
  · simp at h
  · split at h
    · simp at h
    · next sym _ => exact .inl ⟨sym, (Except.ok.inj h).symm⟩
    · split at h
      · next hl => exact .inr (.inl ⟨hl, (Except.ok.inj h).symm⟩)
      · next hl => exact .inr (.inr ⟨by omega, (Except.ok.inj h).symm⟩)

/-- R266: what a read of bits can end in. -/
theorem takeBits_ok (h : takeBits s = .ok s') :
    ∃ br, ReadsFrom s.br br ∧
      ((∃ b, s' = setBits b { s with br := br }) ∨
       s' = raise .invalidHuffmanCode 0x01 (classArg s) { s with br := br } ∨
       s' = s ∨
       (∃ t v bp, currentBlock s = .ok bp ∧ s' = dcDone bp.slot.cidx (extend v t) { s with br := br }) ∨
       ∃ t v, s' = acStore s.seq.k (extend v t) { s with br := br }) := by
  unfold takeBits at h
  split at h
  · next code len _ =>
    split at h
    · simp at h
    · exact ⟨s.br, .refl _, .inr (.inr (.inl (Except.ok.inj h).symm))⟩
    · next bit s1 hb =>
      obtain ⟨br, rfl, hr⟩ := readBit_readsFrom hb
      refine ⟨br, hr, ?_⟩
      rcases huffBit_ok h with ⟨sym, rfl⟩ | ⟨-, rfl⟩ | ⟨-, rfl⟩
      · exact .inl ⟨_, rfl⟩
      · exact .inr (.inl rfl)
      · exact .inl ⟨_, rfl⟩
  · next dc t n v _ =>
    obtain ⟨br, hr, ⟨k, w, rfl⟩ | ⟨w, hw⟩⟩ := readMagnitude_cases h
    · exact ⟨br, hr, .inl ⟨_, rfl⟩⟩
    · refine ⟨br, hr, ?_⟩
      rcases magnitudeDone_ok hw with ⟨-, bp, hbp, rfl⟩ | ⟨-, rfl⟩
      · exact .inr (.inr (.inr (.inl ⟨t, _, bp, hbp, rfl⟩)))
      · exact .inr (.inr (.inr (.inr ⟨t, _, rfl⟩)))
  · exact ⟨s.br, .refl _, .inr (.inr (.inl (Except.ok.inj h).symm))⟩

theorem beginMcu_ok (h : beginMcu s = .ok s') :
    (∃ bp, currentBlock { s with seq := { s.seq with b := 0 } } = .ok bp) ∧ s' = startBlock 0 s := by
  unfold beginMcu at h
  split at h
  · simp at h
  · next bp hb => exact ⟨⟨bp, hb⟩, (Except.ok.inj h).symm⟩

/-- R360, R370: the transform and the store of a block. -/
theorem transformAndStore_ok {f : FrameSnap} {bp : BlockPos} (h : transformAndStore f bp s = .ok s') :
    ∃ coef q, allWritten s.blk.coef = some coef ∧ s.tabs.qt.get bp.comp.tq = some q ∧ blockInPlane f bp = true ∧
      s' = { s with
        blk := transformWork s.par.idct (dequant coef q) s.blk
        planes := Memory.writeAll s.planes
          (blockCells bp.slot.cidx bp.bxp bp.byp (idct s.par.idct (dequant coef q))) } := by
  unfold transformAndStore at h
  split at h
  · simp at h
  · next coef hc =>
    split at h
    · simp at h
    · next q hq =>
      unfold storeSamples at h
      split at h
      · next hp => exact ⟨coef, q, hc, hq, hp, (Except.ok.inj h).symm⟩
      · simp at h

/-- R325, R360: a block is stored; the next block of the MCU starts, if there is one. -/
theorem storeBlock_ok (h : storeBlock s = .ok s') :
    ∃ f sc bp s1, s.frame = some f ∧ s.scan = some sc ∧ currentBlock s = .ok bp ∧ transformAndStore f bp s = .ok s1 ∧
      ((s.seq.b + 1 < (mcuBlocks f sc s.m).length ∧ s' = startBlock (s.seq.b + 1) s1) ∨
       ((mcuBlocks f sc s.m).length ≤ s.seq.b + 1 ∧ s' = { s1 with seq := { s1.seq with b := s.seq.b + 1 } })) := by
  unfold storeBlock at h
  split at h
  · simp at h
  · simp at h
  · next f sc bp hs hb =>
    obtain ⟨h1, h2⟩ := snapshots_eq_ok.mp hs
    split at h
    · simp at h
    · next s1 ht =>
      refine ⟨f, sc, bp, s1, h1, h2, hb, ht, ?_⟩
      split at h
      · next hl => exact .inl ⟨hl, (Except.ok.inj h).symm⟩
      · next hl => exact .inr ⟨by omega, (Except.ok.inj h).symm⟩

/-- R326: the state MCUDone leaves before the cursor moves on. -/
def mcuCounted (sc : ScanSnap) (s : State) : State :=
  if (s.m + 1) % sc.srow = 0 then setInt .rowDone { s with mcuCount := s.mcuCount + 1, rows := s.rows + 1 }
  else { s with mcuCount := s.mcuCount + 1 }

/-- R325, R326: MCU M is counted and the next one starts, or the end search. -/
theorem mcuDone_ok (h : mcuDone s = .ok s') :
    ∃ sc, s.scan = some sc ∧
      ((s.m + 1 < sc.smcus ∧ s' = { mcuCounted sc s with seq := Sequencer.initial }) ∨
       (sc.smcus ≤ s.m + 1 ∧
        s' = { mcuCounted sc s with seq := { Sequencer.initial with phase := .endSearch, mayRst := mayEndRst sc } })) := by
  unfold mcuDone at h
  split at h
  · simp at h
  · next sc hs =>
    refine ⟨sc, hs, ?_⟩
    simp only at h
    split at h
    · next hl => exact .inl ⟨hl, by rw [← Except.ok.inj h]; unfold mcuCounted; split <;> rfl⟩
    · next hl => exact .inr ⟨by omega, by rw [← Except.ok.inj h]; unfold mcuCounted; split <;> rfl⟩

/-- R146: a marker code is its upper five bits and its number. -/
theorem marker_split (x : Byte) : x = x.extractLsb' 3 5 ++ x.extractLsb' 0 3 := by
  revert x
  decide

/-- R330: the outcomes of the restart check. -/
theorem restartJudge_ok (h : restartJudge s = .ok s') :
    (∃ k d a, s' = raise k d a s) ∨
    (s.br.byte = none ∧ s.br.mode ≠ .endMode ∧ s.br.marker = some (0x1A#5 ++ s.nextRst) ∧
      beginMcu { consumeMarker s with nextRst := s.nextRst + 1, pred := ⟨0, 0, 0⟩ } = .ok s') := by
  unfold restartJudge at h
  split at h
  · exact .inl ⟨_, _, _, (Except.ok.inj h).symm⟩
  · next hb =>
    split at h
    · exact .inl ⟨_, _, _, (Except.ok.inj h).symm⟩
    · next hm =>
      split at h
      · simp at h
      · next x hx =>
        split at h
        · exact .inl ⟨_, _, _, (Except.ok.inj h).symm⟩
        · next hr =>
          split at h
          · exact .inl ⟨_, _, _, (Except.ok.inj h).symm⟩
          · next hn =>
            refine .inr ⟨by simpa using hb, hm, ?_, h⟩
            simp only [isRst, Bool.not_eq_true', decide_eq_false_iff_not, not_not] at hr
            simp only [ne_eq, not_not, rstNum] at hn
            rw [hx, marker_split x, hr, hn]
            rfl

theorem completeScan_ok {x : Byte} (h : completeScan x s = .ok s') :
    ∃ sc, s.scan = some sc ∧ s' = setInt .scanDone
      { s with
        markerReg := 1#1 ++ x
        compDone := s.compDone ||| doneMask sc.slots
        inFifo := [], eofSeen := false
        st := .frame } := by
  unfold completeScan at h
  split at h
  · simp at h
  · next sc hs => exact ⟨sc, hs, (Except.ok.inj h).symm⟩

/-- R335, R336: the outcomes of the end search at END or at a marker. -/
theorem endJudge_ok (h : endJudge s = .ok s') :
    (∃ k d a, s' = raise k d a s) ∨
    s' = { consumeMarker s with nextRst := s.nextRst + 1, seq := { s.seq with mayRst := false } } ∨
    ∃ x, s.br.marker = some x ∧ isRst x = false ∧ completeScan x s = .ok s' := by
  unfold endJudge at h
  split at h
  · exact .inl ⟨_, _, _, (Except.ok.inj h).symm⟩
  · split at h
    · simp at h
    · next x hx =>
      split at h
      · split at h
        · exact .inr (.inl (Except.ok.inj h).symm)
        · exact .inl ⟨_, _, _, (Except.ok.inj h).symm⟩
      · next hr => exact .inr (.inr ⟨x, hx, by simpa using hr, h⟩)

end Sys2Proof.Machine
end

