-- ==== Sys2Proof/Laws/Memory.lean ====
section
/-! SUPPORT. The laws of plane memory (R102): a read after a write, the canonical form, and many writes in a row. -/
namespace Sys2Proof.Machine.Memory

@[simp] theorem read_write_same (m : Memory) (x : Nat) (v : Byte) : read (write m x v) x = some v := by
  induction m with
  | nil => simp [write, read]
  | cons c m ih =>
    obtain ⟨a, b⟩ := c
    simp only [write]
    split
    · simp [read]
    · split
      · simp [read]
      · simp [read, *]

theorem read_write_other (m : Memory) {x y : Nat} (v : Byte) (h : y ≠ x) : read (write m x v) y = read m y := by
  have hx : x ≠ y := fun e => h e.symm
  induction m with
  | nil => simp [write, read, hx]
  | cons c m ih =>
    obtain ⟨a, b⟩ := c
    simp only [write]
    split
    · next e => subst e; simp [read, hx]
    · split
      · simp [read, hx]
      · simp [read, ih]

/-- A write un-writes nothing. -/
theorem read_write_isSome {m : Memory} {y : Nat} (x : Nat) (v : Byte) (h : (read m y).isSome = true) :
    (read (write m x v) y).isSome = true := by
  by_cases e : y = x
  · simp [e]
  · rwa [read_write_other m v e]

/-- The addresses of a memory after a write are its own and the written one. -/
theorem mem_write {m : Memory} {x : Nat} {v : Byte} {c : Host.Cell} (h : c ∈ write m x v) : c = (x, v) ∨ c ∈ m := by
  induction m with
  | nil => simpa [write] using h
  | cons d m ih =>
    obtain ⟨a, b⟩ := d
    simp only [write] at h
    split at h
    · simp only [List.mem_cons] at h ⊢; tauto
    · split at h
      · simp only [List.mem_cons] at h ⊢; tauto
      · simp only [List.mem_cons] at h ⊢
        rcases h with h | h
        · exact .inr (.inl h)
        · rcases ih h with h | h
          · exact .inl h
          · exact .inr (.inr h)

theorem write_wf {m : Memory} (x : Nat) (v : Byte) (h : wf m) : wf (write m x v) := by
  induction m with
  | nil => simp [write, wf]
  | cons d m ih =>
    obtain ⟨a, b⟩ := d
    obtain ⟨hlt, hm⟩ := List.pairwise_cons.mp h
    simp only [write]
    split
    · next e => subst e; exact List.pairwise_cons.mpr ⟨hlt, hm⟩
    · split
      · next hne hx =>
        refine List.pairwise_cons.mpr ⟨?_, h⟩
        intro c hc
        rcases List.mem_cons.mp hc with rfl | hc
        · exact hx
        · exact lt_trans hx (hlt c hc)
      · next hne hx =>
        refine List.pairwise_cons.mpr ⟨?_, ih hm⟩
        intro c hc
        rcases mem_write hc with rfl | hc
        · simp only; omega
        · exact hlt c hc

@[simp] theorem writeAll_nil (m : Memory) : writeAll m [] = m := rfl

@[simp] theorem writeAll_cons (m : Memory) (c : Host.Cell) (cs : List Host.Cell) :
    writeAll m (c :: cs) = writeAll (write m c.1 c.2) cs := rfl

theorem writeAll_wf {m : Memory} (cs : List Host.Cell) (h : wf m) : wf (writeAll m cs) := by
  induction cs generalizing m with
  | nil => exact h
  | cons c cs ih => exact ih (write_wf c.1 c.2 h)

/-- Every address outside the written cells reads as before. -/
theorem read_writeAll_other {m : Memory} {cs : List Host.Cell} {y : Nat} (h : ∀ c ∈ cs, c.1 ≠ y) :
    read (writeAll m cs) y = read m y := by
  induction cs generalizing m with
  | nil => rfl
  | cons c cs ih =>
    rw [writeAll_cons, ih fun d hd => h d (List.mem_cons_of_mem _ hd)]
    exact read_write_other m c.2 fun e => h c (List.mem_cons_self ..) e.symm

/-- A written cell reads back, if no other cell of the list has its address. -/
theorem read_writeAll_mem {m : Memory} {cs : List Host.Cell} {c : Host.Cell} (hc : c ∈ cs)
    (hn : cs.Pairwise fun a b => a.1 ≠ b.1) : read (writeAll m cs) c.1 = some c.2 := by
  induction cs generalizing m with
  | nil => simp at hc
  | cons d cs ih =>
    obtain ⟨hd, hn⟩ := List.pairwise_cons.mp hn
    rw [writeAll_cons]
    rcases List.mem_cons.mp hc with rfl | hc
    · rw [read_writeAll_other fun e he => (hd e he).symm]
      exact read_write_same ..
    · exact ih hc hn

theorem read_writeAll_isSome_of_read {m : Memory} (cs : List Host.Cell) {y : Nat} (h : (read m y).isSome = true) :
    (read (writeAll m cs) y).isSome = true := by
  induction cs generalizing m with
  | nil => exact h
  | cons c cs ih => exact ih (read_write_isSome c.1 c.2 h)

theorem read_writeAll_isSome_of_mem {m : Memory} {cs : List Host.Cell} {c : Host.Cell} (hc : c ∈ cs) :
    (read (writeAll m cs) c.1).isSome = true := by
  induction cs generalizing m with
  | nil => simp at hc
  | cons d cs ih =>
    rw [writeAll_cons]
    rcases List.mem_cons.mp hc with rfl | hc
    · exact read_writeAll_isSome_of_read cs (by simp)
    · exact ih hc

theorem reset_wf : wf State.reset.planes := List.Pairwise.nil

end Sys2Proof.Machine.Memory

namespace Sys2Proof.Machine

/-- R102: two samples of the planes of a frame share an address only if they are one sample. -/
theorem planeAddr_inj {i j row row' col col' : Nat} (hr : row < 2 ^ 20) (hr' : row' < 2 ^ 20) (hc : col < 2 ^ 20)
    (hc' : col' < 2 ^ 20) (h : planeAddr i row col = planeAddr j row' col') : i = j ∧ row = row' ∧ col = col' := by
  unfold planeAddr at h
  omega

/-- R370: a cell of a block's store is a sample of the block. -/
theorem mem_blockCells {c bxp byp : Nat} {S : List Byte} {e : Host.Cell} (h : e ∈ blockCells c bxp byp S) :
    ∃ y x, y < 8 ∧ x < 8 ∧ e = (planeAddr c (8 * byp + y) (8 * bxp + x), S.getD (8 * y + x) 0) := by
  simp only [blockCells, List.mem_map, List.mem_range] at h
  obtain ⟨i, hi, rfl⟩ := h
  refine ⟨i / 8, i % 8, by omega, by omega, ?_⟩
  rw [Nat.div_add_mod]

/-- R370: every sample of a block is a cell of its store. -/
theorem blockCells_mem (c bxp byp : Nat) (S : List Byte) {y x : Nat} (hy : y < 8) (hx : x < 8) :
    (planeAddr c (8 * byp + y) (8 * bxp + x), S.getD (8 * y + x) 0) ∈ blockCells c bxp byp S := by
  simp only [blockCells, List.mem_map, List.mem_range]
  refine ⟨8 * y + x, by omega, ?_⟩
  have h1 : (8 * y + x) / 8 = y := by omega
  have h2 : (8 * y + x) % 8 = x := by omega
  rw [h1, h2]

end Sys2Proof.Machine
end

