-- ==== Sys2Proof/Laws/Operands.lean ====
section
/-! SUPPORT. The laws of the small register arrays and of the number conversions (R9, R43, R304). -/
namespace Sys2Proof.Machine

variable {α : Type}

theorem Tri.get_set_same (t : Tri α) {i : Nat} (a : α) (h : i < 3) : (t.set i a).get i = a := by
  have : i = 0 ∨ i = 1 ∨ i = 2 := by omega
  rcases this with rfl | rfl | rfl <;> rfl

theorem Tri.get_set_other (t : Tri α) {i j : Nat} (a : α) (hi : i < 3) (hj : j < 3) (h : j ≠ i) :
    (t.set i a).get j = t.get j := by
  have hi : i = 0 ∨ i = 1 ∨ i = 2 := by omega
  have hj : j = 0 ∨ j = 1 ∨ j = 2 := by omega
  rcases hi with rfl | rfl | rfl <;> rcases hj with rfl | rfl | rfl <;> first | exact absurd rfl h | rfl

/-- A table id is one of four. -/
theorem tableId_cases (i : BitVec 2) : i = 0 ∨ i = 1 ∨ i = 2 ∨ i = 3 := by revert i; decide

@[simp] theorem Quad.get_set_same (q : Quad α) (i : BitVec 2) (a : α) : (q.set i a).get i = a := by
  rcases tableId_cases i with rfl | rfl | rfl | rfl <;> rfl

theorem Quad.get_set_other (q : Quad α) {i j : BitVec 2} (a : α) (h : j ≠ i) : (q.set i a).get j = q.get j := by
  rcases tableId_cases i with rfl | rfl | rfl | rfl <;> rcases tableId_cases j with rfl | rfl | rfl | rfl <;> first | exact absurd rfl h | rfl

/-- R43: setting a table's valid bit validates that table and no other. -/
theorem validAt_or_idBit (v : BitVec 4) (t u : BitVec 2) : validAt (v ||| idBit t) u = (validAt v u || decide (u = t)) := by
  revert v t u
  decide

@[simp] theorem validAt_zero (t : BitVec 2) : validAt 0#4 t = false := by revert t; decide

theorem allWritten_eq_some {l : List (Option α)} (h : ∀ v ∈ l, v.isSome = true) : ∃ as, allWritten l = some as := by
  induction l with
  | nil => exact ⟨[], rfl⟩
  | cons v l ih =>
    obtain ⟨as, has⟩ := ih fun w hw => h w (List.mem_cons_of_mem _ hw)
    have hv := h v (List.mem_cons_self ..)
    cases v with
    | none => simp at hv
    | some a => exact ⟨a :: as, by simp [allWritten, has]⟩

/-- R304: the upper half of the range is positive. -/
theorem extend_upper {v t : Nat} (ht : 1 ≤ t) (h : 2 ^ (t - 1) ≤ v) (hv : v < 2 ^ t) : extend v t = v := by
  have h0 : t ≠ 0 := by omega
  have hb : v.testBit (t - 1) = true := by
    have e : 2 ^ t = 2 * 2 ^ (t - 1) := by rw [← pow_succ', Nat.sub_add_cancel ht]
    rw [Nat.testBit_eq_decide_div_mod_eq]
    have : v / 2 ^ (t - 1) = 1 := Nat.div_eq_of_lt_le (by omega) (by omega)
    simp [this]
  simp [extend, h0, hb]

/-- R304: the lower half of the range is negative. -/
theorem extend_lower {v t : Nat} (ht : 1 ≤ t) (h : v < 2 ^ (t - 1)) : extend v t = (v : Int) - (2 ^ t - 1) := by
  have h0 : t ≠ 0 := by omega
  have hb : v.testBit (t - 1) = false := Nat.testBit_lt_two_pow h
  simp [extend, h0, hb]

/-- R9: `sat16`, as a number. -/
theorem sat16_toInt (a : Int) : (sat16 a).toInt = min (max a (-32768)) 32767 := by
  unfold sat16
  rw [BitVec.toInt_ofInt]
  simp only [Int.bmod_def]
  omega

@[simp] theorem extend_zero (v : Nat) : extend v 0 = 0 := rfl

theorem ceilDiv_le {a b c : Nat} (h : a ≤ c * b) (hb : 0 < b) : ceilDiv a b ≤ c := by
  unfold ceilDiv
  rw [Nat.div_le_iff_le_mul_add_pred hb]
  rw [Nat.mul_comm] at h
  omega

theorem le_ceilDiv_mul (a : Nat) {b : Nat} (hb : 0 < b) : a ≤ ceilDiv a b * b := by
  unfold ceilDiv
  have h := Nat.div_add_mod (a + b - 1) b
  have hm := Nat.mod_lt (a + b - 1) hb
  rw [Nat.mul_comm] at h
  omega

theorem ceilDiv_pos {a b : Nat} (ha : 0 < a) (hb : 0 < b) : 0 < ceilDiv a b := by
  unfold ceilDiv
  exact Nat.div_pos (by omega) hb

theorem lt_ceilDiv_mul_of_lt {x a b : Nat} (hb : 0 < b) (h : x < ceilDiv a b) : x * b < a := by
  unfold ceilDiv at h
  have := (Nat.le_div_iff_mul_le hb).mp h
  have e : (x + 1) * b = x * b + b := Nat.succ_mul x b
  rw [Nat.succ_eq_add_one, e] at this
  omega

end Sys2Proof.Machine
end

