-- ==== Sys2Proof/Laws/Geometry.lean ====
section
/-! SUPPORT. The geometry of frames and scans (R64, R320-R322): the grids' bounds, blocks inside their planes, and the
coverage of the valid region by a scan's blocks (R408). -/
namespace Sys2Proof.Machine

theorem le_foldl_max {α : Type} (g : α → Nat) (l : List α) (a : Nat) :
    a ≤ l.foldl (fun m c => max m (g c)) a ∧ ∀ c ∈ l, g c ≤ l.foldl (fun m c => max m (g c)) a := by
  induction l generalizing a with
  | nil => simp
  | cons c l ih =>
    obtain ⟨h1, h2⟩ := ih (max a (g c))
    refine ⟨le_trans (le_max_left ..) h1, ?_⟩
    intro d hd
    rcases List.mem_cons.mp hd with rfl | hd
    · exact le_trans (le_max_right ..) h1
    · exact h2 d hd

theorem foldl_max_le {α : Type} (g : α → Nat) (l : List α) {a n : Nat} (ha : a ≤ n) (h : ∀ c ∈ l, g c ≤ n) :
    l.foldl (fun m c => max m (g c)) a ≤ n := by
  induction l generalizing a with
  | nil => exact ha
  | cons c l ih =>
    exact ih (max_le ha (h c (List.mem_cons_self ..))) fun d hd => h d (List.mem_cons_of_mem _ hd)

namespace FrameSnap

variable {f : FrameSnap} {c : FrameComp}

theorem h_le_hmax (hc : c ∈ f.comps) : c.h ≤ f.hmax := (le_foldl_max FrameComp.h f.comps 0).2 c hc

theorem v_le_vmax (hc : c ∈ f.comps) : c.v ≤ f.vmax := (le_foldl_max FrameComp.v f.comps 0).2 c hc

theorem Sound.comps_ne (hf : f.Sound) : ∃ c, c ∈ f.comps := by
  have h := hf.nf
  cases hl : f.comps with
  | nil => simp [FrameSnap.nf, hl] at h
  | cons c l => exact ⟨c, by simp⟩

theorem Sound.hmax_pos (hf : f.Sound) : 1 ≤ f.hmax := by
  obtain ⟨c, hc⟩ := hf.comps_ne
  exact le_trans (hf.factors c hc).1 (h_le_hmax hc)

theorem Sound.vmax_pos (hf : f.Sound) : 1 ≤ f.vmax := by
  obtain ⟨c, hc⟩ := hf.comps_ne
  exact le_trans (hf.factors c hc).2.2.1 (v_le_vmax hc)

theorem Sound.hmax_le (hf : f.Sound) : f.hmax ≤ 4 :=
  foldl_max_le FrameComp.h f.comps (Nat.zero_le _) fun c hc => (hf.factors c hc).2.1

theorem Sound.vmax_le (hf : f.Sound) : f.vmax ≤ 4 :=
  foldl_max_le FrameComp.v f.comps (Nat.zero_le _) fun c hc => (hf.factors c hc).2.2.2

theorem Sound.fw_pos (hf : f.Sound) : 0 < f.fw.toNat := by
  have h := hf.fw
  rcases Nat.eq_zero_or_pos f.fw.toNat with h0 | h0
  · exact absurd (BitVec.eq_of_toNat_eq (by simpa using h0)) h
  · exact h0

theorem Sound.fh_pos (hf : f.Sound) : 0 < f.fh.toNat := by
  have h := hf.fh
  rcases Nat.eq_zero_or_pos f.fh.toNat with h0 | h0
  · exact absurd (BitVec.eq_of_toNat_eq (by simpa using h0)) h
  · exact h0

theorem Sound.mcux_pos (hf : f.Sound) : 0 < f.mcux := ceilDiv_pos hf.fw_pos (by have := hf.hmax_pos; omega)

theorem Sound.mcuy_pos (hf : f.Sound) : 0 < f.mcuy := ceilDiv_pos hf.fh_pos (by have := hf.vmax_pos; omega)

/-- R222: MCUX fits its register field. -/
theorem Sound.mcux_le (hf : f.Sound) : f.mcux ≤ 8192 := by
  have := hf.hmax_pos
  have := f.fw.isLt
  refine ceilDiv_le ?_ (by omega)
  calc f.fw.toNat ≤ 8192 * 8 := by omega
    _ ≤ 8192 * (8 * f.hmax) := by omega

/-- R222: MCUY fits its register field. -/
theorem Sound.mcuy_le (hf : f.Sound) : f.mcuy ≤ 8192 := by
  have := hf.vmax_pos
  have := f.fh.isLt
  refine ceilDiv_le ?_ (by omega)
  calc f.fh.toNat ≤ 8192 * 8 := by omega
    _ ≤ 8192 * (8 * f.vmax) := by omega

/-- The image lies inside the MCU grid. -/
theorem Sound.fw_le (hf : f.Sound) : f.fw.toNat ≤ f.mcux * 8 * f.hmax := by
  have h := le_ceilDiv_mul f.fw.toNat (b := 8 * f.hmax) (by have := hf.hmax_pos; omega)
  calc f.fw.toNat ≤ f.mcux * (8 * f.hmax) := h
    _ = f.mcux * 8 * f.hmax := by ring

/-- The image lies inside the MCU grid. -/
theorem Sound.fh_le (hf : f.Sound) : f.fh.toNat ≤ f.mcuy * 8 * f.vmax := by
  have h := le_ceilDiv_mul f.fh.toNat (b := 8 * f.vmax) (by have := hf.vmax_pos; omega)
  calc f.fh.toNat ≤ f.mcuy * (8 * f.vmax) := h
    _ = f.mcuy * 8 * f.vmax := by ring

theorem Sound.cwid_le_pw (hf : f.Sound) : f.cwid c ≤ f.pw c := by
  refine ceilDiv_le ?_ hf.hmax_pos
  calc f.fw.toNat * c.h ≤ f.mcux * 8 * f.hmax * c.h := Nat.mul_le_mul_right _ hf.fw_le
    _ = f.pw c * f.hmax := by unfold pw; ring

theorem Sound.chgt_le_ph (hf : f.Sound) : f.chgt c ≤ f.ph c := by
  refine ceilDiv_le ?_ hf.vmax_pos
  calc f.fh.toNat * c.v ≤ f.mcuy * 8 * f.vmax * c.v := Nat.mul_le_mul_right _ hf.fh_le
    _ = f.ph c * f.vmax := by unfold ph; ring

theorem Sound.cwid_pos (hf : f.Sound) (hc : c ∈ f.comps) : 0 < f.cwid c :=
  ceilDiv_pos (Nat.mul_pos hf.fw_pos (hf.factors c hc).1) hf.hmax_pos

theorem Sound.chgt_pos (hf : f.Sound) (hc : c ∈ f.comps) : 0 < f.chgt c :=
  ceilDiv_pos (Nat.mul_pos hf.fh_pos (hf.factors c hc).2.2.1) hf.vmax_pos

/-- R401, R408: the box index of a pixel of the image lies in the valid region. -/
theorem Sound.boxCol_lt (hf : f.Sound) (hc : c ∈ f.comps) {x : Nat} (hx : x < f.fw.toNat) :
    x * c.h / f.hmax < f.cwid c := by
  rw [Nat.div_lt_iff_lt_mul hf.hmax_pos]
  exact lt_of_lt_of_le (Nat.mul_lt_mul_of_pos_right hx (hf.factors c hc).1) (le_ceilDiv_mul _ hf.hmax_pos)

/-- R401, R408. -/
theorem Sound.boxRow_lt (hf : f.Sound) (hc : c ∈ f.comps) {y : Nat} (hy : y < f.fh.toNat) :
    y * c.v / f.vmax < f.chgt c := by
  rw [Nat.div_lt_iff_lt_mul hf.vmax_pos]
  exact lt_of_lt_of_le (Nat.mul_lt_mul_of_pos_right hy (hf.factors c hc).2.2.1) (le_ceilDiv_mul _ hf.vmax_pos)

/-- Plane rows and columns stay below the model's row pitch. -/
theorem Sound.pw_lt (hf : f.Sound) (hc : c ∈ f.comps) : f.pw c < 2 ^ 20 := by
  have h1 := hf.mcux_le
  have h2 := (hf.factors c hc).2.1
  calc f.pw c = f.mcux * c.h * 8 := rfl
    _ ≤ 8192 * 4 * 8 := Nat.mul_le_mul_right _ (Nat.mul_le_mul h1 h2)
    _ < 2 ^ 20 := by norm_num

theorem Sound.ph_lt (hf : f.Sound) (hc : c ∈ f.comps) : f.ph c < 2 ^ 20 := by
  have h1 := hf.mcuy_le
  have h2 := (hf.factors c hc).2.2.2
  calc f.ph c = f.mcuy * c.v * 8 := rfl
    _ ≤ 8192 * 4 * 8 := Nat.mul_le_mul_right _ (Nat.mul_le_mul h1 h2)
    _ < 2 ^ 20 := by norm_num

end FrameSnap

/-- R403, R404: under position `p` of a doubled row of `n` samples, both samples of the filter lie in the row. -/
theorem neighbour_lt {p n : Nat} (h : p / 2 < n) : neighbour p n < n := by
  unfold neighbour
  split <;> omega

section Scan

variable {f : FrameSnap} {sc : ScanSnap} {tabs : Tables}

theorem mem_slotBlocks {mx my : Nat} {sl : ScanSlot} {bp : BlockPos} :
    bp ∈ slotBlocks f mx my sl ↔
      ∃ c, f.comps[sl.cidx]? = some c ∧ ∃ dy dx, dy < c.v ∧ dx < c.h ∧ bp = ⟨sl, c, mx * c.h + dx, my * c.v + dy⟩ := by
  unfold slotBlocks
  cases f.comps[sl.cidx]? with
  | none => simp
  | some c =>
    simp only [List.mem_flatMap, List.mem_range, List.mem_map, Option.some.injEq, exists_eq_left']
    constructor
    · rintro ⟨dy, hy, dx, hx, rfl⟩; exact ⟨dy, dx, hy, hx, rfl⟩
    · rintro ⟨dy, dx, hy, hx, rfl⟩; exact ⟨dy, hy, dx, hx, rfl⟩

/-- A list in raster order: `v` rows of `h`. -/
theorem getElem?_raster {α : Type} (g : Nat → Nat → α) {h v y x : Nat} (hy : y < v) (hx : x < h) :
    ((List.range v).flatMap fun a => (List.range h).map fun b => g a b)[y * h + x]? = some (g y x) := by
  induction v with
  | zero => omega
  | succ v ih =>
    have hl : ((List.range v).flatMap fun a => (List.range h).map fun b => g a b).length = v * h := by simp
    rw [List.range_succ, List.flatMap_append]
    by_cases hyv : y < v
    · rw [List.getElem?_append_left (by rw [hl]; nlinarith)]
      exact ih hyv
    · obtain rfl : y = v := by omega
      rw [List.getElem?_append_right (by rw [hl]; omega), hl]
      simp [hx]

/-- An element of lists joined, by the list it comes from. -/
theorem getElem?_flatMap {α β : Type} (g : α → List β) {l : List α} {j i : Nat} {a : α} {b : β} (h : l[j]? = some a)
    (hb : (g a)[i]? = some b) : (l.flatMap g)[((l.take j).map fun a => (g a).length).sum + i]? = some b := by
  induction l generalizing j with
  | nil => simp at h
  | cons x l ih =>
    rw [List.flatMap_cons]
    cases j with
    | zero =>
      obtain rfl : x = a := by simpa using h
      rw [List.take_zero, List.map_nil, List.sum_nil, Nat.zero_add,
        List.getElem?_append_left (List.getElem?_eq_some_iff.mp hb).1, hb]
    | succ j =>
      rw [List.take_succ_cons, List.map_cons, List.sum_cons, List.getElem?_append_right (by omega),
        ← ih (j := j) (by simpa using h)]
      congr 1
      omega

/-- R320: how many blocks a slot puts into an MCU. -/
theorem slotBlocks_length (mx my : Nat) {sl : ScanSlot} {c : FrameComp} (h : f.comps[sl.cidx]? = some c) :
    (slotBlocks f mx my sl).length = c.h * c.v := by
  simp [slotBlocks, h, Nat.mul_comm]

/-- R320: the blocks of a slot, in raster order. -/
theorem slotBlocks_getElem? (mx my : Nat) {sl : ScanSlot} {c : FrameComp} (h : f.comps[sl.cidx]? = some c) {y x : Nat}
    (hy : y < c.v) (hx : x < c.h) :
    (slotBlocks f mx my sl)[y * c.h + x]? = some ⟨sl, c, mx * c.h + x, my * c.v + y⟩ := by
  simp only [slotBlocks, h]
  exact getElem?_raster _ hy hx

/-- R320, R321: a scan has one slot or several. -/
theorem ScanSnap.slots_cases (sc : ScanSnap) : (∃ sl, sc.slots = [sl]) ∨ ∀ sl, sc.slots ≠ [sl] := by
  rcases sc with ⟨slots, ri, srow, srows⟩
  match slots with
  | [] => exact .inr (by simp)
  | [sl] => exact .inl ⟨sl, rfl⟩
  | a :: b :: l => exact .inr (by simp)

theorem mcuBlocks_several (h : ∀ sl, sc.slots ≠ [sl]) (m : Nat) :
    mcuBlocks f sc m = sc.slots.flatMap (slotBlocks f (m % sc.srow) (m / sc.srow)) := by
  unfold mcuBlocks
  split
  · next sl e => exact absurd e (h sl)
  · rfl

theorem scanGrid_several {slots : List ScanSlot} (h : ∀ sl, slots ≠ [sl]) : scanGrid f slots = (f.mcux, f.mcuy) := by
  unfold scanGrid
  split
  · next sl => exact absurd rfl (h sl)
  · rfl

theorem ScanSnap.Sound.comp (hsc : sc.Sound f tabs) {sl : ScanSlot} (h : sl ∈ sc.slots) :
    ∃ c, f.comps[sl.cidx]? = some c ∧ c ∈ f.comps := by
  obtain ⟨c, hc, _⟩ := hsc.slot sl h
  exact ⟨c, hc, List.mem_of_getElem? hc⟩

/-- The grid of a scan of one component. -/
theorem ScanSnap.Sound.grid_one (hsc : sc.Sound f tabs) {sl : ScanSlot} {c : FrameComp} (h : sc.slots = [sl])
    (hc : f.comps[sl.cidx]? = some c) : sc.srow = ceilDiv (f.cwid c) 8 ∧ sc.srows = ceilDiv (f.chgt c) 8 := by
  have g := hsc.grid
  simpa [h, scanGrid, hc] using g

/-- The grid of an interleaved scan. -/
theorem ScanSnap.Sound.grid_several (hsc : sc.Sound f tabs) (h : ∀ sl, sc.slots ≠ [sl]) :
    sc.srow = f.mcux ∧ sc.srows = f.mcuy := by
  have g := hsc.grid
  rw [scanGrid_several h] at g
  simpa using g

theorem ScanSnap.Sound.srow_pos (hf : f.Sound) (hsc : sc.Sound f tabs) : 0 < sc.srow := by
  rcases sc.slots_cases with ⟨sl, h⟩ | h
  · obtain ⟨c, hc, hm⟩ := hsc.comp (sl := sl) (by simp [h])
    rw [(hsc.grid_one h hc).1]
    exact ceilDiv_pos (hf.cwid_pos hm) (by norm_num)
  · rw [(hsc.grid_several h).1]; exact hf.mcux_pos

theorem ScanSnap.Sound.srows_pos (hf : f.Sound) (hsc : sc.Sound f tabs) : 0 < sc.srows := by
  rcases sc.slots_cases with ⟨sl, h⟩ | h
  · obtain ⟨c, hc, hm⟩ := hsc.comp (sl := sl) (by simp [h])
    rw [(hsc.grid_one h hc).2]
    exact ceilDiv_pos (hf.chgt_pos hm) (by norm_num)
  · rw [(hsc.grid_several h).2]; exact hf.mcuy_pos

/-- The blocks of one component's own grid lie in its padded grid. -/
theorem FrameSnap.Sound.ceil_cwid_le (hf : f.Sound) (c : FrameComp) : ceilDiv (f.cwid c) 8 ≤ f.mcux * c.h :=
  ceilDiv_le (le_trans hf.cwid_le_pw (le_of_eq rfl)) (by norm_num)

theorem FrameSnap.Sound.ceil_chgt_le (hf : f.Sound) (c : FrameComp) : ceilDiv (f.chgt c) 8 ≤ f.mcuy * c.v :=
  ceilDiv_le (le_trans hf.chgt_le_ph (le_of_eq rfl)) (by norm_num)

/-- A scan has fewer than 2^32 MCUs, so MCU_COUNT never wraps. -/
theorem ScanSnap.Sound.smcus_lt (hf : f.Sound) (hsc : sc.Sound f tabs) : sc.smcus < 2 ^ 32 := by
  have hb : sc.srow ≤ 8192 * 4 ∧ sc.srows ≤ 8192 * 4 := by
    rcases sc.slots_cases with ⟨sl, h⟩ | h
    · obtain ⟨c, hc, hm⟩ := hsc.comp (sl := sl) (by simp [h])
      rw [(hsc.grid_one h hc).1, (hsc.grid_one h hc).2]
      have h4 := hf.factors c hm
      exact ⟨le_trans (hf.ceil_cwid_le c) (Nat.mul_le_mul hf.mcux_le h4.2.1),
        le_trans (hf.ceil_chgt_le c) (Nat.mul_le_mul hf.mcuy_le h4.2.2.2)⟩
    · rw [(hsc.grid_several h).1, (hsc.grid_several h).2]
      exact ⟨le_trans hf.mcux_le (by norm_num), le_trans hf.mcuy_le (by norm_num)⟩
  calc sc.smcus = sc.srow * sc.srows := rfl
    _ ≤ 8192 * 4 * (8192 * 4) := Nat.mul_le_mul hb.1 hb.2
    _ < 2 ^ 32 := by norm_num

/-- R322: what a block of a MCU of a scan is: a slot of the scan, its component, and a place in the component's grid. -/
theorem mem_mcuBlocks (hf : f.Sound) (hsc : sc.Sound f tabs) {m : Nat} (hm : m < sc.smcus) {bp : BlockPos}
    (h : bp ∈ mcuBlocks f sc m) :
    bp.slot ∈ sc.slots ∧ f.comps[bp.slot.cidx]? = some bp.comp ∧ bp.bxp < f.mcux * bp.comp.h ∧
      bp.byp < f.mcuy * bp.comp.v := by
  have hrow := hsc.srow_pos hf
  have hx : m % sc.srow < sc.srow := Nat.mod_lt _ hrow
  have hy : m / sc.srow < sc.srows := Nat.div_lt_of_lt_mul hm
  rcases sc.slots_cases with ⟨sl, hs⟩ | hs
  · obtain ⟨c, hc, hmem⟩ := hsc.comp (sl := sl) (by simp [hs])
    have hb : bp = ⟨sl, c, m % sc.srow, m / sc.srow⟩ := by simpa [mcuBlocks, hs, hc] using h
    obtain ⟨g1, g2⟩ := hsc.grid_one hs hc
    subst hb
    refine ⟨by simp [hs], hc, ?_, ?_⟩
    · exact lt_of_lt_of_le (g1 ▸ hx) (hf.ceil_cwid_le c)
    · exact lt_of_lt_of_le (g2 ▸ hy) (hf.ceil_chgt_le c)
  · rw [mcuBlocks_several hs, List.mem_flatMap] at h
    obtain ⟨sl, hsl, hb⟩ := h
    obtain ⟨c, hc, dy, dx, hdy, hdx, rfl⟩ := mem_slotBlocks.mp hb
    obtain ⟨g1, g2⟩ := hsc.grid_several hs
    refine ⟨hsl, hc, ?_, ?_⟩
    · calc m % sc.srow * c.h + dx < m % sc.srow * c.h + c.h := by omega
        _ = (m % sc.srow + 1) * c.h := by ring
        _ ≤ f.mcux * c.h := Nat.mul_le_mul_right _ (g1 ▸ hx)
    · calc m / sc.srow * c.v + dy < m / sc.srow * c.v + c.v := by omega
        _ = (m / sc.srow + 1) * c.v := by ring
        _ ≤ f.mcuy * c.v := Nat.mul_le_mul_right _ (g2 ▸ hy)

/-- R322, R370: every block of a scan lies inside its plane. -/
theorem blockInPlane_of_mem (hf : f.Sound) (hsc : sc.Sound f tabs) {m : Nat} (hm : m < sc.smcus) {bp : BlockPos}
    (h : bp ∈ mcuBlocks f sc m) : blockInPlane f bp = true := by
  obtain ⟨-, -, hx, hy⟩ := mem_mcuBlocks hf hsc hm h
  exact decide_eq_true (by unfold FrameSnap.ph FrameSnap.pw; omega)

/-- R320: a MCU has a block. -/
theorem mcuBlocks_pos (hf : f.Sound) (hsc : sc.Sound f tabs) (m : Nat) : 0 < (mcuBlocks f sc m).length := by
  rcases sc.slots_cases with ⟨sl, hs⟩ | hs
  · obtain ⟨c, hc, -⟩ := hsc.comp (sl := sl) (by simp [hs])
    simp [mcuBlocks, hs, hc]
  · rw [mcuBlocks_several hs]
    obtain ⟨sl, hsl⟩ := List.exists_mem_of_ne_nil _ hsc.slots_ne
    obtain ⟨c, hc, hmem⟩ := hsc.comp hsl
    obtain ⟨h1, -, h2, -⟩ := hf.factors c hmem
    have hb : (⟨sl, c, m % sc.srow * c.h + 0, m / sc.srow * c.v + 0⟩ : BlockPos) ∈
        sc.slots.flatMap (slotBlocks f (m % sc.srow) (m / sc.srow)) :=
      List.mem_flatMap.mpr ⟨sl, hsl, mem_slotBlocks.mpr ⟨c, hc, 0, 0, h2, h1, rfl⟩⟩
    exact List.length_pos_of_mem hb

/-- R408: every sample of the valid region of a scan's component lies in a block of one of the scan's MCUs. -/
theorem valid_region_covered (hf : f.Sound) (hsc : sc.Sound f tabs) {sl : ScanSlot} (hsl : sl ∈ sc.slots)
    {c : FrameComp} (hc : f.comps[sl.cidx]? = some c) {row col : Nat} (hrow : row < f.chgt c) (hcol : col < f.cwid c) :
    ∃ m, m < sc.smcus ∧ ∃ bp ∈ mcuBlocks f sc m, bp.slot.cidx = sl.cidx ∧ bp.byp = row / 8 ∧ bp.bxp = col / 8 := by
  have hmem : c ∈ f.comps := List.mem_of_getElem? hc
  rcases sc.slots_cases with ⟨sl', hs⟩ | hs
  · have e : sl' = sl := by rw [hs] at hsl; simpa using (List.mem_singleton.mp hsl).symm
    subst e
    obtain ⟨g1, g2⟩ := hsc.grid_one hs hc
    have hx : col / 8 < sc.srow := by
      rw [g1]; have := le_ceilDiv_mul (f.cwid c) (b := 8) (by norm_num); omega
    have hy : row / 8 < sc.srows := by
      rw [g2]; have := le_ceilDiv_mul (f.chgt c) (b := 8) (by norm_num); omega
    have hmod : (row / 8 * sc.srow + col / 8) % sc.srow = col / 8 := by
      rw [Nat.add_comm, Nat.add_mul_mod_self_right, Nat.mod_eq_of_lt hx]
    have hdiv : (row / 8 * sc.srow + col / 8) / sc.srow = row / 8 := by
      rw [Nat.add_comm, Nat.add_mul_div_right _ _ (by omega), Nat.div_eq_of_lt hx, Nat.zero_add]
    refine ⟨row / 8 * sc.srow + col / 8, ?_, ⟨sl', c, col / 8, row / 8⟩, ?_, rfl, rfl, rfl⟩
    · calc row / 8 * sc.srow + col / 8 < row / 8 * sc.srow + sc.srow := by omega
        _ = (row / 8 + 1) * sc.srow := by ring
        _ ≤ sc.srows * sc.srow := Nat.mul_le_mul_right _ hy
        _ = sc.smcus := Nat.mul_comm ..
    · simp [mcuBlocks, hs, hc, hmod, hdiv]
  · obtain ⟨g1, g2⟩ := hsc.grid_several hs
    obtain ⟨h1, -, h2, -⟩ := hf.factors c hmem
    have hcol' : col / 8 < f.mcux * c.h := by
      have := lt_of_lt_of_le hcol (hf.cwid_le_pw (c := c)); unfold FrameSnap.pw at this; omega
    have hrow' : row / 8 < f.mcuy * c.v := by
      have := lt_of_lt_of_le hrow (hf.chgt_le_ph (c := c)); unfold FrameSnap.ph at this; omega
    have hx : col / 8 / c.h < sc.srow := by rw [g1]; exact Nat.div_lt_of_lt_mul (by rwa [Nat.mul_comm])
    have hy : row / 8 / c.v < sc.srows := by rw [g2]; exact Nat.div_lt_of_lt_mul (by rwa [Nat.mul_comm])
    have hmod : (row / 8 / c.v * sc.srow + col / 8 / c.h) % sc.srow = col / 8 / c.h := by
      rw [Nat.add_comm, Nat.add_mul_mod_self_right, Nat.mod_eq_of_lt hx]
    have hdiv : (row / 8 / c.v * sc.srow + col / 8 / c.h) / sc.srow = row / 8 / c.v := by
      rw [Nat.add_comm, Nat.add_mul_div_right _ _ (by omega), Nat.div_eq_of_lt hx, Nat.zero_add]
    refine ⟨row / 8 / c.v * sc.srow + col / 8 / c.h, ?_, ⟨sl, c, col / 8, row / 8⟩, ?_, rfl, rfl, rfl⟩
    · calc row / 8 / c.v * sc.srow + col / 8 / c.h < row / 8 / c.v * sc.srow + sc.srow := by omega
        _ = (row / 8 / c.v + 1) * sc.srow := by ring
        _ ≤ sc.srows * sc.srow := Nat.mul_le_mul_right _ hy
        _ = sc.smcus := Nat.mul_comm ..
    · rw [mcuBlocks_several hs, List.mem_flatMap]
      refine ⟨sl, hsl, mem_slotBlocks.mpr ⟨c, hc, row / 8 % c.v, col / 8 % c.h, Nat.mod_lt _ h2, Nat.mod_lt _ h1, ?_⟩⟩
      rw [hmod, hdiv, Nat.div_add_mod', Nat.div_add_mod']

end Scan

end Sys2Proof.Machine
end

