-- ==== Sys2Proof/Laws/PerInstr.lean ====
section
/-! SUPPORT. Statements about every instruction as syntax, one lemma per constructor. `EncodeWidth`: an encoding lies in the
bits of its row's format (R140, R145, R148, R149; accesses: offset, write bit, data at 47:16). -/
namespace Sys2Proof.Laws.EncodeWidth

/-- The bits of a format. -/
def width : Format → Nat
  | .cmd => 32
  | .regAccess => 48
  | .token => 18
  | .dcSym => 8
  | .acSym => 8

/-- No bit of the encoding lies above its format's own. -/
def Statement (i : Instr) : Prop := (encode i).bits.toNat < 2 ^ width (encode i).fmt

/-- An access uses all 48 bits. -/
theorem access (w : Bool) (off : Byte) (v : Word) : (accessWord w off v).bits.toNat < 2 ^ 48 :=
  (accessWord w off v).bits.isLt

theorem cmdWord_lt (op : BitVec 4) (id : BitVec 2) (cls : BitVec 1) : (cmdWord op id cls).bits.toNat < 2 ^ 32 := by
  revert op id cls
  decide

/-- A word widened to 48 bits keeps its own bound. -/
theorem setWidth_lt {n : Nat} (w : BitVec n) : (w.setWidth 48).toNat < 2 ^ n :=
  lt_of_le_of_lt (by rw [BitVec.toNat_setWidth]; exact Nat.mod_le _ _) w.isLt

theorem nop : Statement .nop := cmdWord_lt 0 0 0
theorem loadQt (id : BitVec 2) : Statement (.loadQt id) := cmdWord_lt 1 id 0
theorem loadHt (id : BitVec 2) (cls : BitVec 1) : Statement (.loadHt id cls) := cmdWord_lt 2 id cls
theorem startFrame : Statement .startFrame := cmdWord_lt 3 0 0
theorem startScan : Statement .startScan := cmdWord_lt 4 0 0
theorem convert : Statement .convert := cmdWord_lt 5 0 0
theorem abort : Statement .abort := cmdWord_lt 15 0 0
theorem cmdRejected (w : Word) : Statement (.cmdRejected w) := setWidth_lt w
theorem tblDataWr (v : Word) : Statement (.tblDataWr v) := access _ _ v
theorem inDataWr (v : Word) : Statement (.inDataWr v) := access _ _ v
theorem outDataRd : Statement .outDataRd := access _ _ 0
theorem intStatusWr (v : Word) : Statement (.intStatusWr v) := access _ _ v
theorem ctrlSoftReset (v : Word) : Statement (.ctrlSoftReset v) := access _ _ v
theorem stuffed : Statement .stuffed := setWidth_lt _
theorem fillRun : Statement .fillRun := setWidth_lt _
theorem rstN (n : BitVec 3) : Statement (.rstN n) := setWidth_lt _
theorem marker (x : Byte) : Statement (.marker x) := setWidth_lt _
theorem dangling : Statement .dangling := setWidth_lt _
theorem data (b : Byte) : Statement (.data b) := setWidth_lt _
theorem endTok : Statement .endTok := setWidth_lt _
theorem dcZero : Statement .dcZero := by unfold Statement encode; decide
theorem dcDiffLow (t : Byte) : Statement (.dcDiffLow t) := setWidth_lt t
theorem dcDiffHigh (t : Byte) : Statement (.dcDiffHigh t) := setWidth_lt t
theorem dcIllegal (t : Byte) : Statement (.dcIllegal t) := setWidth_lt t
theorem acEob : Statement .acEob := by unfold Statement encode; decide
theorem acZrl : Statement .acZrl := by unfold Statement encode; decide
theorem acRunOnly (r : BitVec 4) : Statement (.acRunOnly r) := setWidth_lt (r ++ 0#4)
theorem acRunValue (r s : BitVec 4) : Statement (.acRunValue r s) := setWidth_lt (r ++ s)

end Sys2Proof.Laws.EncodeWidth
end

