-- ==== Sys2Proof/Laws/Step.lean ====
section
/-! SUPPORT. What one step can do (R12, R13): the engine's next operation and what it tells of the state, and the moves a
step is made of. -/
namespace Sys2Proof.Machine

/-- What the engine's next operation tells of the state (R325, R430). -/
def OpSpec (s : State) : EngineOp → Prop
  | .noStep => s.st ≠ .scan ∧ s.st ≠ .convert
  | .inPop => s.st = .scan ∧ windowComplete s.br.window = false
  | .token => s.st = .scan ∧ windowComplete s.br.window = true
  | .align => s.st = .scan ∧ s.br.window = [] ∧ (s.seq.phase = .restartCheck ∨ s.seq.phase = .endSearch)
  | .beginMcu => s.st = .scan ∧ s.br.window = [] ∧ s.seq.phase = .restartCheck
  | .restartJudge => s.st = .scan ∧ s.br.window = [] ∧ s.seq.phase = .restartCheck ∧
      (s.br.byte.isSome = true ∨ s.br.mode ≠ .data)
  | .readBits => s.st = .scan ∧ s.br.window = [] ∧ (s.seq.phase = .blockDc ∨ s.seq.phase = .blockAc) ∧
      (∀ b, s.seq.bits ≠ .sym b) ∧ bitAtHand s.br = true
  | .symbol => s.st = .scan ∧ s.br.window = [] ∧ (s.seq.phase = .blockDc ∨ s.seq.phase = .blockAc) ∧
      ∃ b, s.seq.bits = .sym b
  | .storeBlock => s.st = .scan ∧ s.br.window = [] ∧ s.seq.phase = .store ∧ s.seq.b < s.mcuSize
  | .mcuDone => s.st = .scan ∧ s.br.window = [] ∧ s.seq.phase = .store ∧ s.mcuSize ≤ s.seq.b
  | .trail => s.st = .scan ∧ s.br.window = [] ∧ s.seq.phase = .endSearch ∧ s.br.byte.isSome = true
  | .endJudge => s.st = .scan ∧ s.br.window = [] ∧ s.seq.phase = .endSearch ∧ s.br.byte = none ∧ s.br.mode ≠ .data
  | .outPush => s.st = .convert ∧ ∀ f, s.frame = some f → s.conv.y < f.fh.toNat
  | .convertDone => s.st = .convert ∧ ∃ f, s.frame = some f ∧ f.fh.toNat ≤ s.conv.y

theorem windowComplete_nil : windowComplete [] = false := rfl

/-- The inversion of `nextOp`. -/
theorem nextOp_spec (s : State) : OpSpec s (nextOp s) := by
  unfold nextOp
  split
  · next hst =>
    unfold scanOp
    by_cases hw : windowComplete s.br.window = true
    · simp only [hw, if_true]; exact ⟨hst, hw⟩
    · have hw' : windowComplete s.br.window = false := by simpa using hw
      simp only [hw', Bool.false_eq_true, if_false]
      by_cases hn : s.br.window = []
      · simp only [hn, ne_eq, not_true_eq_false, if_false]
        split
        · next hp =>
          by_cases h1 : s.restartNow = true
          · simp only [h1, Bool.not_true, Bool.false_eq_true, if_false]
            by_cases h2 : s.br.nbits = 0
            · simp only [h2, not_true_eq_false, if_false]
              by_cases h3 : s.br.byte.isSome = true
              · simp only [h3, if_true]; exact ⟨hst, hn, hp, .inl h3⟩
              · simp only [h3, Bool.false_eq_true, if_false, fetchThen]
                split
                · exact ⟨hst, hw'⟩
                · next hm => exact ⟨hst, hn, hp, .inr hm⟩
            · simp only [h2, not_false_eq_true, if_true]; exact ⟨hst, hn, .inl hp⟩
          · have h1' : s.restartNow = false := by simpa using h1
            simp only [h1', Bool.not_false, if_true]; exact ⟨hst, hn, hp⟩
        · next hp =>
          split
          · next b hb => exact ⟨hst, hn, .inl hp, b, hb⟩
          · next c l hb =>
            split
            · next hh => exact ⟨hst, hn, .inl hp, by simp [hb], hh⟩
            · exact ⟨hst, hw'⟩
          · next hb =>
            split
            · next hh => exact ⟨hst, hn, .inl hp, by simp [hb], hh⟩
            · exact ⟨hst, hw'⟩
        · next hp =>
          split
          · next b hb => exact ⟨hst, hn, .inr hp, b, hb⟩
          · next c l hb =>
            split
            · next hh => exact ⟨hst, hn, .inr hp, by simp [hb], hh⟩
            · exact ⟨hst, hw'⟩
          · next hb =>
            split
            · next hh => exact ⟨hst, hn, .inr hp, by simp [hb], hh⟩
            · exact ⟨hst, hw'⟩
        · next hp =>
          split
          · next hb => exact ⟨hst, hn, hp, hb⟩
          · next hb => exact ⟨hst, hn, hp, by omega⟩
        · next hp =>
          by_cases h2 : s.br.nbits = 0
          · simp only [h2, not_true_eq_false, if_false]
            by_cases h3 : s.br.byte.isSome = true
            · simp only [h3, if_true]; exact ⟨hst, hn, hp, h3⟩
            · simp only [h3, Bool.false_eq_true, if_false, fetchThen]
              split
              · exact ⟨hst, hw'⟩
              · next hm => exact ⟨hst, hn, hp, by simpa using h3, hm⟩
          · simp only [h2, not_false_eq_true, if_true]; exact ⟨hst, hn, .inr hp⟩
      · simp only [ne_eq, hn, not_false_eq_true, if_true]; exact ⟨hst, hw'⟩
  · next hst =>
    unfold convertOp
    split
    · next hf => exact ⟨hst, by simp [hf]⟩
    · next f hf =>
      split
      · next hy => exact ⟨hst, fun g hg => by rw [hf] at hg; exact (Option.some.inj hg) ▸ hy⟩
      · next hy => exact ⟨hst, f, hf, by omega⟩
  · next hst => simp [OpSpec, hst]
  · next hst => simp [OpSpec, hst]
  · next hst => simp [OpSpec, hst]

/-- R520: outside IDLE, FRAME and ERROR there is a next operation. -/
theorem nextOp_ne_noStep {s : State} (h : s.st = .scan ∨ s.st = .convert) : nextOp s ≠ .noStep := by
  intro e
  have := nextOp_spec s
  rw [e] at this
  exact h.elim this.1 this.2

theorem mapNext_eq_next {f : State → State} {o : Host.Outcome State Fault Refusal} {t : State} :
    mapNext f o = .next t ↔ ∃ u, o = .next u ∧ t = f u := by
  cases o with
  | next u => simp [mapNext, eq_comm]
  | fault r => simp [mapNext]
  | refused r => simp [mapNext]

theorem mapNext_eq_fault {f : State → State} {o : Host.Outcome State Fault Refusal} {e : Fault} :
    mapNext f o = .fault e ↔ o = .fault e := by
  cases o <;> simp [mapNext]

/-- The instruction the engine stands at: the token in its window, or the decoded symbol (R145, R147). -/
theorem engineInstr_eq_some {s : State} {i : Instr} (h : engineInstr s = some i) :
    (nextOp s = .token ∧ i = decodeToken (tokenWord s.br.window)) ∨
    (nextOp s = .symbol ∧ ∃ b, s.seq.bits = .sym b ∧ i = symbolInstr s.seq.phase b) := by
  unfold engineInstr at h
  split at h
  · next h1 => exact .inl ⟨h1, (Option.some.inj h).symm⟩
  · next b h1 h2 => exact .inr ⟨h1, b, h2, (Option.some.inj h).symm⟩
  · simp at h

/-- R13: one operation of the engine. -/
theorem engineStep_next {s t : State} (h : engineStep s = .next t) :
    ∃ u, t = markStep (nextOp s) u ∧
      ((∃ i, engineInstr s = some i ∧ exec i s = .next u) ∨
       (engineInstr s = none ∧ engineOther (nextOp s) s = .ok u)) := by
  unfold engineStep at h
  obtain ⟨u, hu, rfl⟩ := mapNext_eq_next.mp h
  refine ⟨u, rfl, ?_⟩
  split at hu
  · next i hi => exact .inl ⟨i, hi, hu⟩
  · next hi => exact .inr ⟨hi, answer_eq_next.mp hu⟩

/-- R101: one host access is an instruction, a plain write or a plain read. -/
theorem hostAccess_next {a : Access} {s t : State} (h : hostAccess a s = .next t) :
    ∃ off, off = a.addr - s.par.regBase ∧
      ((∃ i, decodeAccess a.write (BitVec.ofNat 8 off) a.data = .ok i ∧ exec i s = .next t) ∨
       t = plainWrite off a.data s ∨ t = plainRead off s) := by
  refine ⟨_, rfl, ?_⟩
  unfold hostAccess at h
  simp only at h
  split at h
  · simp at h
  · split at h
    · simp at h
    · split at h
      · next i hi => exact .inl ⟨i, hi, h⟩
      · right
        split at h
        · exact .inl (by simpa using h.symm)
        · exact .inr (by simpa using h.symm)

/-- R12, R120: the moves a step is made of, from a state that differs from the step's own in the moves still to come and in
the mark of R13 alone. A move of the outside world is the next one of `turns`, and is made between two engine steps. -/
theorem step_next {s t : State} (h : step s = .next t) :
    ∃ r m, (engineReady { s with turns := r, mid := m } = true ∧ engineStep { s with turns := r, mid := m } = .next t) ∨
      t = { s with turns := r, mid := m } ∨
      (∃ a, s.turns = .host a :: r ∧ (s.mid && engineReady s) = false ∧
        hostAccess a { s with turns := r, mid := m } = .next t) ∨
      ((∃ l, s.turns = .powerOn :: l) ∧ (s.mid && engineReady s) = false ∧
        t = resetAction { s with turns := r, mid := m }) := by
  have key : ∀ r m, engineMove { s with turns := r, mid := m } = .next t →
      (engineReady { s with turns := r, mid := m } = true ∧ engineStep { s with turns := r, mid := m } = .next t) ∨
        t = { s with turns := r, mid := m } := by
    intro r m h
    unfold engineMove at h
    split at h
    · next hr => exact .inl ⟨hr, h⟩
    · exact .inr (by simpa using h.symm)
  unfold step at h
  split at h
  · next hm =>
    simp only [Bool.and_eq_true] at hm
    exact ⟨s.turns, s.mid, .inl ⟨hm.2, h⟩⟩
  · next hm =>
    have hm' : (s.mid && engineReady s) = false := by simpa using hm
    unfold move at h
    split at h
    · exact ⟨s.turns, s.mid, (key s.turns s.mid h).imp_right .inl⟩
    · next rest _ => exact ⟨rest, false, (key rest false h).imp_right .inl⟩
    · next a rest e => exact ⟨rest, false, .inr (.inr (.inl ⟨a, e, hm', h⟩))⟩
    · next rest e => exact ⟨rest, false, .inr (.inr (.inr ⟨⟨rest, e⟩, hm', by injection h with h; exact h.symm⟩))⟩

/-- What a step can stop on comes from one of the same moves. -/
theorem step_fault {s : State} {e : Fault} (h : step s = .fault e) :
    ∃ r m, (engineReady { s with turns := r, mid := m } = true ∧ engineStep { s with turns := r, mid := m } = .fault e) ∨
      ∃ a, hostAccess a { s with turns := r, mid := m } = .fault e := by
  have key : ∀ r m, engineMove { s with turns := r, mid := m } = .fault e →
      ∃ r m, (engineReady { s with turns := r, mid := m } = true ∧
        engineStep { s with turns := r, mid := m } = .fault e) ∨
      ∃ a, hostAccess a { s with turns := r, mid := m } = .fault e := by
    intro r m h
    unfold engineMove at h
    split at h
    · next hr => exact ⟨r, m, .inl ⟨hr, h⟩⟩
    · simp at h
  unfold step at h
  split at h
  · next hm =>
    simp only [Bool.and_eq_true] at hm
    exact ⟨s.turns, s.mid, .inl ⟨hm.2, h⟩⟩
  · unfold move at h
    split at h
    · exact key s.turns s.mid h
    · next rest _ => exact key rest false h
    · next a rest _ => exact ⟨rest, false, .inr ⟨a, h⟩⟩
    · simp at h

end Sys2Proof.Machine
end

