-- ==== Sys2Proof/Laws/Safety.lean ====
section
/-! SUPPORT. The invariants of Safety.lean taken apart: what they depend on, what the checks of LOAD_HT, START_FRAME and
START_SCAN establish of them, and that a conversion reads written samples only. Also the three classes of instructions, by
the agent and the place they come from, and what a class can change. -/
namespace Sys2Proof.Machine

variable {s t : State}

/-- The instructions the host makes: commands and register accesses (R140, R250). -/
def hostInstr : Instr → Bool
  | .nop | .loadQt _ | .loadHt _ _ | .startFrame | .startScan | .convert | .abort | .cmdRejected _ => true
  | .tblDataWr _ | .inDataWr _ | .outDataRd | .intStatusWr _ | .ctrlSoftReset _ => true
  | .stuffed | .fillRun | .rstN _ | .marker _ | .dangling | .data _ | .endTok => false
  | .dcZero | .dcDiffLow _ | .dcDiffHigh _ | .dcIllegal _ | .acEob | .acZrl | .acRunOnly _ | .acRunValue _ _ => false

/-- The tokens of `FetchByte()` (R145). -/
def tokenInstr : Instr → Bool
  | .stuffed | .fillRun | .rstN _ | .marker _ | .dangling | .data _ | .endTok => true
  | .nop | .loadQt _ | .loadHt _ _ | .startFrame | .startScan | .convert | .abort | .cmdRejected _ => false
  | .tblDataWr _ | .inDataWr _ | .outDataRd | .intStatusWr _ | .ctrlSoftReset _ => false
  | .dcZero | .dcDiffLow _ | .dcDiffHigh _ | .dcIllegal _ | .acEob | .acZrl | .acRunOnly _ | .acRunValue _ _ => false

/-- The decoded symbols (R148, R149). -/
def symInstr : Instr → Bool
  | .dcZero | .dcDiffLow _ | .dcDiffHigh _ | .dcIllegal _ | .acEob | .acZrl | .acRunOnly _ | .acRunValue _ _ => true
  | .nop | .loadQt _ | .loadHt _ _ | .startFrame | .startScan | .convert | .abort | .cmdRejected _ => false
  | .tblDataWr _ | .inDataWr _ | .outDataRd | .intStatusWr _ | .ctrlSoftReset _ => false
  | .stuffed | .fillRun | .rstN _ | .marker _ | .dangling | .data _ | .endTok => false

theorem decodeToken_token (w : BitVec 18) : tokenInstr (decodeToken w) = true := by
  unfold decodeToken; simp only; repeat' split
  all_goals rfl

theorem symbolInstr_sym (p : Phase) (b : Byte) : symInstr (symbolInstr p b) = true := by
  unfold symbolInstr decodeDc decodeAc; simp only; repeat' split
  all_goals rfl

theorem decodeAccess_host {w : Bool} {off : Byte} {v : Word} {i : Instr} (h : decodeAccess w off v = .ok i) :
    hostInstr i = true := by
  unfold decodeAccess at h
  split at h
  · injection h with h; subst h
    unfold decodeCmd; simp only; repeat' split
    all_goals rfl
  · unfold decodeRegAccess at h
    repeat' split at h
    all_goals first | (injection h with h; subst h; rfl) | simp at h

/-- R262: a token changes the bit reader alone. -/
theorem exec_token {i : Instr} (hi : tokenInstr i = true) (he : exec i s = .next t) : ∃ br, t = { s with br := br } := by
  cases i
  case stuffed | fillRun | rstN | marker | dangling | data | endTok => injection he with he; subst he; exact ⟨_, rfl⟩
  all_goals exact absurd hi Bool.false_ne_true

theorem magnitudeDone_changes {dc : Bool} {n : Nat} {v : Half} (h : magnitudeDone dc n v s = .ok t) :
    ∃ pred blk seq, t = { s with pred := pred, blk := blk, seq := seq } := by
  rcases magnitudeDone_ok h with ⟨-, bp, -, rfl⟩ | ⟨-, rfl⟩ <;> exact ⟨_, _, _, rfl⟩

theorem readMagnitude_changes {dc : Bool} {n left : Nat} {v : Half} (h : readMagnitude dc n left v s = .ok t) :
    ∃ br pred blk seq, ReadsFrom s.br br ∧ t = { s with br := br, pred := pred, blk := blk, seq := seq } := by
  obtain ⟨br, hr, ⟨m, w, rfl⟩ | ⟨w, hw⟩⟩ := readMagnitude_cases h
  · exact ⟨br, _, _, _, hr, rfl⟩
  · obtain ⟨pred, blk, seq, rfl⟩ := magnitudeDone_changes hw
    exact ⟨br, pred, blk, seq, hr, rfl⟩

/-- R303-R312: a symbol raises an error, or it changes bit-reader fields, predictors, the block in work and the cursor. -/
theorem exec_symbol {i : Instr} (hi : symInstr i = true) (he : exec i s = .next t) :
    (∃ k d a, t = raise k d a s) ∨
      ∃ br pred blk seq, ReadsFrom s.br br ∧ t = { s with br := br, pred := pred, blk := blk, seq := seq } := by
  cases i
  case dcZero =>
    obtain ⟨bp, -, rfl⟩ := dcDoneHere_ok (answer_eq_next.mp he)
    exact .inr ⟨_, _, _, _, .refl _, rfl⟩
  case dcDiffLow x => exact .inr (readMagnitude_changes (answer_eq_next.mp he))
  case dcDiffHigh x => exact .inr (readMagnitude_changes (answer_eq_next.mp he))
  case dcIllegal x => injection he with he; subst he; exact .inl ⟨_, _, _, rfl⟩
  case acEob => injection he with he; subst he; exact .inr ⟨_, _, _, _, .refl _, rfl⟩
  case acZrl =>
    injection he with he; subst he; split
    · exact .inl ⟨_, _, _, rfl⟩
    · exact .inr ⟨_, _, _, _, .refl _, rfl⟩
  case acRunOnly r =>
    injection he with he; subst he; split
    · exact .inl ⟨_, _, _, rfl⟩
    · exact .inr ⟨_, _, _, _, .refl _, rfl⟩
  case acRunValue r z =>
    have he : execAcRunValue r z s = .next t := he
    unfold execAcRunValue at he
    split at he
    · injection he with he; subst he; exact .inl ⟨_, _, _, rfl⟩
    · obtain ⟨br, pred, blk, seq, hr, rfl⟩ := readMagnitude_changes (answer_eq_next.mp he)
      exact .inr ⟨br, pred, blk, seq, hr, rfl⟩
  all_goals exact absurd hi Bool.false_ne_true

/-- R430, R431: a conversion step pushes one byte and moves the cursor. -/
theorem outPush_ok (h : outPush s = .ok t) : ∃ f mode bytes, s.frame = some f ∧ s.cvMode = some mode ∧
    pixel s f mode s.conv.x s.conv.y = .ok bytes ∧
    t = { pushOut (bytes.getD s.conv.ch 0) s with conv := advance f s.conv } := by
  unfold outPush at h
  split at h
  · cases h
  · cases h
  · next f mode hf hm =>
    split at h
    · cases h
    · next bytes hp => injection h with h; exact ⟨f, mode, bytes, hf, hm, hp, h.symm⟩

/-- The storage invariant depends on few fields. -/
theorem StorageInv.congr (h : StorageInv s) (h1 : t.planes = s.planes) (h2 : t.inFifo = s.inFifo) (h3 : t.par = s.par)
    (h4 : t.outFifo = s.outFifo) (h5 : t.stg = s.stg) (h6 : t.regs = s.regs) (h7 : t.br.nbits ≤ 8)
    (h8 : t.eofSeen = s.eofSeen) (h9 : t.tabs = s.tabs) : StorageInv t := by
  refine ⟨?_, ?_, ?_, ?_, ?_, ?_, h7, ?_, ?_, ?_, ?_⟩
  · rw [h3]; exact h.params
  · rw [h1]; exact h.planes_wf
  · rw [h2, h3]; exact h.in_bound
  · rw [h4, h3]; exact h.out_bound
  · rw [h5]; exact h.stg_bound
  · rw [h6]; exact h.scan_cfg
  · rw [h8, h2]; exact h.eof_seen
  · rw [h9]; exact h.qt_valid
  · rw [h9]; exact h.dc_valid
  · rw [h9]; exact h.ac_valid

/-- The storage invariant where the input FIFO is flushed (R455, R240, R337). -/
theorem StorageInv.flush (h : StorageInv s) (h1 : Memory.wf t.planes) (h2 : t.inFifo = []) (h3 : t.par = s.par)
    (h4 : t.outFifo = s.outFifo ∨ t.outFifo = []) (h5 : t.stg = s.stg ∨ t.stg = []) (h6 : t.regs = s.regs)
    (h7 : t.br.nbits ≤ 8) (h8 : t.eofSeen = false) (h9 : t.tabs = s.tabs) : StorageInv t := by
  refine ⟨?_, h1, ?_, ?_, ?_, ?_, h7, ?_, ?_, ?_, ?_⟩
  · rw [h3]; exact h.params
  · rw [h2]; exact Nat.zero_le _
  · rcases h4 with h4 | h4
    · rw [h4, h3]; exact h.out_bound
    · rw [h4]; exact Nat.zero_le _
  · rcases h5 with h5 | h5
    · rw [h5]; exact h.stg_bound
    · rw [h5]; exact Nat.zero_le _
  · rw [h6]; exact h.scan_cfg
  · rw [h8, h2]; simp
  · rw [h9]; exact h.qt_valid
  · rw [h9]; exact h.dc_valid
  · rw [h9]; exact h.ac_valid

/-- R43: a table set and validated keeps valid bits and written tables the same. -/
theorem valid_set {α : Type} (q : Quad (Option α)) (v : BitVec 4) (t : BitVec 2) (x : α)
    (hq : ∀ t, validAt v t = (q.get t).isSome) : ∀ u, validAt (v ||| idBit t) u = ((q.set t (some x)).get u).isSome := by
  intro u
  rw [validAt_or_idBit]
  by_cases e : u = t
  · subst e; simp
  · rw [Quad.get_set_other _ _ e, hq]; simp [e]

/-- R26, R40: a plain write keeps the reserved bits of SCAN_CFG at 0. -/
theorem regWrite_scanCfg (v : Word) (r : Regs) (x : Reg) (h : r.scanCfg &&& ~~~scanCfgMask = 0) :
    (regWrite v r x).scanCfg &&& ~~~scanCfgMask = 0 := by
  cases x <;> first | exact h | skip
  show (v &&& scanCfgMask) &&& ~~~scanCfgMask = 0
  rw [BitVec.and_assoc, BitVec.and_not_self]; simp

theorem regionWritten.mono {f : FrameSnap} {m m' : Memory} {i : Nat} (h : regionWritten f m i)
    (hm : ∀ a, (Memory.read m a).isSome = true → (Memory.read m' a).isSome = true) : regionWritten f m' i :=
  fun c hc row col hr hl => hm _ (h c hc row col hr hl)

theorem blockWritten.mono {m m' : Memory} {bp : BlockPos} (h : blockWritten m bp)
    (hm : ∀ a, (Memory.read m a).isSome = true → (Memory.read m' a).isSome = true) : blockWritten m' bp :=
  fun y x hy hx => hm _ (h y x hy hx)

/-- R455, R240: nothing need be written in IDLE and ERROR but the tables' symbols. -/
theorem LiveInv.leave (h : LiveInv s) (ht : t.tabs = s.tabs) (hst : t.st = .idle ∨ t.st = .error) : LiveInv t := by
  refine ⟨by rw [ht]; exact h.dc_sound, by rw [ht]; exact h.ac_sound, ?_, ?_, ?_⟩ <;>
    rcases hst with e | e <;> simp [e]

/-- The live invariant depends on these fields. -/
theorem LiveInv.congr (h : LiveInv s) (h0 : t.tabs = s.tabs) (h1 : t.st = s.st) (h2 : t.frame = s.frame)
    (h3 : t.scan = s.scan) (h4 : t.compDone = s.compDone) (h5 : t.planes = s.planes) (h6 : t.mcuCount = s.mcuCount)
    (h7 : t.seq = s.seq) (h8 : t.blk = s.blk) (h9 : t.br = s.br) (h10 : t.cvMode = s.cvMode) (h11 : t.conv = s.conv) :
    LiveInv t := by
  have hm : t.m = s.m := by unfold State.m; rw [h6]
  refine ⟨by rw [h0]; exact h.dc_sound, by rw [h0]; exact h.ac_sound, ?_, ?_, ?_⟩
  · rw [h1, h2, h4, h5]; exact h.frame
  · rw [h1, h2, h3, h0]
    intro hst f hf
    obtain ⟨sc, hsc, hs, hp⟩ := h.scan hst f hf
    refine ⟨sc, hsc, hs, ?_⟩
    exact ⟨by rw [h7, hm]; exact hp.mcu, by rw [h7, hm]; exact hp.block, by rw [h5, hm]; exact hp.stored_before,
      by rw [h5, h7, hm]; exact hp.stored_here, by rw [h7, h8]; exact hp.coef, by rw [h9]; exact hp.cur,
      by rw [h9]; exact hp.marker⟩
  · rw [h1, h2, h4, h10, h11]; exact h.convert

/-- The live invariant of a scan that goes on, from where it stands. -/
theorem LiveInv.goesOn (h : LiveInv s) (hst : s.st = .scan) (h0 : t.tabs = s.tabs) (h1 : t.st = .scan)
    (h2 : t.frame = s.frame) (h3 : t.scan = s.scan) (h4 : t.compDone = s.compDone)
    (h5 : ∀ a, (Memory.read s.planes a).isSome = true → (Memory.read t.planes a).isSome = true)
    (hp : ∀ f sc, s.frame = some f → s.scan = some sc → f.Sound → sc.Sound f s.tabs → ScanPos f sc s → ScanPos f sc t) :
    LiveInv t := by
  refine ⟨by rw [h0]; exact h.dc_sound, by rw [h0]; exact h.ac_sound, ?_, ?_, ?_⟩
  · intro _
    obtain ⟨f, hf, hs, hr⟩ := h.frame (.inr (.inl hst))
    exact ⟨f, by rw [h2, hf], hs, fun i hi hd => (hr i hi (by rwa [h4] at hd)).mono h5⟩
  · intro _ f hf
    rw [h2] at hf
    obtain ⟨g, hg, hs, -⟩ := h.frame (.inr (.inl hst))
    rw [hf] at hg; obtain rfl := Option.some.inj hg
    obtain ⟨sc, hsc, hss, hpos⟩ := h.scan hst f hf
    exact ⟨sc, by rw [h3, hsc], by rw [h0]; exact hss, hp f sc hf hsc hs hss hpos⟩
  · intro hc; rw [h1] at hc; simp at hc

/-- Where a scan stands depends on these fields. -/
theorem ScanPos.congr {f : FrameSnap} {sc : ScanSnap} (h : ScanPos f sc s) (h1 : t.seq.phase = s.seq.phase)
    (h2 : t.seq.b = s.seq.b) (h3 : t.mcuCount = s.mcuCount) (h4 : t.planes = s.planes) (h5 : t.blk.coef = s.blk.coef)
    (h6 : t.br.nbits ≠ 0 → t.br.cur.isSome = true) (h7 : t.br.mode = .marker → t.br.marker.isSome = true) :
    ScanPos f sc t := by
  have hm : t.m = s.m := by unfold State.m; rw [h3]
  exact ⟨by rw [h1, hm]; exact h.mcu, by rw [h1, h2, hm]; exact h.block, by rw [h4, hm]; exact h.stored_before,
    by rw [h4, h1, h2, hm]; exact h.stored_here, by rw [h1, h5]; exact h.coef, h6, h7⟩

theorem huffRows_sound {len code k : Nat} {l : List Nat} {rows : List HuffRow} (h : huffRows len code k l = .ok rows) :
    ∀ r ∈ rows, r.off + r.num ≤ k + l.sum := by
  induction l generalizing len code k rows with
  | nil => injection h with h; subst h; simp
  | cons n l ih =>
    unfold huffRows at h
    split at h
    · simp at h
    · split at h
      · simp at h
      · next rows' hr =>
        injection h with h; subst h
        intro r hr'
        rcases List.mem_cons.mp hr' with rfl | hr'
        · simp
        · have := ih hr r hr'; simp; omega

/-- R212, R213: a built table's codes all have a symbol. -/
theorem buildHuff_sound {t : BitVec 2} {ovf : Bool} {stg : List Half} {h : HuffTable}
    (hb : buildHuff t ovf stg = .ok h) : h.sound := by
  unfold buildHuff at hb
  split at hb <;> try simp at hb
  split at hb <;> try simp at hb
  split at hb <;> try simp at hb
  next h1 h2 h3 =>
  split at hb <;> try simp at hb
  split at hb <;> try simp at hb
  next rows hr =>
  subst hb
  intro r hr'
  have := huffRows_sound hr r hr'
  simp only [List.length_map, List.length_drop]
  omega

/-- R220: the checks of START_FRAME leave a sound frame. -/
theorem frameError_sound {r : Regs} {cap : Option Nat} (h : frameError r cap = none) : (configuredFrame r).Sound := by
  unfold frameError at h
  simp only at h
  split at h <;> try simp at h
  split at h <;> try simp at h
  split at h <;> try simp at h
  split at h <;> try simp at h
  next h1 h2 h3 h4 =>
  split at h <;> try simp at h
  next hx =>
  refine ⟨?_, h3, h4, ?_⟩
  · simp only [configuredFrame, FrameSnap.nf, Regs.comps]
    have : r.ncomp = 1 ∨ r.ncomp = 3 := by tauto
    rcases this with e | e <;> simp [e]
  · intro c hc
    rw [List.findIdx?_eq_none_iff] at hx
    have := hx c hc
    simp [factorOk] at this
    tauto

theorem badSlot_none {nf : Nat} {l : List ScanSlot} {j : Nat} {seen : List Nat} (h : badSlot nf j seen l = none) :
    ∀ sl ∈ l, sl.cidx < nf := by
  induction l generalizing j seen with
  | nil => simp
  | cons a l ih =>
    unfold badSlot at h
    split at h
    · simp at h
    · next hn =>
      intro sl hsl
      rcases List.mem_cons.mp hsl with rfl | hsl
      · omega
      · exact ih h sl hsl

theorem missingTable_none {tabs : Tables} {f : FrameSnap} {l : List ScanSlot} (h : missingTable tabs f l = none) :
    ∀ sl ∈ l, ∀ c, f.comps[sl.cidx]? = some c →
      validAt tabs.qtValid c.tq = true ∧ validAt tabs.dcValid sl.td = true ∧ validAt tabs.acValid sl.ta = true := by
  induction l with
  | nil => simp
  | cons a l ih =>
    unfold missingTable at h
    simp only at h
    cases hx : f.comps[a.cidx]? with
    | none =>
      simp only [hx] at h
      repeat' split at h
      all_goals try simp at h
      intro sl hsl c hc
      rcases List.mem_cons.mp hsl with rfl | hsl
      · rw [hx] at hc; simp at hc
      · exact ih h sl hsl c hc
    | some d =>
      simp only [hx] at h
      split at h
      · simp at h
      · split at h
        · simp at h
        · split at h
          · simp at h
          · next h1 h2 h3 =>
            intro sl hsl c hc
            rcases List.mem_cons.mp hsl with rfl | hsl
            · rw [hx] at hc; obtain rfl := Option.some.inj hc
              simp at h1 h2 h3
              exact ⟨h1, h2, h3⟩
            · exact ih h sl hsl c hc

/-- R225: the checks of START_SCAN leave a sound scan. -/
theorem scanError_sound (hs : StorageInv s) {f : FrameSnap} (h : scanError s.regs s.tabs f = none) (hf : f.Sound) :
    (configuredScan s.regs f).Sound f s.tabs := by
  unfold scanError at h
  split at h <;> try simp at h
  next h1 =>
  split at h <;> try simp at h
  next h2 =>
  split at h <;> try simp at h
  next h3 =>
  split at h <;> try simp at h
  next h4 =>
  refine ⟨?_, rfl, ?_⟩
  · have hnf := hf.nf
    have : s.regs.ns = 1 ∨ s.regs.ns = 2 ∨ s.regs.ns = 3 := by omega
    simp only [configuredScan, Regs.slots]
    rcases this with e | e | e <;> simp [e]
  · intro sl hsl
    have hc := badSlot_none h2 sl hsl
    have hg : f.comps[sl.cidx]? = some f.comps[sl.cidx] := List.getElem?_eq_getElem hc
    obtain ⟨v1, v2, v3⟩ := missingTable_none h4 sl hsl _ hg
    exact ⟨_, hg, by rw [← hs.qt_valid]; exact v1, by rw [← hs.dc_valid]; exact v2, by rw [← hs.ac_valid]; exact v3⟩

/-- R337: a COMP_DONE bit the end of a scan sets is one of its components'. -/
theorem doneMask_bit {slots : List ScanSlot} {i : Nat} (h : (doneMask slots).getLsbD i = true) :
    ∃ sl ∈ slots, sl.cidx = i := by
  unfold doneMask at h
  have key : ∀ (l : List ScanSlot) (m : BitVec 3),
      (l.foldl (fun m sl => m ||| (1#3 <<< sl.cidx)) m).getLsbD i = true → m.getLsbD i = true ∨ ∃ sl ∈ l, sl.cidx = i := by
    intro l
    induction l with
    | nil => intro m h; exact .inl h
    | cons a l ih =>
      intro m h
      rcases ih _ h with h | ⟨sl, hsl, he⟩
      · simp at h
        rcases h with h | h
        · exact .inl h
        · exact .inr ⟨a, by simp, by omega⟩
      · exact .inr ⟨sl, by simp [hsl], he⟩
  rcases key _ _ h with h | h
  · simp at h
  · exact h

/-- R102, R401: a sample of a written valid region is read. -/
theorem planeRead_ok {f : FrameSnap} {i row col : Nat} {c : FrameComp} (hc : f.comps[i]? = some c) (hf : f.Sound)
    (hr : regionWritten f s.planes i) (h1 : row < f.chgt c) (h2 : col < f.cwid c) :
    ∃ v, planeRead s f i row col = .ok v := by
  have := hr c hc row col h1 h2
  unfold sampleWritten at this
  obtain ⟨b, hb⟩ := Option.isSome_iff_exists.mp this
  unfold planeRead
  rw [hc]; simp only
  rw [if_pos ⟨lt_of_lt_of_le h1 hf.chgt_le_ph, lt_of_lt_of_le h2 hf.cwid_le_pw⟩, hb]
  exact ⟨_, rfl⟩

/-- R403: half a pixel position lies in the valid region of a component sampled at half. -/
theorem half_lt {x w h hm : Nat} (hx : x < w) (hh : 1 ≤ h) (e : hm = 2 * h) : x / 2 < ceilDiv (w * h) hm := by
  have : x * h / hm < ceilDiv (w * h) hm := by
    rw [Nat.div_lt_iff_lt_mul (by omega)]
    exact lt_of_lt_of_le (Nat.mul_lt_mul_of_pos_right hx hh) (le_ceilDiv_mul _ (by omega))
  rw [e, Nat.mul_comm 2 h, ← Nat.div_div_eq_div_mul, Nat.mul_div_cancel _ (by omega)] at this
  rw [e, Nat.mul_comm 2 h]; exact this

/-- R408: in both modes a pixel of the image reads samples of the valid region only. -/
theorem sample_ok {f : FrameSnap} {i : Nat} {c : FrameComp} (hc : f.comps[i]? = some c) (hf : f.Sound)
    (hr : regionWritten f s.planes i) {x y : Nat} (hx : x < f.fw.toNat) (hy : y < f.fh.toNat) (mode : BitVec 1) :
    ∃ v, sample s f mode i x y = .ok v := by
  have hm := List.mem_of_getElem? hc
  have hh := (hf.factors c hm).1
  have hv := (hf.factors c hm).2.2.1
  have vert : ∀ col, col < f.cwid c → ∃ v, sampleVert s f i c col y = .ok v := by
    intro col hcol
    unfold sampleVert
    split
    · next e =>
      have hj : y / 2 < f.chgt c := half_lt hy hv e
      obtain ⟨a, ha⟩ := planeRead_ok hc hf hr hj hcol
      obtain ⟨b, hb⟩ := planeRead_ok hc hf hr (neighbour_lt hj) hcol
      rw [ha, hb]; exact ⟨_, rfl⟩
    · exact planeRead_ok hc hf hr (hf.boxRow_lt hm hy) hcol
  unfold sample
  rw [hc]; simp only
  split
  · exact planeRead_ok hc hf hr (hf.boxRow_lt hm hy) (hf.boxCol_lt hm hx)
  · unfold sampleBilinear
    split
    · next e =>
      have hj : x / 2 < f.cwid c := half_lt hx hh e
      obtain ⟨a, ha⟩ := vert _ hj
      obtain ⟨b, hb⟩ := vert _ (neighbour_lt hj)
      rw [ha, hb]; exact ⟨_, rfl⟩
    · exact vert _ (hf.boxCol_lt hm hx)

end Sys2Proof.Machine
end

