-- ==== Sys2Proof/Laws/Transform.lean ====
section
/-! SUPPORT. The laws of the transform: the zig-zag order (R150) and dequantisation's list of writes (R361), the factors of
the ideal transform against the cosines they stand for, and the tolerance (R365). -/
namespace Sys2Proof.Machine

/-- R150: no two zig-zag indexes have one natural index. -/
theorem zz_inj {i j : Nat} (hi : i < 64) (hj : j < 64) (h : zz i = zz j) : i = j := by
  have key : ∀ i : Fin 64, zigzag.idxOf (zz i) = i := by decide
  have a := key ⟨i, hi⟩
  have b := key ⟨j, hj⟩
  simp only at a b
  rw [← a, ← b, h]

theorem zz_lt {k : Nat} (hk : k < 64) : zz k < 64 := by
  have key : ∀ k : Fin 64, zz k < 64 := by decide
  exact key ⟨k, hk⟩

/-- R361: a list of 64 written at distinct zig-zag indexes. -/
theorem foldl_set_zz (g : Nat → Half) {l : List Nat} (hl : ∀ k ∈ l, k < 64) (hn : l.Nodup) {d : List Half}
    (hd : d.length = 64) : (l.foldl (fun dq k => dq.set (zz k) (g k)) d).length = 64 ∧
    ∀ k, k < 64 → (l.foldl (fun dq k => dq.set (zz k) (g k)) d).getD (zz k) 0 = if k ∈ l then g k else d.getD (zz k) 0 := by
  induction l generalizing d with
  | nil => simp [hd]
  | cons a l ih =>
    obtain ⟨h1, h2⟩ := ih (d := d.set (zz a) (g a)) (fun k hk => hl k (List.mem_cons_of_mem _ hk))
      (List.nodup_cons.mp hn).2 (by simp [hd])
    refine ⟨h1, fun k hk => ?_⟩
    rw [List.foldl_cons, h2 k hk]
    by_cases hka : k = a
    · subst hka
      simp [(List.nodup_cons.mp hn).1, List.getD, hd, zz_lt hk]
    · have hz : zz a ≠ zz k := fun e => hka (zz_inj (hl a (by simp)) hk e).symm
      simp [hka, List.getD, hz]

open Real

/-- A cosine from the cosine of the doubled angle, as bounds. -/
theorem cos_bounds_of_double {a l u L U : ℝ} (h0 : 0 ≤ cos a) (h : L ≤ cos (2 * a) ∧ cos (2 * a) ≤ U) (hu : 0 ≤ u)
    (h1 : 2 * l ^ 2 ≤ 1 + L) (h2 : 1 + U ≤ 2 * u ^ 2) : l ≤ cos a ∧ cos a ≤ u := by
  have hs := cos_sq a
  exact ⟨le_of_not_gt fun hl => by nlinarith, (abs_le_of_sq_le_sq' (by linarith) hu).2⟩

/-- `cos(k pi/16)` is not negative in the first quarter of the circle. -/
theorem cos_sixteenth_nonneg {k : ℝ} (h0 : 0 ≤ k) (h8 : k ≤ 8) : 0 ≤ cos (k * (π / 16)) :=
  cos_nonneg_of_mem_Icc ⟨by nlinarith [pi_pos], by nlinarith [pi_pos]⟩

theorem cos_4_sixteenths : (707106781186547524400844362104 / 10 ^ 30 : ℝ) ≤ cos (4 * (π / 16)) ∧
    cos (4 * (π / 16)) ≤ (707106781186547524400844362105 / 10 ^ 30 : ℝ) := by
  have e : cos (2 * (4 * (π / 16))) = 0 := by rw [← cos_pi_div_two]; congr 1; ring
  exact cos_bounds_of_double (cos_sixteenth_nonneg (by norm_num) (by norm_num)) (L := 0) (U := 0) (by rw [e]; simp)
    (by norm_num) (by norm_num) (by norm_num)

theorem cos_2_sixteenths : (9238795325112867561281831893 / 10 ^ 28 : ℝ) ≤ cos (2 * (π / 16)) ∧
    cos (2 * (π / 16)) ≤ (9238795325112867561281831894 / 10 ^ 28 : ℝ) := by
  have e : cos (2 * (2 * (π / 16))) = cos (4 * (π / 16)) := by
    congr 1; ring
  have h := cos_4_sixteenths
  exact cos_bounds_of_double (cos_sixteenth_nonneg (by norm_num) (by norm_num))
    (L := (707106781186547524400844362104 / 10 ^ 30 : ℝ)) (U := (707106781186547524400844362105 / 10 ^ 30 : ℝ)) (by rw [e]; constructor <;> linarith [h.1, h.2])
    (by norm_num) (by norm_num) (by norm_num)

theorem cos_6_sixteenths : (3826834323650897717284599840 / 10 ^ 28 : ℝ) ≤ cos (6 * (π / 16)) ∧
    cos (6 * (π / 16)) ≤ (3826834323650897717284599841 / 10 ^ 28 : ℝ) := by
  have e : cos (2 * (6 * (π / 16))) = -cos (4 * (π / 16)) := by
    rw [← cos_pi_sub]; congr 1; ring
  have h := cos_4_sixteenths
  exact cos_bounds_of_double (cos_sixteenth_nonneg (by norm_num) (by norm_num))
    (L := -(707106781186547524400844362105 / 10 ^ 30 : ℝ)) (U := -(707106781186547524400844362104 / 10 ^ 30 : ℝ)) (by rw [e]; constructor <;> linarith [h.1, h.2])
    (by norm_num) (by norm_num) (by norm_num)

theorem cos_1_sixteenths : (98078528040323044912618223 / 10 ^ 26 : ℝ) ≤ cos (1 * (π / 16)) ∧
    cos (1 * (π / 16)) ≤ (98078528040323044912618224 / 10 ^ 26 : ℝ) := by
  have e : cos (2 * (1 * (π / 16))) = cos (2 * (π / 16)) := by
    congr 1; ring
  have h := cos_2_sixteenths
  exact cos_bounds_of_double (cos_sixteenth_nonneg (by norm_num) (by norm_num))
    (L := (9238795325112867561281831893 / 10 ^ 28 : ℝ)) (U := (9238795325112867561281831894 / 10 ^ 28 : ℝ)) (by rw [e]; constructor <;> linarith [h.1, h.2])
    (by norm_num) (by norm_num) (by norm_num)

theorem cos_3_sixteenths : (83146961230254523707878837 / 10 ^ 26 : ℝ) ≤ cos (3 * (π / 16)) ∧
    cos (3 * (π / 16)) ≤ (83146961230254523707878838 / 10 ^ 26 : ℝ) := by
  have e : cos (2 * (3 * (π / 16))) = cos (6 * (π / 16)) := by
    congr 1; ring
  have h := cos_6_sixteenths
  exact cos_bounds_of_double (cos_sixteenth_nonneg (by norm_num) (by norm_num))
    (L := (3826834323650897717284599840 / 10 ^ 28 : ℝ)) (U := (3826834323650897717284599841 / 10 ^ 28 : ℝ)) (by rw [e]; constructor <;> linarith [h.1, h.2])
    (by norm_num) (by norm_num) (by norm_num)

theorem cos_5_sixteenths : (55557023301960222474283081 / 10 ^ 26 : ℝ) ≤ cos (5 * (π / 16)) ∧
    cos (5 * (π / 16)) ≤ (55557023301960222474283082 / 10 ^ 26 : ℝ) := by
  have e : cos (2 * (5 * (π / 16))) = -cos (6 * (π / 16)) := by
    rw [← cos_pi_sub]; congr 1; ring
  have h := cos_6_sixteenths
  exact cos_bounds_of_double (cos_sixteenth_nonneg (by norm_num) (by norm_num))
    (L := -(3826834323650897717284599841 / 10 ^ 28 : ℝ)) (U := -(3826834323650897717284599840 / 10 ^ 28 : ℝ)) (by rw [e]; constructor <;> linarith [h.1, h.2])
    (by norm_num) (by norm_num) (by norm_num)

theorem cos_7_sixteenths : (19509032201612826784828486 / 10 ^ 26 : ℝ) ≤ cos (7 * (π / 16)) ∧
    cos (7 * (π / 16)) ≤ (19509032201612826784828487 / 10 ^ 26 : ℝ) := by
  have e : cos (2 * (7 * (π / 16))) = -cos (2 * (π / 16)) := by
    rw [← cos_pi_sub]; congr 1; ring
  have h := cos_2_sixteenths
  exact cos_bounds_of_double (cos_sixteenth_nonneg (by norm_num) (by norm_num))
    (L := -(9238795325112867561281831894 / 10 ^ 28 : ℝ)) (U := -(9238795325112867561281831893 / 10 ^ 28 : ℝ)) (by rw [e]; constructor <;> linarith [h.1, h.2])
    (by norm_num) (by norm_num) (by norm_num)

/-- R365: the constants of the first quarter are within a unit of 2^-60. -/
theorem halfCosines_close {k : Nat} (h1 : 1 ≤ k) (h7 : k ≤ 7) :
    |((halfCosines.getD k 0 : Int) : ℝ) - 2 ^ 60 * (cos (k * (π / 16)) / 2)| ≤ 1 := by
  interval_cases k <;> simp only [halfCosines, List.getD_cons_succ, List.getD_cons_zero, abs_le] <;> push_cast
  · have h := cos_1_sixteenths
    constructor <;> norm_num at h ⊢ <;> linarith [h.1, h.2]
  · have h := cos_2_sixteenths
    constructor <;> norm_num at h ⊢ <;> linarith [h.1, h.2]
  · have h := cos_3_sixteenths
    constructor <;> norm_num at h ⊢ <;> linarith [h.1, h.2]
  · have h := cos_4_sixteenths
    constructor <;> norm_num at h ⊢ <;> linarith [h.1, h.2]
  · have h := cos_5_sixteenths
    constructor <;> norm_num at h ⊢ <;> linarith [h.1, h.2]
  · have h := cos_6_sixteenths
    constructor <;> norm_num at h ⊢ <;> linarith [h.1, h.2]
  · have h := cos_7_sixteenths
    constructor <;> norm_num at h ⊢ <;> linarith [h.1, h.2]

/-- R365: so are those of the whole circle. -/
theorem halfCosAt_close {m : Nat} (h : m % 8 ≠ 0) :
    |((halfCosAt m : Int) : ℝ) - 2 ^ 60 * (cos (m * (π / 16)) / 2)| ≤ 1 := by
  have hm : cos (m * (π / 16)) = cos ((m % 32 : Nat) * (π / 16)) := by
    have e : (m : ℝ) = (m % 32 : Nat) + (m / 32 : Nat) * 32 := by exact_mod_cast (Nat.mod_add_div' m 32).symm
    rw [e, show (((m % 32 : Nat) : ℝ) + (m / 32 : Nat) * 32) * (π / 16) =
      ((m % 32 : Nat) : ℝ) * (π / 16) + (m / 32 : Nat) * (2 * π) by ring, cos_add_nat_mul_two_pi]
  have h32 : m % 32 < 32 := Nat.mod_lt _ (by norm_num)
  have h8 : m % 32 % 8 ≠ 0 := by omega
  unfold halfCosAt
  rw [hm]
  generalize m % 32 = r at h32 h8
  dsimp only
  split
  · exact halfCosines_close (by omega) (by omega)
  · split
    · have e : cos (r * (π / 16)) = -cos ((16 - r : Nat) * (π / 16)) := by
        rw [← cos_pi_sub, Nat.cast_sub (by omega)]; congr 1; push_cast; ring
      have := halfCosines_close (k := 16 - r) (by omega) (by omega)
      rw [e, abs_le] at *
      push_cast
      constructor <;> linarith [this.1, this.2]
    · split
      · have e : cos (r * (π / 16)) = -cos ((r - 16 : Nat) * (π / 16)) := by
          rw [← cos_add_pi, Nat.cast_sub (by omega)]; congr 1; push_cast; ring
        have := halfCosines_close (k := r - 16) (by omega) (by omega)
        rw [e, abs_le] at *
        push_cast
        constructor <;> linarith [this.1, this.2]
      · have e : cos (r * (π / 16)) = cos ((32 - r : Nat) * (π / 16)) := by
          rw [← cos_two_pi_sub, Nat.cast_sub (by omega)]; congr 1; push_cast; ring
        rw [e]
        exact halfCosines_close (by omega) (by omega)

/-- R365: a factor of the ideal transform is within a unit of 2^-60. -/
theorem idealAt_close {x u : Nat} (hu : u < 8) :
    |((idealAt x u : Int) : ℝ) - 2 ^ 60 * ((if u = 0 then 1 / √2 else 1) * cos ((2 * x + 1) * u * π / 16) / 2)| ≤ 1 := by
  unfold idealAt
  split
  · next h =>
    have := halfCosAt_close (m := 4) (by norm_num)
    rw [show ((4 : Nat) : ℝ) * (π / 16) = π / 4 by push_cast; ring, cos_pi_div_four] at this
    have e : 1 / √2 = √2 / 2 := by
      rw [div_eq_div_iff (by positivity) (by norm_num)]; simp
    simpa [h, e] using this
  · next h =>
    have h8 : (2 * x + 1) * u % 8 ≠ 0 := by
      intro h0
      have hd : 8 ∣ (2 * x + 1) * u := Nat.dvd_of_mod_eq_zero h0
      have hc : Nat.Coprime 8 (2 * x + 1) := by
        rw [show 8 = 2 ^ 3 by norm_num]
        exact Nat.Coprime.pow_left _ ((Nat.coprime_two_left).mpr ⟨x, rfl⟩)
      have := Nat.le_of_dvd (by omega) (hc.dvd_of_dvd_mul_left hd)
      omega
    have := halfCosAt_close h8
    rw [show (((2 * x + 1) * u : Nat) : ℝ) * (π / 16) = (2 * x + 1) * u * π / 16 by push_cast; ring] at this
    simpa [h] using this

/-- A product of two factors at most 1/2, each within a unit of 2^-60. -/
theorem factors_close {a b c d : ℝ} (h1 : |a - 2 ^ 60 * c| ≤ 1) (h2 : |b - 2 ^ 60 * d| ≤ 1) (hc : |c| ≤ 1 / 2)
    (hd : |d| ≤ 1 / 2) : |a * b - 2 ^ 120 * (c * d)| ≤ 2 ^ 60 + 1 := by
  have e : a * b - 2 ^ 120 * (c * d) =
      (a - 2 ^ 60 * c) * (b - 2 ^ 60 * d) + 2 ^ 60 * ((a - 2 ^ 60 * c) * d + c * (b - 2 ^ 60 * d)) := by ring
  have k1 := mul_le_mul h1 h2 (abs_nonneg _) zero_le_one
  have k2 := mul_le_mul h1 hd (abs_nonneg _) zero_le_one
  have k3 := mul_le_mul hc h2 (abs_nonneg _) (by norm_num)
  rw [← abs_mul] at k1 k2 k3
  rw [e]
  rw [abs_le] at *
  constructor <;> linarith [k1.1, k1.2, k2.1, k2.2, k3.1, k3.2]

/-- R365: `C(u)` times a cosine, halved, is at most 1/2. -/
theorem idealFactor_le (u : Nat) (z : ℝ) : |(if u = 0 then 1 / √2 else 1) * cos z / 2| ≤ 1 / 2 := by
  have hz := abs_cos_le_one z
  have hs : |(if u = 0 then 1 / √2 else 1 : ℝ)| ≤ 1 := by
    split
    · rw [abs_of_nonneg (by positivity), div_le_one (by positivity)]
      exact one_le_sqrt.mpr (by norm_num)
    · simp
  rw [abs_div, abs_mul, abs_two]
  have := mul_le_mul hs hz (abs_nonneg _) zero_le_one
  linarith

theorem sum8_eq (f : Nat → Int) : sum8 f = ∑ i ∈ Finset.range 8, f i := by
  simp [sum8, List.range_succ, Finset.sum_range_succ]
  ring

theorem half_abs_le (h : Half) : |((h.toInt : Int) : ℝ)| ≤ 2 ^ 15 := by
  have h1 := BitVec.toInt_lt (x := h)
  have h2 := BitVec.le_toInt (x := h)
  norm_num at h1 h2
  rw [abs_le]
  constructor
  · norm_cast
  · norm_cast; omega

/-- R365: the model's ideal value is the ideal transform, within the slack. -/
theorem idealScaled_close (dq : List Half) {y x : Nat} (hx : x < 8) :
    |((idealScaled dq (8 * y + x) : Int) : ℝ) - 2 ^ 120 * (1 / 4 * ∑ v ∈ Finset.range 8, ∑ u ∈ Finset.range 8,
      (if u = 0 then 1 / √2 else 1) * (if v = 0 then 1 / √2 else 1) * ((dq.getD (8 * v + u) 0).toInt : ℝ) *
        cos ((2 * x + 1) * u * π / 16) * cos ((2 * y + 1) * v * π / 16))| ≤ 2 ^ 82 := by
  have e1 : (8 * y + x) % 8 = x := by omega
  have e2 : (8 * y + x) / 8 = y := by omega
  rw [idealScaled, e1, e2, sum8_eq]
  simp only [sum8_eq, Int.cast_sum, Int.cast_mul]
  simp only [Finset.mul_sum, ← Finset.sum_sub_distrib]
  refine (Finset.abs_sum_le_sum_abs _ _).trans ((Finset.sum_le_card_nsmul _ _ (2 ^ 79) fun v hv => ?_).trans (by norm_num))
  refine (Finset.abs_sum_le_sum_abs _ _).trans ((Finset.sum_le_card_nsmul _ _ (2 ^ 76) fun u hu => ?_).trans (by norm_num))
  have hu := Finset.mem_range.mp hu
  have hv := Finset.mem_range.mp hv
  have h := factors_close (idealAt_close (x := x) hu) (idealAt_close (x := y) hv) (idealFactor_le u _) (idealFactor_le v _)
  have hd := half_abs_le (dq.getD (8 * v + u) 0)
  have hm := mul_le_mul h hd (abs_nonneg _) (by positivity)
  rw [← abs_mul] at hm
  refine le_trans (le_of_eq ?_) (hm.trans (by norm_num))
  congr 1
  ring

variable (dq : List Half) (n : Nat) (b : Byte)

/-- R365: the tolerance is an interval of levels that meets 0..255. -/
theorem tolerance_bounds : toleranceLow dq n ≤ toleranceHigh dq n ∧ toleranceLow dq n ≤ 253 ∧ 2 ≤ toleranceHigh dq n := by
  simp only [toleranceLow, toleranceHigh, levelOf, idealSlack]
  omega

/-- R365: a sample within the tolerance, as a number. -/
theorem withinTolerance_toNat :
    ((withinTolerance dq n b).toNat : Int) = max (toleranceLow dq n) (min (toleranceHigh dq n) b.toNat) := by
  obtain ⟨h1, h2, h3⟩ := tolerance_bounds dq n
  have := b.isLt
  simp only [withinTolerance, clamp8, BitVec.toNat_ofNat]
  omega

/-- R365: what the tolerance keeps and what it leaves alone. -/
theorem withinTolerance_spec : toleranceLow dq n ≤ (withinTolerance dq n b).toNat ∧
    ((withinTolerance dq n b).toNat : Int) ≤ toleranceHigh dq n ∧
    (toleranceLow dq n ≤ b.toNat → (b.toNat : Int) ≤ toleranceHigh dq n → withinTolerance dq n b = b) := by
  obtain ⟨h1, -, -⟩ := tolerance_bounds dq n
  have e := withinTolerance_toNat dq n b
  refine ⟨by omega, by omega, fun h h' => BitVec.eq_of_toNat_eq (by omega)⟩

end Sys2Proof.Machine
end

