-- ==== Sys2Proof/Machine/HostProgram.lean ====
section
/-! DEFINITION. The host-program notation of R155 and R156 as moves of the host. A statement whose expansion loops on what
the host reads (`feed`, `waitscan`, `drain`) is given the number of polls its loop makes; any run of it has one. -/
namespace Sys2Proof.Machine

/-- R24: `off(REG)`. -/
def Reg.offset (r : Reg) : Nat := 4 * regMap.idxOf r

/-- R155: `wr REG, v`, with the window at `base`. -/
def wr (base : Nat) (r : Reg) (v : Word) : Turn := .host ⟨true, base + r.offset, 4, v⟩

/-- R155: `rd REG`. -/
def rd (base : Nat) (r : Reg) : Turn := .host ⟨false, base + r.offset, 4, 0⟩

/-- R155: `cmd OP [cls] [id]`. -/
def cmd (base : Nat) (op : BitVec 4) (cls : BitVec 1 := 0) (id : BitVec 2 := 0) : Turn :=
  wr base .cmd (0#25 ++ cls ++ id ++ op)

/-- R156: `loadqt id, q0 .. q63`. -/
def loadqt (base : Nat) (id : BitVec 2) (q : List Half) : List Turn :=
  (q.map fun v => wr base .tblData (v.setWidth 32)) ++ [cmd base 1 0 id]

/-- R156: `loadht cls, id, counts, symbols`. -/
def loadht (base : Nat) (cls : BitVec 1) (id : BitVec 2) (counts symbols : List Half) : List Turn :=
  ((counts ++ symbols).map fun v => wr base .tblData (v.setWidth 32)) ++ [cmd base 2 cls id]

/-- R156: one component of `frame`, as its COMP_CFG word. -/
def compWord (h v : BitVec 4) (tq : BitVec 2) : Word := 0#22 ++ tq ++ v ++ h

/-- R156: `frame W, H, components`, the components as COMP_CFG words. -/
def frameStmt (base : Nat) (w h : BitVec 16) (comps : List Word) : List Turn :=
  [wr base .frameDim (h ++ w), wr base .frameCfg (0#20 ++ BitVec.ofNat 4 comps.length ++ 8#8)] ++
    ([Reg.compCfg0, Reg.compCfg1, Reg.compCfg2].zip comps).map (fun rc => wr base rc.1 rc.2) ++ [cmd base 3]

/-- R156: `scan RI, selectors`; a selector is the six-bit field (c, td, ta). -/
def scanStmt (base : Nat) (ri : BitVec 16) (selectors : List (BitVec 6)) : List Turn :=
  let slot (j : Nat) : BitVec 8 := 0#2 ++ selectors.getD j 0
  [wr base .restartInterval (ri.setWidth 32),
   wr base .scanCfg (slot 2 ++ slot 1 ++ slot 0 ++ BitVec.ofNat 8 selectors.length), cmd base 4]

/-- R156: `feed`: before each byte `polls` reads of FIFO_STATUS, then the write. -/
def feed (base : Nat) (polls : Nat) (bytes : List Byte) : List Turn :=
  bytes.flatMap fun b => List.replicate polls (rd base .fifoStatus) ++ [wr base .inData (b.setWidth 32)]

/-- R156: `eof`. -/
def eofStmt (base : Nat) : Turn := wr base .inData 0x100

/-- R156: `waitscan`, with the number of reads its loop makes. -/
def waitscan (base : Nat) (polls : Nat) : List Turn := List.replicate polls (rd base .status)

/-- R156: `convert`. -/
def convertStmt (base : Nat) : Turn := cmd base 5

/-- R156: `drain`, with the number of reads its loop makes. -/
def drain (base : Nat) (reads : Nat) : List Turn := List.replicate reads (rd base .outData)

end Sys2Proof.Machine
end

