-- ==== Sys2Proof/Machine/Platform.lean ====
section
/-! DEFINITION. A platform of several JDB instances (R473): a list of states that share nothing, one of which moves. -/
namespace Sys2Proof.Machine

/-- R473: `N_INSTANCES` is the length. -/
abbrev Platform := List State

/-- R473: instance `i` takes a step; no other instance changes. A move of an instance the platform does not hold, or one
the machine stops on, answers nothing. -/
def platformStep (i : Nat) (p : Platform) : Option Platform :=
  match p[i]? with
  | none => none
  | some s =>
    match step s with
    | .next t => some (p.set i t)
    | .fault _ => none
    | .refused _ => none

end Sys2Proof.Machine
end

