-- ==== Sys2Proof/Tests/Slice0.lean ====
section
/-! SUPPORT. Tests: ill-formed terms refused, one spec word decoded per constructor, the spec's vectors on single steps
(95_test_vectors.md), and a witness for the hypotheses of each obligation. Expected values are the spec's. -/
namespace Sys2Proof.Tests
open Sys2Proof.Machine

/-! ### Ill-formed terms (R142, R145, R148, R149) -/

theorem test_wf_legal_command_is_not_rejected : (Instr.cmdRejected 0x62).wf = false := by decide
theorem test_wf_stuffing_is_no_marker : (Instr.marker 0x00).wf = false := by decide
theorem test_wf_fill_is_no_marker : (Instr.marker 0xFF).wf = false := by decide
theorem test_wf_rst_is_no_marker : (Instr.marker 0xD0).wf = false ∧ (Instr.marker 0xD7).wf = false := by decide
theorem test_wf_data_is_not_ff : (Instr.data 0xFF).wf = false := by decide
theorem test_wf_low_category : (Instr.dcDiffLow 0).wf = false ∧ (Instr.dcDiffLow 8).wf = false := by decide
theorem test_wf_high_category : (Instr.dcDiffHigh 7).wf = false ∧ (Instr.dcDiffHigh 12).wf = false := by decide
theorem test_wf_legal_category_is_not_illegal : (Instr.dcIllegal 11).wf = false := by decide
theorem test_wf_run_only : (Instr.acRunOnly 0).wf = false ∧ (Instr.acRunOnly 15).wf = false := by decide
theorem test_wf_run_value_has_a_size : (Instr.acRunValue 3 0).wf = false := by decide

/-! ### Decoding: words written out from R140-R149 and R250 -/

/-- OP [3:0], ID [5:4], CLS [6]. -/
theorem test_decode_commands :
    decodeTableWord 32 0x00000000 = some .nop ∧ decodeTableWord 32 0x00000031 = some (.loadQt 3) ∧
    decodeTableWord 32 0x00000062 = some (.loadHt 2 1) ∧ decodeTableWord 32 0x00000012 = some (.loadHt 1 0) ∧
    decodeTableWord 32 0x00000003 = some .startFrame ∧ decodeTableWord 32 0x00000004 = some .startScan ∧
    decodeTableWord 32 0x00000005 = some .convert ∧ decodeTableWord 32 0x0000000F = some .abort := by decide

/-- V-CMD-1 to V-CMD-4, V-CMD-7: ID with NOP, CLS with LOAD_QT, a reserved OP, a reserved bit, CLS with ABORT. -/
theorem test_decode_rejected :
    decodeTableWord 32 0x10 = some (.cmdRejected 0x10) ∧ decodeTableWord 32 0x41 = some (.cmdRejected 0x41) ∧
    decodeTableWord 32 0x06 = some (.cmdRejected 0x06) ∧ decodeTableWord 32 0x80 = some (.cmdRejected 0x80) ∧
    decodeTableWord 32 0x4F = some (.cmdRejected 0x4F) := by decide

/-- Offset [7:0], write [8], data [47:16]. -/
theorem test_decode_accesses :
    decodeTableWord 48 0x12340134 = some (.tblDataWr 0x1234) ∧
    decodeTableWord 48 0x0100013C = some (.inDataWr 0x100) ∧ decodeTableWord 16 0x0040 = some .outDataRd ∧
    decodeTableWord 48 0x003F0154 = some (.intStatusWr 0x3F) ∧ decodeTableWord 48 0x00010104 = some (.ctrlSoftReset 1) := by
  decide

/-- A read of FRAME_DIM is a plain access, and bit 32 of a command word is stray: each is refused by its name. -/
theorem test_decode_names_what_is_no_instruction :
    decode ⟨.regAccess, 0x0018⟩ = .error .plainAccess ∧ decode ⟨.cmd, 0x100000000⟩ = .error .strayBits := by decide

/-- E0_EOF [17], E0_BYTE [16:9], E1_EOF [8], E1_BYTE [7:0]. -/
theorem test_decode_tokens :
    decodeTableWord 24 0x01FE00 = some .stuffed ∧ decodeTableWord 24 0x01FEFF = some .fillRun ∧
    decodeTableWord 24 0x01FED5 = some (.rstN 5) ∧ decodeTableWord 24 0x01FED9 = some (.marker 0xD9) ∧
    decodeTableWord 24 0x01FF00 = some .dangling ∧ decodeTableWord 24 0x014E00 = some (.data 0xA7) ∧
    decodeTableWord 24 0x020000 = some .endTok := by decide

theorem test_decode_dc_symbols :
    decode ⟨.dcSym, 0x00⟩ = .ok .dcZero ∧ decode ⟨.dcSym, 0x07⟩ = .ok (.dcDiffLow 7) ∧
    decode ⟨.dcSym, 0x0B⟩ = .ok (.dcDiffHigh 11) ∧ decode ⟨.dcSym, 0x0C⟩ = .ok (.dcIllegal 12) := by decide

theorem test_decode_ac_symbols :
    decode ⟨.acSym, 0x00⟩ = .ok .acEob ∧ decode ⟨.acSym, 0xF0⟩ = .ok .acZrl ∧
    decode ⟨.acSym, 0xE0⟩ = .ok (.acRunOnly 14) ∧ decode ⟨.acSym, 0x35⟩ = .ok (.acRunValue 3 5) := by decide

/-! ### Small states -/

/-- What a look at the next state gives. -/
def look {α : Type} (g : State → α) : Host.Outcome State Fault Refusal → Option α
  | .next t => some (g t)
  | .fault _ => none
  | .refused _ => none

/-- A staging buffer of counts and symbols. -/
def staged (counts symbols : List Half) : State :=
  { State.reset with stg := counts ++ List.replicate (16 - counts.length) 0 ++ symbols }

/-- An 8 by 8 frame of one component, and its configuration registers: NF 1, precision 8, factors 1 by 1, one scan slot. -/
def frame8 : FrameSnap := { fw := 8, fh := 8, comps := [⟨1, 1, 0⟩] }

def regs8 : Regs :=
  { Regs.initial with frameDim := 0x00080008, frameCfg := 0x108, compCfg := ⟨0x011, 0, 0⟩, scanCfg := 0x00000001 }

/-- A Huffman table of one code, 0, for the symbol `b`. -/
def oneCode (b : Byte) : HuffTable :=
  { rows := ⟨0, 1, 0⟩ :: (List.range 15).map (fun n => ⟨BitVec.ofNat 17 (2 ^ (n + 1)), 0, 1⟩), vals := [b] }

/-- The tables with id 0. -/
def tabs8 : Tables :=
  { qt := ⟨some (List.replicate 64 1), none, none, none⟩, dc := ⟨some (oneCode 5), none, none, none⟩
    ac := ⟨some (oneCode 0), none, none, none⟩, qtValid := 1, dcValid := 1, acValid := 1 }

def idle8 : State := { State.reset with regs := regs8, tabs := tabs8 }

def framed8 : State := { idle8 with st := .frame, frame := some frame8, geometry := 0x00010001 }

/-- At the start of the scan. -/
def scan8 : State := commitScan { slots := [⟨0, 0, 0⟩], ri := 0, srow := 1, srows := 1 } framed8

/-- In the block, a symbol decoded, `n` bits of 0b10110100 unread. -/
def block8 (dc : Bool) (k n : Nat) (b : Byte) : State :=
  { startBlock 0 scan8 with
    seq := { phase := if dc then .blockDc else .blockAc, b := 0, k := k, bits := .sym b, mayRst := false }
    br := { BitReader.initial with cur := some 0xB4, nbits := n } }

/-- One pixel of one component, decoded. -/
def frame1 : FrameSnap := { fw := 1, fh := 1, comps := [⟨1, 1, 0⟩] }

def convert1 : State :=
  { State.reset with
    st := .convert, frame := some frame1, compDone := 1, planes := [(0, 0x7B)], cvMode := some 0 }

/-! ### Commands and registers -/

/-- V-CMD-3, V-INT-2: an illegal word sets CMD_REJECTED. -/
theorem test_rejected : look (·.intStatus) (exec (.cmdRejected 0x06) State.reset) = some 0x10 := by decide

/-- V-HT-1: the DC0 table: FIRST of lengths 2, 3, 9 and its all but last 9-bit code. -/
theorem test_loadHt_codes :
    (match buildHuff 0 false (staged [0, 1, 5, 1, 1, 1, 1, 1, 1] [0, 1, 2, 3, 4, 5, 6, 7, 8, 9, 10, 11]).stg with
     | .ok h => some (lookup h 2 0, lookup h 3 2, lookup h 9 0x1FE, lookup h 9 0x1FF)
     | .error _ => none) = some (.ok (some 0), .ok (some 1), .ok (some 11), .ok none) := by decide

/-- V-HT-3: two 1-bit codes. -/
theorem test_loadHt_overfull : look (·.err) (exec (.loadHt 0 0) (staged [2] [0, 1])) = some 0x00010501 := by decide

/-- V-HT-9: a symbol of 256. -/
theorem test_loadHt_wide_symbol : look (·.err) (exec (.loadHt 3 1) (staged [0, 2] [5, 256])) = some 0x00030401 := by decide

/-- V-HT-14: 63 entries. -/
theorem test_loadQt_short :
    look (fun t => (t.err, t.st, t.stg)) (exec (.loadQt 2) { State.reset with stg := List.replicate 63 1 }) =
      some (0x00020101, .error, []) := by decide

/-- V-HT-15: 64 entries. -/
theorem test_loadQt_installs :
    look (fun t => (t.tabs.qtValid, (t.tabs.qt.t2.getD []).length, t.stg))
      (exec (.loadQt 2) { State.reset with stg := List.replicate 64 1 }) = some (0x4, 64, []) := by decide

/-- V-FR-2: 33 by 17, 2x2 chroma subsampling. -/
theorem test_startFrame_geometry :
    look (fun t => (t.geometry, t.st))
      (exec .startFrame { State.reset with
        regs := { Regs.initial with frameDim := 0x00110021, frameCfg := 0x308, compCfg := ⟨0x022, 0x111, 0x111⟩ } }) =
      some (0x00020003, .frame) := by decide

/-- V-FR-15: every register 0. -/
theorem test_startFrame_precision_first : look (·.err) (exec .startFrame State.reset) = some 0x00000102 := by decide

/-- V-SC-9: DC2 not loaded. -/
theorem test_startScan_missing_table :
    look (·.err) (exec .startScan { framed8 with regs := { regs8 with scanCfg := 0x00000801 } }) = some 0x00020203 := by
  decide

/-- R226: one block. -/
theorem test_startScan_geometry : look (·.scanGeom) (exec .startScan framed8) = some 0x00010001 := by decide

/-- R231: component 0 was not decoded. -/
theorem test_convert_incomplete : look (·.err) (exec .convert framed8) = some 0x00001601 := by decide

/-- R240. -/
theorem test_abort : look (fun t => (t.st, t.geometry, t.tabs.qtValid)) (exec .abort framed8) = some (.idle, 0, 1) := by
  decide

/-- V-REG-4: CTRL keeps UPS_MODE only. -/
theorem test_ctrl : look (regRead · .ctrl) (exec (.ctrlSoftReset 0xFFFFFFFE) State.reset) = some 0x00000002 := by decide

/-- V-REG-8: the reserved bits of SCAN_CFG. -/
theorem test_scanCfg_write : (regWrite 0xFFFFFFFF Regs.initial .scanCfg).scanCfg = 0x3F3F3F03 := by decide

/-- V-REG-12. -/
theorem test_fifoStatus_at_reset : regRead State.reset .fifoStatus = 0x10001000 := by decide

/-- V-INT-1: IN_DATA outside SCAN. -/
theorem test_inData_dropped : look (·.intStatus) (exec (.inDataWr 0x12) State.reset) = some 0x20 := by decide

/-- V-INT-5: bit 4 alone is cleared. -/
theorem test_intStatus_clear :
    look (·.intStatus) (exec (.intStatusWr 0x10) { State.reset with intStatus := 0x30 }) = some 0x20 := by decide

/-- R45. -/
theorem test_outData :
    look (fun t => (t.rdata, t.outFifo)) (exec .outDataRd { State.reset with outFifo := [0xAB, 0xCD] }) =
      some (0x1AB, [0xCD]) := by decide

/-- R62: entry 272 is the last. -/
theorem test_tblData : look (·.stg) (exec (.tblDataWr 0xABCD1234) State.reset) = some [0x1234] := by decide

/-! ### Tokens and symbols -/

/-- V-BR-1: the 0xFF of `FF D9` is not counted. -/
theorem test_marker_not_counted :
    look (fun t => (t.br.marker, t.br.inCount, t.br.mode))
      (exec (.marker 0xD9) { scan8 with br := { BitReader.initial with p := 5, start := 3 } }) =
      some (some 0xD9, 3, .marker) := by decide

/-- V-BR-2: `FF 00` is the data byte 0xFF, two entries counted. -/
theorem test_stuffed :
    look (fun t => (t.br.byte, t.br.inCount)) (exec .stuffed { scan8 with br := { BitReader.initial with p := 2 } }) =
      some (some 0xFF, 2) := by decide

/-- V-BR-3: a dangling 0xFF is no data. -/
theorem test_dangling :
    look (fun t => (t.br.mode, t.br.inCount))
      (exec .dangling { scan8 with br := { BitReader.initial with p := 2, start := 1 } }) = some (.endMode, 1) := by decide

/-- R304: category 3, bits 101 and 011. -/
theorem test_extend : extend 5 3 = 5 ∧ extend 3 3 = -4 ∧ extend 0 1 = -1 ∧ extend 0 11 = -2047 := by decide

/-- R303: three bits 101 of 0b10110100: the difference is 5. -/
theorem test_dcDiff :
    look (fun t => (t.pred.c0, t.seq.k, t.br.nbits)) (exec (.dcDiffLow 3) (block8 true 0 8 3)) = some (5, 1, 5) := by decide

/-- R305. -/
theorem test_dcIllegal : look (·.err) (exec (.dcIllegal 12) (block8 true 0 8 12)) = some 0x000C0204 := by decide

/-- R311: at index 1 a run of 2, then one bit 1 (value 1) at zig-zag index 3, natural index 16. -/
theorem test_acRunValue :
    look (fun t => (t.blk.coef[16]?, t.seq.k)) (exec (.acRunValue 2 1) (block8 false 1 8 0x21)) =
      some (some (some 1), 4) := by decide

/-- R309, R312: ZRL from 48 ends the block, from 49 passes its end. -/
theorem test_acZrl :
    look (fun t => (t.seq.phase, t.seq.k)) (exec .acZrl (block8 false 48 8 0xF0)) = some (.store, 64) ∧
    look (·.err) (exec .acZrl (block8 false 49 8 0xF0)) = some 0x00310304 := by decide

/-- R310. -/
theorem test_acRunOnly : look (·.seq.k) (exec (.acRunOnly 14) (block8 false 1 8 0xE0)) = some 16 := by decide

/-- R308. -/
theorem test_acEob : look (·.seq.phase) (exec .acEob (block8 false 1 8 0)) = some .store := by decide

/-! ### Transform and colour -/

/-- R362: the product saturates. -/
theorem test_dequant : dequantOne 0x7FFF 2 = 0x7FFF ∧ dequantOne 0x8000 0xFFFF = 0x8000 ∧ dequantOne 0xFFFD 5 = 0xFFF1 := by
  decide

/-- R365, R371: the ideal value of DC 80 is 138; 2 levels around it are kept. -/
theorem test_idct_tolerance :
    withinTolerance (80 :: List.replicate 63 0) 0 0xFF = 140 ∧ withinTolerance (80 :: List.replicate 63 0) 63 0 = 136 ∧
    withinTolerance (80 :: List.replicate 63 0) 7 139 = 139 := by decide

/-- R371: a DC coefficient of 8 alone: every sample is 129. -/
theorem test_idct_dc : (idctFixed (8 :: List.replicate 63 0)).getD 63 0 = 129 := by decide

/-- R420: pure red's chroma. -/
theorem test_csc : csc 76 85 255 = [254, 0, 0] ∧ csc 128 128 128 = [128, 128, 128] := by decide

/-- V-UP-3: a row of three chroma samples, doubled and cropped to five pixels, bilinear. -/
theorem test_bilinear :
    let f : FrameSnap := { fw := 5, fh := 1, comps := [⟨2, 1, 0⟩, ⟨1, 1, 0⟩, ⟨1, 1, 0⟩] }
    let s : State := { State.reset with
      planes := [(planeAddr 1 0 0, 0), (planeAddr 1 0 1, 100), (planeAddr 1 0 2, 40)] }
    [0, 1, 2, 3, 4].map (fun x => sample s f 1 1 x 0) = [.ok 0, .ok 25, .ok 75, .ok 85, .ok 55] := by decide

/-! ### Single steps -/

/-- The first step after reset runs the placed word: a command, an access, a token, a symbol. -/
theorem test_fetch_command : look (·.intStatus) (step (State.reset.withFetchWord 32 0x06)) = some 0x10 := by decide
theorem test_fetch_access : look (·.stg) (step (State.reset.withFetchWord 48 0x00550134)) = some [0x55] := by decide
theorem test_fetch_token : look (·.br.byte) (step (State.reset.withFetchWord 24 0x01FE00)) = some (some 0xFF) := by decide
theorem test_fetch_symbol : look (·.seq.k) (step (State.reset.withFetchWord 8 0xF0)) = some 17 := by decide

/-- R455, R458: the host's write of a command word, from the host-program notation. -/
theorem test_host_move : look (·.st) (step { State.reset with turns := [cmd 0 3] }) = some .error := by decide

/-! ### Witnesses: states and operands that meet the hypotheses of the obligations, a clause at a time, at the ends of its
ranges -/

theorem witness_DecodingAnEncodedInstructionGivesItBack :
    (Instr.marker 0xCF).wf = true ∧ (Instr.marker 0xD8).wf = true ∧ (Instr.data 0xFE).wf = true ∧
    (Instr.dcDiffLow 7).wf = true ∧ (Instr.dcDiffHigh 8).wf = true ∧ (Instr.dcIllegal 255).wf = true ∧
    (Instr.acRunOnly 14).wf = true ∧ (Instr.acRunValue 15 15).wf = true ∧ (Instr.cmdRejected 0x7F).wf = true := by decide

theorem witness_DecodedInstructionsAreWellFormed :
    decode ⟨.token, 0x1FECF⟩ = .ok (.marker 0xCF) ∧ decodeAccess true 0x08 0x06 = .ok (.cmdRejected 0x06) ∧
    decodeAccess false 0x40 0 = .ok .outDataRd := by decide

theorem witness_CommandAndSymbolWordsHaveOneMeaning :
    decode ⟨.cmd, 0x6F⟩ = .ok (.cmdRejected 0x6F) ∧ decode ⟨.dcSym, 0xFF⟩ = .ok (.dcIllegal 0xFF) ∧
    decode ⟨.acSym, 0xFF⟩ = .ok (.acRunValue 15 15) := by decide

/-- The refusal an access ends in. -/
def refusal : Host.Outcome State Fault Refusal → Option Refusal
  | .refused r => some r
  | .next _ => none
  | .fault _ => none

/-- A machine whose window begins at 0x1000. -/
def based : State := { State.reset with par := { Params.defaults with regBase := 0x1000 } }

theorem witness_OtherAccessesAreRefused :
    refusal (hostAccess ⟨false, 0x10FF, 1, 0⟩ based) = some .badAccess ∧
    refusal (hostAccess ⟨true, 0x1002, 4, 0⟩ based) = some .badAccess ∧
    refusal (hostAccess ⟨true, 0x0FFF, 4, 0⟩ based) = some .outsideWindow ∧
    refusal (hostAccess ⟨true, 0x1100, 4, 0⟩ based) = some .outsideWindow := by decide

theorem witness_ResetAndCtrlWrites :
    (1 : Word).getLsbD 0 = true ∧ (0xFFFFFFFE : Word).getLsbD 0 = false ∧
    ∃ s : State, s.turns = .powerOn :: [.engine] ∧ s.mid = false :=
  ⟨by decide, by decide, { State.reset with turns := [.powerOn, .engine] }, rfl, rfl⟩

theorem witness_PlainWritesStoreTheDefinedBits :
    (0x2C < 256 ∧ 0x2C % 4 = 0 ∧ 0x2C ∉ [0x04, 0x08, 0x34, 0x3C, 0x54] ∧ Claim.storedBits 0x2C ≠ 0) ∧
    (0xFC < 256 ∧ 0xFC % 4 = 0 ∧ 0xFC ∉ [0x04, 0x08, 0x34, 0x3C, 0x54] ∧ Claim.storedBits 0xFC = 0) := by decide

theorem witness_ReadsHaveNoSideEffect :
    (0xFC < 256 ∧ 0xFC % 4 = 0 ∧ 0xFC ≠ 0x40 ∧ 0x70 ≤ 0xFC) ∧ (0x08 < 256 ∧ 0x08 % 4 = 0 ∧ 0x08 ≠ 0x40) := by decide

theorem witness_CommandsAreAcceptedByTheTable :
    Claim.isCommand .startScan ∧ ¬ Claim.accepted .startScan .idle ∧ Claim.accepted .startScan framed8.st ∧
    ∃ t, exec .startScan framed8 = .next t :=
  ⟨by simp [Claim.isCommand], by simp [Claim.accepted], rfl, _, rfl⟩

theorem witness_NopChangesNothing :
    (0x10 : Word).extractLsb' 0 4 = 0 ∧ (0x10 : Word).extractLsb' 4 28 ≠ 0 ∧
    (0x80000000 : Word).extractLsb' 0 4 = 0 ∧ (0x80000000 : Word).extractLsb' 4 28 ≠ 0 := by decide

theorem witness_LoadQtInstallsTheStagedTable :
    (∃ s : State, s.st = .idle ∧ s.stgOvf = false ∧ s.stg.length = 64) ∧
    (∃ s : State, s.st = .frame ∧ s.stg.length ≠ 64) ∧ ∃ s : State, s.st = .idle ∧ s.stgOvf = true :=
  ⟨⟨{ State.reset with stg := List.replicate 64 1 }, by decide⟩, ⟨framed8, by decide⟩,
   ⟨{ State.reset with stgOvf := true }, by decide⟩⟩

/-- The clauses of LOAD_HT's checks: too few entries; 257 symbols; a wrong length; a wide symbol. -/
theorem witness_LoadHtBuildsTheCanonicalTable_checks :
    (State.reset.st = .idle ∧ State.reset.stg.length < 16) ∧
    (16 ≤ (staged [0, 0, 0, 0, 0, 0, 0, 0, 255, 2] []).stg.length ∧
      256 < Claim.symbolsBefore (staged [0, 0, 0, 0, 0, 0, 0, 0, 255, 2] []).stg 16) ∧
    (Claim.symbolsBefore (staged [0, 2] [1]).stg 16 = 2 ∧ (staged [0, 2] [1]).stg.length ≠ 16 + 2) ∧
    ∃ v ∈ (staged [0, 2] [5, 256]).stg.drop 16, 255 < v.toNat :=
  ⟨by decide, ⟨by decide, by simp [Claim.symbolsBefore, Claim.bitsOf, staged]⟩,
   ⟨by simp [Claim.symbolsBefore, Claim.bitsOf, staged], by decide⟩, 256, by simp [staged], by decide⟩

/-- Codes that do not fit at length 1. -/
theorem witness_LoadHtBuildsTheCanonicalTable_overfull :
    Claim.exceeds (staged [2] [0, 1]).stg 0 ∧ (staged [2] [0, 1]).stg.length = 16 + 2 := by
  unfold Claim.exceeds
  decide

/-- One code of each length, and a second one of length 16, which does not fit. -/
def overfull16 : List Half := List.replicate 15 1 ++ [2]

theorem codeAt_overfull16 (n : Nat) (h : n ≤ 15) : Claim.codeAt overfull16 n = 2 ^ (n + 1) - 2 := by
  induction n with
  | zero => rfl
  | succ n ih =>
    have hb : Claim.bitsOf overfull16 n = 1 := by
      have : n < 15 := h
      interval_cases n <;> rfl
    have hp : 2 ≤ 2 ^ (n + 1) := le_self_pow₀ (by norm_num) (by omega)
    rw [Claim.codeAt, ih (by omega), hb, pow_succ 2 (n + 1)]
    omega

theorem witness_LoadHtBuildsTheCanonicalTable_length16 :
    Claim.exceeds overfull16 15 ∧ ∀ k, k < 15 → ¬ Claim.exceeds overfull16 k := by
  refine ⟨⟨by decide, ?_⟩, fun k hk => ?_⟩
  · rw [codeAt_overfull16 15 (le_refl 15)]
    have : Claim.bitsOf overfull16 15 = 2 := rfl
    rw [this]; norm_num
  · rintro ⟨-, h⟩
    have hb : Claim.bitsOf overfull16 k = 1 := by interval_cases k <;> rfl
    rw [codeAt_overfull16 k (by omega), hb] at h
    omega

/-- A table of one code. -/
theorem witness_LoadHtBuildsTheCanonicalTable_table :
    (staged [1] [5]).stg.length = 16 + Claim.symbolsBefore (staged [1] [5]).stg 16 ∧
    (∀ v ∈ (staged [1] [5]).stg.drop 16, v.toNat ≤ 255) ∧ ∀ m, m < 16 → ¬ Claim.exceeds (staged [1] [5]).stg m := by
  refine ⟨by simp [Claim.symbolsBefore, Claim.bitsOf, staged], by simp [staged], fun m hm => ?_⟩
  rintro ⟨h, h'⟩
  obtain rfl | hm0 := Nat.eq_zero_or_pos m
  · exact absurd h' (by decide)
  · have : Claim.bitsOf (staged [1] [5]).stg m = 0 := by interval_cases m <;> rfl
    omega

theorem witness_BuiltCodesArePrefixFreeAndNeverAllOnes :
    buildHuff 0 false (staged [1] [5]).stg = .ok (oneCode 5) ∧ lookup (oneCode 5) 1 0 = .ok (some 5) ∧
    (1 : Half).toNat / 2 ^ (2 - 1) = (0 : Half).toNat := by decide

/-- START_FRAME's clauses, from registers that fail one check each, and from ones that pass. -/
theorem witness_StartFrameChecksThenCommits :
    idle8.st = .idle ∧ ((0x107 : BitVec 12).extractLsb' 0 8).toNat ≠ 8 ∧ ((0x208 : BitVec 12).extractLsb' 8 4).toNat = 2 ∧
    (Claim.headerOf { regs8 with frameDim := 0x00080000 } 1).fw = 0 ∧
    (Claim.headerOf { regs8 with frameDim := 0x00000008 } 1).fh = 0 ∧
    (¬ Claim.legalFactors { regs8 with compCfg := ⟨0x011, 0x011, 0x015⟩ } 2 ∧
      ∀ j, j < 2 → Claim.legalFactors { regs8 with compCfg := ⟨0x011, 0x011, 0x015⟩ } j) ∧
    ((regs8.frameCfg.extractLsb' 0 8).toNat = 8 ∧ (regs8.frameCfg.extractLsb' 8 4).toNat = 1 ∧
      (Claim.headerOf regs8 1).fw ≠ 0 ∧ (Claim.headerOf regs8 1).fh ≠ 0 ∧ (∀ i, i < 1 → Claim.legalFactors regs8 i) ∧
      63 < (Claim.headerOf regs8 1).planeBytes ∧ (Claim.headerOf regs8 1).planeBytes ≤ 64) := by
  unfold Claim.legalFactors
  decide

theorem frame8_sound : frame8.Sound := ⟨by decide, by decide, by decide, by decide⟩

/-- A frame of three components, factors 2 by 2 and 1 by 1. -/
def frame3 : FrameSnap := { fw := 33, fh := 17, comps := [⟨2, 2, 0⟩, ⟨1, 1, 0⟩, ⟨1, 1, 0⟩] }

theorem frame3_sound : frame3.Sound := ⟨by decide, by decide, by decide, by decide⟩

theorem witness_FrameGeometryIsTheCeilings : frame3.Sound ∧ ⟨2, 2, 0⟩ ∈ frame3.comps := ⟨frame3_sound, by decide⟩

/-- START_SCAN's clauses over the one-component and the three-component frame: NS 0, NS 2 of 1, an index out of range, a
repeated index, 14 blocks, each missing table, a scan. -/
theorem witness_StartScanChecksThenCommits :
    framed8.st = .frame ∧ framed8.frame = some frame8 ∧ frame8.nf = 1 ∧
    Claim.scanCount { regs8 with scanCfg := 0 } = 0 ∧ Claim.scanCount { regs8 with scanCfg := 2 } = 2 ∧
    (Claim.badIndex { regs8 with scanCfg := 0x00000301 } 3 0) ∧
    (Claim.badIndex { regs8 with scanCfg := 0x00000002 } 3 1 ∧ ¬ Claim.badIndex { regs8 with scanCfg := 0x00000002 } 3 0) ∧
    Claim.scanBlocks { regs8 with scanCfg := 0x00020103 } { frame3 with comps := [⟨4, 3, 0⟩, ⟨1, 1, 0⟩, ⟨1, 1, 0⟩] } 3 = 14 ∧
    Claim.scanBlocks { regs8 with scanCfg := 0x00020103 } { frame3 with comps := [⟨4, 2, 0⟩, ⟨1, 1, 0⟩, ⟨1, 1, 0⟩] } 3 = 10 ∧
    validAt Tables.empty.qtValid (Claim.slotTq regs8 frame8 0) = false ∧
    validAt tabs8.dcValid (Claim.slotAt { regs8 with scanCfg := 0x00000801 } 0).td = false ∧
    validAt tabs8.acValid (Claim.slotAt { regs8 with scanCfg := 0x00003001 } 0).ta = false ∧
    (Claim.scanCount regs8 = 1 ∧ (∀ j, j < 1 → ¬ Claim.badIndex regs8 1 j) ∧
      ∀ j, j < 1 → Claim.slotLoaded regs8 tabs8 frame8 j) := by
  unfold Claim.badIndex Claim.slotLoaded
  decide

theorem witness_ConvertNeedsEveryComponent :
    framed8.st = .frame ∧ framed8.frame = some frame8 ∧ framed8.compDone.getLsbD 0 = false ∧
    ∀ i, i < frame8.nf → (1 : BitVec 3).getLsbD i = true := by decide

theorem witness_TblDataWritesStageEntries :
    (∃ s : State, s.stg.length = 271) ∧ ∃ s : State, s.stg.length = 272 :=
  ⟨⟨{ State.reset with stg := List.replicate 271 0 }, List.length_replicate ..⟩,
   ⟨{ State.reset with stg := List.replicate 272 0 }, List.length_replicate ..⟩⟩

theorem witness_InDataWritesEnterOrAreDropped :
    (∃ s : State, s.st = .scan ∧ s.eofSeen = false ∧ s.inFifo.length + 1 = s.par.inDepth) ∧
    (∃ s : State, s.st = .scan ∧ s.par.inDepth ≤ s.inFifo.length) ∧ (∃ s : State, s.eofSeen = true) ∧
    (0x1FF : Word).getLsbD 8 = true ∧ (0x0FF : Word).getLsbD 8 = false :=
  ⟨⟨{ scan8 with inFifo := List.replicate 15 (.byte 0) }, by decide⟩,
   ⟨{ scan8 with inFifo := List.replicate 16 (.byte 0) }, by decide⟩, ⟨{ scan8 with eofSeen := true }, by decide⟩,
   by decide, by decide⟩

theorem witness_OutDataReadsPop : (∃ s : State, s.outFifo = [0xFF]) ∧ State.reset.outFifo = [] :=
  ⟨⟨{ State.reset with outFifo := [0xFF] }, rfl⟩, rfl⟩

/-- A command write as the next move: between two steps, and inside the step of an engine that has none. -/
theorem witness_AStepRunsTheHostsInstruction :
    decodeAccess true 0x08 0x0F = .ok .abort ∧ (0x08 : Byte).toNat % 4 = 0 ∧
    (∃ s : State, s.turns = [.host ⟨true, s.par.regBase + 0x08, 4, 0x0F⟩] ∧ s.mid = false) ∧
    ∃ s : State, s.turns = [.host ⟨true, s.par.regBase + 0x08, 4, 0x0F⟩] ∧ s.mid = true ∧ engineReady s = false :=
  ⟨by decide, by decide, ⟨{ State.reset with turns := [.host ⟨true, 0x08, 4, 0x0F⟩] }, by decide⟩,
   ⟨{ State.reset with turns := [.host ⟨true, 0x08, 4, 0x0F⟩], mid := true }, by decide⟩⟩

/-- A plain read, and an access of one byte, as the next move: each is what `hostAccess` makes of it. -/
theorem witness_AStepRunsTheHostsInstruction_plain :
    look (·.rdata) (step { based with turns := [.host ⟨false, 0x104C, 4, 0⟩] }) = some 0x10001000 ∧
    refusal (step { based with turns := [.host ⟨true, 0x1000, 1, 0⟩] }) = some .badAccess := by decide

/-- At a token, and at a symbol of each class, with the engine's turn in each of its forms. -/
theorem witness_AStepRunsTheEnginesInstruction :
    (∃ s : State, s.st = .scan ∧ windowComplete s.br.window = true ∧ s.mid = true ∧
      ∃ t, exec (decodeToken (tokenWord s.br.window)) s = .next t) ∧
    (∃ s : State, s.st = .scan ∧ s.br.window = [] ∧ s.seq.bits = .sym 3 ∧ s.seq.phase = .blockDc ∧ s.turns = [] ∧
      ∃ t, exec (decodeDc 3) s = .next t) ∧
    ∃ s : State, s.st = .scan ∧ s.br.window = [] ∧ s.seq.bits = .sym 0 ∧ s.seq.phase = .blockAc ∧ s.mid = false ∧
      s.turns = [.engine] ∧ ∃ t, exec (decodeAc 0) { s with turns := [] } = .next t :=
  ⟨⟨{ scan8 with br := { BitReader.initial with window := [.byte 0xFF, .byte 0xFF] }, mid := true },
      rfl, rfl, rfl, _, rfl⟩,
   ⟨block8 true 0 8 3, rfl, rfl, rfl, rfl, rfl, _, rfl⟩,
   ⟨{ block8 false 1 8 0 with turns := [.engine] }, rfl, rfl, rfl, rfl, rfl, rfl, _, rfl⟩⟩

/-- In the block with a code word to read and no bit at hand. -/
def hungry : State := startBlock 0 scan8

/-- A conversion with `n` bytes in the output FIFO. -/
def pushing (n : Nat) : State := { convert1 with outFifo := List.replicate n 0 }

theorem witness_TheEngineHoldsAtTwoPlacesOnly :
    (hungry.st = .scan ∧ inWait hungry = true ∧ engineReady hungry = false ∧ hungry.turns = [] ∧ hungry.eofSeen = false ∧
      0 < hungry.par.inDepth) ∧
    ((pushing 16).st = .convert ∧ outWait (pushing 16) = true ∧ (pushing 16).outFifo.length = (pushing 16).par.outDepth ∧
      0 < (pushing 16).par.outDepth) ∧ engineReady (pushing 15) = true := by decide

/-- The hungry engine with entries in the FIFO. -/
def fed (l : List InEntry) (p : Word) : State :=
  { hungry with inFifo := l, br := { BitReader.initial with p := p } }

theorem witness_InputWritesCommuteWithTheEngine :
    ((fed [.byte 1] 0).st = .scan ∧ engineReady (fed [.byte 1] 0) = true ∧ (fed [.byte 1] 0).eofSeen = false ∧
      (fed [.byte 1] 0).inFifo.length < (fed [.byte 1] 0).par.inDepth) ∧
    ∃ t, engineStep (fed [.byte 1] 0) = .next t ∧ t.st = .scan := ⟨by decide, _, rfl, rfl⟩

theorem witness_AFillRunIsOneToken :
    let s := fed [.byte 0xFF, .byte 0xFF, .byte 0x00, .eof] 0xFFFFFFFC
    let u := fed [.byte 0xFF, .byte 0xD9] 0
    (nextOp s = .inPop ∧ s.br.window = [] ∧ s.inFifo = List.replicate 2 (.byte 0xFF) ++ .byte 0x00 :: [.eof] ∧
      s.br.p.toNat + 1 + 2 < 2 ^ 32) ∧
    (nextOp u = .inPop ∧ u.inFifo = List.replicate 1 (.byte 0xFF) ++ .byte 0xD9 :: [] ∧ (0xD9 : Byte) ≠ 0) := by decide

theorem oneCode_sound (b : Byte) : (oneCode b).sound := by
  intro row h
  have : (oneCode b).vals.length = 1 := rfl
  rw [this]
  revert row
  show ∀ row ∈ ⟨0, 1, 0⟩ :: (List.range 15).map (fun n => (⟨BitVec.ofNat 17 (2 ^ (n + 1)), 0, 1⟩ : HuffRow)), row.off + row.num ≤ 1
  decide

/-- A data byte up to the last value of BR_P, the EOF token past it, and a 0xFF byte that ends at the EOF token. -/
theorem witness_AFillRunIsOneToken_shapes :
    let s := fed [.byte 0x12] 0xFFFFFFFE
    let u := fed [.eof] 0xFFFFFFFF
    let w := fed [.byte 0xFF, .eof] 0xFFFFFFFE
    (nextOp s = .inPop ∧ s.br.window = [] ∧ s.br.p.toNat + 1 < 2 ^ 32) ∧ (nextOp u = .inPop ∧ u.br.window = []) ∧
    (nextOp w = .inPop ∧ w.br.window = [] ∧ w.inFifo = List.replicate 1 (.byte 0xFF) ++ .eof :: [] ∧
      w.br.p.toNat + 0 + 1 < 2 ^ 32) := by decide

/-- At a code word, with the last `n` bits of `b` unread. -/
def coded (len n : Nat) (b : Byte) : State :=
  { hungry with
    seq := { hungry.seq with bits := .huff 0 len }
    br := { BitReader.initial with cur := some b, nbits := n } }

/-- A first bit 0 is the code; a first bit 1 is not; a sixteenth bit that makes no code is the last. -/
theorem witness_HuffmanDecodingReadsOneBitMore :
    (∃ s1, readBit (coded 0 1 0) = .ok (some (false, s1)) ∧ currentHuff s1 = .ok (oneCode 5) ∧
      (oneCode 5).rows[0]? = some ⟨0, 1, 0⟩) ∧
    (∃ s1, readBit (coded 0 1 1) = .ok (some (true, s1)) ∧ currentHuff s1 = .ok (oneCode 5)) ∧
    (∃ s1, readBit (coded 15 1 1) = .ok (some (true, s1)) ∧ currentHuff s1 = .ok (oneCode 5) ∧
      (oneCode 5).rows[15]? = some ⟨BitVec.ofNat 17 (2 ^ 15), 0, 1⟩) ∧ (oneCode 5).sound :=
  ⟨⟨_, rfl, rfl, rfl⟩, ⟨_, rfl, rfl⟩, ⟨_, rfl, rfl, rfl⟩, oneCode_sound 5⟩

/-- The one block of `scan8`. -/
def block0 : BlockPos := ⟨⟨0, 0, 0⟩, ⟨1, 1, 0⟩, 0, 0⟩

theorem witness_DcZeroRepeatsThePredictor : currentBlock (block8 true 0 8 0) = .ok block0 := by decide

/-- Seven bits of seven; eleven with three at hand, after the end of the data and before it. -/
theorem witness_DcDifferencesUpdateThePredictor :
    currentBlock (block8 true 0 7 7) = .ok block0 ∧
    ((block8 true 0 7 7).br.cur = some 0xB4 ∧ (7 : Byte).toNat ≤ (block8 true 0 7 7).br.nbits) ∧
    ((block8 true 0 3 11).br.nbits < (11 : Byte).toNat ∧ (block8 true 0 3 11).br.cur.isSome = true ∧
      (block8 true 0 3 11).br.byte = none ∧ (block8 true 0 3 11).br.mode = .data) ∧
    ∃ s : State, currentBlock s = .ok block0 ∧ s.br.nbits = 0 ∧ s.br.byte = none ∧ s.br.mode ≠ .data :=
  ⟨by decide, by decide, by decide,
   ⟨{ block8 true 0 0 11 with br := { BitReader.initial with mode := .endMode } }, by decide⟩⟩

/-- A field of `t` bits waiting with `n`, and a byte fetched. -/
def waiting (dc : Bool) (t n : Nat) : State :=
  { hungry with
    seq := { hungry.seq with bits := .mag dc t n 1 }
    br := { BitReader.initial with byte := some 0xB4 } }

theorem witness_AWaitingFieldGoesOnWithTheNextByte :
    (∃ s : State, s.seq.bits = .mag true 9 1 1 ∧ s.br.nbits = 0 ∧ s.br.byte = some 0xB4 ∧ s.br.mode = .data ∧
      currentBlock s = .ok block0) ∧
    (∃ s : State, s.seq.bits = .mag false 15 6 1 ∧ s.br.nbits = 0 ∧ s.br.byte = some 0xB4 ∧ s.br.mode = .data ∧
      currentBlock s = .ok block0) ∧
    (∃ s : State, s.seq.bits = .mag true 11 1 1 ∧ s.br.nbits = 0 ∧ s.br.byte = none ∧ s.br.mode ≠ .data ∧
      currentBlock s = .ok block0) ∧ 9 - 1 ≤ 8 ∧ 8 < 15 - 6 ∧ (1 : Half).toNat < 2 ^ 1 :=
  ⟨⟨waiting true 9 1, by decide⟩, ⟨waiting false 15 6, by decide⟩,
   ⟨{ waiting true 11 1 with br := { BitReader.initial with mode := .endMode } }, by decide⟩, by decide⟩

theorem witness_DcCategoriesAboveElevenAreErrors : 11 < (12 : Byte).toNat := by decide

theorem witness_AcSymbolsWithoutBitsMoveTheCursor :
    (block8 false 48 8 0xF0).seq.k + 16 ≤ 64 ∧ (block8 false 49 8 0xE0).seq.k + (14 : BitVec 4).toNat ≤ 63 := by decide

theorem witness_AcRunValuesStoreACoefficient :
    ((block8 false 48 8 0xFF).seq.k + (15 : BitVec 4).toNat ≤ 63 ∧ 1 ≤ (1 : BitVec 4).toNat ∧
      (block8 false 48 8 0xF1).br.cur = some 0xB4 ∧ (8 : BitVec 4).toNat ≤ (block8 false 48 8 0xF8).br.nbits) ∧
    ((block8 false 1 8 0x0F).br.nbits < (15 : BitVec 4).toNat ∧ (block8 false 1 8 0x0F).br.cur.isSome = true ∧
      (block8 false 1 8 0x0F).br.byte = none ∧ (block8 false 1 8 0x0F).br.mode = .data) ∧
    ∃ s : State, s.seq.k = 1 ∧ s.br.nbits = 0 ∧ s.br.byte = none ∧ s.br.mode ≠ .data :=
  ⟨by decide, by decide,
   ⟨{ block8 false 1 0 0x01 with br := { BitReader.initial with mode := .marker, marker := some 0xD9 } }, by decide⟩⟩

theorem witness_RunsPastTheLastCoefficientAreErrors :
    63 < (block8 false 63 8 0x11).seq.k + (1 : BitVec 4).toNat ∧ 64 < (block8 false 49 8 0xF0).seq.k + 16 := by decide

theorem witness_SignExtensionSplitsTheRange :
    (32767 < 2 ^ 15 ∧ Nat.testBit 32767 14 = true) ∧ (0 < 2 ^ 15 ∧ Nat.testBit 0 14 = false) ∧
    (Nat.testBit 1 0 = true ∧ Nat.testBit 0 0 = false) := by decide

/-- Two blocks in a row, a restart before each. -/
def scanRi : State :=
  { scan8 with
    frame := some { frame8 with fw := 16 }, mcuCount := 1
    scan := some { slots := [⟨0, 0, 0⟩], ri := 1, srow := 2, srows := 1 } }

/-- At the restart check, the reader as given. -/
def restartAt (br : BitReader) : State := { scanRi with br := br }

theorem witness_RestartBoundariesAreChecked :
    scanRi.st = .scan ∧ scanRi.br.window = [] ∧ scanRi.seq.phase = .restartCheck ∧ scanRi.restartNow = true ∧
    (scan8.seq.phase = .restartCheck ∧ scan8.restartNow = false ∧
      currentBlock { scan8 with seq := { scan8.seq with b := 0 } } = .ok block0) ∧
    nextOp (restartAt { BitReader.initial with nbits := 1 }) = .align ∧
    nextOp (restartAt { BitReader.initial with mode := .endMode }) = .restartJudge ∧
    ((0xCF : Byte).toNat < 0xD0 ∧ 0xD7 < (0xD8 : Byte).toNat) ∧
    (0xD1 : Byte) = BitVec.ofNat 8 (0xD0 + (1 : BitVec 3).toNat) ∧ (1 : BitVec 3) ≠ scanRi.nextRst ∧
    (0 : BitVec 3) = scanRi.nextRst ∧ currentBlock { scanRi with seq := { scanRi.seq with b := 0 } } = .ok ⟨⟨0, 0, 0⟩, ⟨1, 1, 0⟩, 1, 0⟩ := by
  decide

/-- In the end search, the reader as given. -/
def searching (br : BitReader) : State := { scan8 with br := br, seq := { scan8.seq with phase := .endSearch } }

theorem witness_TheEndSearchFindsTheStopMarker :
    scan8.trailing ≠ BitVec.allOnes 32 ∧
    (searching BitReader.initial).st = .scan ∧ (searching BitReader.initial).seq.phase = .endSearch ∧
    nextOp (searching { BitReader.initial with nbits := 1 }) = .align ∧
    nextOp (searching { BitReader.initial with byte := some 0 }) = .trail ∧
    nextOp (searching BitReader.initial) = .inPop ∧
    nextOp (searching { BitReader.initial with mode := .marker }) = .endJudge ∧
    (∃ s : State, s.br.mode = .endMode) ∧
    (∃ s : State, s.br.mode = .marker ∧ s.br.marker = some 0xD0 ∧ s.seq.mayRst = true ∧ 0 = s.nextRst ∧ s.trailing = 0) ∧
    (∃ s : State, s.br.mode = .marker ∧ s.br.marker = some 0xD7 ∧ s.seq.mayRst = false) ∧
    ∃ s : State, s.br.mode = .marker ∧ s.br.marker = some 0xD9 ∧
      s.scan = some { slots := [⟨0, 0, 0⟩], ri := 0, srow := 1, srows := 1 } :=
  ⟨by decide, by decide, by decide, by decide, by decide, by decide, by decide,
   ⟨restartAt { BitReader.initial with mode := .endMode }, rfl⟩,
   ⟨{ restartAt { BitReader.initial with mode := .marker, marker := some 0xD0 } with
      seq := { Sequencer.initial with phase := .endSearch, mayRst := true } }, by decide⟩,
   ⟨restartAt { BitReader.initial with mode := .marker, marker := some 0xD7 }, by decide⟩,
   ⟨{ scan8 with br := { BitReader.initial with mode := .marker, marker := some 0xD9 } }, by decide⟩⟩

/-- The last MCU of a row and of the scan; and one before it. -/
theorem witness_McusAndRowsAreCounted :
    (scanRi.scan = some { slots := [⟨0, 0, 0⟩], ri := 1, srow := 2, srows := 1 } ∧ scanRi.mcuCount.toNat + 1 < 2 ^ 32 ∧
      (scanRi.mcuCount.toNat + 1) % 2 = 0) ∧ (scan8.mcuCount.toNat + 1) % 2 ≠ 0 := by decide

/-- Two components, the first block of two complete. -/
def storing : State :=
  { hungry with
    frame := some { frame8 with comps := [⟨1, 1, 0⟩, ⟨1, 1, 0⟩, ⟨1, 1, 0⟩] }
    scan := some { slots := [⟨0, 0, 0⟩, ⟨1, 0, 0⟩], ri := 0, srow := 1, srows := 1 }
    seq := { hungry.seq with phase := .store } }

theorem witness_BlocksAreStoredInTheirPlace :
    currentBlock storing = .ok block0 ∧ storing.blk.coef = (List.replicate 64 0).map some ∧
    storing.tabs.qt.get block0.comp.tq = some (List.replicate 64 1) ∧
    (∃ f sc, storing.frame = some f ∧ storing.scan = some sc ∧ 8 * block0.byp + 8 ≤ f.ph block0.comp ∧
      8 * block0.bxp + 8 ≤ f.pw block0.comp ∧ storing.seq.b + 1 < (mcuBlocks f sc storing.m).length) ∧
    currentBlock { storing with seq := { storing.seq with b := 1 } } = .ok ⟨⟨1, 0, 0⟩, ⟨1, 1, 0⟩, 0, 0⟩ :=
  ⟨by decide, by decide, by decide, ⟨_, _, rfl, rfl, by decide⟩, by decide⟩

/-- The two grids: 4:2:0 interleaved, whose third slot's block is the sixth, and its second component alone. -/
theorem witness_BlocksAreStoredInTheirPlace_order :
    frame3.Sound ∧ Claim.blocksBefore frame3 [⟨0, 0, 0⟩, ⟨1, 0, 0⟩, ⟨2, 0, 0⟩] 2 = 5 ∧
    (mcuBlocks frame3 ⟨[⟨0, 0, 0⟩, ⟨1, 0, 0⟩, ⟨2, 0, 0⟩], 0, 3, 2⟩ 4)[3]? = some ⟨⟨0, 0, 0⟩, ⟨2, 2, 0⟩, 3, 3⟩ ∧
    scanGrid frame3 [⟨1, 0, 0⟩] = (3, 2) ∧
    mcuBlocks frame3 ⟨[⟨1, 0, 0⟩], 0, 3, 2⟩ 5 = [⟨⟨1, 0, 0⟩, ⟨1, 1, 0⟩, 2, 1⟩] ∧ 5 < (⟨[⟨1, 0, 0⟩], 0, 3, 2⟩ : ScanSnap).smcus :=
  ⟨frame3_sound, by decide, by decide, by decide, by decide, by decide⟩

theorem witness_TransformIntermediatesStayInWidth :
    7 < 8 ∧ (0x8000 : Half).toInt = -32768 ∧ (List.replicate 64 (1 : Half)).length = 64 ∧ 63 < 64 := by decide

theorem witness_GreyChromaGivesGrey : (255 : Nat) ≤ 255 ∧ csc 255 0 255 = [255, 208, 28] := by decide

/-- The upsampler over 4:2:0: four written chroma samples under pixel (31, 15), the neighbour of the last column. -/
theorem witness_GrayscaleFramesAreReadOneToOne_ratio2 :
    let m : Memory := Memory.writeAll [] [(planeAddr 1 7 15, 10), (planeAddr 1 8 15, 20), (planeAddr 1 7 16, 30),
      (planeAddr 1 8 16, 40)]
    let s : State := { State.reset with planes := m }
    frame3.Sound ∧ frame3.comps[1]? = some ⟨1, 1, 0⟩ ∧ frame3.hmax = 2 * 1 ∧ frame3.vmax = 2 * 1 ∧ frame3.nf ≠ 1 ∧
    31 < frame3.fw.toNat ∧ 15 < frame3.fh.toNat ∧ Claim.farOf 15 (frame3.chgt ⟨1, 1, 0⟩) = 8 ∧
    Claim.farOf 31 (frame3.cwid ⟨1, 1, 0⟩) = 16 ∧ Claim.farOf 32 (frame3.cwid ⟨1, 1, 0⟩) = 15 ∧ Claim.farOf 0 9 = 0 ∧
    sampleVert s frame3 1 ⟨1, 1, 0⟩ 15 15 = .ok 13 ∧ sampleVert s frame3 1 ⟨1, 1, 0⟩ 16 15 = .ok 33 ∧
    sample s frame3 1 1 31 15 = .ok 18 ∧ sample s frame3 0 1 31 15 = .ok 10 := by
  refine ⟨frame3_sound, by decide, by decide, by decide, by decide, by decide, by decide, by decide, by decide, by decide,
    by decide, by decide, by decide, by decide, by decide⟩

/-- A component with the maximum factors in a three-component frame: the box index in both modes. -/
theorem witness_GrayscaleFramesAreReadOneToOne_ratio1 :
    frame3.hmax ≠ 2 * 2 ∧ frame3.vmax ≠ 2 * 2 ∧ 32 * 2 / frame3.hmax = 32 ∧ 16 * 2 / frame3.vmax = 16 := by decide

theorem witness_GrayscaleFramesAreReadOneToOne :
    frame8.Sound ∧ frame8.nf = 1 ∧ 7 < frame8.fw.toNat ∧ 7 < frame8.fh.toNat ∧
    Memory.read [(planeAddr 0 7 7, 0x7B)] (planeAddr 0 7 7) = some 0x7B := ⟨frame8_sound, by decide, by decide, by decide, by decide⟩

theorem no_tables {α : Type} (t : BitVec 2) : (⟨none, none, none, none⟩ : Quad (Option α)).get t = none := by
  rcases tableId_cases t with rfl | rfl | rfl | rfl <;> rfl

/-- A conversion of one pixel, at it and past it. -/
def converting (y : Nat) : State := { convert1 with conv := ⟨0, y, 0⟩, outCount := BitVec.ofNat 32 y }

theorem converting_live (y : Nat) : LiveInv (converting y) where
  dc_sound t h e := by
    have e : (⟨none, none, none, none⟩ : Quad (Option HuffTable)).get t = some h := e
    rw [no_tables] at e; exact absurd e (by simp)
  ac_sound t h e := by
    have e : (⟨none, none, none, none⟩ : Quad (Option HuffTable)).get t = some h := e
    rw [no_tables] at e; exact absurd e (by simp)
  frame _ := by
    refine ⟨frame1, rfl, ⟨by decide, by decide, by decide, by decide⟩, fun i hi _ => ?_⟩
    obtain rfl : i = 0 := Nat.lt_one_iff.mp hi
    intro c hc row col hrow hcol
    obtain rfl : c = ⟨1, 1, 0⟩ := (Option.some.inj hc).symm
    obtain rfl : row = 0 := Nat.lt_one_iff.mp hrow
    obtain rfl : col = 0 := Nat.lt_one_iff.mp hcol
    rfl
  scan h := absurd h (by show ¬ EngState.convert = .scan; decide)
  convert _ f hf := by
    obtain rfl : f = frame1 := (Option.some.inj hf).symm
    refine ⟨rfl, fun i hi => ?_, by show 0 < 1; decide, by show 0 < 1; decide⟩
    obtain rfl : i = 0 := Nat.lt_one_iff.mp hi
    show (1 : BitVec 3).getLsbD 0 = true
    decide

/-- One byte of room, at the one pixel. -/
theorem witness_AConversionPushesTheWholeImage_push :
    (pushing 15).st = .convert ∧ nextOp (pushing 15) = .outPush ∧ (pushing 15).outFifo.length < (pushing 15).par.outDepth ∧
    (pushing 15).frame = some frame1 ∧ (pushing 15).cvMode = some 0 ∧
    pixel (pushing 15) frame1 0 (pushing 15).conv.x (pushing 15).conv.y = .ok [0x7B] ∧
    [(0x7B : Byte)][(pushing 15).conv.ch]? = some 0x7B ∧ frame1.nf ≤ (pushing 15).conv.ch + 1 := by decide

theorem witness_AConversionPushesTheWholeImage :
    (LiveInv (converting 0) ∧ Claim.CountInv (converting 0) ∧ ∃ t, step (converting 0) = .next t) ∧
    (LiveInv (converting 1) ∧ Claim.CountInv (converting 1) ∧ nextOp (converting 1) = .convertDone) :=
  ⟨⟨converting_live 0, fun _ => ⟨frame1, rfl, by decide, by decide, by decide, by decide, by decide, fun _ => by decide⟩,
     _, rfl⟩,
   converting_live 1, fun _ => ⟨frame1, rfl, by decide, by decide, by decide, by decide, by decide, fun _ => by decide⟩,
   by decide⟩

/-- The engine at each of its operations that are no instruction, and the operation's answer; ready, and not. -/
theorem witness_AStepRunsTheEnginesInstruction_ops :
    let marked : BitReader := { BitReader.initial with mode := .marker, marker := some 0xD0 }
    nextOp hungry = .inPop ∧ nextOp (restartAt { BitReader.initial with nbits := 1 }) = .align ∧
    nextOp (searching { BitReader.initial with byte := some 0 }) = .trail ∧ nextOp (converting 1) = .convertDone ∧
    (nextOp scan8 = .beginMcu ∧ ∃ t, beginMcu scan8 = .ok t) ∧
    (nextOp (restartAt marked) = .restartJudge ∧ ∃ t, restartJudge (restartAt marked) = .ok t) ∧
    (nextOp (coded 0 1 0) = .readBits ∧ ∃ t, takeBits (coded 0 1 0) = .ok t) ∧
    (nextOp storing = .storeBlock ∧ ∃ t, storeBlock storing = .ok t) ∧
    (nextOp { storing with seq := { storing.seq with b := 2 } } = .mcuDone ∧
      ∃ t, mcuDone { storing with seq := { storing.seq with b := 2 } } = .ok t) ∧
    (nextOp (searching marked) = .endJudge ∧ ∃ t, endJudge (searching marked) = .ok t) ∧
    (nextOp (pushing 15) = .outPush ∧ ∃ t, outPush (pushing 15) = .ok t) ∧
    (engineReady scan8 = true ∧ scan8.mid = false ∧ scan8.turns = []) ∧ engineReady hungry = false :=
  ⟨by decide, by decide, by decide, by decide, ⟨by decide, _, rfl⟩, ⟨by decide, _, rfl⟩, ⟨by decide, _, rfl⟩,
   ⟨by decide, _, rfl⟩, ⟨by decide, _, rfl⟩, ⟨by decide, _, rfl⟩, ⟨by decide, _, rfl⟩, by decide, by decide⟩

/-- The engine's move in the list, at a ready engine and in a hold. -/
theorem witness_AStepRunsTheEnginesInstruction_moves :
    look (fun t => (t.seq.phase, t.turns)) (step { scan8 with turns := [.engine] }) = some (.blockDc, []) ∧
    look (fun t => (t.inFifo, t.turns)) (step { hungry with turns := [.engine] }) = some ([], []) := by decide

/-- An engine in ERROR whose next move is given. -/
def failed (turn : Turn) : State := { State.reset with st := .error, err := 0x00000102, turns := [turn] }

/-- The three ways of R457: another move, a reset, an abort. -/
theorem witness_OnlyAbortOrResetLeavesError :
    (look (·.st) (step (failed (rd 0 .err))) = some .error) ∧
    (look (·.st) (step (failed .powerOn)) = some .idle ∧ resetNext (failed .powerOn) = true) ∧
    (look (·.st) (step (failed (cmd 0 15))) = some .idle ∧ hostWriteNext 0x08 (failed (cmd 0 15)) = true ∧
      decodeCmd (nextWriteData (failed (cmd 0 15))) = .abort) := by decide

/-- Bit 5 pending: a read leaves it, a write of 0x20 clears it. -/
theorem witness_InterruptBitsStayUntilCleared :
    look (·.intStatus) (step { failed (rd 0 .intStatus) with intStatus := 0x20 }) = some 0x20 ∧
    look (·.intStatus) (step { failed (wr 0 .intStatus 0x20) with intStatus := 0x20 }) = some 0 ∧
    hostWriteNext 0x54 (failed (wr 0 .intStatus 0x20)) = true := by decide

theorem witness_OutputIsProducedOnlyByAConversion :
    look (·.outFifo) (step (pushing 1)) = some [0, 0x7B] ∧
    look (·.outFifo) (step { pushing 1 with turns := [rd 0 .outData] }) = some [] := by decide

theorem witness_TablesAndSnapshotsAreFrozenInUse :
    (pushing 0).st = .convert ∧ look (·.cvMode) (step (pushing 0)) = some (some 0) ∧ scan8.st = .scan ∧
    look (fun t => (t.st, t.frame)) (step scan8) = some (.scan, some frame8) := by decide

theorem witness_EngineStatesMoveAlongTheGraph :
    look (·.st) (step { idle8 with turns := [cmd 0 3] }) = some .frame ∧
    look (·.st) (step { framed8 with turns := [cmd 0 4] }) = some .scan ∧
    look (·.st) (step (converting 1)) = some .idle := by decide

theorem witness_InstructionsStoreNoSample :
    look (·.planes) (exec .nop convert1) = some [(0, 0x7B)] ∧ look (·.planes) (exec .abort convert1) = some [] := by decide

theorem tabs8_valid {α : Type} (x : α) (t : BitVec 2) :
    validAt 1 t = ((⟨some x, none, none, none⟩ : Quad (Option α)).get t).isSome := by
  rcases tableId_cases t with rfl | rfl | rfl | rfl <;> rfl

theorem tabs8_sound (b : Byte) (t : BitVec 2) (h : HuffTable)
    (e : (⟨some (oneCode b), none, none, none⟩ : Quad (Option HuffTable)).get t = some h) : h.sound := by
  rcases tableId_cases t with rfl | rfl | rfl | rfl
  · obtain rfl := Option.some.inj e; exact oneCode_sound b
  all_goals simp [Quad.get] at e

theorem scan8_storage : StorageInv scan8 where
  params := by decide
  planes_wf := List.Pairwise.nil
  in_bound := by decide
  out_bound := by decide
  stg_bound := by decide
  scan_cfg := by decide
  nbits_bound := by decide
  eof_seen := by decide
  qt_valid := tabs8_valid _
  dc_valid := tabs8_valid _
  ac_valid := tabs8_valid _

theorem scan8_live : LiveInv scan8 where
  dc_sound := tabs8_sound 5
  ac_sound := tabs8_sound 0
  frame _ := ⟨frame8, rfl, frame8_sound, fun i _ h => absurd h (by show ¬ (0 : BitVec 3).getLsbD i = true; simp)⟩
  scan _ f hf := by
    obtain rfl : f = frame8 := (Option.some.inj hf).symm
    refine ⟨_, rfl, ⟨by decide, by decide, fun sl h => ?_⟩, ?_⟩
    · obtain rfl : sl = ⟨0, 0, 0⟩ := by simpa using h
      exact ⟨_, rfl, rfl, rfl, rfl⟩
    · exact ⟨by decide, trivial, fun m h => absurd h (Nat.not_lt_zero m), fun _ h => absurd rfl h, trivial,
        fun h => absurd rfl h, fun h => absurd h (by decide)⟩
  convert h := absurd h (by show ¬ EngState.scan = .convert; decide)

theorem witness_EveryStepKeepsTheStorageInvariant : StorageInv scan8 ∧ ∃ t, step scan8 = .next t :=
  ⟨scan8_storage, _, rfl⟩

theorem witness_EveryStepKeepsTheLiveInvariant : StorageInv scan8 ∧ LiveInv scan8 ∧ ∃ t, step scan8 = .next t :=
  ⟨scan8_storage, scan8_live, _, rfl⟩

theorem witness_NoStepFaults : StorageInv scan8 ∧ LiveInv scan8 := ⟨scan8_storage, scan8_live⟩

theorem witness_IntStatusWritesClearOnes : 5 < 6 ∧ (0x20 : Word).getLsbD 5 = true := by decide

/-- The zero block, whose ideal value is 0. -/
theorem witness_DcOnlyBlocksAreFlat :
    63 < 64 ∧ |((0 : Int) : ℝ) - Claim.idealSample (List.replicate 64 0) 7 7| ≤ 1 / 2 ∧
    |(((130 : Byte).toNat : Nat) : Int) - Claim.level 0| ≤ 2 := by
  have h : ∀ n, (List.replicate 64 (0 : Half)).getD n 0 = 0 := fun n => by
    rw [List.getD_eq_getElem?_getD, List.getElem?_replicate]
    split <;> rfl
  have e : Claim.idealSample (List.replicate 64 0) 7 7 = 0 := by
    simp only [Claim.idealSample, h]
    simp
  rw [e]
  exact ⟨by decide, by norm_num, by decide⟩

theorem witness_ErrorEntryRecordsTheError : scan8.st = .scan ∧ idle8.st ≠ .scan := by decide

end Sys2Proof.Tests
end

section
/-! PROOFS. The storage invariant is kept by every operation of the host and of the engine, and so by every step (O58). -/
namespace Sys2Proof.Machine

variable {s t : State}

/-! ### The shared operations keep it -/

/-- R12: the moves still to come and the mark of R13 are no storage. -/
theorem storage_turns (h : StorageInv s) (r : List Turn) (m : Bool) : StorageInv { s with turns := r, mid := m } :=
  h.congr rfl rfl rfl rfl rfl rfl h.nbits_bound rfl rfl

theorem storage_markStep (h : StorageInv s) (op : EngineOp) : StorageInv (markStep op s) :=
  storage_turns h s.turns _

theorem storage_setInt (h : StorageInv s) (b : IntBit) : StorageInv (setInt b s) :=
  h.congr rfl rfl rfl rfl rfl rfl h.nbits_bound rfl rfl

/-- R68: the decoder's own fields may change as they like, within the bound of BR_NBITS. -/
theorem storage_decoder (h : StorageInv s) {br : BitReader} (hn : br.nbits ≤ 8) (pred : Tri Half) (blk : BlockWork)
    (seq : Sequencer) : StorageInv { s with br := br, pred := pred, blk := blk, seq := seq } :=
  h.congr rfl rfl rfl rfl rfl rfl hn rfl rfl

/-- R455. -/
theorem storage_raise (h : StorageInv s) (k : ErrKind) (d : Byte) (a : Nat) : StorageInv (raise k d a s) :=
  h.flush h.planes_wf rfl rfl (.inl rfl) (.inl rfl) rfl h.nbits_bound rfl rfl

/-- R500: a reset keeps the parameters, and the rest is as at power-on. -/
theorem storage_resetAction (h : StorageInv s) : StorageInv (resetAction s) where
  params := h.params
  planes_wf := Memory.reset_wf
  in_bound := Nat.zero_le _
  out_bound := Nat.zero_le _
  stg_bound := Nat.zero_le _
  scan_cfg := (by decide : Regs.initial.scanCfg &&& ~~~scanCfgMask = 0)
  nbits_bound := Nat.zero_le _
  eof_seen := by simp
  qt_valid := (by decide : ∀ t, validAt Tables.empty.qtValid t = (Tables.empty.qt.get t).isSome)
  dc_valid := (by decide : ∀ t, validAt Tables.empty.dcValid t = (Tables.empty.dc.get t).isSome)
  ac_valid := (by decide : ∀ t, validAt Tables.empty.acValid t = (Tables.empty.ac.get t).isSome)

theorem storage_startBlock (h : StorageInv s) (b : Nat) : StorageInv (startBlock b s) :=
  storage_decoder h h.nbits_bound _ _ _

/-! ### The host's instructions keep it -/

/-- R210, R212. -/
theorem storage_clearStaging (h : StorageInv s) : StorageInv (clearStaging s) :=
  { h with stg_bound := Nat.zero_le _ }

theorem storage_installQt (h : StorageInv s) (i : BitVec 2) (q : List Half) : StorageInv (installQt i q s) :=
  { h with qt_valid := valid_set _ _ i q h.qt_valid }

theorem storage_installHt (h : StorageInv s) (c : BitVec 1) (i : BitVec 2) (x : HuffTable) :
    StorageInv (installHt c i x s) := by
  unfold installHt
  split
  · exact { h with dc_valid := valid_set _ _ i x h.dc_valid }
  · exact { h with ac_valid := valid_set _ _ i x h.ac_valid }

theorem storage_loadQt (h : StorageInv s) (i : BitVec 2) : StorageInv (loadQt i s) := by
  unfold loadQt
  split
  · exact storage_raise (storage_clearStaging h) ..
  · exact storage_installQt (storage_clearStaging h) ..

theorem storage_loadHt (h : StorageInv s) (i : BitVec 2) (c : BitVec 1) : StorageInv (loadHt i c s) := by
  unfold loadHt
  split
  · exact storage_raise (storage_clearStaging h) ..
  · exact storage_installHt (storage_clearStaging h) ..

theorem storage_startFrame (h : StorageInv s) : StorageInv (startFrame s) := by
  have h1 : StorageInv { s with err := 0, errPos := 0 } := { h with }
  unfold startFrame
  simp only
  split
  · exact storage_raise h1 ..
  · exact { h1 with planes_wf := List.Pairwise.nil, out_bound := Nat.zero_le _ }

theorem storage_startScan (h : StorageInv s) (f : FrameSnap) : StorageInv (startScan f s) := by
  unfold startScan
  split
  · exact storage_raise h ..
  · exact h.flush h.planes_wf rfl rfl (.inl rfl) (.inl rfl) rfl (Nat.zero_le _) rfl rfl

theorem storage_convert (h : StorageInv s) (f : FrameSnap) : StorageInv (convert f s) := by
  unfold convert
  split
  · exact storage_raise h ..
  · exact { h with }

/-- R240. -/
theorem storage_abortFrame (h : StorageInv s) : StorageInv (abortFrame s) :=
  h.flush List.Pairwise.nil rfl rfl (.inr rfl) (.inr rfl) rfl (Nat.zero_le _) rfl rfl

/-- R62: an entry is taken below 272 only. -/
theorem storage_execTblDataWr (h : StorageInv s) {v : Word} (he : exec (.tblDataWr v) s = .next t) : StorageInv t := by
  injection he with he
  subst he
  split
  · next hl => exact { h with stg_bound := by simpa using hl }
  · exact { h with }

/-- R261: an entry is taken while the FIFO has room and no EOF token, which the write itself may be. -/
theorem storage_execInDataWr (h : StorageInv s) {v : Word} (he : exec (.inDataWr v) s = .next t) : StorageInv t := by
  injection he with he
  subst he
  split
  · next ha =>
    simp only [acceptsInput, Bool.and_eq_true, Bool.not_eq_true', decide_eq_true_eq] at ha
    obtain ⟨⟨-, hseen⟩, hroom⟩ := ha
    have hnot : InEntry.eof ∉ s.inFifo := by simp [← h.eof_seen, hseen]
    split
    · exact { h with in_bound := by simpa using hroom, eof_seen := by simp }
    · exact { h with in_bound := by simpa using hroom, eof_seen := by simp [hseen, hnot] }
  · exact storage_setInt h _

/-- R45: a pop leaves a shorter FIFO. -/
theorem storage_execOutDataRd (h : StorageInv s) (he : exec .outDataRd s = .next t) : StorageInv t := by
  injection he with he
  subst he
  exact { h with out_bound := (by simp : s.outFifo.tail.length ≤ s.outFifo.length).trans h.out_bound }

/-- R201-R261: every command and register access keeps the storage invariant. -/
theorem storage_exec_host {i : Instr} (hi : hostInstr i = true) (h : StorageInv s) (he : exec i s = .next t) :
    StorageInv t := by
  have hreject : StorageInv (reject s) := storage_setInt h _
  cases i
  case nop => injection he with he; exact he ▸ h
  case loadQt i => injection he with he; subst he; split; exacts [storage_loadQt h i, hreject]
  case loadHt i c => injection he with he; subst he; split; exacts [storage_loadHt h i c, hreject]
  case startFrame => injection he with he; subst he; split; exacts [storage_startFrame h, hreject]
  case startScan =>
    have he : execStartScan s = .next t := he
    unfold execStartScan at he
    split at he
    · split at he
      · cases he
      · next f _ => injection he with he; exact he ▸ storage_startScan h f
    · injection he with he; exact he ▸ hreject
  case convert =>
    have he : execConvert s = .next t := he
    unfold execConvert at he
    split at he
    · split at he
      · cases he
      · next f _ => injection he with he; exact he ▸ storage_convert h f
    · injection he with he; exact he ▸ hreject
  case abort => injection he with he; exact he ▸ storage_abortFrame h
  case cmdRejected => injection he with he; exact he ▸ hreject
  case tblDataWr => exact storage_execTblDataWr h he
  case inDataWr => exact storage_execInDataWr h he
  case outDataRd => exact storage_execOutDataRd h he
  case intStatusWr => injection he with he; subst he; exact { h with }
  case ctrlSoftReset =>
    injection he with he; subst he; split
    · exact storage_resetAction h
    · exact { h with }
  all_goals exact absurd hi Bool.false_ne_true

/-- R26: a plain write keeps the reserved bits of SCAN_CFG at 0. -/
theorem storage_plainWrite (h : StorageInv s) (off : Nat) (v : Word) : StorageInv (plainWrite off v s) := by
  unfold plainWrite
  split
  · exact { h with scan_cfg := regWrite_scanCfg v s.regs _ h.scan_cfg }
  · exact { h with }

theorem storage_hostAccess (h : StorageInv s) {a : Access} (he : hostAccess a s = .next t) : StorageInv t := by
  obtain ⟨off, -, ⟨i, hi, he⟩ | rfl | rfl⟩ := hostAccess_next he
  · exact storage_exec_host (decodeAccess_host hi) h he
  · exact storage_plainWrite h off a.data
  · exact { h with }

/-! ### The engine's operations keep it -/

/-- R262: a token leaves the bits of the byte at hand alone. -/
theorem exec_token_nbits {i : Instr} (hi : tokenInstr i = true) (he : exec i s = .next t) : t.br.nbits = s.br.nbits := by
  cases i
  case stuffed | fillRun | rstN | marker | dangling | data | endTok => injection he with he; subst he; rfl
  all_goals exact absurd hi Bool.false_ne_true

theorem storage_exec_token {i : Instr} (hi : tokenInstr i = true) (h : StorageInv s) (he : exec i s = .next t) :
    StorageInv t := by
  have hn := (exec_token_nbits hi he).le.trans h.nbits_bound
  obtain ⟨br, rfl⟩ := exec_token hi he
  exact storage_decoder h hn _ _ _

theorem storage_exec_symbol {i : Instr} (hi : symInstr i = true) (h : StorageInv s) (he : exec i s = .next t) :
    StorageInv t := by
  obtain ⟨k, d, a, rfl⟩ | ⟨br, pred, blk, seq, hr, rfl⟩ := exec_symbol hi he
  · exact storage_raise h k d a
  · exact storage_decoder h (hr.nbits h.nbits_bound) pred blk seq

/-- R260: a popped entry is no EOF token. -/
theorem storage_inPop (h : StorageInv s) : StorageInv (inPop s) := by
  unfold inPop
  simp only
  split
  · exact h
  · exact { h with }
  · next b rest e =>
    have hin := h.in_bound
    have heof := h.eof_seen
    simp only [e, List.length_cons, List.mem_cons, reduceCtorEq, false_or] at hin heof
    exact { h with in_bound := by simp only; omega, eof_seen := heof }

theorem storage_beginMcu (h : StorageInv s) (he : beginMcu s = .ok t) : StorageInv t := by
  obtain ⟨-, rfl⟩ := beginMcu_ok he
  exact storage_startBlock h 0

/-- R270. -/
theorem storage_consumeMarker (h : StorageInv s) : StorageInv (consumeMarker s) :=
  storage_decoder h (Nat.zero_le _) _ _ _

theorem storage_restartJudge (h : StorageInv s) (he : restartJudge s = .ok t) : StorageInv t := by
  obtain ⟨k, d, a, rfl⟩ | ⟨-, -, -, hb⟩ := restartJudge_ok he
  · exact storage_raise h k d a
  · refine storage_beginMcu ?_ hb
    exact { storage_consumeMarker h with }

theorem storage_takeBits (h : StorageInv s) (he : takeBits s = .ok t) : StorageInv t := by
  obtain ⟨br, hr, hcases⟩ := takeBits_ok he
  have hn := hr.nbits h.nbits_bound
  obtain ⟨b, rfl⟩ | rfl | rfl | ⟨n, v, bp, -, rfl⟩ | ⟨n, v, rfl⟩ := hcases
  · exact storage_decoder h hn _ _ _
  · exact storage_raise (storage_decoder h hn s.pred s.blk s.seq) ..
  · exact h
  · exact storage_decoder h hn _ _ _
  · exact storage_decoder h hn _ _ _

/-- R102, R370: stored samples keep memory canonical. -/
theorem storage_writeAll (h : StorageInv s) (cells : List Host.Cell) (blk : BlockWork) :
    StorageInv { s with blk := blk, planes := Memory.writeAll s.planes cells } :=
  have hp : Memory.wf (Memory.writeAll s.planes cells) := Memory.writeAll_wf cells h.planes_wf
  { h with planes_wf := hp }

theorem storage_transformAndStore (h : StorageInv s) {f : FrameSnap} {bp : BlockPos}
    (he : transformAndStore f bp s = .ok t) : StorageInv t := by
  obtain ⟨coef, q, -, -, -, rfl⟩ := transformAndStore_ok he
  exact storage_writeAll h _ _

theorem storage_storeBlock (h : StorageInv s) (he : storeBlock s = .ok t) : StorageInv t := by
  obtain ⟨f, sc, bp, s1, -, -, -, hs1, ⟨-, rfl⟩ | ⟨-, rfl⟩⟩ := storeBlock_ok he
  · exact storage_startBlock (storage_transformAndStore h hs1) _
  · have h1 := storage_transformAndStore h hs1
    exact { h1 with }

theorem storage_mcuCounted (h : StorageInv s) (sc : ScanSnap) : StorageInv (mcuCounted sc s) := by
  unfold mcuCounted
  split
  · exact { h with }
  · exact { h with }

theorem storage_mcuDone (h : StorageInv s) (he : mcuDone s = .ok t) : StorageInv t := by
  obtain ⟨sc, -, ⟨-, rfl⟩ | ⟨-, rfl⟩⟩ := mcuDone_ok he <;> exact { storage_mcuCounted h sc with }

theorem storage_endJudge (h : StorageInv s) (he : endJudge s = .ok t) : StorageInv t := by
  obtain ⟨k, d, a, rfl⟩ | rfl | ⟨x, -, -, hc⟩ := endJudge_ok he
  · exact storage_raise h k d a
  · exact { storage_consumeMarker h with }
  · obtain ⟨sc, -, rfl⟩ := completeScan_ok hc
    exact h.flush h.planes_wf rfl rfl (.inl rfl) (.inl rfl) rfl h.nbits_bound rfl rfl

/-- R431: a byte is pushed where the output FIFO has room. -/
theorem storage_outPush (h : StorageInv s) (hroom : s.outFifo.length < s.par.outDepth) (he : outPush s = .ok t) :
    StorageInv t := by
  obtain ⟨f, mode, bytes, -, -, -, rfl⟩ := outPush_ok he
  exact { h with out_bound := by simpa using hroom }

/-- R520, R431: an engine that is ready to push finds room. -/
theorem outFifo_room (hr : engineReady s = true) (hop : nextOp s = .outPush) : s.outFifo.length < s.par.outDepth := by
  have hst : s.st = .convert := by simpa [hop, OpSpec] using (hop ▸ nextOp_spec s : OpSpec s .outPush).1
  simpa [engineReady, hop, outWait, hst] using (Bool.and_eq_true_iff.mp hr).2

theorem storage_engineOther (h : StorageInv s) (hr : engineReady s = true) (he : engineOther (nextOp s) s = .ok t) :
    StorageInv t := by
  cases hop : nextOp s <;> rw [hop] at he
  case noStep | token | symbol => injection he with he; exact he ▸ h
  case inPop => injection he with he; exact he ▸ storage_inPop h
  case align => injection he with he; exact he ▸ storage_decoder h (Nat.zero_le _) _ _ _
  case beginMcu => exact storage_beginMcu h he
  case restartJudge => exact storage_restartJudge h he
  case readBits => exact storage_takeBits h he
  case storeBlock => exact storage_storeBlock h he
  case mcuDone => exact storage_mcuDone h he
  case trail => injection he with he; subst he; exact { h with }
  case endJudge => exact storage_endJudge h he
  case outPush => exact storage_outPush h (outFifo_room hr hop) he
  case convertDone => injection he with he; subst he; exact { h with }

theorem storage_engineStep (h : StorageInv s) (hr : engineReady s = true) (he : engineStep s = .next t) :
    StorageInv t := by
  obtain ⟨u, rfl, ⟨i, hi, hu⟩ | ⟨-, hu⟩⟩ := engineStep_next he
  · refine storage_markStep ?_ _
    obtain ⟨-, rfl⟩ | ⟨-, b, -, rfl⟩ := engineInstr_eq_some hi
    · exact storage_exec_token (decodeToken_token _) h hu
    · exact storage_exec_symbol (symbolInstr_sym _ _) h hu
  · exact storage_markStep (storage_engineOther h hr hu) _

/-- Settles O58: a step is an engine operation, a host access, a reset or nothing, and each keeps the storage invariant. -/
theorem everyStepKeepsTheStorageInvariant : Obligations.EveryStepKeepsTheStorageInvariant := by
  intro s t h hstep
  obtain ⟨r, m, ⟨hr, he⟩ | rfl | ⟨a, -, -, he⟩ | ⟨-, -, rfl⟩⟩ := step_next hstep
  · exact storage_engineStep (storage_turns h r m) hr he
  · exact storage_turns h r m
  · exact storage_hostAccess (storage_turns h r m) he
  · exact storage_resetAction (storage_turns h r m)

end Sys2Proof.Machine
end

section
/-! PROOFS. Where the live invariant holds, every operation of the host and of the engine finds written what it reads (R11, R408),
so no step faults (O60). -/
namespace Sys2Proof.Machine

variable {s t : State} {f : FrameSnap} {sc : ScanSnap}

/-! ### What the live invariant gives a running scan -/

/-- R12: the moves still to come and the mark of R13 are no part of what is written. -/
theorem live_turns (h : LiveInv s) (r : List Turn) (m : Bool) : LiveInv { s with turns := r, mid := m } :=
  h.congr rfl rfl rfl rfl rfl rfl rfl rfl rfl rfl rfl rfl

/-- R225, R325: what a running scan has, all at once. -/
structure Scanning (f : FrameSnap) (sc : ScanSnap) (s : State) : Prop where
  frame : s.frame = some f
  scan : s.scan = some sc
  frameSound : f.Sound
  scanSound : sc.Sound f s.tabs
  pos : ScanPos f sc s

theorem LiveInv.scanning (h : LiveInv s) (hst : s.st = .scan) : ∃ f sc, Scanning f sc s := by
  obtain ⟨f, hf, hs, -⟩ := h.frame (.inr (.inl hst))
  obtain ⟨sc, hsc, hss, hp⟩ := h.scan hst f hf
  exact ⟨f, sc, hf, hsc, hs, hss, hp⟩

/-- R322: a cursor B below the MCU's size stands at a block of the MCU. -/
theorem currentBlock_of_lt (hf : s.frame = some f) (hsc : s.scan = some sc) (hb : s.seq.b < (mcuBlocks f sc s.m).length) :
    ∃ bp ∈ mcuBlocks f sc s.m, currentBlock s = .ok bp :=
  ⟨_, List.getElem_mem hb, currentBlock_eq_ok.mpr ⟨f, sc, hf, hsc, List.getElem?_eq_getElem hb⟩⟩

namespace Scanning

/-- R322: inside a block the cursor stands at it. -/
theorem atBlock (h : Scanning f sc s) (hp : s.seq.phase = .blockDc ∨ s.seq.phase = .blockAc) :
    ∃ bp ∈ mcuBlocks f sc s.m, currentBlock s = .ok bp :=
  currentBlock_of_lt h.frame h.scan (by rcases hp with hp | hp <;> simpa [hp] using h.pos.block)

/-- The MCU counter is inside the scan until the end search. -/
theorem m_lt (h : Scanning f sc s) (hp : s.seq.phase ≠ .endSearch) : s.m < sc.smcus := by
  simpa [hp] using h.pos.mcu

/-- R68: past the data and before END the reader stands at a marker, whose code is written. -/
theorem marker_written (h : Scanning f sc s) (hd : s.br.mode ≠ .data) (he : s.br.mode ≠ .endMode) :
    ∃ x, s.br.marker = some x := by
  have hmode : s.br.mode = .marker := by
    generalize s.br.mode = m at hd he ⊢
    cases m
    case data => exact absurd rfl hd
    case endMode => exact absurd rfl he
    case marker => rfl
  exact Option.isSome_iff_exists.mp (h.pos.marker hmode)

end Scanning

/-! ### The engine's operations do not fault -/

/-- R302: the first block of an MCU exists. -/
theorem beginMcu_ne_error (hf : s.frame = some f) (hsc : s.scan = some sc) (hfs : f.Sound) (hss : sc.Sound f s.tabs)
    (e : Fault) : beginMcu s ≠ .error e := by
  obtain ⟨bp, -, hbp⟩ := currentBlock_of_lt (s := { s with seq := { s.seq with b := 0 } }) hf hsc
    (mcuBlocks_pos hfs hss s.m)
  simp [beginMcu, hbp]

/-- R330: BR_MARKER is read in MARKER mode only. -/
theorem restartJudge_ne_error (h : Scanning f sc s) (hm : s.br.byte.isSome = true ∨ s.br.mode ≠ .data) (e : Fault) :
    restartJudge s ≠ .error e := by
  unfold restartJudge
  split
  · simp
  · next hbyte =>
    split
    · simp
    · next hend =>
      obtain ⟨x, hx⟩ := h.marker_written (hm.resolve_left hbyte) hend
      rw [hx]
      simp only
      split
      · simp
      · split
        · simp
        · exact beginMcu_ne_error (s := { consumeMarker s with nextRst := s.nextRst + 1, pred := ⟨0, 0, 0⟩ })
            h.frame h.scan h.frameSound h.scanSound e

/-- R300, R213: a code a sound table matches has its symbol written. -/
theorem lookup_ne_error {h : HuffTable} (hs : h.sound) (len : Nat) (code : Half) (e : Fault) :
    lookup h len code ≠ .error e := by
  unfold lookup
  split
  · simp
  · next row hrow =>
    split
    · next hc =>
      have hlen := hs row (List.mem_of_getElem? hrow)
      have hlt : row.off + code.toNat - row.first.toNat < h.vals.length := by omega
      simp [List.getElem?_eq_getElem hlt]
    · simp

/-- R322: the table of the current block's next code word is loaded and sound. -/
theorem currentHuff_sound (hl : LiveInv s) (h : Scanning f sc s) (hp : s.seq.phase = .blockDc ∨ s.seq.phase = .blockAc) :
    ∃ x, currentHuff s = .ok x ∧ x.sound := by
  obtain ⟨bp, hmem, hbp⟩ := h.atBlock hp
  have hne : s.seq.phase ≠ .endSearch := by rcases hp with hp | hp <;> simp [hp]
  obtain ⟨hslot, -⟩ := mem_mcuBlocks h.frameSound h.scanSound (h.m_lt hne) hmem
  obtain ⟨c, -, -, hdc, hac⟩ := h.scanSound.slot _ hslot
  unfold currentHuff
  rw [hbp]
  simp only [written_eq_ok]
  split
  · obtain ⟨x, hx⟩ := Option.isSome_iff_exists.mp hdc
    exact ⟨x, hx, hl.dc_sound _ x hx⟩
  · obtain ⟨x, hx⟩ := Option.isSome_iff_exists.mp hac
    exact ⟨x, hx, hl.ac_sound _ x hx⟩

theorem huffBit_ne_error (hh : ∃ x, currentHuff s = .ok x ∧ x.sound) (code : Half) (len : Nat) (e : Fault) :
    huffBit code len s ≠ .error e := by
  obtain ⟨x, hx, hs⟩ := hh
  unfold huffBit
  rw [hx]
  simp only
  split
  · next e' he => exact absurd he (lookup_ne_error hs _ _ e')
  · simp
  · split <;> simp

theorem dcDoneHere_ne_error {bp : BlockPos} (hbp : currentBlock s = .ok bp) (d : Int) (e : Fault) :
    dcDoneHere d s ≠ .error e := by
  simp [dcDoneHere, hbp]

/-- R303, R311: a magnitude field's end reads the current block and nothing else. -/
theorem magnitudeDone_ne_error {bp : BlockPos} (hbp : currentBlock s = .ok bp) (dc : Bool) (n : Nat) (v : Half)
    (e : Fault) : magnitudeDone dc n v s ≠ .error e := by
  unfold magnitudeDone
  split
  · exact dcDoneHere_ne_error hbp _ e
  · simp

theorem Scanning.magnitude_ne_error (h : Scanning f sc s) {bp : BlockPos} (hbp : currentBlock s = .ok bp)
    (dc : Bool) (n left : Nat) (v : Half) (e : Fault) : readMagnitude dc n left v s ≠ .error e :=
  readMagnitude_ne_error h.pos.cur
    (fun w br e => magnitudeDone_ne_error (s := { s with br := br }) hbp dc n w e) e

/-- R266: reading bits in a block does not fault. -/
theorem takeBits_ne_error (hl : LiveInv s) (h : Scanning f sc s)
    (hp : s.seq.phase = .blockDc ∨ s.seq.phase = .blockAc) (e : Fault) : takeBits s ≠ .error e := by
  unfold takeBits
  split
  · split
    · next e' he => exact absurd he (readBit_ne_error h.pos.cur e')
    · simp
    · next bit s1 hb =>
      obtain ⟨br, rfl, -⟩ := readBit_readsFrom hb
      obtain ⟨x, hx, hs⟩ := currentHuff_sound hl h hp
      have hx' : currentHuff { s with br := br } = .ok x := hx
      exact huffBit_ne_error ⟨x, hx', hs⟩ _ _ e
  · obtain ⟨bp, -, hbp⟩ := h.atBlock hp
    exact h.magnitude_ne_error hbp _ _ _ _ e
  · simp

/-- R360: at a block to store the coefficients and the quantisation table are written, and the block is in its plane. -/
theorem transformAndStore_ne_error (h : Scanning f sc s) (hp : s.seq.phase = .store) {bp : BlockPos}
    (hmem : bp ∈ mcuBlocks f sc s.m) (e : Fault) : transformAndStore f bp s ≠ .error e := by
  have hm : s.m < sc.smcus := h.m_lt (by simp [hp])
  obtain ⟨hslot, hcomp, -⟩ := mem_mcuBlocks h.frameSound h.scanSound hm hmem
  obtain ⟨c, hc, hqt, -⟩ := h.scanSound.slot _ hslot
  obtain rfl : c = bp.comp := Option.some.inj (hc.symm.trans hcomp)
  obtain ⟨q, hq⟩ := Option.isSome_iff_exists.mp hqt
  obtain ⟨coef, hcoef⟩ := allWritten_eq_some (l := s.blk.coef) (by simpa [hp] using h.pos.coef)
  simp [transformAndStore, hcoef, hq, storeSamples, blockInPlane_of_mem h.frameSound h.scanSound hm hmem]

theorem storeBlock_ne_error (h : Scanning f sc s) (hp : s.seq.phase = .store) (hb : s.seq.b < s.mcuSize) (e : Fault) :
    storeBlock s ≠ .error e := by
  have hb' : s.seq.b < (mcuBlocks f sc s.m).length := by simpa [State.mcuSize, h.frame, h.scan] using hb
  obtain ⟨bp, hmem, hbp⟩ := currentBlock_of_lt h.frame h.scan hb'
  unfold storeBlock
  rw [snapshots_eq_ok.mpr ⟨h.frame, h.scan⟩, hbp]
  simp only
  split
  · next e' he => exact absurd he (transformAndStore_ne_error h hp hmem e')
  · split <;> simp

theorem mcuDone_ne_error (h : Scanning f sc s) (e : Fault) : mcuDone s ≠ .error e := by
  unfold mcuDone
  rw [h.scan]
  simp only
  split <;> simp

/-- R335: BR_MARKER is read in MARKER mode only. -/
theorem endJudge_ne_error (h : Scanning f sc s) (hm : s.br.mode ≠ .data) (e : Fault) : endJudge s ≠ .error e := by
  unfold endJudge
  split
  · simp
  · next hend =>
    obtain ⟨x, hx⟩ := h.marker_written hm hend
    rw [hx]
    simp only
    split
    · split <;> simp
    · simp [completeScan, h.scan]

/-- R408: a pixel of the image is computed where every component's valid region is written. -/
theorem pixel_ne_error (hf : f.Sound) (hr : ∀ i, i < f.nf → regionWritten f s.planes i) {x y : Nat}
    (hx : x < f.fw.toNat) (hy : y < f.fh.toNat) (mode : BitVec 1) (e : Fault) : pixel s f mode x y ≠ .error e := by
  have hsample : ∀ i, i < f.nf → ∃ v, sample s f mode i x y = .ok v := fun i hi =>
    sample_ok (List.getElem?_eq_getElem hi) hf (hr i hi) hx hy mode
  unfold pixel
  split
  · next h1 =>
    obtain ⟨a, ha⟩ := hsample 0 (by omega)
    simp [ha]
  · next h1 =>
    have h3 : f.nf = 3 := hf.nf.resolve_left h1
    obtain ⟨a, ha⟩ := hsample 0 (by omega)
    obtain ⟨b, hb⟩ := hsample 1 (by omega)
    obtain ⟨c, hc⟩ := hsample 2 (by omega)
    simp [ha, hb, hc]

/-- R231, R408: a conversion's frame, mode and samples are written. -/
theorem outPush_ne_error (hl : LiveInv s) (hst : s.st = .convert) (hy : ∀ f, s.frame = some f → s.conv.y < f.fh.toNat)
    (e : Fault) : outPush s ≠ .error e := by
  obtain ⟨f, hf, hfs, hdone⟩ := hl.frame (.inr (.inr hst))
  obtain ⟨hmode, hall, hx, -⟩ := hl.convert hst f hf
  obtain ⟨mode, hmode⟩ := Option.isSome_iff_exists.mp hmode
  unfold outPush
  rw [hf, hmode]
  simp only
  split
  · next e' he =>
    exact absurd he (pixel_ne_error hfs (fun i hi => hdone i hi (hall i hi)) hx (hy f hf) mode e')
  · simp

/-- R11: the engine's operations that are no instruction do not fault. -/
theorem engineOther_ne_error (hl : LiveInv s) (e : Fault) : engineOther (nextOp s) s ≠ .error e := by
  have hspec := nextOp_spec s
  cases hop : nextOp s <;> rw [hop] at hspec
  case noStep | token | symbol | inPop | align | trail | convertDone => simp [engineOther]
  case outPush => exact outPush_ne_error hl hspec.1 hspec.2 e
  all_goals obtain ⟨f, sc, h⟩ := hl.scanning hspec.1
  case beginMcu => exact beginMcu_ne_error h.frame h.scan h.frameSound h.scanSound e
  case restartJudge =>
    obtain ⟨-, -, -, hm⟩ := hspec
    exact restartJudge_ne_error h hm e
  case readBits =>
    obtain ⟨-, -, hp, -⟩ := hspec
    exact takeBits_ne_error hl h hp e
  case storeBlock =>
    obtain ⟨-, -, hp, hb⟩ := hspec
    exact storeBlock_ne_error h hp hb e
  case mcuDone => exact mcuDone_ne_error h e
  case endJudge =>
    obtain ⟨-, -, -, -, hm⟩ := hspec
    exact endJudge_ne_error h hm e

/-! ### The instructions do not fault -/

theorem ne_fault_of_next {o : Host.Outcome State Fault Refusal} (h : o = .next t) (e : Fault) : o ≠ .fault e := by
  simp [h]

theorem exec_token_ne_fault {i : Instr} (hi : tokenInstr i = true) (e : Fault) : exec i s ≠ .fault e := by
  cases i
  case stuffed | fillRun | rstN | marker | dangling | data | endTok => exact ne_fault_of_next rfl e
  all_goals exact absurd hi Bool.false_ne_true

/-- R303-R312: a symbol in a block reads its magnitude bits and the current block. -/
theorem exec_symbol_ne_fault {i : Instr} (hi : symInstr i = true) (h : Scanning f sc s)
    (hp : s.seq.phase = .blockDc ∨ s.seq.phase = .blockAc) (e : Fault) : exec i s ≠ .fault e := by
  obtain ⟨bp, -, hbp⟩ := h.atBlock hp
  cases i
  case dcZero => exact fun he => dcDoneHere_ne_error hbp 0 e (answer_eq_fault.mp he)
  case dcDiffLow | dcDiffHigh => exact fun he => h.magnitude_ne_error hbp _ _ _ _ e (answer_eq_fault.mp he)
  case dcIllegal | acEob | acZrl | acRunOnly => exact ne_fault_of_next rfl e
  case acRunValue r z =>
    show execAcRunValue r z s ≠ _
    unfold execAcRunValue
    split
    · simp
    · have hskip : Scanning f sc (skipRun r s) := { h with pos := h.pos.congr rfl rfl rfl rfl rfl h.pos.cur h.pos.marker }
      have hbp' : currentBlock (skipRun r s) = .ok bp := hbp
      exact fun he => hskip.magnitude_ne_error hbp' _ _ _ _ e (answer_eq_fault.mp he)
  all_goals exact absurd hi Bool.false_ne_true

/-- R220, R225, R231: START_SCAN and CONVERT are accepted in FRAME, where a frame is written; no other host instruction
reads an unwritten value. -/
theorem exec_host_ne_fault {i : Instr} (hi : hostInstr i = true) (hl : LiveInv s) (e : Fault) : exec i s ≠ .fault e := by
  have hframe : s.st = .frame → ∃ f, s.frame = some f := fun hst => (hl.frame (.inl hst)).imp fun _ h => h.1
  cases i
  case startScan =>
    show execStartScan s ≠ _
    unfold execStartScan
    split
    · next hst => obtain ⟨f, hf⟩ := hframe hst; simp [hf]
    · simp
  case convert =>
    show execConvert s ≠ _
    unfold execConvert
    split
    · next hst => obtain ⟨f, hf⟩ := hframe hst; simp [hf]
    · simp
  case nop | loadQt | loadHt | startFrame | abort | cmdRejected => exact ne_fault_of_next rfl e
  case tblDataWr | inDataWr | outDataRd | intStatusWr | ctrlSoftReset => exact ne_fault_of_next rfl e
  all_goals exact absurd hi Bool.false_ne_true

theorem hostAccess_ne_fault (hl : LiveInv s) (a : Access) (e : Fault) : hostAccess a s ≠ .fault e := by
  unfold hostAccess
  simp only
  split
  · simp
  · split
    · simp
    · split
      · next i hi => exact exec_host_ne_fault (decodeAccess_host hi) hl e
      · simp

theorem engineStep_ne_fault (hl : LiveInv s) (e : Fault) : engineStep s ≠ .fault e := by
  intro he
  have he := mapNext_eq_fault.mp he
  split at he
  · next i hi =>
    have hspec := nextOp_spec s
    obtain ⟨-, rfl⟩ | ⟨hop, b, -, rfl⟩ := engineInstr_eq_some hi
    · exact exec_token_ne_fault (decodeToken_token _) e he
    · rw [hop] at hspec
      obtain ⟨hst, -, hp, -⟩ := hspec
      obtain ⟨f, sc, h⟩ := hl.scanning hst
      exact exec_symbol_ne_fault (symbolInstr_sym _ _) h hp e he
  · exact engineOther_ne_error hl e (answer_eq_fault.mp he)

/-- Settles O60: a step stops on an engine operation or a host access alone, and where the live invariant holds each finds
written what it reads. -/
theorem noStepFaults : Obligations.NoStepFaults := by
  intro s e _ hl hstep
  obtain ⟨r, m, ⟨-, he⟩ | ⟨a, he⟩⟩ := step_fault hstep
  · exact engineStep_ne_fault (live_turns hl r m) e he
  · exact hostAccess_ne_fault (live_turns hl r m) a e he

end Sys2Proof.Machine
end

section
/-! PROOFS. A step is the host access or the engine operation whose turn it is (R12, R13): O26 and O27. -/
namespace Sys2Proof.Machine

variable {s t : State}

/-! ### Which move a step is -/

/-- R12: between two steps, and in a hold, the next move is the interleaving's. -/
theorem step_eq_move (h : s.mid = false ∨ engineReady s = false) : step s = move s := by
  unfold step
  rcases h with h | h <;> simp [h]

/-- R13: inside a step, and with no move of the outside world left, a ready engine moves. -/
theorem step_eq_engineStep (hr : engineReady s = true) (h : s.mid = true ∨ s.turns = []) : step s = engineStep s := by
  unfold step
  rcases h with h | h
  · simp [h, hr]
  · split
    · rfl
    · simp [move, h, engineMove, hr]

/-- R12: an engine move of the list, made by a ready engine between two steps. -/
theorem step_engineTurn {rest : List Turn} (hr : engineReady s = true) (hm : s.mid = false)
    (ht : s.turns = .engine :: rest) : step s = engineStep { s with turns := rest } := by
  have htake : takeTurn rest s = { s with turns := rest } := by simp [takeTurn, hm]
  rw [step_eq_move (.inl hm), move, ht]
  simp only
  rw [htake]
  exact if_pos hr

/-- R520: in a hold the engine does nothing. -/
theorem engineMove_hold (h : engineReady s = false) : engineMove s = .next s := by
  simp [engineMove, h]

/-! ### The host's access -/

theorem step_host {a : Access} {rest : List Turn} (ht : s.turns = .host a :: rest)
    (hm : s.mid = false ∨ engineReady s = false) : step s = hostAccess a { s with turns := rest, mid := false } := by
  rw [step_eq_move hm, move, ht]
  rfl

/-- R101, R104: an aligned word access of the window that carries an instruction is that instruction. -/
theorem hostAccess_instr {a : Access} {off : Byte} {i : Instr} (hw : a.width = 4) (hoff : off.toNat % 4 = 0)
    (ha : a.addr = s.par.regBase + off.toNat) (hi : decodeAccess a.write off a.data = .ok i) :
    hostAccess a s = exec i s := by
  have hsub : a.addr - s.par.regBase = off.toNat := by omega
  have hin : inWindow s.par a = true := decide_eq_true ⟨by omega, by have := off.isLt; omega⟩
  have hal : aligned s.par a = true := decide_eq_true ⟨hw, by rw [hsub]; exact hoff⟩
  simp only [hostAccess, hin, hal, hsub, Bool.not_true, Bool.false_eq_true, if_false, BitVec.ofNat_toNat,
    BitVec.setWidth_eq, hi]

/-- Settles O26: the step is the list's next move, and an instruction's access is decoded to it. -/
theorem aStepRunsTheHostsInstruction : Obligations.AStepRunsTheHostsInstruction := by
  intro s a rest ht hm
  have hstep := step_host ht hm
  exact ⟨hstep, fun off i hw hoff ha hi => hstep.trans (hostAccess_instr hw hoff ha hi)⟩

/-! ### Which operation of the engine is next -/

theorem windowComplete_iff (w : List InEntry) :
    windowComplete w = true ↔ (∃ e, w = [e] ∧ e ≠ .byte 0xFF) ∨ 2 ≤ w.length := by
  match w with
  | [] => simp [windowComplete]
  | [e] => simp [windowComplete]
  | _ :: _ :: _ => simp [windowComplete]

theorem nextOp_scan (h : s.st = .scan) : nextOp s = scanOp s := by
  simp [nextOp, h]

theorem nextOp_token (h : s.st = .scan) (hw : windowComplete s.br.window = true) : nextOp s = .token := by
  simp [nextOp_scan h, scanOp, hw]

theorem nextOp_inPop_window (h : s.st = .scan) (hw : windowComplete s.br.window = false) (hne : s.br.window ≠ []) :
    nextOp s = .inPop := by
  simp [nextOp_scan h, scanOp, hw, hne]

/-- R303, R307: in a block with no token in progress a decoded symbol acts. -/
theorem nextOp_symbol (h : s.st = .scan) (hw : s.br.window = []) (hp : s.seq.phase = .blockDc ∨ s.seq.phase = .blockAc)
    {b : Byte} (hb : s.seq.bits = .sym b) : nextOp s = .symbol := by
  rw [nextOp_scan h]
  rcases hp with hp | hp <;> simp [scanOp, hw, windowComplete_nil, hp, hb]

/-- R266: in a block with a code word or a field to read, a bit at hand is read, else a byte is fetched. -/
theorem nextOp_bits (h : s.st = .scan) (hw : s.br.window = []) (hp : s.seq.phase = .blockDc ∨ s.seq.phase = .blockAc)
    (hb : ∀ b, s.seq.bits ≠ .sym b) : nextOp s = if bitAtHand s.br then .readBits else .inPop := by
  rw [nextOp_scan h]
  cases hbits : s.seq.bits with
  | sym b => exact absurd hbits (hb b)
  | huff code len => rcases hp with hp | hp <;> simp [scanOp, hw, windowComplete_nil, hp, hbits]
  | mag dc n k v => rcases hp with hp | hp <;> simp [scanOp, hw, windowComplete_nil, hp, hbits]

theorem bitAtHand_iff (br : BitReader) :
    bitAtHand br = true ↔ br.nbits ≠ 0 ∨ br.byte.isSome = true ∨ br.mode ≠ .data := by
  simp [bitAtHand, or_assoc]

theorem nextOp_store (h : s.st = .scan) (hw : s.br.window = []) (hp : s.seq.phase = .store) {f : FrameSnap}
    {sc : ScanSnap} (hf : s.frame = some f) (hsc : s.scan = some sc) :
    nextOp s = if s.seq.b < (mcuBlocks f sc s.m).length then .storeBlock else .mcuDone := by
  simp [nextOp_scan h, scanOp, hw, windowComplete_nil, hp, State.mcuSize, hf, hsc]

theorem nextOp_convert (h : s.st = .convert) {f : FrameSnap} (hf : s.frame = some f) :
    nextOp s = if s.conv.y < f.fh.toNat then .outPush else .convertDone := by
  simp [nextOp, h, convertOp, hf]

theorem nextOp_noStep_iff (s : State) : nextOp s = .noStep ↔ s.st = .idle ∨ s.st = .frame ∨ s.st = .error := by
  constructor
  · intro h
    have hne : ¬(s.st = .scan ∨ s.st = .convert) := fun hst => nextOp_ne_noStep hst h
    cases hst : s.st <;> simp [hst] at hne ⊢
  · rintro (h | h | h) <;> simp [nextOp, h]

/-! ### What an operation of the engine does, and the mark of R13 -/

/-- R13: after an operation that is no boundary the engine is inside its step while it is busy. -/
theorem markStep_inside {op : EngineOp} (h : boundaryOp op = false) (t : State) : markStep op t = Claim.insideStep t := by
  simp [markStep, h, Claim.insideStep, busy]

/-- R13: a boundary ends the step. -/
theorem markStep_between {op : EngineOp} (h : boundaryOp op = true) (t : State) :
    markStep op t = Claim.betweenSteps t := by
  simp [markStep, h, Claim.betweenSteps]

theorem engineStep_instr {i : Instr} (hi : engineInstr s = some i) (he : exec i s = .next t) :
    engineStep s = .next (markStep (nextOp s) t) := by
  simp [engineStep, hi, he, mapNext]

/-- R13: where the engine stands at neither a token nor a symbol, it runs the operation that is next. -/
theorem engineStep_other (h1 : nextOp s ≠ .token) (h2 : nextOp s ≠ .symbol) (he : engineOther (nextOp s) s = .ok t) :
    engineStep s = .next (markStep (nextOp s) t) := by
  have hi : engineInstr s = none := by
    cases hi : engineInstr s with
    | none => rfl
    | some i => exact ((engineInstr_eq_some hi).elim (h1 ·.1) (h2 ·.1)).elim
  simp [engineStep, hi, he, answer, mapNext]

theorem engineStep_inside {op : EngineOp} (hop : nextOp s = op) (hb : boundaryOp op = false) (h1 : op ≠ .token)
    (h2 : op ≠ .symbol) (he : engineOther op s = .ok t) : engineStep s = .next (Claim.insideStep t) := by
  subst hop
  rw [engineStep_other h1 h2 he, markStep_inside hb]

theorem engineStep_between {op : EngineOp} (hop : nextOp s = op) (hb : boundaryOp op = true)
    (he : engineOther op s = .ok t) : engineStep s = .next (Claim.betweenSteps t) := by
  subst hop
  have h1 : nextOp s ≠ .token := fun e => by simp [e, boundaryOp] at hb
  have h2 : nextOp s ≠ .symbol := fun e => by simp [e, boundaryOp] at hb
  rw [engineStep_other h1 h2 he, markStep_between hb]

/-- R520: the engine is ready where an operation is next that is held by neither FIFO. -/
theorem engineReady_iff (s : State) :
    engineReady s = true ↔ nextOp s ≠ .noStep ∧ (nextOp s = .inPop → s.inFifo ≠ []) ∧
      (nextOp s = .outPush → s.outFifo.length < s.par.outDepth) := by
  have hspec := nextOp_spec s
  have hin : nextOp s = .inPop → s.st = .scan := fun e => by rw [e] at hspec; exact hspec.1
  have hout : nextOp s = .outPush → s.st = .convert := fun e => by rw [e] at hspec; exact hspec.1
  have hinWait : inWait s = true ↔ nextOp s = .inPop ∧ s.inFifo = [] := by
    simp only [inWait, Bool.and_eq_true, decide_eq_true_eq, List.isEmpty_iff]
    tauto
  have houtWait : outWait s = true ↔ nextOp s = .outPush ∧ s.par.outDepth ≤ s.outFifo.length := by
    simp only [outWait, Bool.and_eq_true, decide_eq_true_eq]
    tauto
  simp only [engineReady, Bool.and_eq_true, decide_eq_true_eq, Bool.not_eq_true', ← Bool.not_eq_true, hinWait, houtWait,
    not_and, not_le, and_assoc]

/-! ### The instruction the engine stands at -/

/-- R145, R147: the engine holds a whole token, or a decoded symbol, of instruction `i`. -/
def StandsAt (s : State) (i : Instr) : Prop :=
  (s.st = .scan ∧ windowComplete s.br.window = true ∧ i = decodeToken (tokenWord s.br.window)) ∨
  (s.st = .scan ∧ s.br.window = [] ∧ ∃ b, s.seq.bits = .sym b ∧
    ((s.seq.phase = .blockDc ∧ i = decodeDc b) ∨ (s.seq.phase = .blockAc ∧ i = decodeAc b)))

theorem engineInstr_token (h : nextOp s = .token) : engineInstr s = some (decodeToken (tokenWord s.br.window)) := by
  simp [engineInstr, h]

theorem engineInstr_symbol (h : nextOp s = .symbol) {b : Byte} (hb : s.seq.bits = .sym b) :
    engineInstr s = some (symbolInstr s.seq.phase b) := by
  simp [engineInstr, h, hb]

theorem StandsAt.engineInstr_eq {i : Instr} (h : StandsAt s i) :
    (nextOp s = .token ∨ nextOp s = .symbol) ∧ engineInstr s = some i := by
  obtain ⟨hst, hw, rfl⟩ | ⟨hst, hw, b, hb, ⟨hp, rfl⟩ | ⟨hp, rfl⟩⟩ := h
  · have hop := nextOp_token hst hw
    exact ⟨.inl hop, engineInstr_token hop⟩
  · have hop := nextOp_symbol hst hw (.inl hp) hb
    exact ⟨.inr hop, by simp [engineInstr_symbol hop hb, symbolInstr, hp]⟩
  · have hop := nextOp_symbol hst hw (.inr hp) hb
    exact ⟨.inr hop, by simp [engineInstr_symbol hop hb, symbolInstr, hp]⟩

/-- R520: no FIFO holds an engine that stands at an instruction. -/
theorem StandsAt.ready {i : Instr} (h : StandsAt s i) : engineReady s = true := by
  obtain ⟨hop | hop, -⟩ := h.engineInstr_eq <;> simp [engineReady_iff, hop]

theorem StandsAt.engineStep_eq {i : Instr} (h : StandsAt s i) (he : exec i s = .next t) :
    engineStep s = .next (Claim.insideStep t) := by
  obtain ⟨hop, hi⟩ := h.engineInstr_eq
  have hb : boundaryOp (nextOp s) = false := by rcases hop with hop | hop <;> simp [hop, boundaryOp]
  rw [engineStep_instr hi he, markStep_inside hb]

/-! ### The statement, from its parts -/

theorem nextOp_inScan (h : s.st = .scan) (hw : s.br.window = []) :
    (s.seq.phase = .blockDc ∨ s.seq.phase = .blockAc →
      (∀ b, s.seq.bits = .sym b → nextOp s = .symbol) ∧
      ((∀ b, s.seq.bits ≠ .sym b) →
        (s.br.nbits ≠ 0 ∨ s.br.byte.isSome = true ∨ s.br.mode ≠ .data → nextOp s = .readBits) ∧
        (s.br.nbits = 0 → s.br.byte = none → s.br.mode = .data → nextOp s = .inPop))) ∧
    (s.seq.phase = .store → ∀ f sc, s.frame = some f → s.scan = some sc →
      (s.seq.b < (mcuBlocks f sc s.mcuCount.toNat).length → nextOp s = .storeBlock) ∧
      ((mcuBlocks f sc s.mcuCount.toNat).length ≤ s.seq.b → nextOp s = .mcuDone)) := by
  refine ⟨fun hp => ⟨fun b hb => nextOp_symbol h hw hp hb, fun hb => ⟨fun hat => ?_, fun hn hbyte hm => ?_⟩⟩,
    fun hp f sc hf hsc => ⟨fun hlt => ?_, fun hle => ?_⟩⟩
  · rw [nextOp_bits h hw hp hb, if_pos ((bitAtHand_iff _).mpr hat)]
  · rw [nextOp_bits h hw hp hb, if_neg (by simp [bitAtHand_iff, hn, hbyte, hm])]
  · rw [nextOp_store h hw hp hf hsc]
    exact if_pos hlt
  · rw [nextOp_store h hw hp hf hsc]
    exact if_neg (Nat.not_lt.mpr hle)

theorem step_hold (hr : engineReady s = false) :
    (s.turns = [] → step s = .next s) ∧
    (∀ rest, s.turns = .engine :: rest → step s = .next { s with turns := rest, mid := false }) := by
  have hmove := step_eq_move (.inr hr)
  refine ⟨fun ht => ?_, fun rest ht => ?_⟩
  · rw [hmove, move, ht]
    exact engineMove_hold hr
  · rw [hmove, move, ht]
    exact engineMove_hold (s := takeTurn rest s) hr

/-- Settles O27: `nextOp` is read off case by case, and a ready engine's step is the operation it names, marked as R13
says. -/
theorem aStepRunsTheEnginesInstruction : Obligations.AStepRunsTheEnginesInstruction := by
  refine ⟨fun s i h => ?_, windowComplete_iff, fun s hst => ?_, fun s hst f hf => ?_, nextOp_noStep_iff, fun s => ?_,
    fun s => ?_⟩
  · have hat : StandsAt s i := h
    refine ⟨fun hturn t he => ?_, fun hm rest t ht he => ?_⟩
    · rw [step_eq_engineStep hat.ready hturn, hat.engineStep_eq he]
    · have hat' : StandsAt { s with turns := rest } i := h
      rw [step_engineTurn hat.ready hm ht, hat'.engineStep_eq he]
  · exact ⟨nextOp_token hst, nextOp_inPop_window hst, nextOp_inScan hst⟩
  · rw [nextOp_convert hst hf]
    exact ⟨fun hy => if_pos hy, fun hy => if_neg (Nat.not_lt.mpr hy)⟩
  · refine ⟨fun h => engineStep_between h rfl rfl, fun h => engineStep_inside h rfl nofun nofun rfl,
      fun h => engineStep_inside h rfl nofun nofun rfl, fun h => engineStep_between h rfl rfl, fun t => ?_⟩
    exact ⟨fun h he => engineStep_inside h rfl nofun nofun he, fun h he => engineStep_inside h rfl nofun nofun he,
      fun h he => engineStep_inside h rfl nofun nofun he, fun h he => engineStep_between h rfl he,
      fun h he => engineStep_between h rfl he, fun h he => engineStep_inside h rfl nofun nofun he,
      fun h he => engineStep_between h rfl he⟩
  · exact ⟨engineReady_iff s,
      fun hr => ⟨step_eq_engineStep hr, fun hm rest ht => step_engineTurn hr hm ht⟩, step_hold⟩

end Sys2Proof.Machine
end

section
/-! PROOFS. The live invariant holds at reset and is kept by every operation of the host and of the engine, and so by every step
(O57, O59). -/
namespace Sys2Proof.Machine

variable {s t : State} {f : FrameSnap} {sc : ScanSnap}

/-! ### Reset -/

theorem empty_dc (i : BitVec 2) : Tables.empty.dc.get i = none := by revert i; decide

theorem empty_ac (i : BitVec 2) : Tables.empty.ac.get i = none := by revert i; decide

theorem live_reset : LiveInv State.reset where
  dc_sound := fun i _ hx => nomatch (empty_dc i).symm.trans hx
  ac_sound := fun i _ hx => nomatch (empty_ac i).symm.trans hx
  frame := by rintro (h | h | h) <;> cases h
  scan := nofun
  convert := nofun

theorem storage_reset : StorageInv State.reset where
  params := by decide
  planes_wf := Memory.reset_wf
  in_bound := Nat.zero_le _
  out_bound := Nat.zero_le _
  stg_bound := Nat.zero_le _
  scan_cfg := by decide
  nbits_bound := Nat.zero_le _
  eof_seen := by decide
  qt_valid := by decide
  dc_valid := by decide
  ac_valid := by decide

/-- Settles O57: at reset nothing is written and nothing runs. -/
theorem resetSatisfiesTheInvariants : Obligations.ResetSatisfiesTheInvariants :=
  ⟨storage_reset, live_reset, nofun⟩

/-! ### The host's instructions keep it -/

/-- R500. -/
theorem live_resetAction (s : State) : LiveInv (resetAction s) := live_reset.leave rfl (.inl rfl)

theorem live_raise (h : LiveInv s) (k : ErrKind) (d : Byte) (a : Nat) : LiveInv (raise k d a s) :=
  h.leave rfl (.inr rfl)

/-- R210, R212: a load changes tables outside SCAN and CONVERT only, so what a frame needs is written as before. -/
theorem live_tabs (h : LiveInv s) (hst : acceptsLoad s.st = true) (hsame : t.st = s.st ∧ t.frame = s.frame ∧
    t.compDone = s.compDone ∧ t.planes = s.planes) (hdc : ∀ i x, t.tabs.dc.get i = some x → x.sound)
    (hac : ∀ i x, t.tabs.ac.get i = some x → x.sound) : LiveInv t := by
  obtain ⟨h1, h2, h3, h4⟩ := hsame
  have hst : s.st = .idle ∨ s.st = .frame := by simpa [acceptsLoad] using hst
  refine ⟨hdc, hac, ?_, ?_, ?_⟩
  · rw [h1, h2, h3, h4]
    exact h.frame
  · rw [h1]
    rcases hst with e | e <;> simp [e]
  · rw [h1]
    rcases hst with e | e <;> simp [e]

theorem live_loadQt (h : LiveInv s) (hst : acceptsLoad s.st = true) (i : BitVec 2) : LiveInv (loadQt i s) := by
  unfold loadQt
  split
  · exact h.leave rfl (.inr rfl)
  · exact live_tabs h hst ⟨rfl, rfl, rfl, rfl⟩ h.dc_sound h.ac_sound

/-- A table set keeps the tables of its class sound. -/
theorem sound_set {q : Quad (Option HuffTable)} (hq : ∀ i x, q.get i = some x → x.sound) (j : BitVec 2)
    {y : HuffTable} (hy : y.sound) : ∀ i x, (q.set j (some y)).get i = some x → x.sound := by
  intro i x hx
  by_cases e : i = j
  · subst e
    rw [Quad.get_set_same] at hx
    exact Option.some.inj hx ▸ hy
  · rw [Quad.get_set_other _ _ e] at hx
    exact hq i x hx

/-- R212. -/
theorem live_loadHt (h : LiveInv s) (hst : acceptsLoad s.st = true) (i : BitVec 2) (c : BitVec 1) :
    LiveInv (loadHt i c s) := by
  unfold loadHt
  split
  · exact h.leave rfl (.inr rfl)
  · next x hx =>
    have hx := buildHuff_sound hx
    unfold installHt
    split
    · exact live_tabs h hst ⟨rfl, rfl, rfl, rfl⟩ (sound_set h.dc_sound i hx) h.ac_sound
    · exact live_tabs h hst ⟨rfl, rfl, rfl, rfl⟩ h.dc_sound (sound_set h.ac_sound i hx)

/-- R220, R222: a committed frame is sound and has no component done. -/
theorem live_startFrame (h : LiveInv s) : LiveInv (startFrame s) := by
  unfold startFrame
  simp only
  split
  · exact h.leave rfl (.inr rfl)
  · next hok =>
    exact ⟨h.dc_sound, h.ac_sound, fun _ => ⟨_, rfl, frameError_sound hok, by simp⟩, nofun, nofun⟩

/-- R226, R265: a committed scan stands before its first MCU. -/
theorem ScanPos.commit (hfs : f.Sound) (hss : sc.Sound f s.tabs) : ScanPos f sc (commitScan sc s) where
  mcu := Nat.mul_pos (hss.srow_pos hfs) (hss.srows_pos hfs)
  block := trivial
  stored_before := fun _ hm => absurd hm (Nat.not_lt_zero _)
  stored_here := fun _ hp => absurd rfl hp
  coef := trivial
  cur := fun hn => absurd rfl hn
  marker := nofun

/-- R225. -/
theorem live_startScan (hs : StorageInv s) (h : LiveInv s) (hst : s.st = .frame) (hf : s.frame = some f) :
    LiveInv (startScan f s) := by
  obtain ⟨g, hg, hfs, hdone⟩ := h.frame (.inl hst)
  obtain rfl : f = g := Option.some.inj (hf.symm.trans hg)
  unfold startScan
  split
  · exact live_raise h ..
  · next hok =>
    have hss := scanError_sound hs hok hfs
    refine ⟨h.dc_sound, h.ac_sound, fun _ => ⟨f, hf, hfs, hdone⟩, fun _ g hg => ?_, nofun⟩
    obtain rfl : f = g := Option.some.inj (hf.symm.trans hg)
    exact ⟨_, rfl, hss, ScanPos.commit hfs hss⟩

/-- R231: where no component is found undecoded, every one is done. -/
theorem undecoded_none {done : BitVec 3} {n : Nat} (h : undecoded done n = none) :
    ∀ i, i < n → done.getLsbD i = true := by
  simpa [undecoded] using h

/-- R231: a conversion starts at the image's first byte. -/
theorem live_convert (h : LiveInv s) (hst : s.st = .frame) (hf : s.frame = some f) : LiveInv (convert f s) := by
  obtain ⟨g, hg, hfs, hdone⟩ := h.frame (.inl hst)
  obtain rfl : f = g := Option.some.inj (hf.symm.trans hg)
  unfold convert
  split
  · exact live_raise h ..
  · next hall =>
    refine ⟨h.dc_sound, h.ac_sound, fun _ => ⟨f, hf, hfs, hdone⟩, nofun, fun _ g hg => ?_⟩
    obtain rfl : f = g := Option.some.inj (hf.symm.trans hg)
    exact ⟨rfl, undecoded_none hall, hfs.fw_pos, by rcases hfs.nf with e | e <;> simp [e]⟩

/-- What the live invariant does not look at: INT_STATUS, the registers, the staging buffer, the FIFOs and the last read. -/
theorem live_ports (h : LiveInv s) (ints : BitVec 6) (regs : Regs) (stg : List Half) (ovf : Bool) (inF : List InEntry)
    (eof : Bool) (outF : List Byte) (rd : Word) :
    LiveInv { s with
      intStatus := ints, regs := regs, stg := stg, stgOvf := ovf, inFifo := inF, eofSeen := eof, outFifo := outF
      rdata := rd } :=
  h.congr rfl rfl rfl rfl rfl rfl rfl rfl rfl rfl rfl rfl

/-- R225, R201: START_SCAN runs in FRAME, else it is rejected. -/
theorem exec_startScan (he : exec .startScan s = .next t) :
    (∃ f, s.st = .frame ∧ s.frame = some f ∧ t = startScan f s) ∨ t = reject s := by
  have he : execStartScan s = .next t := he
  unfold execStartScan at he
  split at he
  · next hst =>
    split at he
    · cases he
    · next f hf => injection he with he; exact .inl ⟨f, hst, hf, he.symm⟩
  · injection he with he; exact .inr he.symm

/-- R231, R201: CONVERT runs in FRAME, else it is rejected. -/
theorem exec_convert (he : exec .convert s = .next t) :
    (∃ f, s.st = .frame ∧ s.frame = some f ∧ t = convert f s) ∨ t = reject s := by
  have he : execConvert s = .next t := he
  unfold execConvert at he
  split at he
  · next hst =>
    split at he
    · cases he
    · next f hf => injection he with he; exact .inl ⟨f, hst, hf, he.symm⟩
  · injection he with he; exact .inr he.symm

/-- R201-R261: every command and register access keeps the live invariant. -/
theorem live_exec_host {i : Instr} (hi : hostInstr i = true) (hs : StorageInv s) (h : LiveInv s)
    (he : exec i s = .next t) : LiveInv t := by
  have hports := live_ports h
  have hreject : LiveInv (reject s) := hports ..
  cases i
  case nop => injection he with he; exact he ▸ h
  case loadQt i =>
    injection he with he; subst he; split
    · next hst => exact live_loadQt h hst i
    · exact hreject
  case loadHt i c =>
    injection he with he; subst he; split
    · next hst => exact live_loadHt h hst i c
    · exact hreject
  case startFrame => injection he with he; subst he; split; exacts [live_startFrame h, hreject]
  case startScan =>
    obtain ⟨f, hst, hf, rfl⟩ | rfl := exec_startScan he
    exacts [live_startScan hs h hst hf, hreject]
  case convert =>
    obtain ⟨f, hst, hf, rfl⟩ | rfl := exec_convert he
    exacts [live_convert h hst hf, hreject]
  case abort => injection he with he; exact he ▸ h.leave rfl (.inl rfl)
  case cmdRejected => injection he with he; exact he ▸ hreject
  case tblDataWr => injection he with he; subst he; split <;> exact hports ..
  case inDataWr =>
    injection he with he; subst he; split
    · split <;> exact hports ..
    · exact hports ..
  case outDataRd => injection he with he; subst he; exact hports ..
  case intStatusWr => injection he with he; subst he; exact hports ..
  case ctrlSoftReset =>
    injection he with he; subst he; split
    · exact live_resetAction s
    · exact hports ..
  all_goals exact absurd hi Bool.false_ne_true

theorem live_hostAccess (hs : StorageInv s) (h : LiveInv s) {a : Access} (he : hostAccess a s = .next t) :
    LiveInv t := by
  obtain ⟨off, -, ⟨i, hi, he⟩ | rfl | rfl⟩ := hostAccess_next he
  · exact live_exec_host (decodeAccess_host hi) hs h he
  · exact live_ports h ..
  · exact live_ports h ..

/-! ### A scan that goes on -/

/-- R68: BR_CUR and BR_MARKER are written where they mean something. -/
def BitReader.Live (br : BitReader) : Prop :=
  (br.nbits ≠ 0 → br.cur.isSome = true) ∧ (br.mode = .marker → br.marker.isSome = true)

theorem ScanPos.reader (h : ScanPos f sc s) : s.br.Live := ⟨h.cur, h.marker⟩

theorem ReadsFrom.live {br br' : BitReader} (hr : ReadsFrom br br') (h : br.Live) : br'.Live :=
  ⟨hr.cur h.1, by rw [hr.mode, hr.marker]; exact h.2⟩

/-- R325: a scan goes on where its cursor stays sound; no table, snapshot or done component changes and no sample is lost. -/
theorem LiveInv.scansOn (h : LiveInv s) (hst : s.st = .scan) (h0 : t.tabs = s.tabs) (h1 : t.st = s.st)
    (h2 : t.frame = s.frame) (h3 : t.scan = s.scan) (h4 : t.compDone = s.compDone)
    (h5 : ∀ a, (Memory.read s.planes a).isSome = true → (Memory.read t.planes a).isSome = true)
    (hp : ∀ f sc, Scanning f sc s → ScanPos f sc t) : LiveInv t :=
  h.goesOn hst h0 (h1.trans hst) h2 h3 h4 h5 fun f sc hf hsc hfs hss hpos => hp f sc ⟨hf, hsc, hfs, hss, hpos⟩

/-- R260-R270: the reader's own work leaves the scan's place alone. -/
theorem live_reader (h : LiveInv s) (hst : s.st = .scan) {br : BitReader} (hbr : s.br.Live → br.Live)
    (inF : List InEntry) (used : Nat) (trailing : Word) (rst : BitVec 3) (pred : Tri Half) :
    LiveInv { s with
      br := br, inFifo := inF, freeUsed := used, trailing := trailing, nextRst := rst, pred := pred } :=
  h.scansOn hst rfl rfl rfl rfl rfl (fun _ ha => ha) fun _ _ hsc =>
    have hlive := hbr hsc.pos.reader
    hsc.pos.congr rfl rfl rfl rfl rfl hlive.1 hlive.2

/-- R262: a token leaves the byte at hand alone, and a reader in MARKER mode holds a code. -/
theorem exec_token_live {i : Instr} (hi : tokenInstr i = true) (he : exec i s = .next t) (h : s.br.Live) : t.br.Live := by
  obtain ⟨hcur, hmarker⟩ := h
  cases i
  case stuffed | fillRun | data => injection he with he; subst he; exact ⟨hcur, hmarker⟩
  case rstN | marker => injection he with he; subst he; exact ⟨hcur, fun _ => rfl⟩
  case dangling | endTok => injection he with he; subst he; exact ⟨hcur, nofun⟩
  all_goals exact absurd hi Bool.false_ne_true

theorem live_exec_token {i : Instr} (hi : tokenInstr i = true) (h : LiveInv s) (hst : s.st = .scan)
    (he : exec i s = .next t) : LiveInv t := by
  have hbr := exec_token_live hi he
  obtain ⟨br, rfl⟩ := exec_token hi he
  exact live_reader h hst hbr ..

/-- R260. -/
theorem live_inPop (h : LiveInv s) (hst : s.st = .scan) : LiveInv (inPop s) := by
  unfold inPop
  simp only
  split
  · exact h
  · refine live_reader h hst ?_ ..
    exact id
  · refine live_reader h hst ?_ ..
    exact id

/-! ### Inside a block -/

/-- R302-R311: decoding goes on in the current block, or completes it; COEF stays written. -/
def Decodes (s t : State) : Prop :=
  ∃ br pred blk seq, t = { s with br := br, pred := pred, blk := blk, seq := seq } ∧ ReadsFrom s.br br ∧
    seq.b = s.seq.b ∧ (seq.phase = s.seq.phase ∨ seq.phase = .blockAc ∨ seq.phase = .store) ∧
    ((∀ v ∈ s.blk.coef, v.isSome = true) → ∀ v ∈ blk.coef, v.isSome = true)

/-- R302: a coefficient stored in a written block leaves it written. -/
theorem isSome_of_mem_set {α : Type} {l : List (Option α)} (h : ∀ v ∈ l, v.isSome = true) (n : Nat) (a : α) :
    ∀ v ∈ l.set n (some a), v.isSome = true := by
  intro v hv
  rcases List.mem_or_eq_of_mem_set hv with hv | rfl
  · exact h v hv
  · rfl

theorem acContinue_phase (k : Nat) : (acContinue k s).seq.phase = .blockAc ∨ (acContinue k s).seq.phase = .store := by
  simp only [acContinue]
  split
  · exact .inl rfl
  · exact .inr rfl

section Decodes

variable {br : BitReader} (hr : ReadsFrom s.br br)
include hr

theorem decodes_setBits (b : Bits) : Decodes s (setBits b { s with br := br }) :=
  ⟨br, _, _, _, rfl, hr, rfl, .inl rfl, id⟩

theorem decodes_dcDone (c : Nat) (d : Int) : Decodes s (dcDone c d { s with br := br }) :=
  ⟨br, _, _, _, rfl, hr, rfl, .inr (.inl rfl), fun h => isSome_of_mem_set h _ _⟩

theorem decodes_acContinue (k : Nat) : Decodes s (acContinue k { s with br := br }) :=
  ⟨br, _, _, _, rfl, hr, rfl, .inr (acContinue_phase k), id⟩

theorem decodes_acStore (k : Nat) (v : Int) : Decodes s (acStore k v { s with br := br }) :=
  ⟨br, _, _, _, rfl, hr, rfl, .inr (acContinue_phase (k + 1)), fun h => isSome_of_mem_set h _ _⟩

/-- R267, R303, R311: the end of a magnitude field. -/
theorem decodes_magnitudeDone {dc : Bool} {n : Nat} {w : Half}
    (he : magnitudeDone dc n w { s with br := br } = .ok t) : Decodes s t := by
  obtain ⟨-, bp, -, rfl⟩ | ⟨-, rfl⟩ := magnitudeDone_ok he
  · exact decodes_dcDone hr ..
  · exact decodes_acStore hr ..

end Decodes

theorem decodes_readMagnitude {dc : Bool} {n left : Nat} {v : Half} (he : readMagnitude dc n left v s = .ok t) :
    Decodes s t := by
  obtain ⟨br, hr, ⟨m, w, rfl⟩ | ⟨w, hw⟩⟩ := readMagnitude_cases he
  · exact decodes_setBits hr _
  · exact decodes_magnitudeDone hr hw

/-- R303-R312: a symbol raises an error, or decoding goes on. -/
theorem exec_symbol_decodes {i : Instr} (hi : symInstr i = true) (he : exec i s = .next t) :
    (∃ k d a, t = raise k d a s) ∨ Decodes s t := by
  have hr := ReadsFrom.refl s.br
  cases i
  case dcZero =>
    obtain ⟨bp, -, rfl⟩ := dcDoneHere_ok (answer_eq_next.mp he)
    exact .inr (decodes_dcDone hr ..)
  case dcDiffLow | dcDiffHigh => exact .inr (decodes_readMagnitude (answer_eq_next.mp he))
  case dcIllegal => injection he with he; exact .inl ⟨_, _, _, he.symm⟩
  case acEob =>
    injection he with he
    exact .inr ⟨_, _, _, _, he.symm, hr, rfl, .inr (.inr rfl), id⟩
  case acZrl =>
    injection he with he; subst he; split
    · exact .inl ⟨_, _, _, rfl⟩
    · exact .inr (decodes_acContinue hr _)
  case acRunOnly =>
    injection he with he; subst he; split
    · exact .inl ⟨_, _, _, rfl⟩
    · exact .inr (decodes_acStore hr ..)
  case acRunValue r z =>
    have he : execAcRunValue r z s = .next t := he
    unfold execAcRunValue at he
    split at he
    · injection he with he; exact .inl ⟨_, _, _, he.symm⟩
    · have hskip : Decodes (skipRun r s) t := decodes_readMagnitude (answer_eq_next.mp he)
      exact .inr hskip
  all_goals exact absurd hi Bool.false_ne_true

/-- R325: decoding inside a block keeps the scan's place. -/
theorem Decodes.pos (hd : Decodes s t) (h : Scanning f sc s)
    (hp : s.seq.phase = .blockDc ∨ s.seq.phase = .blockAc) : ScanPos f sc t := by
  have hin := h.pos
  have hm : s.m < sc.smcus := h.m_lt (by rcases hp with e | e <;> simp [e])
  have hb : s.seq.b < (mcuBlocks f sc s.m).length := by rcases hp with e | e <;> simpa [e] using hin.block
  have hcoef : ∀ v ∈ s.blk.coef, v.isSome = true := by rcases hp with e | e <;> simpa [e] using hin.coef
  have hhere := hin.stored_here (by rcases hp with e | e <;> simp [e]) (by rcases hp with e | e <;> simp [e])
  obtain ⟨br, pred, blk, seq, rfl, hr, hseqb, hphase, hblk⟩ := hd
  have hphase' : seq.phase = .blockDc ∨ seq.phase = .blockAc ∨ seq.phase = .store := by
    rcases hphase with e | e | e
    · rcases hp with e' | e' <;> simp [e, e']
    · simp [e]
    · simp [e]
  have hlive := hr.live hin.reader
  refine ⟨?_, ?_, hin.stored_before, fun _ _ => ?_, ?_, hlive.1, hlive.2⟩
  · rw [if_neg (by rcases hphase' with e | e | e <;> simp [e])]
    exact hm
  · rcases hphase' with e | e | e <;> simp only [e, hseqb]
    exacts [hb, hb]
  · rw [hseqb]
    exact hhere
  · rcases hphase' with e | e | e <;> simpa [e] using hblk hcoef

theorem Decodes.live (hd : Decodes s t) (h : LiveInv s) (hst : s.st = .scan)
    (hp : s.seq.phase = .blockDc ∨ s.seq.phase = .blockAc) : LiveInv t := by
  have hpos := fun f sc (hsc : Scanning f sc s) => hd.pos hsc hp
  obtain ⟨br, pred, blk, seq, rfl, -⟩ := hd
  exact h.scansOn hst rfl rfl rfl rfl rfl (fun _ ha => ha) hpos

theorem live_exec_symbol {i : Instr} (hi : symInstr i = true) (h : LiveInv s) (hst : s.st = .scan)
    (hp : s.seq.phase = .blockDc ∨ s.seq.phase = .blockAc) (he : exec i s = .next t) : LiveInv t := by
  obtain ⟨k, d, a, rfl⟩ | hd := exec_symbol_decodes hi he
  · exact live_raise h k d a
  · exact hd.live h hst hp

theorem live_takeBits (h : LiveInv s) (hst : s.st = .scan) (hp : s.seq.phase = .blockDc ∨ s.seq.phase = .blockAc)
    (he : takeBits s = .ok t) : LiveInv t := by
  obtain ⟨br, hr, ⟨b, rfl⟩ | rfl | rfl | ⟨n, v, bp, -, rfl⟩ | ⟨n, v, rfl⟩⟩ := takeBits_ok he
  · exact (decodes_setBits hr b).live h hst hp
  · exact h.leave rfl (.inr rfl)
  · exact h
  · exact (decodes_dcDone hr ..).live h hst hp
  · exact (decodes_acStore hr ..).live h hst hp

/-! ### Block after block -/

/-- R302: a block of the current MCU starts where the blocks before it are stored. -/
theorem Scanning.pos_startBlock (h : Scanning f sc s) {u : State} {b : Nat} (hp : s.seq.phase ≠ .endSearch)
    (hm : u.mcuCount = s.mcuCount) (hb : b < (mcuBlocks f sc s.m).length)
    (hmono : ∀ a, (Memory.read s.planes a).isSome = true → (Memory.read u.planes a).isSome = true)
    (hhere : ∀ j bp, j < b → (mcuBlocks f sc s.m)[j]? = some bp → blockWritten u.planes bp) (hbr : u.br.Live) :
    ScanPos f sc (startBlock b u) := by
  have hm' : (startBlock b u).m = s.m := congrArg BitVec.toNat hm
  refine ⟨?_, ?_, ?_, fun _ _ => ?_, ?_, hbr.1, hbr.2⟩
  · simpa [hm'] using h.m_lt hp
  · simpa [hm'] using hb
  · rw [hm']
    exact fun m hlt bp hbp => (h.pos.stored_before m hlt bp hbp).mono hmono
  · rw [hm']
    exact hhere
  · simp

/-- R325: an MCU begins with its first block. -/
theorem Scanning.pos_beginMcu (h : Scanning f sc s) (hp : s.seq.phase = .restartCheck) {br : BitReader} (hbr : br.Live)
    (rst : BitVec 3) (pred : Tri Half) :
    ScanPos f sc (startBlock 0 { s with br := br, nextRst := rst, pred := pred }) :=
  h.pos_startBlock (by simp [hp]) rfl (mcuBlocks_pos h.frameSound h.scanSound s.m) (fun _ ha => ha)
    (fun _ _ hj => absurd hj (Nat.not_lt_zero _)) hbr

theorem live_beginMcu (h : LiveInv s) (hst : s.st = .scan) (hp : s.seq.phase = .restartCheck)
    (he : beginMcu s = .ok t) : LiveInv t := by
  obtain ⟨-, rfl⟩ := beginMcu_ok he
  exact h.scansOn hst rfl rfl rfl rfl rfl (fun _ ha => ha) fun f sc hsc => hsc.pos_beginMcu hp hsc.pos.reader _ _

/-- R270: a consumed marker leaves no bits and no code behind. -/
theorem consumeMarker_live (s : State) : (consumeMarker s).br.Live := ⟨fun hn => absurd rfl hn, nofun⟩

/-- R330. -/
theorem live_restartJudge (h : LiveInv s) (hst : s.st = .scan) (hp : s.seq.phase = .restartCheck)
    (he : restartJudge s = .ok t) : LiveInv t := by
  obtain ⟨k, d, a, rfl⟩ | ⟨-, -, -, hb⟩ := restartJudge_ok he
  · exact live_raise h k d a
  · obtain ⟨-, rfl⟩ := beginMcu_ok hb
    exact h.scansOn hst rfl rfl rfl rfl rfl (fun _ ha => ha) fun f sc hsc =>
      hsc.pos_beginMcu hp (consumeMarker_live s) _ _

/-- R370: a stored block is written. -/
theorem blockWritten_writeAll (m : Memory) (bp : BlockPos) (S : List Byte) :
    blockWritten (Memory.writeAll m (blockCells bp.slot.cidx bp.bxp bp.byp S)) bp := by
  intro y x hy hx
  have hread := Memory.read_writeAll_isSome_of_mem (m := m) (blockCells_mem bp.slot.cidx bp.bxp bp.byp S hy hx)
  unfold sampleWritten
  exact hread

/-- R322: the block at the cursor is the MCU's at B. -/
theorem Scanning.getElem?_of_currentBlock (h : Scanning f sc s) {bp : BlockPos} (hbp : currentBlock s = .ok bp) :
    (mcuBlocks f sc s.m)[s.seq.b]? = some bp := by
  obtain ⟨g, sd, hg, hsd, hget⟩ := currentBlock_eq_ok.mp hbp
  obtain rfl : f = g := Option.some.inj (h.frame.symm.trans hg)
  obtain rfl : sc = sd := Option.some.inj (h.scan.symm.trans hsd)
  exact hget

/-- R325, R370: once the block at B is stored, the blocks of the MCU up to it are. -/
theorem Scanning.stored_upto (h : Scanning f sc s) (hp : s.seq.phase = .store) {bp : BlockPos}
    (hbp : (mcuBlocks f sc s.m)[s.seq.b]? = some bp) (S : List Byte) :
    ∀ j bq, j < s.seq.b + 1 → (mcuBlocks f sc s.m)[j]? = some bq →
      blockWritten (Memory.writeAll s.planes (blockCells bp.slot.cidx bp.bxp bp.byp S)) bq := by
  intro j bq hj hbq
  rcases Nat.lt_succ_iff_lt_or_eq.mp hj with hlt | rfl
  · exact (h.pos.stored_here (by simp [hp]) (by simp [hp]) j bq hlt hbq).mono
      fun _ ha => Memory.read_writeAll_isSome_of_read _ ha
  · obtain rfl : bp = bq := Option.some.inj (hbp.symm.trans hbq)
    exact blockWritten_writeAll _ bp S

theorem transformWork_coef (impl : IdctImpl) (dq : List Half) (w : BlockWork) :
    (transformWork impl dq w).coef = w.coef := by
  cases impl <;> rfl

/-- R360: what `TransformAndStore` of the block at B leaves: COEF as it was, no sample lost, the blocks up to B stored. -/
theorem transformAndStore_stored (hp : s.seq.phase = .store) {bp : BlockPos} (hbp : currentBlock s = .ok bp)
    (he : transformAndStore f bp s = .ok t) :
    ∃ blk planes, t = { s with blk := blk, planes := planes } ∧ blk.coef = s.blk.coef ∧
      (∀ a, (Memory.read s.planes a).isSome = true → (Memory.read planes a).isSome = true) ∧
      ∀ f sc, Scanning f sc s → ∀ j bq, j < s.seq.b + 1 → (mcuBlocks f sc s.m)[j]? = some bq →
        blockWritten planes bq := by
  obtain ⟨coef, q, -, -, -, rfl⟩ := transformAndStore_ok he
  exact ⟨_, _, rfl, transformWork_coef .., fun _ ha => Memory.read_writeAll_isSome_of_read _ ha,
    fun _ _ hin => hin.stored_upto hp (hin.getElem?_of_currentBlock hbp) _⟩

section BlockStored

variable {planes : Memory} {blk : BlockWork} (h : LiveInv s) (hst : s.st = .scan) (hp : s.seq.phase = .store)
  (hblk : blk.coef = s.blk.coef)
  (hmono : ∀ a, (Memory.read s.planes a).isSome = true → (Memory.read planes a).isSome = true)
  (hupto : ∀ f sc, Scanning f sc s → ∀ j bp, j < s.seq.b + 1 → (mcuBlocks f sc s.m)[j]? = some bp → blockWritten planes bp)
include h hst hp hmono hupto

/-- R325: the block at B is stored, and the MCU's next one starts. -/
theorem live_nextBlock (hf : s.frame = some f) (hsc : s.scan = some sc)
    (hlen : s.seq.b + 1 < (mcuBlocks f sc s.m).length) :
    LiveInv (startBlock (s.seq.b + 1) { s with blk := blk, planes := planes }) := by
  refine h.scansOn hst rfl rfl rfl rfl rfl hmono fun g sd hin => ?_
  obtain rfl : g = f := Option.some.inj (hin.frame.symm.trans hf)
  obtain rfl : sd = sc := Option.some.inj (hin.scan.symm.trans hsc)
  exact hin.pos_startBlock (by simp [hp]) rfl hlen hmono (hupto _ _ hin) hin.pos.reader

include hblk in
/-- R325: the block at B is stored and was the MCU's last. -/
theorem live_lastBlock :
    LiveInv { s with blk := blk, planes := planes, seq := { s.seq with b := s.seq.b + 1 } } := by
  refine h.scansOn hst rfl rfl rfl rfl rfl hmono fun g sd hin => ?_
  have hpos := hin.pos
  refine ⟨hpos.mcu, by simp [hp], fun m hm bq hbq => (hpos.stored_before m hm bq hbq).mono hmono,
    fun _ _ => hupto _ _ hin, ?_, hpos.cur, hpos.marker⟩
  simpa [hp, hblk] using hpos.coef

end BlockStored

/-- R325, R360: the block at B is stored, and the next one of the MCU starts or the MCU is complete. -/
theorem live_storeBlock (h : LiveInv s) (hst : s.st = .scan) (hp : s.seq.phase = .store)
    (he : storeBlock s = .ok t) : LiveInv t := by
  obtain ⟨f, sc, bp, s1, hf, hsc, hbp, hs1, hcases⟩ := storeBlock_ok he
  obtain ⟨blk, planes, rfl, hblk, hmono, hupto⟩ := transformAndStore_stored hp hbp hs1
  obtain ⟨hlen, rfl⟩ | ⟨-, rfl⟩ := hcases
  · exact live_nextBlock h hst hp hmono hupto hf hsc hlen
  · exact live_lastBlock (s := s) h hst hp hblk hmono hupto

/-! ### MCU after MCU, and the end of the scan -/

/-- R326: MCUDone counts the MCU and sets an interrupt bit at most. -/
theorem mcuCounted_eq (sc : ScanSnap) (s : State) : ∃ rows mask,
    mcuCounted sc s =
      { s with mcuCount := s.mcuCount + 1, rows := rows, intStatus := s.intStatus ||| mask } := by
  unfold mcuCounted
  split
  · exact ⟨s.rows + 1, IntBit.rowDone.mask, by simp only [setInt, intUpdate_set]⟩
  · exact ⟨s.rows, 0, by simp⟩

/-- R325: with every block of MCU M stored the cursor moves past it. -/
theorem Scanning.stored_past (h : Scanning f sc s) (hp : s.seq.phase = .store) (hb : s.mcuSize ≤ s.seq.b) :
    ∀ m, m < s.m + 1 → ∀ bp ∈ mcuBlocks f sc m, blockWritten s.planes bp := by
  intro m hm bp hbp
  rcases Nat.lt_succ_iff_lt_or_eq.mp hm with hlt | rfl
  · exact h.pos.stored_before m hlt bp hbp
  · obtain ⟨j, hj⟩ := List.mem_iff_getElem?.mp hbp
    have hlt : j < (mcuBlocks f sc s.m).length := (List.getElem?_eq_some_iff.mp hj).1
    have hsize : (mcuBlocks f sc s.m).length ≤ s.seq.b := by simpa [State.mcuSize, h.frame, h.scan] using hb
    exact h.pos.stored_here (by simp [hp]) (by simp [hp]) j bp (by omega) hj

/-- R51: MCU_COUNT does not wrap inside a scan. -/
theorem Scanning.m_succ (h : Scanning f sc s) (hp : s.seq.phase ≠ .endSearch) :
    (s.mcuCount + 1).toNat = s.m + 1 := by
  have h1 := h.m_lt hp
  have h2 := h.scanSound.smcus_lt h.frameSound
  simp only [State.m] at h1 ⊢
  rw [BitVec.toNat_add]
  exact Nat.mod_eq_of_lt (Nat.lt_of_le_of_lt h1 h2)

/-- R325, R326. -/
theorem live_mcuDone (h : LiveInv s) (hst : s.st = .scan) (hp : s.seq.phase = .store) (hb : s.mcuSize ≤ s.seq.b)
    (he : mcuDone s = .ok t) : LiveInv t := by
  obtain ⟨sc, hsc, hcases⟩ := mcuDone_ok he
  obtain ⟨rows, mask, hcount⟩ := mcuCounted_eq sc s
  rw [hcount] at hcases
  have hne : s.seq.phase ≠ .endSearch := by simp [hp]
  obtain ⟨hlt, rfl⟩ | ⟨hle, rfl⟩ := hcases
  · refine h.scansOn hst rfl rfl rfl rfl rfl (fun _ ha => ha) fun g sd hin => ?_
    obtain rfl : sd = sc := Option.some.inj (hin.scan.symm.trans hsc)
    have hm := hin.m_succ hne
    refine ⟨hm.trans_lt hlt, trivial, fun m hm' => hin.stored_past hp hb m (hm'.trans_eq hm), fun _ hr => absurd rfl hr,
      trivial, hin.pos.cur, hin.pos.marker⟩
  · refine h.scansOn hst rfl rfl rfl rfl rfl (fun _ ha => ha) fun g sd hin => ?_
    obtain rfl : sd = sc := Option.some.inj (hin.scan.symm.trans hsc)
    have hm := hin.m_succ hne
    have hend : s.m + 1 = sd.smcus := by have := hin.m_lt hne; omega
    exact ⟨hm.trans hend, trivial, fun m hm' => hin.stored_past hp hb m (hm'.trans_eq hm), fun hr => absurd rfl hr,
      trivial, hin.pos.cur, hin.pos.marker⟩

/-- R401, R408: with every block of a scan stored the valid regions of its components are written. -/
theorem regionWritten_of_stored (hfs : f.Sound) {tabs : Tables} (hss : sc.Sound f tabs) {m : Memory}
    (hall : ∀ k, k < sc.smcus → ∀ bp ∈ mcuBlocks f sc k, blockWritten m bp) {sl : ScanSlot} (hsl : sl ∈ sc.slots) :
    regionWritten f m sl.cidx := by
  intro c hc row col hrow hcol
  obtain ⟨k, hk, bp, hbp, hidx, hy, hx⟩ := valid_region_covered hfs hss hsl hc hrow hcol
  have hw := hall k hk bp hbp (row % 8) (col % 8) (Nat.mod_lt _ (by norm_num)) (Nat.mod_lt _ (by norm_num))
  rwa [hidx, hy, hx, Nat.div_add_mod, Nat.div_add_mod] at hw

/-- R337: where a scan completes, the components it marks done are written. -/
theorem live_completeScan (h : LiveInv s) (hst : s.st = .scan) (hp : s.seq.phase = .endSearch) {x : Byte}
    (he : completeScan x s = .ok t) : LiveInv t := by
  obtain ⟨f, hf, hfs, hdone⟩ := h.frame (.inr (.inl hst))
  obtain ⟨sc, hsc, hss, hpos⟩ := h.scan hst f hf
  obtain ⟨sc', hsc', rfl⟩ := completeScan_ok he
  obtain rfl : sc = sc' := Option.some.inj (hsc.symm.trans hsc')
  have hm : s.m = sc.smcus := by simpa [hp] using hpos.mcu
  have hall : ∀ i, i < f.nf → (s.compDone ||| doneMask sc.slots).getLsbD i = true → regionWritten f s.planes i := by
    intro i hi hbit
    rw [BitVec.getLsbD_or, Bool.or_eq_true] at hbit
    rcases hbit with hbit | hbit
    · exact hdone i hi hbit
    · obtain ⟨sl, hsl, rfl⟩ := doneMask_bit hbit
      exact regionWritten_of_stored hfs hss (fun k hk => hpos.stored_before k (hm ▸ hk)) hsl
  exact ⟨h.dc_sound, h.ac_sound, fun _ => ⟨f, hf, hfs, hall⟩, nofun, nofun⟩

/-- R335, R336. -/
theorem live_endJudge (h : LiveInv s) (hst : s.st = .scan) (hp : s.seq.phase = .endSearch)
    (he : endJudge s = .ok t) : LiveInv t := by
  obtain ⟨k, d, a, rfl⟩ | rfl | ⟨x, -, -, hc⟩ := endJudge_ok he
  · exact live_raise h k d a
  · have hbr := consumeMarker_live s
    exact h.scansOn hst rfl rfl rfl rfl rfl (fun _ ha => ha) fun f sc hsc =>
      hsc.pos.congr rfl rfl rfl rfl rfl hbr.1 hbr.2
  · exact live_completeScan h hst hp hc

/-! ### A conversion -/

/-- R430: the cursor stays inside the image's lines and channels. -/
theorem advance_lt (hf : f.Sound) {c : ConvCursor} (hx : c.x < f.fw.toNat) (hch : c.ch < f.nf) :
    (advance f c).x < f.fw.toNat ∧ (advance f c).ch < f.nf := by
  unfold advance
  split
  · next h => exact ⟨hx, h⟩
  · split
    · next h => exact ⟨h, Nat.zero_lt_of_lt hch⟩
    · exact ⟨hf.fw_pos, Nat.zero_lt_of_lt hch⟩

/-- R431. -/
theorem live_outPush (h : LiveInv s) (hst : s.st = .convert) (he : outPush s = .ok t) : LiveInv t := by
  obtain ⟨f, hf, hfs, hdone⟩ := h.frame (.inr (.inr hst))
  obtain ⟨hmode, hall, hx, hch⟩ := h.convert hst f hf
  obtain ⟨g, mode, bytes, hg, -, -, rfl⟩ := outPush_ok he
  obtain rfl : f = g := Option.some.inj (hf.symm.trans hg)
  refine ⟨h.dc_sound, h.ac_sound, fun _ => ⟨f, hf, hfs, hdone⟩, fun hs => ?_, fun _ g hg => ?_⟩
  · exact nomatch hst.symm.trans hs
  · obtain rfl : f = g := Option.some.inj (hf.symm.trans hg)
    exact ⟨hmode, hall, advance_lt hfs hx hch⟩

/-! ### The engine's step, and the statement -/

theorem live_engineOther (h : LiveInv s) (he : engineOther (nextOp s) s = .ok t) : LiveInv t := by
  have hspec := nextOp_spec s
  cases hop : nextOp s <;> rw [hop] at hspec he
  case noStep | token | symbol => injection he with he; exact he ▸ h
  case inPop => injection he with he; exact he ▸ live_inPop h hspec.1
  case align =>
    injection he with he; subst he
    refine live_reader h hspec.1 (br := { s.br with nbits := 0 }) ?_ ..
    exact fun hbr => ⟨fun hn => absurd rfl hn, hbr.2⟩
  case beginMcu => obtain ⟨hst, -, hp⟩ := hspec; exact live_beginMcu h hst hp he
  case restartJudge => obtain ⟨hst, -, hp, -⟩ := hspec; exact live_restartJudge h hst hp he
  case readBits => obtain ⟨hst, -, hp, -⟩ := hspec; exact live_takeBits h hst hp he
  case storeBlock => obtain ⟨hst, -, hp, -⟩ := hspec; exact live_storeBlock h hst hp he
  case mcuDone => obtain ⟨hst, -, hp, hb⟩ := hspec; exact live_mcuDone h hst hp hb he
  case trail =>
    injection he with he; subst he
    refine live_reader h hspec.1 ?_ ..
    exact id
  case endJudge => obtain ⟨hst, -, hp, -⟩ := hspec; exact live_endJudge h hst hp he
  case outPush => exact live_outPush h hspec.1 he
  case convertDone => injection he with he; exact he ▸ h.leave rfl (.inl rfl)

theorem live_engineStep (h : LiveInv s) (he : engineStep s = .next t) : LiveInv t := by
  have hmark : ∀ u, LiveInv u → LiveInv (markStep (nextOp s) u) := fun u hu => live_turns hu u.turns _
  have hspec := nextOp_spec s
  obtain ⟨u, rfl, ⟨i, hi, hu⟩ | ⟨-, hu⟩⟩ := engineStep_next he
  · refine hmark u ?_
    obtain ⟨hop, rfl⟩ | ⟨hop, b, -, rfl⟩ := engineInstr_eq_some hi <;> rw [hop] at hspec
    · exact live_exec_token (decodeToken_token _) h hspec.1 hu
    · obtain ⟨hst, -, hp, -⟩ := hspec
      exact live_exec_symbol (symbolInstr_sym _ _) h hst hp hu
  · exact hmark u (live_engineOther h hu)

/-- Settles O59: a step is an engine operation, a host access, a reset or nothing, and each keeps the live invariant. -/
theorem everyStepKeepsTheLiveInvariant : Obligations.EveryStepKeepsTheLiveInvariant := by
  intro s t hs h hstep
  obtain ⟨r, m, ⟨-, he⟩ | rfl | ⟨a, -, -, he⟩ | ⟨-, -, rfl⟩⟩ := step_next hstep
  · exact live_engineStep (live_turns h r m) he
  · exact live_turns h r m
  · exact live_hostAccess (storage_turns hs r m) (live_turns h r m) he
  · exact live_resetAction _

end Sys2Proof.Machine
end

section
/-! PROOFS. The register port: plain reads and writes (O8, O9), the status words and the interrupt line (O10, O11), and the
accesses with side effects of R62, R45 and R50 (O22, O24, O25). -/
namespace Sys2Proof.Machine

variable {s t : State}

/-! ### The register map -/

theorem ofNat8_eq_iff {off k : Nat} (hoff : off < 256) (hk : k < 256) :
    BitVec.ofNat 8 off = BitVec.ofNat 8 k ↔ off = k := by
  rw [← BitVec.toNat_inj, BitVec.toNat_ofNat, BitVec.toNat_ofNat, Nat.mod_eq_of_lt hoff, Nat.mod_eq_of_lt hk]

/-- R250: a write at any other offset than those of the table's rows is plain. -/
theorem decodeAccess_plainWrite {off : Nat} (hoff : off < 256) (hrow : off ∉ [0x04, 0x08, 0x34, 0x3C, 0x54])
    (v : Word) : decodeAccess true (BitVec.ofNat 8 off) v = .error .plainAccess := by
  simp only [List.mem_cons, List.not_mem_nil, or_false, not_or] at hrow
  simp [decodeAccess, decodeRegAccess, ofNat8_eq_iff hoff, hrow]

/-- R250: a read at any other offset than OUT_DATA's is plain. -/
theorem decodeAccess_plainRead {off : Nat} (hoff : off < 256) (hout : off ≠ 0x40) (d : Word) :
    decodeAccess false (BitVec.ofNat 8 off) d = .error .plainAccess := by
  simp [decodeAccess, decodeRegAccess, ofNat8_eq_iff hoff, hout]

/-- R101, R104: an aligned word access of the window that is no row of R250 is a plain write or a plain read. -/
theorem hostAccess_plain {a : Access} {off : Nat} {e : DecodeError} (hw : a.width = 4) (hoff : off < 256)
    (h4 : off % 4 = 0) (ha : a.addr = s.par.regBase + off)
    (hd : decodeAccess a.write (BitVec.ofNat 8 off) a.data = .error e) :
    hostAccess a s = .next (if a.write then plainWrite off a.data s else plainRead off s) := by
  have hsub : a.addr - s.par.regBase = off := by omega
  have hin : inWindow s.par a = true := decide_eq_true ⟨by omega, by omega⟩
  have hal : aligned s.par a = true := decide_eq_true ⟨hw, by rw [hsub]; exact h4⟩
  simp only [hostAccess, hin, hal, hsub, Bool.not_true, Bool.false_eq_true, if_false, hd]

theorem hostAccess_plainWrite {off : Nat} (hoff : off < 256) (h4 : off % 4 = 0)
    (hrow : off ∉ [0x04, 0x08, 0x34, 0x3C, 0x54]) (v : Word) :
    hostAccess ⟨true, s.par.regBase + off, 4, v⟩ s = .next (plainWrite off v s) :=
  hostAccess_plain rfl hoff h4 rfl (decodeAccess_plainWrite hoff hrow v)

theorem hostAccess_plainRead {off : Nat} (hoff : off < 256) (h4 : off % 4 = 0) (hout : off ≠ 0x40) (d : Word) :
    hostAccess ⟨false, s.par.regBase + off, 4, d⟩ s = .next (plainRead off s) :=
  hostAccess_plain rfl hoff h4 rfl (decodeAccess_plainRead hoff hout d)

theorem readsAs_of_regAt {off : Nat} {r : Reg} (h : regAt off = some r) : Claim.readsAs s off = regRead s r := by
  simp [Claim.readsAs, h]

theorem readsAs_unmapped {off : Nat} (h : regAt off = none) : Claim.readsAs s off = 0 := by
  simp [Claim.readsAs, h]

theorem plainWrite_of_regAt {off : Nat} {r : Reg} (h : regAt off = some r) (v : Word) :
    plainWrite off v s = { s with regs := regWrite v s.regs r } := by
  simp [plainWrite, h]

theorem plainWrite_unmapped {off : Nat} (h : regAt off = none) (v : Word) : plainWrite off v s = s := by
  simp [plainWrite, h]

theorem plainRead_eq (off : Nat) (s : State) : plainRead off s = { s with rdata := Claim.readsAs s off } := by
  cases h : regAt off with
  | none => simp [plainRead, readsAs_unmapped h, h]
  | some r => simp [plainRead, readsAs_of_regAt h, h]

/-- R24: past the last register the window is unmapped. -/
theorem regAt_unmapped {off : Nat} (h : 0x70 ≤ off) : regAt off = none :=
  List.getElem?_eq_none (by simp only [regMap, List.length_append, List.length_cons, List.length_nil]; omega)

/-- R24: a register has one offset. -/
theorem regAt_inj {off off' : Nat} {r : Reg} (h : regAt off = some r) (h' : regAt off' = some r) (h4 : off % 4 = 0)
    (h4' : off' % 4 = 0) : off = off' := by
  have hlt : off / 4 < regMap.length := (List.getElem?_eq_some_iff.mp h).1
  have hnodup : regMap.Nodup := by decide
  have hdiv : off / 4 = off' / 4 := (List.getElem?_inj hlt hnodup).mp (h.trans h'.symm)
  omega

/-! ### Plain accesses -/

/-- R25, R32-R49: the bits a plain write stores. -/
def Reg.stored : Reg → Word
  | .frameDim => 0xFFFFFFFF
  | .frameCfg => 0x00000FFF
  | .compCfg0 | .compCfg1 | .compCfg2 => 0x000003FF
  | .scanCfg => 0x3F3F3F03
  | .restartInterval => 0x0000FFFF
  | .intEn => 0x0000003F
  | .id | .ctrl | .cmd | .status | .err | .errPos | .tblData | .tblValid | .inData | .outData | .marker | .inCount
  | .fifoStatus | .intStatus | .mcuCount | .progress | .geometry | .scanGeom | .outCount | .trailing => 0

/-- The statement's table of stored bits, by offset, is the registers' own. -/
theorem storedBits_eq {off : Nat} (hoff : off < 256) (h4 : off % 4 = 0) :
    Claim.storedBits off = ((regAt off).map Reg.stored).getD 0 := by
  have hall : ∀ i, i < 64 → Claim.storedBits (4 * i) = ((regAt (4 * i)).map Reg.stored).getD 0 := by decide
  have hindex := hall (off / 4) (by omega)
  rwa [Nat.mul_div_cancel' (Nat.dvd_of_mod_eq_zero h4)] at hindex

theorem storedBits_of_regAt {off : Nat} {r : Reg} (hoff : off < 256) (h4 : off % 4 = 0) (h : regAt off = some r) :
    Claim.storedBits off = r.stored := by
  simp [storedBits_eq hoff h4, h]

theorem setWidth_setWidth_eq_and {n : Nat} (v : Word) :
    (v.setWidth n).setWidth 32 = v &&& (BitVec.allOnes n).setWidth 32 := by
  apply BitVec.eq_of_getLsbD_eq
  intro i hi
  simp [hi, Bool.and_comm]

/-- R25: a register with stored bits reads back what was written, without its undefined bits. -/
theorem regRead_regWrite_same {r : Reg} (hr : r.stored ≠ 0) (v : Word) :
    regRead { s with regs := regWrite v s.regs r } r = v &&& r.stored := by
  cases r
  case frameDim => exact (BitVec.and_allOnes (x := v)).symm
  case scanCfg => rfl
  case frameCfg => exact setWidth_setWidth_eq_and v
  case compCfg0 | compCfg1 | compCfg2 => exact setWidth_setWidth_eq_and v
  case restartInterval => exact setWidth_setWidth_eq_and v
  case intEn => exact setWidth_setWidth_eq_and v
  all_goals exact absurd rfl hr

/-- R26: a register without stored bits ignores a plain write. -/
theorem regWrite_ignored {r : Reg} (hr : r.stored = 0) (v : Word) (regs : Regs) : regWrite v regs r = regs := by
  cases r
  case frameDim | frameCfg | compCfg0 | compCfg1 | compCfg2 | scanCfg | restartInterval | intEn =>
    exact absurd hr (by decide)
  all_goals rfl

/-- R25: a plain write changes the read of no other register. -/
theorem regRead_regWrite_other {r r' : Reg} (hne : r' ≠ r) (v : Word) :
    regRead { s with regs := regWrite v s.regs r } r' = regRead s r' := by
  by_cases hr : r.stored = 0
  · rw [regWrite_ignored hr]
  · cases r'
    case ctrl | frameDim | frameCfg | compCfg0 | compCfg1 | compCfg2 | scanCfg | restartInterval | intEn =>
      cases r <;> first | exact absurd rfl hne | rfl
    all_goals rfl

/-- Settles O8: the offset's register is written, and every other register is read from fields the write leaves alone. -/
theorem plainWritesStoreTheDefinedBits : Obligations.PlainWritesStoreTheDefinedBits := by
  intro s off v hoff h4 hrow
  refine ⟨plainWrite off v s, hostAccess_plainWrite hoff h4 hrow v, rfl, ?_⟩
  cases hreg : regAt off with
  | none =>
    have hbits : Claim.storedBits off = 0 := by simp [storedBits_eq hoff h4, hreg]
    rw [plainWrite_unmapped hreg]
    exact ⟨fun h => absurd hbits h, fun _ => rfl, fun _ _ _ => rfl⟩
  | some r =>
    rw [plainWrite_of_regAt hreg, storedBits_of_regAt hoff h4 hreg]
    refine ⟨fun hr => ?_, fun hr => ?_, fun other h4' hne => ?_⟩
    · rw [readsAs_of_regAt hreg]
      exact regRead_regWrite_same hr v
    · rw [regWrite_ignored hr]
    · cases hreg' : regAt other with
      | none => rw [readsAs_unmapped hreg', readsAs_unmapped hreg']
      | some r' =>
        have hr : r' ≠ r := fun e => hne (regAt_inj (e ▸ hreg') hreg h4' h4)
        rw [readsAs_of_regAt hreg', readsAs_of_regAt hreg']
        exact regRead_regWrite_other hr v

/-- Settles O9: a read that is no OUT_DATA read is plain. -/
theorem readsHaveNoSideEffect : Obligations.ReadsHaveNoSideEffect := by
  intro s off d hoff h4 hout
  refine ⟨?_, ?_⟩
  · rw [hostAccess_plainRead hoff h4 hout d, plainRead_eq]
  · rintro (rfl | rfl | rfl | h)
    · exact readsAs_of_regAt (r := .cmd) rfl
    · exact readsAs_of_regAt (r := .tblData) rfl
    · exact readsAs_of_regAt (r := .inData) rfl
    · exact readsAs_unmapped (regAt_unmapped h)

/-! ### The status words and the interrupt line -/

theorem inWait_iff (s : State) : inWait s = true ↔ s.st = .scan ∧ nextOp s = .inPop ∧ s.inFifo = [] := by
  simp [inWait, and_assoc]

theorem outWait_iff (s : State) :
    outWait s = true ↔ s.st = .convert ∧ nextOp s = .outPush ∧ s.par.outDepth ≤ s.outFifo.length := by
  simp [outWait, and_assoc]

theorem busy_iff (s : State) : busy s = true ↔ s.st = .scan ∨ s.st = .convert := by
  simp [busy]

/-- R34: each field of the STATUS layout is cut out of the word it was put in. -/
theorem statusLayout (ptr : BitVec 9) (rst done code : BitVec 3) (eof ovf fill out inp bsy : Bool) :
    let w := 0#7 ++ ptr ++ 0#1 ++ rst ++ BitVec.ofBool eof ++ done ++ BitVec.ofBool ovf ++ BitVec.ofBool fill ++
      BitVec.ofBool out ++ BitVec.ofBool inp ++ BitVec.ofBool bsy ++ code
    w.extractLsb' 0 3 = code ∧ w.getLsbD 3 = bsy ∧ w.getLsbD 4 = inp ∧ w.getLsbD 5 = out ∧ w.getLsbD 6 = fill ∧
      w.getLsbD 7 = ovf ∧ w.extractLsb' 8 3 = done ∧ w.getLsbD 11 = eof ∧ w.extractLsb' 12 3 = rst ∧
      w.getLsbD 15 = false ∧ w.extractLsb' 16 9 = ptr ∧ w.extractLsb' 25 7 = 0 := by
  simp only [BitVec.extractLsb'_append_eq_right, BitVec.extractLsb'_append_eq_of_le, BitVec.extractLsb'_eq_self,
    BitVec.getLsbD_append, BitVec.getLsbD_ofBool, Nat.reduceLT, Nat.reduceLeDiff, Nat.reduceSub, if_true, if_false,
    decide_true, Bool.true_and, true_and]
  exact ⟨rfl, rfl⟩

/-- Settles O10. -/
theorem statusRegistersShowTheState : Obligations.StatusRegistersShowTheState := by
  intro s
  obtain ⟨hst, hbusy, hin, hout, hfill, hovf, hdone, heof, hrst, h15, hptr, hhigh⟩ :=
    statusLayout (stgPtr s) s.nextRst s.compDone s.st.code s.eofSeen s.stgOvf s.br.fillUsed (outWait s) (inWait s) (busy s)
  rw [← busy_iff, ← inWait_iff, ← outWait_iff]
  exact ⟨hst, iff_of_eq (congrArg (· = true) hbusy), iff_of_eq (congrArg (· = true) hin),
    iff_of_eq (congrArg (· = true) hout), hfill, hovf, hdone, heof, hrst, h15, hptr, hhigh, rfl, rfl⟩

/-- Settles O11: a word is not 0 where one of its bits is set. -/
theorem irqIsTheEnabledOr : Obligations.IrqIsTheEnabledOr := by
  refine ⟨fun s => ?_, by decide⟩
  simp only [irq, decide_eq_true_eq]
  constructor
  · intro hne
    by_contra hnone
    refine hne (BitVec.eq_of_getLsbD_eq fun i hi => ?_)
    simpa using fun hint hen => hnone ⟨i, hi, hint, hen⟩
  · rintro ⟨i, -, hint, hen⟩ hzero
    have hbit : (s.intStatus &&& s.regs.intEn).getLsbD i = true := by simp [hint, hen]
    simp [hzero] at hbit

/-! ### Accesses with side effects -/

/-- Settles O22. -/
theorem tblDataWritesStageEntries : Obligations.TblDataWritesStageEntries := by
  intro s v
  have hentry : v.setWidth 16 = v.extractLsb' 0 16 := BitVec.setWidth_eq_extractLsb' (by norm_num)
  refine ⟨fun h => ?_, fun h => ?_⟩
  · simp [exec, execTblDataWr, h, hentry]
  · simp [exec, execTblDataWr, Nat.not_lt.mpr h]

/-- R45: OUT_DATA's word, VALID above the byte. -/
theorem outDataWord (b : Byte) : 0#23 ++ 1#1 ++ b = BitVec.ofNat 32 (256 + b.toNat) := by
  revert b
  decide

/-- Settles O24: a write of OUT_DATA is plain, and the register ignores it. -/
theorem outDataReadsPop : Obligations.OutDataReadsPop := by
  refine ⟨fun v => rfl, fun s b rest h => ?_, fun s h => ?_, fun s v => ?_⟩
  · simp [exec, execOutDataRd, regRead, h, ← outDataWord]
  · simp [exec, execOutDataRd, regRead, h]
  · rw [hostAccess_plainWrite (by norm_num) (by norm_num) (by decide) v]
    exact congrArg _ (plainWrite_of_regAt (r := .outData) rfl v)

/-- R50: a host clear takes the bits written as 1 away. -/
theorem getLsbD_intUpdate_clear (old : BitVec 6) (v : Word) {i : Nat} (hi : i < 6) :
    (intUpdate old (v.setWidth 6) 0).getLsbD i = (old.getLsbD i && !v.getLsbD i) := by
  simp [intUpdate, hi]

/-- Settles O25. -/
theorem intStatusWritesClearOnes : Obligations.IntStatusWritesClearOnes := fun s v =>
  ⟨_, rfl, rfl, fun _ hi => getLsbD_intUpdate_clear s.intStatus v hi⟩

end Sys2Proof.Machine
end

section
/-! PROOFS. Every step moves the engine state along the graph of R23 and clears no bit of INT_STATUS but by a reset or a host
write of INT_STATUS (O52, O55). -/
namespace Sys2Proof.Machine

variable {s t : State}

/-! ### The two rules, as one relation between states -/

/-- R23: the engine state stays, or an edge of the graph is taken. -/
def OnGraph (a b : EngState) : Prop :=
  b = a ∨ b = .idle ∨ (a = .idle ∧ (b = .frame ∨ b = .error)) ∨
    (a = .frame ∧ (b = .scan ∨ b = .convert ∨ b = .error)) ∨ (a = .scan ∧ (b = .frame ∨ b = .error))

/-- R23, R50: the engine state moves along the graph, and every set bit of INT_STATUS stays set. -/
structure Moves (s t : State) : Prop where
  graph : OnGraph s.st t.st
  kept : ∀ i, s.intStatus.getLsbD i = true → t.intStatus.getLsbD i = true

theorem Moves.stays (hst : t.st = s.st) (hint : t.intStatus = s.intStatus) : Moves s t :=
  ⟨.inl hst, fun _ h => by rwa [hint]⟩

/-- R50: what the hardware does to INT_STATUS is to set bits. -/
theorem kept_of_or {old mask : BitVec 6} {i : Nat} (h : old.getLsbD i = true) : (old ||| mask).getLsbD i = true := by
  rw [BitVec.getLsbD_or, h, Bool.true_or]

theorem kept_setInt (b : IntBit) {i : Nat} (h : s.intStatus.getLsbD i = true) :
    (setInt b s).intStatus.getLsbD i = true := by
  simp only [setInt, intUpdate_set]
  exact kept_of_or h

theorem OnGraph.toError {a : EngState} (h : a ≠ .convert) : OnGraph a .error := by
  cases a <;> simp [OnGraph] at h ⊢

theorem moves_setInt (b : IntBit) (hgraph : OnGraph s.st t.st) (hint : t.intStatus = s.intStatus) :
    Moves s (setInt b t) :=
  ⟨hgraph, fun _ h => kept_setInt b (by rwa [hint])⟩

/-- R455: an error is entered from any state but CONVERT. -/
theorem moves_raise (hst : s.st ≠ .convert) (hint : t.intStatus = s.intStatus) (k : ErrKind) (d : Byte) (a : Nat) :
    Moves s (raise k d a t) :=
  ⟨.toError hst, fun _ h => kept_setInt .error (by rwa [← hint] at h)⟩

/-! ### The host's instructions and accesses -/

theorem moves_loadQt (hst : acceptsLoad s.st = true) (i : BitVec 2) : Moves s (loadQt i s) := by
  have hne : s.st ≠ .convert := by intro e; simp [e, acceptsLoad] at hst
  unfold loadQt
  split
  · exact moves_raise (t := clearStaging s) hne rfl ..
  · exact .stays rfl rfl

theorem moves_loadHt (hst : acceptsLoad s.st = true) (i : BitVec 2) (c : BitVec 1) : Moves s (loadHt i c s) := by
  have hne : s.st ≠ .convert := by intro e; simp [e, acceptsLoad] at hst
  unfold loadHt
  split
  · exact moves_raise (t := clearStaging s) hne rfl ..
  · unfold installHt
    split <;> exact .stays rfl rfl

theorem moves_startFrame (hst : s.st = .idle) : Moves s (startFrame s) := by
  unfold startFrame
  simp only
  split
  · exact moves_raise (by simp [hst]) rfl ..
  · exact ⟨by simp [OnGraph, hst], fun _ h => h⟩

theorem moves_startScan (hst : s.st = .frame) (f : FrameSnap) : Moves s (startScan f s) := by
  unfold startScan
  split
  · exact moves_raise (by simp [hst]) rfl ..
  · exact ⟨by simp [OnGraph, hst], fun _ h => h⟩

theorem moves_convert (hst : s.st = .frame) (f : FrameSnap) : Moves s (convert f s) := by
  unfold convert
  split
  · exact moves_raise (by simp [hst]) rfl ..
  · exact ⟨by simp [OnGraph, hst], fun _ h => h⟩

/-- R50, R201-R261: a host instruction makes a move, unless it is a soft reset or clears bits of INT_STATUS. -/
theorem exec_host_moves {i : Instr} (hi : hostInstr i = true) (he : exec i s = .next t) :
    Moves s t ∨ (∃ v, i = .ctrlSoftReset v ∧ v.getLsbD 0 = true ∧ t = resetAction s) ∨
      ∃ v, i = .intStatusWr v ∧ t = { s with intStatus := intUpdate s.intStatus (v.setWidth 6) 0 } := by
  have hreject : Moves s (reject s) := moves_setInt .cmdRejected (.inl rfl) rfl
  cases i
  case ctrlSoftReset v =>
    injection he with he; subst he; split
    · next hv => exact .inr (.inl ⟨v, rfl, hv, rfl⟩)
    · exact .inl (.stays rfl rfl)
  case intStatusWr v => injection he with he; exact .inr (.inr ⟨v, rfl, he.symm⟩)
  all_goals left
  case nop => injection he with he; exact he ▸ .stays rfl rfl
  case loadQt i =>
    injection he with he; subst he; split
    · next hst => exact moves_loadQt hst i
    · exact hreject
  case loadHt i c =>
    injection he with he; subst he; split
    · next hst => exact moves_loadHt hst i c
    · exact hreject
  case startFrame =>
    injection he with he; subst he; split
    · next hst => exact moves_startFrame hst
    · exact hreject
  case startScan =>
    obtain ⟨f, hst, -, rfl⟩ | rfl := exec_startScan he
    exacts [moves_startScan hst f, hreject]
  case convert =>
    obtain ⟨f, hst, -, rfl⟩ | rfl := exec_convert he
    exacts [moves_convert hst f, hreject]
  case abort => injection he with he; subst he; exact ⟨.inr (.inl rfl), fun _ h => h⟩
  case cmdRejected => injection he with he; exact he ▸ hreject
  case tblDataWr => injection he with he; subst he; split <;> exact .stays rfl rfl
  case inDataWr =>
    injection he with he; subst he; split
    · split <;> exact .stays rfl rfl
    · exact moves_setInt .inOverflow (.inl rfl) rfl
  case outDataRd => injection he with he; subst he; exact .stays rfl rfl
  all_goals exact absurd hi Bool.false_ne_true

/-- R140: a command word is no access of R250. -/
theorem decodeCmd_ne_access (w v : Word) : decodeCmd w ≠ .ctrlSoftReset v ∧ decodeCmd w ≠ .intStatusWr v := by
  unfold decodeCmd
  simp only
  repeat' split
  all_goals exact ⟨nofun, nofun⟩

theorem decodeAccess_eq_ctrl {w : Bool} {off : Byte} {d v : Word} (h : decodeAccess w off d = .ok (.ctrlSoftReset v)) :
    w = true ∧ off = 0x04 ∧ v = d := by
  unfold decodeAccess decodeRegAccess at h
  split at h
  · exact absurd (Except.ok.inj h) (decodeCmd_ne_access d v).1
  · grind

theorem decodeAccess_eq_intStatus {w : Bool} {off : Byte} {d v : Word}
    (h : decodeAccess w off d = .ok (.intStatusWr v)) : w = true ∧ off = 0x54 ∧ v = d := by
  unfold decodeAccess decodeRegAccess at h
  split at h
  · exact absurd (Except.ok.inj h) (decodeCmd_ne_access d v).2
  · grind

/-- R101, R104: an access that is taken is an aligned word access of the window. -/
theorem hostAccess_taken {a : Access} (h : hostAccess a s = .next t) :
    s.par.regBase ≤ a.addr ∧ a.addr < s.par.regBase + 256 ∧ a.width = 4 := by
  unfold hostAccess at h
  simp only at h
  split at h
  · cases h
  · next hin =>
    split at h
    · cases h
    · next hal =>
      simp only [inWindow, aligned, Bool.not_eq_true', decide_eq_false_iff_not, not_not] at hin hal
      exact ⟨hin.1, hin.2, hal.1⟩

/-- R101: the byte offset of an access of the window is its address above the base. -/
theorem addr_of_offset {base addr : Nat} {off : Byte} (h1 : base ≤ addr) (h2 : addr < base + 256)
    (h : BitVec.ofNat 8 (addr - base) = off) : addr = base + off.toNat := by
  subst h
  rw [BitVec.toNat_ofNat, Nat.mod_eq_of_lt (by omega)]
  omega

/-- The access writes the register at `off`. -/
def WritesAt (a : Access) (base off : Nat) : Prop := a.write = true ∧ a.addr = base + off ∧ a.width = 4

theorem hostAccess_moves {a : Access} (he : hostAccess a s = .next t) :
    Moves s t ∨ (WritesAt a s.par.regBase 0x04 ∧ a.data.getLsbD 0 = true ∧ t = resetAction s) ∨
      (WritesAt a s.par.regBase 0x54 ∧
        t = { s with intStatus := intUpdate s.intStatus (a.data.setWidth 6) 0 }) := by
  obtain ⟨h1, h2, hw⟩ := hostAccess_taken he
  obtain ⟨off, rfl, ⟨i, hi, he⟩ | rfl | rfl⟩ := hostAccess_next he
  · obtain hm | ⟨v, rfl, hv, rfl⟩ | ⟨v, rfl, rfl⟩ := exec_host_moves (decodeAccess_host hi) he
    · exact .inl hm
    · obtain ⟨hwr, hoff, rfl⟩ := decodeAccess_eq_ctrl hi
      exact .inr (.inl ⟨⟨hwr, addr_of_offset h1 h2 hoff, hw⟩, hv, rfl⟩)
    · obtain ⟨hwr, hoff, rfl⟩ := decodeAccess_eq_intStatus hi
      exact .inr (.inr ⟨⟨hwr, addr_of_offset h1 h2 hoff, hw⟩, rfl⟩)
  · exact .inl (.stays rfl rfl)
  · exact .inl (.stays rfl rfl)

/-! ### The engine's operations -/

theorem moves_exec_token {i : Instr} (hi : tokenInstr i = true) (he : exec i s = .next t) : Moves s t := by
  obtain ⟨br, rfl⟩ := exec_token hi he
  exact .stays rfl rfl

theorem moves_exec_symbol {i : Instr} (hi : symInstr i = true) (hst : s.st ≠ .convert) (he : exec i s = .next t) :
    Moves s t := by
  obtain ⟨k, d, a, rfl⟩ | ⟨br, pred, blk, seq, -, rfl⟩ := exec_symbol hi he
  · exact moves_raise hst rfl k d a
  · exact .stays rfl rfl

theorem moves_inPop (s : State) : Moves s (inPop s) := by
  unfold inPop
  simp only
  split <;> exact .stays rfl rfl

theorem moves_restartJudge (hst : s.st ≠ .convert) (he : restartJudge s = .ok t) : Moves s t := by
  obtain ⟨k, d, a, rfl⟩ | ⟨-, -, -, hb⟩ := restartJudge_ok he
  · exact moves_raise hst rfl k d a
  · obtain ⟨-, rfl⟩ := beginMcu_ok hb
    exact .stays rfl rfl

theorem moves_takeBits (hst : s.st ≠ .convert) (he : takeBits s = .ok t) : Moves s t := by
  obtain ⟨br, -, ⟨b, rfl⟩ | rfl | rfl | ⟨n, v, bp, -, rfl⟩ | ⟨n, v, rfl⟩⟩ := takeBits_ok he
  · exact .stays rfl rfl
  · exact moves_raise (t := { s with br := br }) hst rfl ..
  · exact .stays rfl rfl
  · exact .stays rfl rfl
  · exact .stays rfl rfl

theorem moves_storeBlock (he : storeBlock s = .ok t) : Moves s t := by
  obtain ⟨f, sc, bp, s1, -, -, -, hs1, hcases⟩ := storeBlock_ok he
  obtain ⟨coef, q, -, -, -, rfl⟩ := transformAndStore_ok hs1
  obtain ⟨-, rfl⟩ | ⟨-, rfl⟩ := hcases <;> exact .stays rfl rfl

theorem moves_mcuDone (he : mcuDone s = .ok t) : Moves s t := by
  obtain ⟨sc, -, hcases⟩ := mcuDone_ok he
  obtain ⟨rows, mask, hcount⟩ := mcuCounted_eq sc s
  rw [hcount] at hcases
  obtain ⟨-, rfl⟩ | ⟨-, rfl⟩ := hcases <;> exact ⟨.inl rfl, fun _ h => kept_of_or h⟩

theorem moves_endJudge (hst : s.st = .scan) (he : endJudge s = .ok t) : Moves s t := by
  obtain ⟨k, d, a, rfl⟩ | rfl | ⟨x, -, -, hc⟩ := endJudge_ok he
  · exact moves_raise (by simp [hst]) rfl k d a
  · exact .stays rfl rfl
  · obtain ⟨sc, -, rfl⟩ := completeScan_ok hc
    exact moves_setInt .scanDone (by simp [OnGraph, hst]) rfl

theorem moves_engineOther (he : engineOther (nextOp s) s = .ok t) : Moves s t := by
  have hspec := nextOp_spec s
  have hne : s.st = .scan → s.st ≠ .convert := fun e => by simp [e]
  cases hop : nextOp s <;> rw [hop] at hspec he
  case noStep | token | symbol => injection he with he; exact he ▸ .stays rfl rfl
  case inPop => injection he with he; exact he ▸ moves_inPop s
  case align | trail => injection he with he; subst he; exact .stays rfl rfl
  case beginMcu => obtain ⟨-, rfl⟩ := beginMcu_ok he; exact .stays rfl rfl
  case restartJudge => exact moves_restartJudge (hne hspec.1) he
  case readBits => exact moves_takeBits (hne hspec.1) he
  case storeBlock => exact moves_storeBlock he
  case mcuDone => exact moves_mcuDone he
  case endJudge => exact moves_endJudge hspec.1 he
  case outPush => obtain ⟨f, mode, bytes, -, -, -, rfl⟩ := outPush_ok he; exact .stays rfl rfl
  case convertDone => injection he with he; subst he; exact moves_setInt .frameDone (.inr (.inl rfl)) rfl

theorem moves_engineStep (he : engineStep s = .next t) : Moves s t := by
  have hmark : ∀ u, Moves s u → Moves s (markStep (nextOp s) u) := fun u hu => ⟨hu.graph, hu.kept⟩
  have hspec := nextOp_spec s
  obtain ⟨u, rfl, ⟨i, hi, hu⟩ | ⟨-, hu⟩⟩ := engineStep_next he
  · refine hmark u ?_
    obtain ⟨-, rfl⟩ | ⟨hop, b, -, rfl⟩ := engineInstr_eq_some hi
    · exact moves_exec_token (decodeToken_token _) hu
    · rw [hop] at hspec
      exact moves_exec_symbol (symbolInstr_sym _ _) (by simp [hspec.1]) hu
  · exact hmark u (moves_engineOther hu)

/-! ### The step -/

theorem resetNext_of_ctrl {a : Access} {l : List Turn} (ht : s.turns = .host a :: l)
    (hm : (s.mid && engineReady s) = false) (hw : WritesAt a s.par.regBase 0x04) (hd : a.data.getLsbD 0 = true) :
    resetNext s = true := by
  obtain ⟨hwr, haddr, hwidth⟩ := hw
  simp [resetNext, ht, hm, hwr, haddr, hwidth, hd]

theorem hostWriteNext_of_writes {a : Access} {l : List Turn} {off : Nat} (ht : s.turns = .host a :: l)
    (hm : (s.mid && engineReady s) = false) (hw : WritesAt a s.par.regBase off) : hostWriteNext off s = true := by
  obtain ⟨hwr, haddr, hwidth⟩ := hw
  simp [hostWriteNext, ht, hm, hwr, haddr, hwidth]

/-- R23, R50: a step makes a move, unless it is a reset or the host's write of INT_STATUS. -/
theorem step_moves (h : step s = .next t) :
    Moves s t ∨ (resetNext s = true ∧ t.st = .idle) ∨
      (hostWriteNext 0x54 s = true ∧ t.st = s.st ∧
        t.intStatus = intUpdate s.intStatus ((nextWriteData s).setWidth 6) 0) := by
  obtain ⟨r, m, ⟨-, he⟩ | rfl | ⟨a, ht, hm, he⟩ | ⟨⟨l, ht⟩, hm, rfl⟩⟩ := step_next h
  · have hmoves := moves_engineStep he
    exact .inl ⟨hmoves.graph, hmoves.kept⟩
  · exact .inl (.stays rfl rfl)
  · obtain hmoves | ⟨hw, hd, rfl⟩ | ⟨hw, rfl⟩ := hostAccess_moves he
    · exact .inl ⟨hmoves.graph, hmoves.kept⟩
    · exact .inr (.inl ⟨resetNext_of_ctrl ht hm hw hd, rfl⟩)
    · exact .inr (.inr ⟨hostWriteNext_of_writes ht hm hw, rfl, by simp [nextWriteData, ht]⟩)
  · exact .inr (.inl ⟨by simp [resetNext, ht, hm], rfl⟩)

/-- Settles O52: a bit goes by a reset or by the host's 1 alone. -/
theorem interruptBitsStayUntilCleared : Obligations.InterruptBitsStayUntilCleared := by
  intro s t i hi hstep hbit
  obtain hmoves | ⟨hreset, -⟩ | ⟨hwrite, -, hint⟩ := step_moves hstep
  · exact .inl (hmoves.kept i hbit)
  · exact .inr (.inl hreset)
  · rw [hint, getLsbD_intUpdate_clear _ _ hi, hbit]
    cases hone : (nextWriteData s).getLsbD i
    · exact .inl rfl
    · exact .inr (.inr ⟨hwrite, rfl⟩)

/-- Settles O55: a step stays, takes an edge of the graph, or resets to IDLE. -/
theorem engineStatesMoveAlongTheGraph : Obligations.EngineStatesMoveAlongTheGraph := by
  intro s t hstep hne
  have hgraph : OnGraph s.st t.st := by
    obtain hmoves | ⟨-, hidle⟩ | ⟨-, hsame, -⟩ := step_moves hstep
    · exact hmoves.graph
    · exact .inr (.inl hidle)
    · exact .inl hsame
  obtain hsame | hidle | hedge | hedge | hedge := hgraph
  · exact absurd hsame hne
  · exact .inr (.inr (.inr hidle))
  · exact .inl hedge
  · exact .inr (.inl hedge)
  · exact .inr (.inr (.inl hedge))

end Sys2Proof.Machine
end

section
/-! PROOFS. The geometry of a frame as ceilings (O18), and what an instruction does to plane memory (O56). -/
namespace Sys2Proof.Machine

variable {s t : State}

/-! ### The geometry of a frame -/

/-- A maximum over a list that is not empty is taken. -/
theorem exists_eq_foldl_max {α : Type} (g : α → Nat) (l : List α) (a : Nat) :
    l.foldl (fun m c => max m (g c)) a = a ∨ ∃ c ∈ l, g c = l.foldl (fun m c => max m (g c)) a := by
  induction l generalizing a with
  | nil => exact .inl rfl
  | cons c l ih =>
    rw [List.foldl_cons]
    obtain h | ⟨d, hd, h⟩ := ih (max a (g c))
    · rw [h]
      rcases max_choice a (g c) with e | e
      · exact .inl e
      · exact .inr ⟨c, by simp, e.symm⟩
    · exact .inr ⟨d, by simp [hd], h⟩

/-- A ceiling lies less than one divisor above. -/
theorem ceilDiv_pred_mul_lt {a b : Nat} (ha : 0 < a) (hb : 0 < b) : (ceilDiv a b - 1) * b < a :=
  lt_ceilDiv_mul_of_lt hb (Nat.sub_one_lt (ceilDiv_pos ha hb).ne')

namespace FrameSnap

variable {f : FrameSnap} {c : FrameComp}

theorem Sound.exists_hmax (hf : f.Sound) : ∃ c ∈ f.comps, c.h = f.hmax :=
  (exists_eq_foldl_max FrameComp.h f.comps 0).resolve_left (Nat.one_le_iff_ne_zero.mp hf.hmax_pos)

theorem Sound.exists_vmax (hf : f.Sound) : ∃ c ∈ f.comps, c.v = f.vmax :=
  (exists_eq_foldl_max FrameComp.v f.comps 0).resolve_left (Nat.one_le_iff_ne_zero.mp hf.vmax_pos)

/-- R53, R222: GEOMETRY holds the MCU grid whole. -/
theorem Sound.geometry_fields (hf : f.Sound) :
    (f.geometry.extractLsb' 0 16).toNat = f.mcux ∧ (f.geometry.extractLsb' 16 16).toNat = f.mcuy := by
  have hx : (BitVec.ofNat 16 f.mcux).toNat = f.mcux := Nat.mod_eq_of_lt (by have := hf.mcux_le; omega)
  have hy : (BitVec.ofNat 16 f.mcuy).toNat = f.mcuy := Nat.mod_eq_of_lt (by have := hf.mcuy_le; omega)
  exact ⟨(congrArg BitVec.toNat BitVec.extractLsb'_append_eq_right).trans hx,
    (congrArg BitVec.toNat BitVec.extractLsb'_append_eq_left).trans hy⟩

end FrameSnap

/-- Settles O18: each size is a `ceilDiv`, which its two inequalities fix. -/
theorem frameGeometryIsTheCeilings : Obligations.FrameGeometryIsTheCeilings := by
  intro f hf
  have hh := hf.hmax_pos
  have hv := hf.vmax_pos
  obtain ⟨hx, hy⟩ := hf.geometry_fields
  refine ⟨hf.exists_hmax, hf.exists_vmax, fun c hc => ⟨FrameSnap.h_le_hmax hc, FrameSnap.v_le_vmax hc⟩,
    ceilDiv_pred_mul_lt hf.fw_pos (by omega), le_ceilDiv_mul _ (by omega),
    ceilDiv_pred_mul_lt hf.fh_pos (by omega), le_ceilDiv_mul _ (by omega), hx, hy, fun c hc => ?_⟩
  obtain ⟨hch, -, hcv, -⟩ := hf.factors c hc
  exact ⟨rfl, rfl, ceilDiv_pred_mul_lt (Nat.mul_pos hf.fw_pos hch) hh, le_ceilDiv_mul _ hh, hf.cwid_le_pw,
    ceilDiv_pred_mul_lt (Nat.mul_pos hf.fh_pos hcv) hv, le_ceilDiv_mul _ hv, hf.chgt_le_ph⟩

/-! ### Instructions and plane memory -/

/-- R157: an instruction is the host's, a token or a symbol. -/
theorem instr_classes (i : Instr) : hostInstr i = true ∨ tokenInstr i = true ∨ symInstr i = true := by
  cases i <;> simp [hostInstr, tokenInstr, symInstr]

/-- R210, R212: a load stores no sample. -/
theorem planes_loadQt (i : BitVec 2) (s : State) : (loadQt i s).planes = s.planes := by
  unfold loadQt
  split <;> rfl

theorem planes_loadHt (i : BitVec 2) (c : BitVec 1) (s : State) : (loadHt i c s).planes = s.planes := by
  unfold loadHt
  split
  · rfl
  · unfold installHt
    split <;> rfl

theorem planes_startFrame (s : State) : (startFrame s).planes = s.planes ∨ (startFrame s).planes = [] := by
  unfold startFrame
  simp only
  split
  · exact .inl rfl
  · exact .inr rfl

theorem planes_startScan (f : FrameSnap) (s : State) : (startScan f s).planes = s.planes := by
  unfold startScan
  split <;> rfl

theorem planes_convert (f : FrameSnap) (s : State) : (convert f s).planes = s.planes := by
  unfold convert
  split <;> rfl

/-- R71: the host's instructions leave the planes alone, or are among the three that empty them. -/
theorem planes_exec_host {i : Instr} (hi : hostInstr i = true) (he : exec i s = .next t) :
    t.planes = s.planes ∨ (t.planes = [] ∧ (i = .startFrame ∨ i = .abort ∨ ∃ v, i = .ctrlSoftReset v)) := by
  cases i
  case startFrame =>
    injection he with he; subst he; split
    · exact (planes_startFrame s).imp_right fun h => ⟨h, .inl rfl⟩
    · exact .inl rfl
  case abort => injection he with he; subst he; exact .inr ⟨rfl, .inr (.inl rfl)⟩
  case ctrlSoftReset v =>
    injection he with he; subst he; split
    · exact .inr ⟨rfl, .inr (.inr ⟨v, rfl⟩)⟩
    · exact .inl rfl
  all_goals left
  case nop => injection he with he; exact he ▸ rfl
  case loadQt i => injection he with he; subst he; split; exacts [planes_loadQt i s, rfl]
  case loadHt i c => injection he with he; subst he; split; exacts [planes_loadHt i c s, rfl]
  case startScan =>
    obtain ⟨f, -, -, rfl⟩ | rfl := exec_startScan he
    exacts [planes_startScan f s, rfl]
  case convert =>
    obtain ⟨f, -, -, rfl⟩ | rfl := exec_convert he
    exacts [planes_convert f s, rfl]
  case cmdRejected => injection he with he; exact he ▸ rfl
  case tblDataWr => injection he with he; subst he; split <;> rfl
  case inDataWr =>
    injection he with he; subst he; split
    · split <;> rfl
    · rfl
  case outDataRd | intStatusWr => injection he with he; subst he; rfl
  all_goals exact absurd hi Bool.false_ne_true

/-- Settles O56: tokens and symbols change the decoder's own fields or raise an error, and the host's instructions are looked
at one by one. -/
theorem instructionsStoreNoSample : Obligations.InstructionsStoreNoSample := by
  intro i s t he
  obtain hi | hi | hi := instr_classes i
  · exact (planes_exec_host hi he).imp_left fun h a => by rw [h]
  · obtain ⟨br, rfl⟩ := exec_token hi he
    exact .inl fun _ => rfl
  · obtain ⟨k, d, a, rfl⟩ | ⟨br, pred, blk, seq, -, rfl⟩ := exec_symbol hi he
    · exact .inl fun _ => rfl
    · exact .inl fun _ => rfl

end Sys2Proof.Machine
end

section
/-! PROOFS. The output FIFO, which only a conversion fills (O53), the tables and snapshots, which stay while a scan or a
conversion runs (O54), and the accesses the host port refuses (O6). -/
namespace Sys2Proof.Machine

variable {s t : State}

/-! ### Accesses the host port refuses -/

/-- R101: an access outside the window is refused, whatever its width. -/
theorem hostAccess_outside {a : Access} (h : a.addr < s.par.regBase ∨ s.par.regBase + 256 ≤ a.addr) :
    hostAccess a s = .refused .outsideWindow := by
  have hin : inWindow s.par a = false := decide_eq_false (by omega)
  simp [hostAccess, hin]

/-- R104, R108: inside the window, an access that is not an aligned word is refused. -/
theorem hostAccess_misaligned {a : Access} (h1 : s.par.regBase ≤ a.addr) (h2 : a.addr < s.par.regBase + 256)
    (h : a.width ≠ 4 ∨ (a.addr - s.par.regBase) % 4 ≠ 0) : hostAccess a s = .refused .badAccess := by
  have hin : inWindow s.par a = true := decide_eq_true ⟨h1, h2⟩
  have hal : aligned s.par a = false := decide_eq_false (by omega)
  simp [hostAccess, hin, hal]

/-- Settles O6: the port tests the window first and the alignment next. -/
theorem otherAccessesAreRefused : Obligations.OtherAccessesAreRefused := fun _ _ =>
  ⟨hostAccess_misaligned, hostAccess_outside⟩

/-! ### What the engine leaves alone -/

/-- R124: the tables, the snapshots and the conversion mode are as before. -/
structure Frozen (s t : State) : Prop where
  tabs : t.tabs = s.tabs
  frame : t.frame = s.frame
  scan : t.scan = s.scan
  cvMode : t.cvMode = s.cvMode

/-- R124, R127: an operation of the engine changes no table and no snapshot, and all it does to the output FIFO is to append
one byte in a conversion that goes on. -/
structure EngineKeeps (s t : State) : Prop extends Frozen s t where
  out : t.outFifo = s.outFifo ∨ (s.st = .convert ∧ t.st = .convert ∧ ∃ b, t.outFifo = s.outFifo ++ [b])

theorem EngineKeeps.silent (htabs : t.tabs = s.tabs) (hframe : t.frame = s.frame) (hscan : t.scan = s.scan)
    (hmode : t.cvMode = s.cvMode) (hout : t.outFifo = s.outFifo) : EngineKeeps s t :=
  ⟨⟨htabs, hframe, hscan, hmode⟩, .inl hout⟩

theorem keeps_inPop (s : State) : EngineKeeps s (inPop s) := by
  unfold inPop
  simp only
  split <;> exact .silent rfl rfl rfl rfl rfl

theorem keeps_exec_token {i : Instr} (hi : tokenInstr i = true) (he : exec i s = .next t) : EngineKeeps s t := by
  obtain ⟨br, rfl⟩ := exec_token hi he
  exact .silent rfl rfl rfl rfl rfl

theorem keeps_exec_symbol {i : Instr} (hi : symInstr i = true) (he : exec i s = .next t) : EngineKeeps s t := by
  obtain ⟨k, d, a, rfl⟩ | ⟨br, pred, blk, seq, -, rfl⟩ := exec_symbol hi he
  · exact .silent rfl rfl rfl rfl rfl
  · exact .silent rfl rfl rfl rfl rfl

theorem keeps_beginMcu (he : beginMcu s = .ok t) : EngineKeeps s t := by
  obtain ⟨-, rfl⟩ := beginMcu_ok he
  exact .silent rfl rfl rfl rfl rfl

theorem keeps_restartJudge (he : restartJudge s = .ok t) : EngineKeeps s t := by
  obtain ⟨k, d, a, rfl⟩ | ⟨-, -, -, hb⟩ := restartJudge_ok he
  · exact .silent rfl rfl rfl rfl rfl
  · obtain ⟨-, rfl⟩ := beginMcu_ok hb
    exact .silent rfl rfl rfl rfl rfl

theorem keeps_takeBits (he : takeBits s = .ok t) : EngineKeeps s t := by
  obtain ⟨br, -, ⟨b, rfl⟩ | rfl | rfl | ⟨n, v, bp, -, rfl⟩ | ⟨n, v, rfl⟩⟩ := takeBits_ok he <;>
    exact .silent rfl rfl rfl rfl rfl

theorem keeps_storeBlock (he : storeBlock s = .ok t) : EngineKeeps s t := by
  obtain ⟨f, sc, bp, s1, -, -, -, hs1, hcases⟩ := storeBlock_ok he
  obtain ⟨coef, q, -, -, -, rfl⟩ := transformAndStore_ok hs1
  obtain ⟨-, rfl⟩ | ⟨-, rfl⟩ := hcases <;> exact .silent rfl rfl rfl rfl rfl

theorem keeps_mcuDone (he : mcuDone s = .ok t) : EngineKeeps s t := by
  obtain ⟨sc, -, hcases⟩ := mcuDone_ok he
  obtain ⟨rows, mask, hcount⟩ := mcuCounted_eq sc s
  rw [hcount] at hcases
  obtain ⟨-, rfl⟩ | ⟨-, rfl⟩ := hcases <;> exact .silent rfl rfl rfl rfl rfl

theorem keeps_endJudge (he : endJudge s = .ok t) : EngineKeeps s t := by
  obtain ⟨k, d, a, rfl⟩ | rfl | ⟨x, -, -, hc⟩ := endJudge_ok he
  · exact .silent rfl rfl rfl rfl rfl
  · exact .silent rfl rfl rfl rfl rfl
  · obtain ⟨sc, -, rfl⟩ := completeScan_ok hc
    exact .silent rfl rfl rfl rfl rfl

/-- R431: the one operation that fills the output FIFO. -/
theorem keeps_outPush (hst : s.st = .convert) (he : outPush s = .ok t) : EngineKeeps s t := by
  obtain ⟨f, mode, bytes, -, -, -, rfl⟩ := outPush_ok he
  exact ⟨⟨rfl, rfl, rfl, rfl⟩, .inr ⟨hst, hst, _, rfl⟩⟩

theorem keeps_engineOther (he : engineOther (nextOp s) s = .ok t) : EngineKeeps s t := by
  have hspec := nextOp_spec s
  cases hop : nextOp s <;> rw [hop] at hspec he
  case noStep | token | symbol => injection he with he; exact he ▸ .silent rfl rfl rfl rfl rfl
  case inPop => injection he with he; exact he ▸ keeps_inPop s
  case align | trail | convertDone => injection he with he; subst he; exact .silent rfl rfl rfl rfl rfl
  case beginMcu => exact keeps_beginMcu he
  case restartJudge => exact keeps_restartJudge he
  case readBits => exact keeps_takeBits he
  case storeBlock => exact keeps_storeBlock he
  case mcuDone => exact keeps_mcuDone he
  case endJudge => exact keeps_endJudge he
  case outPush => exact keeps_outPush hspec.1 he

theorem keeps_engineStep (he : engineStep s = .next t) : EngineKeeps s t := by
  obtain ⟨u, rfl, hu⟩ := engineStep_next he
  have hkeeps : EngineKeeps s u := by
    obtain ⟨i, hi, hu⟩ | ⟨-, hu⟩ := hu
    · obtain ⟨-, rfl⟩ | ⟨-, b, -, rfl⟩ := engineInstr_eq_some hi
      · exact keeps_exec_token (decodeToken_token _) hu
      · exact keeps_exec_symbol (symbolInstr_sym _ _) hu
    · exact keeps_engineOther hu
  exact { hkeeps with }

/-! ### The output FIFO under the host -/

theorem outFifo_loadQt (i : BitVec 2) (s : State) : (loadQt i s).outFifo = s.outFifo := by
  unfold loadQt
  split <;> rfl

theorem outFifo_loadHt (i : BitVec 2) (c : BitVec 1) (s : State) : (loadHt i c s).outFifo = s.outFifo := by
  unfold loadHt
  split
  · rfl
  · unfold installHt
    split <;> rfl

/-- R222: the commit of START_FRAME empties the output FIFO. -/
theorem outFifo_startFrame (s : State) : (startFrame s).outFifo = s.outFifo ∨ (startFrame s).outFifo = [] := by
  unfold startFrame
  simp only
  split
  · exact .inl rfl
  · exact .inr rfl

theorem outFifo_startScan (f : FrameSnap) (s : State) : (startScan f s).outFifo = s.outFifo := by
  unfold startScan
  split <;> rfl

theorem outFifo_convert (f : FrameSnap) (s : State) : (convert f s).outFifo = s.outFifo := by
  unfold convert
  split <;> rfl

/-- R127: what the host can do to the output FIFO. -/
def OutTaken (s t : State) : Prop := t.outFifo = s.outFifo ∨ t.outFifo = s.outFifo.tail ∨ t.outFifo = []

/-- R45, R222, R240, R500: a read of OUT_DATA pops, and START_FRAME, ABORT and a soft reset empty the FIFO; no other host
instruction touches it. -/
theorem outTaken_exec_host {i : Instr} (hi : hostInstr i = true) (he : exec i s = .next t) : OutTaken s t := by
  cases i
  case outDataRd => injection he with he; subst he; exact .inr (.inl rfl)
  case startFrame =>
    injection he with he; subst he; split
    · exact (outFifo_startFrame s).imp_right .inr
    · exact .inl rfl
  case abort => injection he with he; subst he; exact .inr (.inr rfl)
  case ctrlSoftReset =>
    injection he with he; subst he; split
    · exact .inr (.inr rfl)
    · exact .inl rfl
  all_goals left
  case nop => injection he with he; exact he ▸ rfl
  case loadQt i => injection he with he; subst he; split; exacts [outFifo_loadQt i s, rfl]
  case loadHt i c => injection he with he; subst he; split; exacts [outFifo_loadHt i c s, rfl]
  case startScan =>
    obtain ⟨f, -, -, rfl⟩ | rfl := exec_startScan he
    exacts [outFifo_startScan f s, rfl]
  case convert =>
    obtain ⟨f, -, -, rfl⟩ | rfl := exec_convert he
    exacts [outFifo_convert f s, rfl]
  case cmdRejected => injection he with he; exact he ▸ rfl
  case tblDataWr => injection he with he; subst he; split <;> rfl
  case inDataWr =>
    injection he with he; subst he; split
    · split <;> rfl
    · rfl
  case intStatusWr => injection he with he; subst he; rfl
  all_goals exact absurd hi Bool.false_ne_true

theorem outTaken_hostAccess {a : Access} (he : hostAccess a s = .next t) : OutTaken s t := by
  obtain ⟨off, -, ⟨i, hi, he⟩ | rfl | rfl⟩ := hostAccess_next he
  · exact outTaken_exec_host (decodeAccess_host hi) he
  · exact .inl rfl
  · exact .inl rfl

/-- Settles O53: the engine appends in CONVERT alone, the host only takes, and the graph of R23 has no edge from CONVERT to
ERROR. -/
theorem outputIsProducedOnlyByAConversion : Obligations.OutputIsProducedOnlyByAConversion := by
  intro s t hstep
  constructor
  · obtain ⟨r, m, ⟨-, he⟩ | rfl | ⟨a, -, -, he⟩ | ⟨-, -, rfl⟩⟩ := step_next hstep
    · exact (keeps_engineStep he).out.imp_right fun hpush => .inr (.inr hpush)
    · exact .inl rfl
    · exact (outTaken_hostAccess he).imp_right (.imp_right .inl)
    · exact .inr (.inr (.inl rfl))
  · intro hconvert herror
    simpa [hconvert, herror] using engineStatesMoveAlongTheGraph s t hstep

/-! ### The tables and snapshots under the host -/

/-- R201: while a scan or a conversion runs, the commands that write tables and snapshots are rejected; of the others, ABORT
leaves the tables alone and ends the command, and only a soft reset changes them. -/
theorem exec_host_inUse {i : Instr} (hst : s.st = .scan ∨ s.st = .convert) (hi : hostInstr i = true)
    (he : exec i s = .next t) :
    Frozen s t ∨ t = abortFrame s ∨ ∃ v, i = .ctrlSoftReset v ∧ v.getLsbD 0 = true ∧ t = resetAction s := by
  have hidle : s.st ≠ .idle := fun e => by simp [e] at hst
  have hframe : s.st ≠ .frame := fun e => by simp [e] at hst
  have hload : ¬ acceptsLoad s.st = true := by simp [acceptsLoad, hidle, hframe]
  have hreject : Frozen s (reject s) := ⟨rfl, rfl, rfl, rfl⟩
  cases i
  case ctrlSoftReset v =>
    injection he with he; subst he; split
    · next hv => exact .inr (.inr ⟨v, rfl, hv, rfl⟩)
    · exact .inl ⟨rfl, rfl, rfl, rfl⟩
  case abort => injection he with he; exact .inr (.inl he.symm)
  all_goals left
  case loadQt | loadHt => injection he with he; rw [if_neg hload] at he; exact he ▸ hreject
  case startFrame => injection he with he; rw [if_neg hidle] at he; exact he ▸ hreject
  case startScan =>
    obtain ⟨f, e, -, -⟩ | rfl := exec_startScan he
    exacts [absurd e hframe, hreject]
  case convert =>
    obtain ⟨f, e, -, -⟩ | rfl := exec_convert he
    exacts [absurd e hframe, hreject]
  case cmdRejected => injection he with he; exact he ▸ hreject
  case nop => injection he with he; exact he ▸ ⟨rfl, rfl, rfl, rfl⟩
  case tblDataWr => injection he with he; subst he; split <;> exact ⟨rfl, rfl, rfl, rfl⟩
  case inDataWr =>
    injection he with he; subst he; split
    · split <;> exact ⟨rfl, rfl, rfl, rfl⟩
    · exact ⟨rfl, rfl, rfl, rfl⟩
  case outDataRd | intStatusWr => injection he with he; subst he; exact ⟨rfl, rfl, rfl, rfl⟩
  all_goals exact absurd hi Bool.false_ne_true

theorem hostAccess_inUse {a : Access} (hst : s.st = .scan ∨ s.st = .convert) (he : hostAccess a s = .next t) :
    Frozen s t ∨ t = abortFrame s ∨
      (WritesAt a s.par.regBase 0x04 ∧ a.data.getLsbD 0 = true ∧ t = resetAction s) := by
  obtain ⟨h1, h2, hw⟩ := hostAccess_taken he
  obtain ⟨off, rfl, ⟨i, hi, he⟩ | rfl | rfl⟩ := hostAccess_next he
  · obtain hfrozen | rfl | ⟨v, rfl, hv, rfl⟩ := exec_host_inUse hst (decodeAccess_host hi) he
    · exact .inl hfrozen
    · exact .inr (.inl rfl)
    · obtain ⟨hwr, hoff, rfl⟩ := decodeAccess_eq_ctrl hi
      exact .inr (.inr ⟨⟨hwr, addr_of_offset h1 h2 hoff, hw⟩, hv, rfl⟩)
  · exact .inl ⟨rfl, rfl, rfl, rfl⟩
  · exact .inl ⟨rfl, rfl, rfl, rfl⟩

/-- R124: while a scan or a conversion runs, a step keeps the tables and the snapshots, or it leaves for IDLE by an ABORT,
which keeps the tables, or by a reset. -/
theorem step_inUse (hst : s.st = .scan ∨ s.st = .convert) (hstep : step s = .next t) :
    Frozen s t ∨ (t.st = .idle ∧ (t.tabs = s.tabs ∨ resetNext s = true)) := by
  obtain ⟨r, m, ⟨-, he⟩ | rfl | ⟨a, ht, hm, he⟩ | ⟨⟨l, ht⟩, hm, rfl⟩⟩ := step_next hstep
  · exact .inl { (keeps_engineStep he).toFrozen with }
  · exact .inl ⟨rfl, rfl, rfl, rfl⟩
  · obtain hfrozen | rfl | ⟨hw, hd, rfl⟩ := hostAccess_inUse (s := { s with turns := r, mid := m }) hst he
    · exact .inl { hfrozen with }
    · exact .inr ⟨rfl, .inl rfl⟩
    · exact .inr ⟨rfl, .inr (resetNext_of_ctrl ht hm hw hd)⟩
  · exact .inr ⟨rfl, .inr (by simp [resetNext, ht, hm])⟩

/-- Settles O54: a step that stays in SCAN or CONVERT does not leave for IDLE, so it keeps the snapshots. -/
theorem tablesAndSnapshotsAreFrozenInUse : Obligations.TablesAndSnapshotsAreFrozenInUse := by
  intro s t hst hstep
  obtain hfrozen | ⟨hidle, htabs⟩ := step_inUse hst hstep
  · exact ⟨.inl hfrozen.tabs, fun _ => ⟨hfrozen.frame, hfrozen.scan, hfrozen.cvMode⟩⟩
  · refine ⟨htabs, fun hsame => ?_⟩
    rw [← hsame, hidle] at hst
    simp at hst

end Sys2Proof.Machine
end

section
/-! PROOFS. The encoding (R140-R149, R250): what the decoder of each format reads of an encoded word, the round trip (O1),
well-formed instructions out of every decoder (O2), the one meaning of a command word and of a symbol byte (O3), the illegal
command words (O4), and words of the spec's tables (O5). -/
namespace Sys2Proof.Machine

/-! ### A format's own bits inside the 48 -/

theorem extractLsb'_zero_setWidth {n m : Nat} (h : n ≤ m) (w : BitVec n) : (w.setWidth m).extractLsb' 0 n = w := by
  rw [BitVec.extractLsb'_setWidth_of_le (by omega), BitVec.extractLsb'_eq_self]

theorem extractLsb'_setWidth_above {n m k : Nat} (w : BitVec n) : (w.setWidth m).extractLsb' n k = 0#k := by
  ext i hi
  simp

/-- A word with no bit set above its lowest `n` is those bits, widened. -/
theorem eq_setWidth_of_extractLsb'_above {n k : Nat} {b : BitVec (n + k)} (h : b.extractLsb' n k = 0#k) :
    b = (b.extractLsb' 0 n).setWidth (n + k) := by
  refine BitVec.eq_of_getLsbD_eq fun i hi => ?_
  by_cases hn : i < n
  · simp [hn, hi]
  · have hbit : (b.extractLsb' n k).getLsbD (i - n) = false := by rw [h, BitVec.getLsbD_zero]
    have hi' : n + (i - n) = i := by omega
    have hk : i - n < k := by omega
    simpa [hn, hk, hi'] using hbit

/-! ### The decoder, a format at a time -/

theorem decode_cmd (w : Word) : decode ⟨.cmd, w.setWidth 48⟩ = .ok (decodeCmd w) := by
  simp only [decode, extractLsb'_setWidth_above, extractLsb'_zero_setWidth (by decide : 32 ≤ 48)]; rfl

theorem decode_token (w : BitVec 18) : decode ⟨.token, w.setWidth 48⟩ = .ok (decodeToken w) := by
  simp only [decode, extractLsb'_setWidth_above, extractLsb'_zero_setWidth (by decide : 18 ≤ 48)]; rfl

theorem decode_dcSym (b : Byte) : decode ⟨.dcSym, b.setWidth 48⟩ = .ok (decodeDc b) := by
  simp only [decode, extractLsb'_setWidth_above, extractLsb'_zero_setWidth (by decide : 8 ≤ 48)]; rfl

theorem decode_acSym (b : Byte) : decode ⟨.acSym, b.setWidth 48⟩ = .ok (decodeAc b) := by
  simp only [decode, extractLsb'_setWidth_above, extractLsb'_zero_setWidth (by decide : 8 ≤ 48)]; rfl

/-- R250: the fields of an access's word. -/
theorem accessWord_fields (write : Bool) (off : Byte) (v : Word) :
    let bits := (accessWord write off v).bits
    bits.extractLsb' 0 8 = off ∧ bits.getLsbD 8 = write ∧ bits.extractLsb' 9 7 = 0 ∧ bits.extractLsb' 16 32 = v := by
  let bits := v ++ 0#7 ++ BitVec.ofBool write ++ off
  have hdata : bits.extractLsb' 16 32 = v := by
    rw [BitVec.extractLsb'_append_eq_of_le (by decide), BitVec.extractLsb'_append_eq_of_le (by decide)]
    exact BitVec.extractLsb'_append_eq_left
  have hgap : bits.extractLsb' 9 7 = 0 := by
    rw [BitVec.extractLsb'_append_eq_of_le (by decide), BitVec.extractLsb'_append_eq_of_le (by decide)]
    exact BitVec.extractLsb'_append_eq_right
  have hwrite : bits.getLsbD 8 = write := by
    simp only [bits, BitVec.getLsbD_append]
    simp
  exact ⟨BitVec.extractLsb'_append_eq_right, hwrite, hgap, hdata⟩

theorem decode_accessWord (write : Bool) (off : Byte) (v : Word) :
    decode (accessWord write off v) = decodeRegAccess write off v := by
  obtain ⟨hoff, hwrite, hgap, hdata⟩ := accessWord_fields write off v
  show (if (accessWord write off v).bits.extractLsb' 9 7 = 0 then _ else _) = _
  rw [if_pos hgap, hoff, hwrite, hdata]

/-- What `decode` reads is what the decoder of the word's format reads of the format's own bits. -/
theorem decode_ok {w : IWord} {i : Instr} (h : decode w = .ok i) :
    (∃ c : Word, w = ⟨.cmd, c.setWidth 48⟩ ∧ i = decodeCmd c) ∨
    (w.fmt = .regAccess ∧ ∃ write off v, decodeRegAccess write off v = .ok i) ∨
    (∃ t : BitVec 18, w = ⟨.token, t.setWidth 48⟩ ∧ i = decodeToken t) ∨
    (∃ b : Byte, w = ⟨.dcSym, b.setWidth 48⟩ ∧ i = decodeDc b) ∨
    ∃ b : Byte, w = ⟨.acSym, b.setWidth 48⟩ ∧ i = decodeAc b := by
  obtain ⟨fmt, bits⟩ := w
  cases fmt <;> simp only [decode, ite_eq_iff, reduceCtorEq, and_false, or_false, Except.ok.injEq] at h <;>
    obtain ⟨hz, h⟩ := h
  case regAccess => exact .inr (.inl ⟨rfl, _, _, _, h⟩)
  all_goals have hbits := eq_setWidth_of_extractLsb'_above hz
  case cmd => exact .inl ⟨_, congrArg _ hbits, h.symm⟩
  case token => exact .inr (.inr (.inl ⟨_, congrArg _ hbits, h.symm⟩))
  case dcSym => exact .inr (.inr (.inr (.inl ⟨_, congrArg _ hbits, h.symm⟩)))
  case acSym => exact .inr (.inr (.inr (.inr ⟨_, congrArg _ hbits, h.symm⟩)))

/-! ### Command words -/

/-- R140: a command word has a reserved bit set, or it is its three fields. -/
theorem commandWord_cases {P : Word → Prop} (w : Word) (reserved : ∀ w : Word, w.extractLsb' 7 25 ≠ 0 → P w)
    (fields : ∀ (cls : BitVec 1) (id : BitVec 2) (op : BitVec 4), P (0#25 ++ cls ++ id ++ op)) : P w := by
  by_cases h : w.extractLsb' 7 25 = 0
  · have hw : w = w.extractLsb' 7 25 ++ w.extractLsb' 6 1 ++ w.extractLsb' 4 2 ++ w.extractLsb' 0 4 := by
      simp only [BitVec.extractLsb'_append_extractLsb'_eq_extractLsb', BitVec.extractLsb'_eq_self]
    rw [h] at hw
    exact hw ▸ fields _ _ _
  · exact reserved w h

/-- R142: a reserved bit alone makes a word illegal. -/
theorem decodeCmd_reserved {w : Word} (h : w.extractLsb' 7 25 ≠ 0) : decodeCmd w = .cmdRejected w := if_pos h

theorem illegalCmd_reserved {w : Word} (h : w.extractLsb' 7 25 ≠ 0) : illegalCmd w = true :=
  decide_eq_true (.inr (.inl h))

theorem decodeCmd_eq_cmdRejected_iff (w : Word) : decodeCmd w = .cmdRejected w ↔ illegalCmd w = true := by
  induction w using commandWord_cases with
  | reserved w h => exact iff_of_true (decodeCmd_reserved h) (illegalCmd_reserved h)
  | fields => decide +revert

theorem decodeCmd_wf (w : Word) : (decodeCmd w).wf = true := by
  induction w using commandWord_cases with
  | reserved w h => rw [decodeCmd_reserved h]; exact illegalCmd_reserved h
  | fields => decide +revert

theorem encode_decodeCmd (w : Word) : encode (decodeCmd w) = ⟨.cmd, w.setWidth 48⟩ := by
  induction w using commandWord_cases with
  | reserved w h => rw [decodeCmd_reserved h]; rfl
  | fields => decide +revert

theorem decode_cmdWord (op : BitVec 4) (id : BitVec 2) (cls : BitVec 1) :
    decode (cmdWord op id cls) = .ok (decodeCmd (0#25 ++ cls ++ id ++ op)) := by
  decide +revert

theorem decodeCmd_loadQt (id : BitVec 2) : decodeCmd (0#25 ++ 0#1 ++ id ++ 1#4) = .loadQt id := by
  decide +revert

theorem decodeCmd_loadHt (id : BitVec 2) (cls : BitVec 1) : decodeCmd (0#25 ++ cls ++ id ++ 2#4) = .loadHt id cls := by
  decide +revert

/-! ### Register accesses, tokens and symbols -/

theorem decodeRegAccess_wf {write : Bool} {off : Byte} {v : Word} {i : Instr}
    (h : decodeRegAccess write off v = .ok i) : i.wf = true := by
  unfold decodeRegAccess at h
  repeat' split at h
  all_goals cases h
  all_goals rfl

theorem decodeToken_data {b : Byte} (h : b ≠ 0xFF) : decodeToken (tokenWord [.byte b]) = .data b := by
  decide +revert

theorem decodeToken_rstN (n : BitVec 3) : decodeToken (tokenWord [.byte 0xFF, .byte (0x1A#5 ++ n)]) = .rstN n := by
  decide +revert

theorem decodeToken_marker {x : Byte} (h : stopCode x = true) :
    decodeToken (tokenWord [.byte 0xFF, .byte x]) = .marker x := by
  decide +revert

/-- R146: the codes 0xD0 to 0xD7 are those with 0x1A in their upper five bits. -/
theorem stopCode_of_not_rst {x : Byte} (h0 : x ≠ 0x00) (hF : x ≠ 0xFF) (hrst : x.extractLsb' 3 5 ≠ 0x1A) :
    stopCode x = true := by
  decide +revert

theorem decodeToken_wf (w : BitVec 18) : (decodeToken w).wf = true := by
  unfold decodeToken
  simp only
  split
  · rfl
  split
  · next hdata => exact decide_eq_true hdata
  split
  · rfl
  split
  · rfl
  split
  · rfl
  split
  · rfl
  · next h0 hF hrst => exact stopCode_of_not_rst h0 hF hrst

/-- R148: a category that is not 0 is at least 1. -/
theorem one_le_toNat_iff {b : Byte} : 1 ≤ b.toNat ↔ b ≠ 0 := by
  rw [Nat.one_le_iff_ne_zero, ne_eq, ne_eq, ← BitVec.toNat_inj]; rfl

theorem decodeDc_wf (b : Byte) : (decodeDc b).wf = true := by
  unfold decodeDc
  split
  · rfl
  next h0 =>
  split
  · next h7 => exact decide_eq_true ⟨one_le_toNat_iff.mpr h0, h7⟩
  split
  · next h7 h11 => exact decide_eq_true ⟨Nat.lt_of_not_le h7, h11⟩
  · next h11 => exact decide_eq_true (Nat.lt_of_not_le h11)

theorem encode_decodeDc (b : Byte) : encode (decodeDc b) = ⟨.dcSym, b.setWidth 48⟩ := by
  unfold decodeDc
  repeat' split
  · next h => rw [h]; rfl
  all_goals rfl

theorem decodeDc_dcDiffLow {t : Byte} (h : 1 ≤ t.toNat ∧ t.toNat ≤ 7) : decodeDc t = .dcDiffLow t := by
  rw [decodeDc, if_neg (one_le_toNat_iff.mp h.1), if_pos h.2]

theorem decodeDc_dcDiffHigh {t : Byte} (h : 8 ≤ t.toNat ∧ t.toNat ≤ 11) : decodeDc t = .dcDiffHigh t := by
  rw [decodeDc, if_neg (one_le_toNat_iff.mp (by omega)), if_neg (by omega), if_pos h.2]

theorem decodeDc_dcIllegal {t : Byte} (h : 12 ≤ t.toNat) : decodeDc t = .dcIllegal t := by
  rw [decodeDc, if_neg (one_le_toNat_iff.mp (by omega)), if_neg (by omega), if_neg (by omega)]

theorem decodeAc_wf (b : Byte) : (decodeAc b).wf = true := by
  decide +revert

/-- R149: the two halves of the byte are kept. -/
theorem encode_decodeAc (b : Byte) : encode (decodeAc b) = ⟨.acSym, b.setWidth 48⟩ := by
  have hb : b.extractLsb' 4 4 ++ b.extractLsb' 0 4 = b := BitVec.extractLsb'_append_extractLsb'
  unfold decodeAc
  simp only
  split
  · next h => rw [h]; rfl
  split
  · next h => rw [h]; rfl
  split
  · next hs => rw [hs] at hb; exact congrArg (fun c : Byte => IWord.mk .acSym (c.setWidth 48)) hb
  · exact congrArg (fun c : Byte => IWord.mk .acSym (c.setWidth 48)) hb

theorem decodeAc_acRunOnly {r : BitVec 4} (h : 1 ≤ r.toNat ∧ r.toNat ≤ 14) : decodeAc (r ++ 0#4) = .acRunOnly r := by
  decide +revert

theorem decodeAc_acRunValue (r : BitVec 4) {s : BitVec 4} (h : s ≠ 0) : decodeAc (r ++ s) = .acRunValue r s := by
  decide +revert

/-! ### The statements -/

/-- The round trip, a constructor at a time: the word's format gives its fields back, and they its instruction. -/
theorem decode_encode {i : Instr} (h : i.wf = true) : decode (encode i) = .ok i := by
  cases i
  case nop | startFrame | startScan | convert | abort => exact decode_cmdWord ..
  case loadQt id => exact (decode_cmdWord 1 id 0).trans (congrArg _ (decodeCmd_loadQt id))
  case loadHt id cls => exact (decode_cmdWord 2 id cls).trans (congrArg _ (decodeCmd_loadHt id cls))
  case cmdRejected w => exact (decode_cmd w).trans (congrArg _ ((decodeCmd_eq_cmdRejected_iff w).mpr h))
  case tblDataWr | inDataWr | outDataRd | intStatusWr | ctrlSoftReset => exact decode_accessWord ..
  case stuffed | fillRun | dangling | endTok => exact decode_token _
  case rstN n => exact (decode_token _).trans (congrArg _ (decodeToken_rstN n))
  case marker x => exact (decode_token _).trans (congrArg _ (decodeToken_marker h))
  case data b => exact (decode_token _).trans (congrArg _ (decodeToken_data (of_decide_eq_true h)))
  case dcZero => exact decode_dcSym 0
  case dcDiffLow t => exact (decode_dcSym t).trans (congrArg _ (decodeDc_dcDiffLow (of_decide_eq_true h)))
  case dcDiffHigh t => exact (decode_dcSym t).trans (congrArg _ (decodeDc_dcDiffHigh (of_decide_eq_true h)))
  case dcIllegal t => exact (decode_dcSym t).trans (congrArg _ (decodeDc_dcIllegal (of_decide_eq_true h)))
  case acEob => exact decode_acSym 0
  case acZrl => exact decode_acSym 0xF0
  case acRunOnly r => exact (decode_acSym _).trans (congrArg _ (decodeAc_acRunOnly (of_decide_eq_true h)))
  case acRunValue r s => exact (decode_acSym _).trans (congrArg _ (decodeAc_acRunValue r (of_decide_eq_true h)))

/-- Settles O1: each format's decoder takes the encoding apart again. -/
theorem decodingAnEncodedInstructionGivesItBack : Obligations.DecodingAnEncodedInstructionGivesItBack :=
  fun _ h => decode_encode h

theorem decode_wf {w : IWord} {i : Instr} (h : decode w = .ok i) : i.wf = true := by
  obtain ⟨c, -, rfl⟩ | ⟨-, write, off, v, h⟩ | ⟨t, -, rfl⟩ | ⟨b, -, rfl⟩ | ⟨b, -, rfl⟩ := decode_ok h
  · exact decodeCmd_wf c
  · exact decodeRegAccess_wf h
  · exact decodeToken_wf t
  · exact decodeDc_wf b
  · exact decodeAc_wf b

theorem decodeAccess_wf {write : Bool} {off : Byte} {v : Word} {i : Instr} (h : decodeAccess write off v = .ok i) :
    i.wf = true := by
  unfold decodeAccess at h
  split at h
  · exact Except.ok.inj h ▸ decodeCmd_wf v
  · exact decodeRegAccess_wf h

/-- Settles O2: what `decode` and `decodeAccess` read, a decoder of one format reads. -/
theorem decodedInstructionsAreWellFormed : Obligations.DecodedInstructionsAreWellFormed :=
  ⟨fun _ _ => decode_wf, fun _ _ _ _ => decodeAccess_wf⟩

/-- Settles O3: the word is its format's own bits, and the format's decoder has the encoder as its inverse. -/
theorem commandAndSymbolWordsHaveOneMeaning : Obligations.CommandAndSymbolWordsHaveOneMeaning := by
  intro w i hfmt h
  obtain ⟨c, rfl, rfl⟩ | ⟨hacc, -⟩ | ⟨t, rfl, rfl⟩ | ⟨b, rfl, rfl⟩ | ⟨b, rfl, rfl⟩ := decode_ok h
  · exact encode_decodeCmd c
  · simp [hacc] at hfmt
  · simp at hfmt
  · exact encode_decodeDc b
  · exact encode_decodeAc b

/-- R142, R201: the rejection is one bit of INT_STATUS. -/
theorem exec_cmdRejected (w : Word) (s : State) :
    exec (.cmdRejected w) s = .next { s with intStatus := s.intStatus ||| 0x10 } := by
  show Host.Outcome.next { s with intStatus := intUpdate s.intStatus 0 0x10 } = _
  rw [intUpdate_set]

/-- Settles O4: the listed words are those `illegalCmd` tests for. -/
theorem illegalCommandWordsAreOnlyRejected : Obligations.IllegalCommandWordsAreOnlyRejected :=
  ⟨exec_cmdRejected, fun w => decide_eq_true_iff.symm.trans (decodeCmd_eq_cmdRejected_iff w).symm⟩

/-- Settles O5, by running the decoder on the eight words. -/
theorem wordsOfTheSpecDecode : Obligations.WordsOfTheSpecDecode := by
  unfold Obligations.WordsOfTheSpecDecode
  decide

end Sys2Proof.Machine
end

section
/-! PROOFS. The zig-zag order (R150), saturated dequantisation (R361), and the widths of the FIXED transform (R369), from one
bound: a row of its matrix has absolute values that sum to 10822. -/
namespace Sys2Proof.Machine

/-- R150: every natural index is reached. -/
theorem zz_surj {n : Nat} (hn : n < 64) : ∃ k, k < 64 ∧ zz k = n := by
  have key : ∀ n : Fin 64, zigzag.idxOf n.val < 64 ∧ zz (zigzag.idxOf n.val) = n := by decide
  exact ⟨_, key ⟨n, hn⟩⟩

/-- R361: the block's length, and its entry at each zig-zag index. -/
theorem dequant_spec (coef q : List Half) : (dequant coef q).length = 64 ∧ ∀ k, k < 64 →
    (dequant coef q).getD (zz k) 0 = dequantOne (coef.getD (zz k) 0) (q.getD k 0) := by
  obtain ⟨hlen, hget⟩ := foldl_set_zz (fun k => dequantOne (coef.getD (zz k) 0) (q.getD k 0)) (l := List.range 64)
    (fun _ => List.mem_range.mp) List.nodup_range (d := List.replicate 64 0) (by simp)
  exact ⟨hlen, fun k hk => (hget k hk).trans (if_pos (List.mem_range.mpr hk))⟩

/-- R366: the absolute values of a row of `K` sum to 10822. -/
theorem kAt_abs_sum {x : Nat} (hx : x < 8) : ∑ u ∈ Finset.range 8, |kAt x u| = 10822 := by
  have key : ∀ x : Fin 8, ∑ u ∈ Finset.range 8, |kAt x u| = 10822 := by decide
  exact key ⟨x, hx⟩

/-- R369: a row of `K` against values within `B` stays within `10822 * B`. -/
theorem sum8_kAt_abs_le {x : Nat} (hx : x < 8) {d : Nat → Int} {B : Int} (hd : ∀ u, u < 8 → |d u| ≤ B) :
    |sum8 fun u => kAt x u * d u| ≤ 10822 * B := by
  rw [sum8_eq]
  calc |∑ u ∈ Finset.range 8, kAt x u * d u|
      ≤ ∑ u ∈ Finset.range 8, |kAt x u * d u| := Finset.abs_sum_le_sum_abs _ _
    _ ≤ ∑ u ∈ Finset.range 8, |kAt x u| * B := Finset.sum_le_sum fun u hu => by
        rw [abs_mul]
        exact mul_le_mul_of_nonneg_left (hd u (Finset.mem_range.mp hu)) (abs_nonneg _)
    _ = 10822 * B := by rw [← Finset.sum_mul, kAt_abs_sum hx]

theorem half_bounds (h : Half) : -32768 ≤ h.toInt ∧ h.toInt ≤ 32767 :=
  ⟨BitVec.le_toInt h, Int.le_of_lt_add_one (BitVec.toInt_lt (x := h))⟩

theorem rowAcc_abs_le (dq : List Half) (v : Nat) {x : Nat} (hx : x < 8) : |rowAcc dq v x| ≤ 354615296 := by
  refine sum8_kAt_abs_le hx (B := 32768) fun u _ => abs_le.mpr ?_
  obtain ⟨h1, h2⟩ := half_bounds (dq.getD (8 * v + u) 0)
  exact ⟨h1, by omega⟩

theorem rowPass_getD (dq : List Half) {v x : Nat} (hv : v < 8) (hx : x < 8) :
    (rowPass dq).getD (8 * v + x) 0 = (rowAcc dq v x + 128) / 256 := by
  have hi : 8 * v + x < 64 := by omega
  have e1 : (8 * v + x) / 8 = v := by omega
  have e2 : (8 * v + x) % 8 = x := by omega
  simp [rowPass, hi, e1, e2]

theorem rowPass_abs_le (dq : List Half) {v x : Nat} (hv : v < 8) (hx : x < 8) :
    |(rowPass dq).getD (8 * v + x) 0| ≤ 1385216 := by
  rw [rowPass_getD dq hv hx]
  obtain ⟨h1, h2⟩ := abs_le.mp (rowAcc_abs_le dq v hx)
  exact abs_le.mpr ⟨by omega, by omega⟩

theorem colAcc_abs_le (dq : List Half) {y x : Nat} (hy : y < 8) (hx : x < 8) :
    |colAcc (rowPass dq) y x| ≤ 14990807552 :=
  sum8_kAt_abs_le hy fun _ hv => rowPass_abs_le dq hv hx

/-- Settles O45: the order is a computed table, and each width is a row of `K` against the width before it. -/
theorem transformIntermediatesStayInWidth : Obligations.TransformIntermediatesStayInWidth := by
  refine ⟨by decide, ⟨rfl, rfl, fun n hn => ?_⟩, fun coef q k _ _ hk => ?_, fun dq v x hv hx => ?_⟩
  · obtain ⟨k, hk, e⟩ := zz_surj hn
    exact ⟨k, hk, e, fun j hj ej => zz_inj hj hk (ej.trans e.symm)⟩
  · obtain ⟨hlen, hget⟩ := dequant_spec coef q
    exact ⟨hlen, by rw [hget k hk, dequantOne, sat16_toInt]⟩
  · obtain ⟨hr1, hr2⟩ := abs_le.mp (rowAcc_abs_le dq v hx)
    obtain ⟨hg1, hg2⟩ := abs_le.mp (rowPass_abs_le dq hv hx)
    obtain ⟨hc1, hc2⟩ := abs_le.mp (colAcc_abs_le dq hv hx)
    exact ⟨fun n => half_bounds _, hr1, hr2, hg1, hg2, hc1, hc2⟩

end Sys2Proof.Machine
end

section
/-! PROOFS. The acceptance table of R201 (O12), and NOP (O13), LOAD_QT (O14), CONVERT (O20) and ABORT (O21) from the states
that accept them. -/
namespace Sys2Proof.Machine

variable {s t : State} {f : FrameSnap} {i : Instr}

/-! ### Acceptance -/

theorem acceptsLoad_iff {st : EngState} : acceptsLoad st = true ↔ st = .idle ∨ st = .frame := decide_eq_true_iff

/-- R201: a command out of its states is rejected. -/
theorem exec_of_not_accepted (hi : Claim.isCommand i) (hst : ¬ Claim.accepted i s.st) : exec i s = .next (reject s) := by
  obtain rfl | ⟨id, rfl⟩ | ⟨id, c, rfl⟩ | rfl | rfl | rfl | rfl := hi
  · exact absurd trivial hst
  · exact congrArg _ (if_neg (mt acceptsLoad_iff.mp hst))
  · exact congrArg _ (if_neg (mt acceptsLoad_iff.mp hst))
  · exact congrArg _ (if_neg hst)
  · exact if_neg hst
  · exact if_neg hst
  · exact absurd trivial hst

theorem exec_loadQt_accepted (hst : s.st = .idle ∨ s.st = .frame) (id : BitVec 2) :
    exec (.loadQt id) s = .next (loadQt id s) :=
  congrArg _ (if_pos (acceptsLoad_iff.mpr hst))

theorem exec_loadHt_accepted (hst : s.st = .idle ∨ s.st = .frame) (id : BitVec 2) (c : BitVec 1) :
    exec (.loadHt id c) s = .next (loadHt id c s) :=
  congrArg _ (if_pos (acceptsLoad_iff.mpr hst))

theorem exec_startFrame_accepted (hst : s.st = .idle) : exec .startFrame s = .next (startFrame s) :=
  congrArg _ (if_pos hst)

theorem exec_startScan_accepted (hst : s.st = .frame) (hf : s.frame = some f) :
    exec .startScan s = .next (startScan f s) := by
  show execStartScan s = _
  simp [execStartScan, hst, hf]

theorem exec_convert_accepted (hst : s.st = .frame) (hf : s.frame = some f) :
    exec .convert s = .next (convert f s) := by
  show execConvert s = _
  simp [execConvert, hst, hf]

/-! ### CMD_REJECTED under an accepted command -/

/-- R455: an error sets INT_STATUS.ERROR alone. -/
theorem raise_cmdRejected (k : ErrKind) (d : Byte) (a : Nat) (s : State) :
    (raise k d a s).intStatus.getLsbD 4 = s.intStatus.getLsbD 4 := by
  show (intUpdate s.intStatus 0 0x04).getLsbD 4 = _
  simp only [intUpdate_set, BitVec.getLsbD_or]
  exact Bool.or_false _

theorem loadQt_cmdRejected (id : BitVec 2) (s : State) :
    (loadQt id s).intStatus.getLsbD 4 = s.intStatus.getLsbD 4 := by
  unfold loadQt
  split
  · exact raise_cmdRejected ..
  · rfl

theorem loadHt_cmdRejected (id : BitVec 2) (c : BitVec 1) (s : State) :
    (loadHt id c s).intStatus.getLsbD 4 = s.intStatus.getLsbD 4 := by
  unfold loadHt
  split
  · exact raise_cmdRejected ..
  · unfold installHt
    split <;> rfl

theorem startFrame_cmdRejected (s : State) : (startFrame s).intStatus.getLsbD 4 = s.intStatus.getLsbD 4 := by
  unfold startFrame
  simp only
  split
  · exact raise_cmdRejected ..
  · rfl

theorem startScan_cmdRejected (f : FrameSnap) (s : State) :
    (startScan f s).intStatus.getLsbD 4 = s.intStatus.getLsbD 4 := by
  unfold startScan
  split
  · exact raise_cmdRejected ..
  · rfl

theorem convert_cmdRejected (f : FrameSnap) (s : State) :
    (convert f s).intStatus.getLsbD 4 = s.intStatus.getLsbD 4 := by
  unfold convert
  split
  · exact raise_cmdRejected ..
  · rfl

/-- R201: an accepted START_SCAN or CONVERT that does not fault has a frame snapshot. -/
theorem frame_of_exec_next (hst : s.st = .frame) (hi : i = .startScan ∨ i = .convert) (he : exec i s = .next t) :
    ∃ f, s.frame = some f := by
  cases hf : s.frame with
  | some f => exact ⟨f, rfl⟩
  | none =>
    have hfault : exec i s = .fault (.unwritten .frameSnap) := by
      obtain rfl | rfl := hi
      · show execStartScan s = _
        simp [execStartScan, hst, hf]
      · show execConvert s = _
        simp [execConvert, hst, hf]
    cases hfault.symm.trans he

theorem accepted_cmdRejected (hi : Claim.isCommand i) (hst : Claim.accepted i s.st) (he : exec i s = .next t) :
    t.intStatus.getLsbD 4 = s.intStatus.getLsbD 4 := by
  obtain rfl | ⟨id, rfl⟩ | ⟨id, c, rfl⟩ | rfl | rfl | rfl | rfl := hi
  · cases he; rfl
  · cases (exec_loadQt_accepted hst id).symm.trans he; exact loadQt_cmdRejected ..
  · cases (exec_loadHt_accepted hst id c).symm.trans he; exact loadHt_cmdRejected ..
  · cases (exec_startFrame_accepted hst).symm.trans he; exact startFrame_cmdRejected s
  · obtain ⟨f, hf⟩ := frame_of_exec_next hst (.inl rfl) he
    cases (exec_startScan_accepted hst hf).symm.trans he
    exact startScan_cmdRejected f s
  · obtain ⟨f, hf⟩ := frame_of_exec_next hst (.inr rfl) he
    cases (exec_convert_accepted hst hf).symm.trans he
    exact convert_cmdRejected f s
  · cases he; rfl

/-- Settles O12: a rejection is that of an illegal word, and an accepted command sets INT_STATUS.ERROR at most. -/
theorem commandsAreAcceptedByTheTable : Obligations.CommandsAreAcceptedByTheTable :=
  fun _ s hi => ⟨fun hst => (exec_of_not_accepted hi hst).trans (exec_cmdRejected 0 s),
    fun hst _ he => accepted_cmdRejected hi hst he⟩

/-! ### NOP -/

/-- R142, R202: NOP's word has no other bit set. -/
theorem decodeCmd_nop_bits (w : Word) (hop : w.extractLsb' 0 4 = 0) (hrest : w.extractLsb' 4 28 ≠ 0) :
    decodeCmd w = .cmdRejected w := by
  induction w using commandWord_cases with
  | reserved w h => exact decodeCmd_reserved h
  | fields => decide +revert

/-- Settles O13: NOP answers the state it was given, and of the words with OP 0 only word 0 is legal. -/
theorem nopChangesNothing : Obligations.NopChangesNothing :=
  ⟨fun _ => rfl, by decide, decodeCmd_nop_bits⟩

/-! ### LOAD_QT -/

/-- R43: a table set is replaced at its id. -/
theorem replacedAt_set {α : Type} (q : Quad (Option α)) (id : BitVec 2) (x : α) :
    Claim.replacedAt q (q.set id (some x)) id x :=
  ⟨Quad.get_set_same .., fun _ hu => Quad.get_set_other _ _ hu⟩

theorem validatedAt_idBit (v : BitVec 4) (id : BitVec 2) : Claim.validatedAt v (v ||| idBit id) id :=
  fun u => (validAt_or_idBit v id u).trans (Bool.or_comm ..)

theorem decodeCmd_loadQt_word (id : BitVec 2) : decodeCmd (BitVec.ofNat 32 (0x01 + 16 * id.toNat)) = .loadQt id := by
  decide +revert

/-- Settles O14: `loadQt` makes one check, past which it sets the table and its valid bit. -/
theorem loadQtInstallsTheStagedTable : Obligations.LoadQtInstallsTheStagedTable := by
  refine ⟨decodeCmd_loadQt_word, fun s id hst => ⟨fun hovf hlen => ?_, fun hbad => ?_⟩⟩
  · have hok : loadQt id s = installQt id s.stg (clearStaging s) := if_neg (by simp [hovf, hlen])
    exact ⟨_, (exec_loadQt_accepted hst id).trans (congrArg _ hok), replacedAt_set .., validatedAt_idBit _ _,
      rfl, rfl, rfl, rfl, rfl, rfl, rfl⟩
  · exact (exec_loadQt_accepted hst id).trans (congrArg _ (if_pos hbad))

/-! ### CONVERT and ABORT -/

/-- R231: the first component that is not done. -/
theorem undecoded_eq_some {done : BitVec 3} {n j : Nat} (hj : j < n) (hnot : done.getLsbD j = false)
    (hbefore : ∀ k, k < j → done.getLsbD k = true) : undecoded done n = some j := by
  simpa [undecoded, List.find?_range_eq_some, hj, hnot] using hbefore

theorem undecoded_eq_none {done : BitVec 3} {n : Nat} (hdone : ∀ k, k < n → done.getLsbD k = true) :
    undecoded done n = none := by
  simpa [undecoded] using hdone

/-- Settles O20: the search for a component that is not done finds the first, or none. -/
theorem convertNeedsEveryComponent : Obligations.ConvertNeedsEveryComponent := by
  refine ⟨by decide, fun s f hst hf => ?_⟩
  rw [exec_convert_accepted hst hf]
  refine ⟨fun j hj hnot hbefore => ?_, fun hdone => ?_⟩
  · rw [convert, undecoded_eq_some hj hnot hbefore]
  · rw [convert, undecoded_eq_none hdone]

/-- Settles O21: the model's ABORT is the list. -/
theorem abortDiscardsTheFrame : Obligations.AbortDiscardsTheFrame :=
  ⟨by decide, fun s => ⟨abortFrame s, rfl, rfl, fun _ => rfl, rfl, rfl⟩⟩

end Sys2Proof.Machine
end

section
/-! PROOFS. LOAD_HT (R212): the canonical table of a staging buffer as FIRST, NUM and OFF at each length, the checks before it
(O15), and the codes of a built table, none of which begins another or is all ones (O16). -/
namespace Sys2Proof.Machine

variable {s : State} {t : BitVec 2} {stg : List Half} {h : HuffTable}

/-! ### The canonical codes -/

/-- R212: at every length the codes lie below the all-ones code. -/
def CodesFit (stg : List Half) : Prop := ∀ m, m < 16 → ¬ Claim.exceeds stg m

/-- R212: the row of length `m + 1`. -/
def canonicalRow (stg : List Half) (m : Nat) : HuffRow :=
  ⟨BitVec.ofNat 17 (Claim.codeAt stg m), Claim.bitsOf stg m, Claim.symbolsBefore stg m⟩

/-- R212: a length that has codes has them below its all-ones code. -/
theorem codeAt_add_bitsOf_le (hfit : CodesFit stg) {m : Nat} (hm : m < 16) (hpos : 0 < Claim.bitsOf stg m) :
    Claim.codeAt stg m + Claim.bitsOf stg m ≤ 2 ^ (m + 1) - 1 := by
  have hle : ¬ 2 ^ (m + 1) - 2 < Claim.codeAt stg m + Claim.bitsOf stg m - 1 := fun hlt => hfit m hm ⟨hpos, hlt⟩
  have hp : 2 ≤ 2 ^ (m + 1) := le_self_pow₀ (by decide) (by omega)
  omega

/-- R212: `code` is no all-ones code at any length it reaches. -/
theorem codeAt_le (hfit : CodesFit stg) {m : Nat} (hm : m ≤ 16) : Claim.codeAt stg m ≤ 2 ^ (m + 1) - 2 := by
  induction m with
  | zero => exact Nat.le_refl 0
  | succ m ih =>
    have hcode := ih (by omega)
    have hbits := codeAt_add_bitsOf_le hfit hm
    have hp : 2 ^ (m + 1 + 1) = 2 * 2 ^ (m + 1) := pow_succ' 2 (m + 1)
    rw [Claim.codeAt]
    omega

/-- R212: FIRST holds `code` whole. -/
theorem canonicalRow_first (hfit : CodesFit stg) {m : Nat} (hm : m < 16) :
    (canonicalRow stg m).first.toNat = Claim.codeAt stg m := by
  have hcode := codeAt_le hfit hm.le
  have hp : 2 ^ (m + 1) ≤ 2 ^ 16 := Nat.pow_le_pow_right (by decide) (by omega)
  exact Nat.mod_eq_of_lt (by omega)

/-- R212: the codes of `m` bits start past every extension of the codes of `n` bits. -/
theorem codes_before (stg : List Half) {n m : Nat} (hnm : n < m) :
    (Claim.codeAt stg n + Claim.bitsOf stg n) * 2 ^ (m - n) ≤ Claim.codeAt stg m := by
  induction m, hnm using Nat.le_induction with
  | base => simp [Claim.codeAt]
  | succ m hnm ih =>
    have hsub : m + 1 - n = m - n + 1 := by omega
    calc (Claim.codeAt stg n + Claim.bitsOf stg n) * 2 ^ (m + 1 - n)
        = (Claim.codeAt stg n + Claim.bitsOf stg n) * 2 ^ (m - n) * 2 := by rw [hsub, pow_succ, Nat.mul_assoc]
      _ ≤ (Claim.codeAt stg m + Claim.bitsOf stg m) * 2 := Nat.mul_le_mul_right 2 (ih.trans (Nat.le_add_right ..))

/-! ### The rows -/

/-- R212: a length whose codes fit adds its row. -/
theorem huffRows_cons {n : Nat} (hn : ¬ Claim.exceeds stg n) (rest : List Nat) :
    huffRows (n + 1) (Claim.codeAt stg n) (Claim.symbolsBefore stg n) (Claim.bitsOf stg n :: rest) =
      (huffRows (n + 2) (Claim.codeAt stg (n + 1)) (Claim.symbolsBefore stg (n + 1)) rest).map
        (canonicalRow stg n :: ·) := by
  refine (if_neg hn).trans ?_
  rw [← Claim.codeAt, ← Claim.symbolsBefore]
  cases huffRows (n + 2) (Claim.codeAt stg (n + 1)) (Claim.symbolsBefore stg (n + 1)) rest <;> rfl

/-- R212: the rows from length `n + 1` on, where the codes fit. -/
theorem huffRows_ok (k : Nat) {n : Nat} (hfit : ∀ m, m < n + k → ¬ Claim.exceeds stg m) :
    huffRows (n + 1) (Claim.codeAt stg n) (Claim.symbolsBefore stg n) ((List.range' n k).map (Claim.bitsOf stg)) =
      .ok ((List.range' n k).map (canonicalRow stg)) := by
  induction k generalizing n with
  | zero => rfl
  | succ k ih =>
    rw [List.range'_succ, List.map_cons, huffRows_cons (hfit n (by omega)), ih fun m hm => hfit m (by omega)]
    rfl

/-- R212: the error of the first length whose codes do not fit. -/
theorem huffRows_error (k : Nat) {n m : Nat} (h1 : n ≤ m) (h2 : m < n + k) (hm : Claim.exceeds stg m)
    (hfirst : ∀ i, i < m → ¬ Claim.exceeds stg i) :
    huffRows (n + 1) (Claim.codeAt stg n) (Claim.symbolsBefore stg n) ((List.range' n k).map (Claim.bitsOf stg)) =
      .error (m + 1) := by
  induction k generalizing n with
  | zero => omega
  | succ k ih =>
    rw [List.range'_succ, List.map_cons]
    obtain rfl | hlt := h1.eq_or_lt
    · exact if_pos hm
    · rw [huffRows_cons (hfirst n hlt), ih hlt (by omega)]
      rfl

/-! ### The checks of the staging buffer -/

/-- R212: BITS, the first 16 entries. -/
theorem take_map_toNat (hlen : 16 ≤ stg.length) :
    (stg.take 16).map BitVec.toNat = (List.range' 0 16).map (Claim.bitsOf stg) := by
  refine List.ext_getElem (by simpa using hlen) fun i h1 _ => ?_
  have hi : i < stg.length := by simp at h1; omega
  simp [Claim.bitsOf, hi]

theorem sum_bitsOf (stg : List Half) (n : Nat) :
    ((List.range' 0 n).map (Claim.bitsOf stg)).sum = Claim.symbolsBefore stg n := by
  induction n with
  | zero => rfl
  | succ n ih => simp [List.range'_concat, ih, Claim.symbolsBefore]

theorem buildHuff_short {ovf : Bool} (hbad : ovf = true ∨ stg.length < 16) :
    buildHuff t ovf stg = .error (0x02, t.toNat) := if_pos hbad

section Checks
variable (hlen : 16 ≤ stg.length)
include hlen

theorem buildHuff_tooMany (hn : 256 < Claim.symbolsBefore stg 16) : buildHuff t false stg = .error (0x03, t.toNat) := by
  simp only [buildHuff, take_map_toNat hlen, sum_bitsOf]
  simp [hlen.not_gt, hn]

variable (hn : Claim.symbolsBefore stg 16 ≤ 256)
include hn

theorem buildHuff_wrongLength (hne : stg.length ≠ 16 + Claim.symbolsBefore stg 16) :
    buildHuff t false stg = .error (0x02, t.toNat) := by
  simp only [buildHuff, take_map_toNat hlen, sum_bitsOf]
  simp [hlen.not_gt, hn.not_gt, hne]

variable (heq : stg.length = 16 + Claim.symbolsBefore stg 16)
include heq

theorem buildHuff_wideSymbol (hwide : ∃ v ∈ stg.drop 16, 255 < v.toNat) :
    buildHuff t false stg = .error (0x04, t.toNat) := by
  have hany : ((stg.drop 16).any fun v => decide (255 < v.toNat)) = true := by simpa using hwide
  simp only [buildHuff, take_map_toNat hlen, sum_bitsOf, hany]
  simp [heq, hn.not_gt]

/-- R212: past the other checks the codes decide. -/
theorem buildHuff_codes (hnarrow : ∀ v ∈ stg.drop 16, v.toNat ≤ 255) :
    buildHuff t false stg =
      ((huffRows 1 0 0 ((List.range' 0 16).map (Claim.bitsOf stg))).map
        (⟨·, (stg.drop 16).map fun v => v.setWidth 8⟩)).mapError ((0x05, ·)) := by
  have hany : ((stg.drop 16).any fun v => decide (255 < v.toNat)) = false := by simpa using hnarrow
  simp only [buildHuff, take_map_toNat hlen, sum_bitsOf, hany]
  cases huffRows 1 0 0 ((List.range' 0 16).map (Claim.bitsOf stg)) <;>
    simp [heq, hn.not_gt, Except.map, Except.mapError]

variable (hnarrow : ∀ v ∈ stg.drop 16, v.toNat ≤ 255)
include hnarrow

theorem buildHuff_overfull {m : Nat} (hm : m < 16) (hex : Claim.exceeds stg m)
    (hfirst : ∀ i, i < m → ¬ Claim.exceeds stg i) : buildHuff t false stg = .error (0x05, m + 1) := by
  have hrows := huffRows_error 16 (Nat.zero_le m) (by omega) hex hfirst
  exact (buildHuff_codes hlen hn heq hnarrow).trans (congrArg (fun r => (Except.map _ r).mapError _) hrows)

theorem buildHuff_canonical (hfit : CodesFit stg) : buildHuff t false stg =
    .ok ⟨(List.range' 0 16).map (canonicalRow stg), (stg.drop 16).map fun v => v.setWidth 8⟩ := by
  have hrows := huffRows_ok 16 (n := 0) fun m hm => hfit m (by omega)
  exact (buildHuff_codes hlen hn heq hnarrow).trans (congrArg (fun r => (Except.map _ r).mapError _) hrows)

end Checks

/-- R212: codes that do not fit have a first length where they do not. -/
theorem exists_first_exceeding (hfit : ¬ CodesFit stg) :
    ∃ m, m < 16 ∧ Claim.exceeds stg m ∧ ∀ i, i < m → ¬ Claim.exceeds stg i := by
  classical
  have hex : ∃ m, m < 16 ∧ Claim.exceeds stg m := by simpa [CodesFit] using hfit
  obtain ⟨hm, hx⟩ := Nat.find_spec hex
  exact ⟨_, hm, hx, fun i hi hxi => Nat.find_min hex hi ⟨hi.trans hm, hxi⟩⟩

/-- R212: a build that succeeds has made every check, and its rows are the canonical ones. -/
theorem buildHuff_eq_ok {ovf : Bool} (hb : buildHuff t ovf stg = .ok h) :
    CodesFit stg ∧ h.rows = (List.range' 0 16).map (canonicalRow stg) := by
  by_cases hbad : ovf = true ∨ stg.length < 16
  · cases (buildHuff_short hbad).symm.trans hb
  obtain ⟨hovf, hlen⟩ : ovf = false ∧ 16 ≤ stg.length := by simpa using hbad
  subst hovf
  by_cases hn : 256 < Claim.symbolsBefore stg 16
  · cases (buildHuff_tooMany hlen hn).symm.trans hb
  have hn := Nat.le_of_not_lt hn
  by_cases heq : stg.length = 16 + Claim.symbolsBefore stg 16
  case neg => cases (buildHuff_wrongLength hlen hn heq).symm.trans hb
  by_cases hwide : ∃ v ∈ stg.drop 16, 255 < v.toNat
  · cases (buildHuff_wideSymbol hlen hn heq hwide).symm.trans hb
  have hnarrow : ∀ v ∈ stg.drop 16, v.toNat ≤ 255 := by simpa using hwide
  by_cases hfit : CodesFit stg
  · cases (buildHuff_canonical hlen hn heq hnarrow hfit).symm.trans hb
    exact ⟨hfit, rfl⟩
  · obtain ⟨m, hm, hex, hfirst⟩ := exists_first_exceeding hfit
    cases (buildHuff_overfull hlen hn heq hnarrow hm hex hfirst).symm.trans hb

/-! ### LOAD_HT -/

theorem decodeCmd_loadHt_word (t : BitVec 2) (c : BitVec 1) :
    decodeCmd (BitVec.ofNat 32 (0x02 + 16 * t.toNat + 64 * c.toNat)) = .loadHt t c := by
  decide +revert

theorem exec_loadHt_error (hst : s.st = .idle ∨ s.st = .frame) (c : BitVec 1) {d : Byte} {a : Nat}
    (hb : buildHuff t s.stgOvf s.stg = .error (d, a)) :
    exec (.loadHt t c) s = .next (raise .malformedContainer d a { s with stg := [], stgOvf := false }) := by
  rw [exec_loadHt_accepted hst, loadHt, hb]
  rfl

theorem exec_loadHt_ok (hst : s.st = .idle ∨ s.st = .frame) (c : BitVec 1) (hb : buildHuff t s.stgOvf s.stg = .ok h) :
    exec (.loadHt t c) s = .next (installHt c t h (clearStaging s)) := by
  rw [exec_loadHt_accepted hst, loadHt, hb]

/-- R43, R212: a table is installed at its class and id, and at no other. -/
theorem installHt_spec (c : BitVec 1) (t : BitVec 2) (h : HuffTable) (s : State) :
    (c = 0 → Claim.replacedAt s.tabs.dc (installHt c t h s).tabs.dc t h ∧
      Claim.validatedAt s.tabs.dcValid (installHt c t h s).tabs.dcValid t ∧
      (installHt c t h s).tabs.ac = s.tabs.ac ∧ (installHt c t h s).tabs.acValid = s.tabs.acValid) ∧
    (c = 1 → Claim.replacedAt s.tabs.ac (installHt c t h s).tabs.ac t h ∧
      Claim.validatedAt s.tabs.acValid (installHt c t h s).tabs.acValid t ∧
      (installHt c t h s).tabs.dc = s.tabs.dc ∧ (installHt c t h s).tabs.dcValid = s.tabs.dcValid) ∧
    (installHt c t h s).tabs.qt = s.tabs.qt ∧ (installHt c t h s).tabs.qtValid = s.tabs.qtValid ∧
    ∃ tabs, installHt c t h s = { s with tabs := tabs } := by
  obtain rfl | rfl := BitVec.eq_zero_or_eq_one c
  · exact ⟨fun _ => ⟨replacedAt_set .., validatedAt_idBit _ _, rfl, rfl⟩, nofun, rfl, rfl, _, rfl⟩
  · exact ⟨nofun, fun _ => ⟨replacedAt_set .., validatedAt_idBit _ _, rfl, rfl⟩, rfl, rfl, _, rfl⟩

/-- R212: FIRST, NUM and OFF of the rows of codes that fit. -/
theorem canonicalRows_spec (hfit : CodesFit stg) {m : Nat} (hm : m < 16) :
    ∃ row, ((List.range' 0 16).map (canonicalRow stg))[m]? = some row ∧ row.first.toNat = Claim.codeAt stg m ∧
      row.num = Claim.bitsOf stg m ∧ row.off = Claim.symbolsBefore stg m :=
  ⟨canonicalRow stg m, by simp [hm], canonicalRow_first hfit hm, rfl, rfl⟩

/-- Settles O15: each check of `buildHuff` is reached past the checks before it, and the rows past all of them are the
canonical ones. -/
theorem loadHtBuildsTheCanonicalTable : Obligations.LoadHtBuildsTheCanonicalTable := by
  refine ⟨decodeCmd_loadHt_word, fun s t c hst => ?_⟩
  intro n empty wrongLength
  refine ⟨fun hbad => exec_loadHt_error hst c (buildHuff_short hbad), fun hovf hlen => ?_⟩
  have herror : ∀ d a, buildHuff t false s.stg = .error (d, a) →
      exec (.loadHt t c) s = .next (raise .malformedContainer d a empty) :=
    fun d a hb => exec_loadHt_error hst c (by rw [hovf]; exact hb)
  refine ⟨fun hn => herror _ _ (buildHuff_tooMany hlen hn),
    fun hn hne => herror _ _ (buildHuff_wrongLength hlen hn hne), fun hn heq =>
    ⟨fun hwide => herror _ _ (buildHuff_wideSymbol hlen hn heq hwide), fun hnarrow =>
      ⟨fun m hm hex hfirst => herror _ _ (buildHuff_overfull hlen hn heq hnarrow hm hex hfirst), fun hfit => ?_⟩⟩⟩
  have hb := buildHuff_canonical (t := t) hlen hn heq hnarrow hfit
  rw [← hovf] at hb
  obtain ⟨hdc, hac, hqt, hqv, tabs, hframe⟩ := installHt_spec c t _ (clearStaging s)
  refine ⟨_, _, exec_loadHt_ok hst c hb, by simp, fun m hm => canonicalRows_spec hfit hm, rfl, hdc, hac, hqt, hqv, ?_⟩
  rw [hframe]
  exact ⟨rfl, rfl, rfl⟩

/-! ### Decoding with a built table -/

/-- R300: a code outside the codes of its length matches nothing. -/
theorem lookup_none {len : Nat} {code : Half} {row : HuffRow} (hrow : h.rows[len - 1]? = some row)
    (hout : 0 < row.num → code.toNat < row.first.toNat ∨ row.first.toNat + row.num ≤ code.toNat) :
    lookup h len code = .ok none := by
  simp only [lookup, hrow]
  exact if_neg (by omega)

/-- R300: a code that matches is one of the codes of its length. -/
theorem lookup_some {len : Nat} {code : Half} {v : Byte} (hs : lookup h len code = .ok (some v)) :
    ∃ row, h.rows[len - 1]? = some row ∧ code.toNat < row.first.toNat + row.num := by
  unfold lookup at hs
  split at hs
  · cases hs
  · next row hrow =>
    split at hs
    · next hin =>
      obtain ⟨-, -, hlt⟩ := hin
      exact ⟨row, hrow, hlt⟩
    · cases hs

/-- Settles O16: the last code of a length lies below its all-ones code, and the next lengths start past every extension of
it. -/
theorem builtCodesArePrefixFreeAndNeverAllOnes : Obligations.BuiltCodesArePrefixFreeAndNeverAllOnes := by
  intro t ovf stg h hb
  obtain ⟨hfit, hrows⟩ := buildHuff_eq_ok hb
  have hrow : ∀ m, m < 16 → h.rows[m]? = some (canonicalRow stg m) := fun m hm => by simp [hrows, hm]
  refine ⟨fun n h1 h16 => ?_, fun n m c d v h1 hnm h16 _ hbegins hs => ?_⟩
  · have hm : n - 1 < 16 := by omega
    refine lookup_none (hrow _ hm) fun hpos => .inr ?_
    have hle := codeAt_add_bitsOf_le hfit hm hpos
    have hp : 2 ^ n ≤ 2 ^ 16 := Nat.pow_le_pow_right (by decide) h16
    rw [Nat.sub_add_cancel h1] at hle
    rw [canonicalRow_first hfit hm, BitVec.toNat_ofNat, Nat.mod_eq_of_lt (by omega)]
    exact hle
  · have hm : m - 1 < 16 := by omega
    refine lookup_none (hrow _ hm) fun _ => .inl ?_
    obtain ⟨row, hr, hlt⟩ := lookup_some hs
    obtain rfl : canonicalRow stg (n - 1) = row := Option.some.inj ((hrow _ (by omega)).symm.trans hr)
    rw [canonicalRow_first hfit (by omega), ← hbegins, Nat.div_lt_iff_lt_mul (by positivity)] at hlt
    rw [canonicalRow_first hfit hm]
    have hbefore := codes_before stg (n := n - 1) (m := m - 1) (by omega)
    rw [show m - 1 - (n - 1) = m - n by omega] at hbefore
    exact hlt.trans_le hbefore

end Sys2Proof.Machine
end

section
/-! PROOFS. START_FRAME (R220-R222, O17) and START_SCAN (R225, R226, R265, O19): the headers the configuration registers hold,
the error of each check past the checks before it, and the commits. -/
namespace Sys2Proof.Machine

variable {s : State} {r : Regs} {f : FrameSnap} {tabs : Tables} {cap : Option Nat}

/-! ### The registers as headers -/

theorem take_map_three {α : Type} (g : Nat → α) {n : Nat} (hn : n ≤ 3) :
    ([0, 1, 2].map g).take n = (List.range n).map g := by
  have h3 : [0, 1, 2] = List.range 3 := rfl
  rw [h3, ← List.map_take, List.take_range, min_eq_left hn]

/-- R63, R220. -/
theorem configuredFrame_eq (hn : r.ncomp ≤ 3) : configuredFrame r = Claim.headerOf r r.ncomp :=
  congrArg (FrameSnap.mk r.width r.height) (take_map_three (fun i => compOf (r.compCfg.get i)) hn)

/-- R40, R225. -/
theorem slots_eq (r : Regs) : r.slots = (List.range r.ns).map (Claim.slotAt r) :=
  take_map_three (slotOf r.scanCfg) (Nat.le_of_lt_succ (BitVec.isLt _))

/-- R65, R226. -/
theorem configuredScan_eq (r : Regs) (f : FrameSnap) : configuredScan r f = Claim.scanOf r f := by
  rw [configuredScan, slots_eq]
  rfl

/-- R225. -/
theorem blocksPerMcu_slots (r : Regs) (f : FrameSnap) : blocksPerMcu f r.slots = Claim.scanBlocks r f r.ns := by
  rw [blocksPerMcu, slots_eq, List.map_map]
  rfl

/-! ### The checks of START_FRAME -/

theorem startFrame_error (hst : s.st = .idle) {k : ErrKind} {d : Byte} {a : Nat}
    (he : frameError s.regs s.par.planeCap = some (k, d, a)) :
    exec .startFrame s = .next (raise k d a { s with err := 0, errPos := 0 }) := by
  rw [exec_startFrame_accepted hst, startFrame, he]

theorem startFrame_commit (hst : s.st = .idle) (he : frameError s.regs s.par.planeCap = none) :
    exec .startFrame s = .next (commitFrame (configuredFrame s.regs) { s with err := 0, errPos := 0 }) := by
  rw [exec_startFrame_accepted hst, startFrame, he]

/-- R220: the sampling factors of a component, as the check reads them. -/
theorem factorOk_iff (r : Regs) (i : Nat) :
    (factorOk (compOf (r.compCfg.get i)).h && factorOk (compOf (r.compCfg.get i)).v) = true ↔
      Claim.legalFactors r i := by
  simp only [factorOk, Bool.and_eq_true, decide_eq_true_eq, and_assoc]
  rfl

theorem headerOf_comp {n i : Nat} (hi : i < (Claim.headerOf r n).comps.length) :
    (Claim.headerOf r n).comps[i] = compOf (r.compCfg.get i) := by
  simp [Claim.headerOf, compOf]

/-- R220: the first component with an illegal factor. -/
theorem findIdx_illegal_eq_some {n i : Nat} (hi : i < n) (hbad : ¬ Claim.legalFactors r i)
    (hfirst : ∀ j, j < i → Claim.legalFactors r j) :
    (Claim.headerOf r n).comps.findIdx? (fun c => !(factorOk c.h && factorOk c.v)) = some i := by
  rw [List.findIdx?_eq_some_iff_getElem]
  refine ⟨by simpa [Claim.headerOf] using hi, ?_, fun j hj => ?_⟩
  · rw [headerOf_comp, Bool.not_eq_true', ← Bool.not_eq_true, factorOk_iff]
    exact hbad
  · rw [headerOf_comp, Bool.not_eq_true', Bool.not_eq_false, factorOk_iff]
    exact hfirst j hj

theorem findIdx_illegal_eq_none {n : Nat} (hall : ∀ i, i < n → Claim.legalFactors r i) :
    (Claim.headerOf r n).comps.findIdx? (fun c => !(factorOk c.h && factorOk c.v)) = none := by
  rw [List.findIdx?_eq_none_iff]
  intro c hc
  obtain ⟨i, hi, rfl⟩ := List.mem_map.mp hc
  exact congrArg not ((factorOk_iff r i).mpr (hall i (List.mem_range.mp hi)))

theorem frameError_precision (hp : r.precision ≠ 8) :
    frameError r cap = some (.unsupportedEncoding, 0x01, r.precision) := if_pos hp

section Header
variable (hp : r.precision = 8)
include hp

theorem frameError_ncomp (h1 : r.ncomp ≠ 1) (h3 : r.ncomp ≠ 3) :
    frameError r cap = some (.unsupportedEncoding, 0x02, r.ncomp) := by
  simp [frameError, hp, h1, h3]

variable (hn : r.ncomp = 1 ∨ r.ncomp = 3)
include hn

theorem frameError_width (hw : r.width = 0) : frameError r cap = some (.malformedContainer, 0x10, 0) := by
  rcases hn with hn | hn <;> simp [frameError, hp, hn, hw]

variable (hw : r.width ≠ 0)
include hw

theorem frameError_height (hh : r.height = 0) : frameError r cap = some (.malformedContainer, 0x10, 1) := by
  rcases hn with hn | hn <;> simp only [frameError, hp, hn, hw, hh] <;> rfl

variable (hh : r.height ≠ 0)
include hh

theorem frameError_factors {i : Nat} (hi : i < r.ncomp) (hbad : ¬ Claim.legalFactors r i)
    (hfirst : ∀ j, j < i → Claim.legalFactors r j) : frameError r cap = some (.malformedContainer, 0x11, i) := by
  have hnot : ¬ (r.ncomp ≠ 1 ∧ r.ncomp ≠ 3) := by omega
  simp only [frameError, hp, hnot, hw, hh, configuredFrame_eq (r := r) (by omega),
    findIdx_illegal_eq_some hi hbad hfirst]
  rfl

/-- R221: legal factors leave the capacity to check. -/
theorem frameError_legal (hall : ∀ i, i < r.ncomp → Claim.legalFactors r i) :
    frameError r cap =
      if overCapacity cap (Claim.headerOf r r.ncomp) then some (.unsupportedEncoding, 0x03, 0) else none := by
  have hnot : ¬ (r.ncomp ≠ 1 ∧ r.ncomp ≠ 3) := by omega
  simp only [frameError, hp, hnot, hw, hh, configuredFrame_eq (r := r) (by omega), findIdx_illegal_eq_none hall]
  rfl

end Header

/-- Settles O17: each check of `frameError` is reached past the checks before it, and a frame past all of them is sound. -/
theorem startFrameChecksThenCommits : Obligations.StartFrameChecksThenCommits := by
  refine ⟨by decide, fun s hst => ?_⟩
  intro p n f cleared
  refine ⟨fun hp => startFrame_error hst (frameError_precision hp),
    fun hp h1 h3 => startFrame_error hst (frameError_ncomp hp h1 h3), fun hp hn =>
    ⟨fun hw => startFrame_error hst (frameError_width hp hn hw),
      fun hw hh => startFrame_error hst (frameError_height hp hn hw hh), fun hw hh =>
      ⟨fun i hi hbad hfirst => startFrame_error hst (frameError_factors hp hn hw hh hi hbad hfirst), fun hall => ?_⟩⟩⟩
  have hlegal := frameError_legal (cap := s.par.planeCap) hp hn hw hh hall
  refine ⟨fun cap hcap hover => startFrame_error hst ?_, fun hfits => ?_⟩
  · rw [hlegal, hcap]
    exact if_pos (decide_eq_true hover)
  · have hpass : frameError s.regs s.par.planeCap = none := by
      rw [hlegal]
      refine if_neg ?_
      cases hcap : s.par.planeCap with
      | none => exact Bool.false_ne_true
      | some cap => exact fun h => absurd (of_decide_eq_true h) (hfits cap hcap).not_gt
    have hframe : configuredFrame s.regs = f := configuredFrame_eq (by show n ≤ 3; omega)
    have hsound := frameError_sound hpass
    rw [hframe] at hsound
    refine ⟨(startFrame_commit hst hpass).trans ?_, hsound.mcux_le, hsound.mcuy_le, rfl⟩
    rw [hframe]
    rfl

/-! ### The checks of START_SCAN -/

theorem startScan_error (hst : s.st = .frame) (hf : s.frame = some f) {k : ErrKind} {d : Byte} {a : Nat}
    (he : scanError s.regs s.tabs f = some (k, d, a)) : exec .startScan s = .next (raise k d a s) := by
  rw [exec_startScan_accepted hst hf, startScan, he]

theorem startScan_commit (hst : s.st = .frame) (hf : s.frame = some f) (he : scanError s.regs s.tabs f = none) :
    exec .startScan s = .next (commitScan (Claim.scanOf s.regs f) s) := by
  rw [exec_startScan_accepted hst hf, startScan, he, configuredScan_eq]

/-- R225: the slots are those before slot `j`, slot `j`, and the rest. -/
theorem slots_split (r : Regs) {j : Nat} (hj : j < r.ns) :
    ∃ rest, r.slots = (List.range j).map (Claim.slotAt r) ++ Claim.slotAt r j :: rest := by
  obtain ⟨k, hk⟩ := Nat.exists_eq_add_of_lt hj
  refine ⟨((List.range k).map (j + 1 + ·)).map (Claim.slotAt r), ?_⟩
  rw [slots_eq, show r.ns = j + 1 + k by omega, List.range_add, List.range_succ]
  simp

/-- R225: slots with good indices are passed, and their indices remembered. -/
theorem badSlot_append {nf j : Nat} (hgood : ∀ i, i < j → ¬ Claim.badIndex r nf i) (l : List ScanSlot) :
    badSlot nf 0 [] ((List.range j).map (Claim.slotAt r) ++ l) =
      badSlot nf j ((List.range j).map fun i => (Claim.slotAt r i).cidx).reverse l := by
  induction j generalizing l with
  | zero => rfl
  | succ j ih =>
    have hj : ¬ (nf ≤ (Claim.slotAt r j).cidx ∨
        (Claim.slotAt r j).cidx ∈ ((List.range j).map fun i => (Claim.slotAt r i).cidx).reverse) := by
      simpa [Claim.badIndex] using hgood j (Nat.lt_succ_self j)
    rw [List.range_succ, List.map_append, List.append_assoc, ih fun i hi => hgood i (by omega)]
    exact (if_neg hj).trans (by simp)

/-- R225: the first slot with a bad index. -/
theorem badSlot_eq_some {nf j : Nat} (hj : j < r.ns) (hbad : Claim.badIndex r nf j)
    (hfirst : ∀ i, i < j → ¬ Claim.badIndex r nf i) : badSlot nf 0 [] r.slots = some j := by
  obtain ⟨rest, hslots⟩ := slots_split r hj
  rw [hslots, badSlot_append hfirst]
  exact if_pos (by simpa [Claim.badIndex] using hbad)

theorem badSlot_eq_none {nf : Nat} (hgood : ∀ j, j < r.ns → ¬ Claim.badIndex r nf j) :
    badSlot nf 0 [] r.slots = none := by
  have h := badSlot_append hgood []
  rwa [List.append_nil, ← slots_eq] at h

/-- R225: a slot's three tables are looked at in the order quantisation, DC, AC. -/
theorem missingTable_cons (j : Nat) (l : List ScanSlot) :
    missingTable tabs f (Claim.slotAt r j :: l) =
      if !validAt tabs.qtValid (Claim.slotTq r f j) then some (0x01, (Claim.slotTq r f j).toNat)
      else if !validAt tabs.dcValid (Claim.slotAt r j).td then some (0x02, (Claim.slotAt r j).td.toNat)
      else if !validAt tabs.acValid (Claim.slotAt r j).ta then some (0x03, (Claim.slotAt r j).ta.toNat)
      else missingTable tabs f l := rfl

/-- R225: slots with their tables loaded are passed. -/
theorem missingTable_append {j : Nat} (hloaded : ∀ i, i < j → Claim.slotLoaded r tabs f i) (l : List ScanSlot) :
    missingTable tabs f ((List.range j).map (Claim.slotAt r) ++ l) = missingTable tabs f l := by
  induction j generalizing l with
  | zero => rfl
  | succ j ih =>
    obtain ⟨hq, hd, ha⟩ := hloaded j (Nat.lt_succ_self j)
    rw [List.range_succ, List.map_append, List.append_assoc, ih fun i hi => hloaded i (by omega)]
    simp [missingTable_cons, hq, hd, ha]

theorem missingTable_eq_none (hloaded : ∀ j, j < r.ns → Claim.slotLoaded r tabs f j) :
    missingTable tabs f r.slots = none := by
  have h := missingTable_append hloaded []
  rwa [List.append_nil, ← slots_eq] at h

section FirstMissing
variable {j : Nat} (hj : j < r.ns) (hloaded : ∀ i, i < j → Claim.slotLoaded r tabs f i)
include hj hloaded

theorem missingTable_quant (hq : validAt tabs.qtValid (Claim.slotTq r f j) = false) :
    missingTable tabs f r.slots = some (0x01, (Claim.slotTq r f j).toNat) := by
  obtain ⟨rest, hslots⟩ := slots_split r hj
  simp [hslots, missingTable_append hloaded, missingTable_cons, hq]

variable (hq : validAt tabs.qtValid (Claim.slotTq r f j) = true)
include hq

theorem missingTable_dc (hd : validAt tabs.dcValid (Claim.slotAt r j).td = false) :
    missingTable tabs f r.slots = some (0x02, (Claim.slotAt r j).td.toNat) := by
  obtain ⟨rest, hslots⟩ := slots_split r hj
  simp [hslots, missingTable_append hloaded, missingTable_cons, hq, hd]

theorem missingTable_ac (hd : validAt tabs.dcValid (Claim.slotAt r j).td = true)
    (ha : validAt tabs.acValid (Claim.slotAt r j).ta = false) :
    missingTable tabs f r.slots = some (0x03, (Claim.slotAt r j).ta.toNat) := by
  obtain ⟨rest, hslots⟩ := slots_split r hj
  simp [hslots, missingTable_append hloaded, missingTable_cons, hq, hd, ha]

end FirstMissing

theorem scanError_count (h : r.ns = 0 ∨ f.nf < r.ns) :
    scanError r tabs f = some (.malformedContainer, 0x13, r.ns) := if_pos h

section Slots
variable (hcount : ¬ (r.ns = 0 ∨ f.nf < r.ns))
include hcount

theorem scanError_index {j : Nat} (hj : j < r.ns) (hbad : Claim.badIndex r f.nf j)
    (hfirst : ∀ i, i < j → ¬ Claim.badIndex r f.nf i) :
    scanError r tabs f = some (.malformedContainer, 0x14, j) := by
  rw [scanError, if_neg hcount, badSlot_eq_some hj hbad hfirst]

variable (hgood : ∀ j, j < r.ns → ¬ Claim.badIndex r f.nf j)
include hgood

theorem scanError_blocks (hns : 1 < r.ns) (hblocks : 10 < Claim.scanBlocks r f r.ns) :
    scanError r tabs f = some (.malformedContainer, 0x15, Claim.scanBlocks r f r.ns) := by
  rw [scanError, if_neg hcount, badSlot_eq_none hgood, blocksPerMcu_slots]
  exact if_pos ⟨hns, hblocks⟩

/-- R225: past the other checks the tables decide. -/
theorem scanError_tables (hblocks : r.ns = 1 ∨ Claim.scanBlocks r f r.ns ≤ 10) :
    scanError r tabs f = (missingTable tabs f r.slots).map ((.missingTable, ·)) := by
  rw [scanError, if_neg hcount, badSlot_eq_none hgood, blocksPerMcu_slots]
  refine (if_neg (by omega)).trans ?_
  cases missingTable tabs f r.slots <;> rfl

end Slots

/-- R320, R321: the grid of a scan is the ceilings. -/
theorem gridIs_scanGrid (hf : f.Sound) (slots : List ScanSlot) :
    Claim.GridIs f slots (scanGrid f slots).1 (scanGrid f slots).2 := by
  refine ⟨?_, fun hlen => ?_⟩
  · rintro sl c rfl hc
    have hmem := List.mem_of_getElem? hc
    have hgrid : scanGrid f [sl] = (ceilDiv (f.cwid c) 8, ceilDiv (f.chgt c) 8) := by simp [scanGrid, hc]
    rw [hgrid]
    exact ⟨ceilDiv_pred_mul_lt (hf.cwid_pos hmem) (by decide), le_ceilDiv_mul _ (by decide),
      ceilDiv_pred_mul_lt (hf.chgt_pos hmem) (by decide), le_ceilDiv_mul _ (by decide)⟩
  · have hne : ∀ sl, slots ≠ [sl] := by
      rintro sl rfl
      simp at hlen
    rw [scanGrid_several hne]
    exact ⟨rfl, rfl⟩

/-- Settles O19: each check of `scanError` is reached past the checks before it. -/
theorem startScanChecksThenCommits : Obligations.StartScanChecksThenCommits := by
  refine ⟨by decide, fun s f hst hf hsound => ?_⟩
  intro ns bad sc
  have herror : ∀ k d a, scanError s.regs s.tabs f = some (k, d, a) → exec .startScan s = .next (raise k d a s) :=
    fun _ _ _ => startScan_error hst hf
  refine ⟨fun hcount => herror _ _ _ (scanError_count hcount), fun h1 hnf => ?_⟩
  have hcount : ¬ (ns = 0 ∨ f.nf < ns) := by omega
  refine ⟨fun j hj hbad hfirst => herror _ _ _ (scanError_index hcount hj hbad hfirst), fun hgood =>
    ⟨fun hns hblocks => herror _ _ _ (scanError_blocks hcount hgood hns hblocks), fun hblocks => ?_⟩⟩
  have htables := scanError_tables (tabs := s.tabs) hcount hgood hblocks
  refine ⟨fun j hj hloaded => ⟨fun hq => herror _ _ _ ?_, fun hq hd => herror _ _ _ ?_,
    fun hq hd ha => herror _ _ _ ?_⟩, fun hloaded => ⟨?_, gridIs_scanGrid hsound _, rfl⟩⟩
  · rw [htables, missingTable_quant hj hloaded hq]
    rfl
  · rw [htables, missingTable_dc hj hloaded hq hd]
    rfl
  · rw [htables, missingTable_ac hj hloaded hq hd ha]
    rfl
  · exact startScan_commit hst hf (htables.trans (congrArg _ (missingTable_eq_none hloaded)))

end Sys2Proof.Machine
end

section
/-! PROOFS. The seven tokens and `FetchByte()` over each shape of the stream (O30, O31), IN_DATA writes (O23), and a
magnitude field that goes on after its wait (O35). -/
namespace Sys2Proof.Machine

variable {s t : State}

/-! ### Tokens -/

theorem exec_rstN (n : BitVec 3) (s : State) :
    exec (.rstN n) s = .next (Claim.gotMarker (BitVec.ofNat 8 (0xD0 + n.toNat)) s) := by
  have hcode : 0x1A#5 ++ n = BitVec.ofNat 8 (0xD0 + n.toNat) := by decide +revert
  rw [← hcode]
  rfl

/-- Settles O30: each token's meaning is the claim's, and an RSTn is the marker of its code. -/
theorem tokensActAsFetchByteSays : Obligations.TokensActAsFetchByteSays := fun s =>
  ⟨fun _ => rfl, rfl, rfl, fun _ => rfl, fun n => exec_rstN n s, rfl, rfl⟩

theorem exec_token_data {b : Byte} (h : b ≠ 0xFF) (s : State) :
    exec (decodeToken (tokenWord [.byte b])) s = .next (Claim.gotByte b s) := by
  rw [decodeToken_data h]
  rfl

theorem exec_token_end (s : State) : exec (decodeToken (tokenWord [.eof])) s = .next (Claim.gotEnd s.br.p s) :=
  congrArg (exec · s) (by decide : decodeToken (tokenWord [.eof]) = .endTok)

theorem exec_token_stuffed (s : State) :
    exec (decodeToken (tokenWord [.byte 0xFF, .byte 0x00])) s = .next (Claim.gotByte 0xFF s) :=
  congrArg (exec · s) (by decide : decodeToken (tokenWord [.byte 0xFF, .byte 0x00]) = .stuffed)

theorem exec_token_fillRun (s : State) : exec (decodeToken (tokenWord [.byte 0xFF, .byte 0xFF])) s =
    .next { s with br := { s.br with window := [.byte 0xFF] } } :=
  congrArg (exec · s) (by decide : decodeToken (tokenWord [.byte 0xFF, .byte 0xFF]) = .fillRun)

theorem exec_token_dangling (s : State) :
    exec (decodeToken (tokenWord [.byte 0xFF, .eof])) s = .next (Claim.gotEnd s.br.start s) :=
  congrArg (exec · s) (by decide : decodeToken (tokenWord [.byte 0xFF, .eof]) = .dangling)

/-- R145, R146: after a 0xFF, a byte that is neither stuffing nor fill is a marker, RSTn or not. -/
theorem exec_token_marker {x : Byte} (h0 : x ≠ 0x00) (hF : x ≠ 0xFF) (s : State) :
    exec (decodeToken (tokenWord [.byte 0xFF, .byte x])) s = .next (Claim.gotMarker x s) := by
  by_cases hrst : x.extractLsb' 3 5 = 0x1A
  · have hx : x = 0x1A#5 ++ x.extractLsb' 0 3 := (marker_split x).trans (by rw [hrst]; rfl)
    rw [hx, decodeToken_rstN]
    rfl
  · rw [decodeToken_marker (stopCode_of_not_rst h0 hF hrst)]
    rfl

/-! ### `InPop()` and the token after it -/

/-- R264: a count below 2^32 - 1 goes up by one and uses no free value. -/
theorem countUp_of_lt {w : Word} (h : w.toNat + 1 < 2 ^ 32) (used : Nat) :
    countUp w used = w + 1 ∧ countUsed w used = used := by
  have hne : w ≠ BitVec.allOnes 32 := by
    rintro rfl
    simp at h
  exact ⟨if_neg hne, if_neg hne⟩

theorem toNat_add_one {w : Word} (h : w.toNat + 1 < 2 ^ 32) : (w + 1).toNat = w.toNat + 1 :=
  BitVec.toNat_add_of_lt h

theorem add_ofNat_add_one (w : Word) (n : Nat) : w + BitVec.ofNat 32 n + 1 = w + BitVec.ofNat 32 (n + 1) := by
  rw [BitVec.add_assoc, BitVec.ofNat_add n 1]
  rfl

theorem add_one_add_ofNat (w : Word) (n : Nat) : w + 1 + BitVec.ofNat 32 n = w + BitVec.ofNat 32 (n + 1) := by
  rw [add_right_comm, add_ofNat_add_one]

/-- The state of a `FetchByte()` in progress: it differs from `s`, where it began, in what is still in the FIFO, in the
reader and in the mark of R13. -/
def reading (fifo : List InEntry) (br : BitReader) (mid : Bool) (s : State) : State :=
  { s with inFifo := fifo, br := br, mid := mid }

/-- R262: the reader inside a token that began at offset `start`: it holds `taken` of it and stands at `p`. -/
def BitReader.holding (taken : List InEntry) (start p : Word) (br : BitReader) : BitReader :=
  { br with window := taken, start := start, p := p }

theorem inPop_byte {b : Byte} {rest : List InEntry} (h : s.inFifo = .byte b :: rest) (hp : s.br.p.toNat + 1 < 2 ^ 32) :
    Claim.betweenSteps (inPop s) = reading rest (s.br.holding (s.br.window ++ [.byte b])
      (if s.br.window = [] then s.br.p else s.br.start) (s.br.p + 1)) false s := by
  obtain ⟨hup, hused⟩ := countUp_of_lt hp s.freeUsed
  simp [inPop, h, hup, hused, Claim.betweenSteps, reading, BitReader.holding]

/-- R260: the EOF token stays in the FIFO. -/
theorem inPop_eof {rest : List InEntry} (h : s.inFifo = .eof :: rest) :
    Claim.betweenSteps (inPop s) = reading s.inFifo (s.br.holding (s.br.window ++ [.eof])
      (if s.br.window = [] then s.br.p else s.br.start) s.br.p) false s := by
  simp [inPop, h, Claim.betweenSteps, reading, BitReader.holding]

theorem scan_of_nextOp_inPop (h : nextOp s = .inPop) : s.st = .scan := by
  have hspec := nextOp_spec s
  rw [h] at hspec
  exact hspec.1

theorem engineStep_inPop (hop : nextOp s = .inPop) : engineStep s = .next (Claim.betweenSteps (inPop s)) :=
  engineStep_between hop rfl rfl

theorem engineRun_succ {k : Nat} (h : engineStep s = .next t) : Claim.engineRun (k + 1) s = Claim.engineRun k t := by
  rw [Claim.engineRun, h]

theorem engineRun_add {k : Nat} (h : Claim.engineRun k s = some t) (l : Nat) :
    Claim.engineRun (k + l) s = Claim.engineRun l t := by
  induction k generalizing s with
  | zero =>
    obtain rfl : s = t := Option.some.inj h
    rw [Nat.zero_add]
  | succ k ih =>
    rw [Nat.add_right_comm]
    simp only [Claim.engineRun] at h ⊢
    split at h
    · exact ih h
    · simp at h

/-- R260, R262: the pop that completes a token, and the token. -/
theorem engineRun_token {br br' : BitReader} {fifo : List InEntry} (hop : nextOp s = .inPop) (hst : t.st = .scan)
    (hpop : Claim.betweenSteps (inPop s) = reading fifo br false t) (hw : windowComplete br.window = true)
    (he : exec (decodeToken (tokenWord br.window)) (reading fifo br false t) = .next (reading fifo br' false t)) :
    Claim.engineRun 2 s = some (reading fifo br' true t) := by
  have hat : StandsAt (reading fifo br false t) (decodeToken (tokenWord br.window)) := .inl ⟨hst, hw, rfl⟩
  have hinside : Claim.insideStep (reading fifo br' false t) = reading fifo br' true t := by
    simp [Claim.insideStep, reading, hst]
  rw [engineRun_succ (engineStep_inPop hop), hpop, engineRun_succ (hat.engineStep_eq he), hinside, Claim.engineRun]

/-! ### A run of 0xFF -/

section Run

variable {start p : Word} {br br' : BitReader} {rest : List InEntry} (hst : s.st = .scan)
include hst

theorem nextOp_afterFF (fifo : List InEntry) (mid : Bool) :
    nextOp (reading fifo (br.holding [.byte 0xFF] start p) mid s) = .inPop :=
  nextOp_inPop_window hst rfl nofun

/-- R262: the byte after a 0xFF completes the token, whatever it is. -/
theorem engineRun_byteAfterFF {x : Byte} (mid : Bool) (hp : p.toNat + 1 < 2 ^ 32)
    (he : exec (decodeToken (tokenWord [.byte 0xFF, .byte x]))
      (reading rest (br.holding [.byte 0xFF, .byte x] start (p + 1)) false s) = .next (reading rest br' false s)) :
    Claim.engineRun 2 (reading (.byte x :: rest) (br.holding [.byte 0xFF] start p) mid s) =
      some (reading rest br' true s) :=
  engineRun_token (nextOp_afterFF hst _ _) hst (inPop_byte rfl hp) rfl he

/-- R262: END after a 0xFF is DANGLING. -/
theorem engineRun_eofAfterFF (mid : Bool) :
    Claim.engineRun 2 (reading (.eof :: rest) (br.holding [.byte 0xFF] start p) mid s) =
      some (reading (.eof :: rest)
        { br.holding [] start p with mode := .endMode, inCount := start } true s) :=
  engineRun_token (nextOp_afterFF hst _ _) hst (inPop_eof rfl) rfl (exec_token_dangling _)

/-- R262: a 0xFF after a 0xFF is fill: the token goes on from the second. -/
theorem engineRun_fillAfterFF (mid : Bool) (hp : p.toNat + 1 < 2 ^ 32) :
    Claim.engineRun 2 (reading (.byte 0xFF :: rest) (br.holding [.byte 0xFF] start p) mid s) =
      some (reading rest (br.holding [.byte 0xFF] start (p + 1)) true s) :=
  engineRun_byteAfterFF hst mid hp (exec_token_fillRun _)

theorem engineRun_fillsAfterFF (n : Nat) (mid : Bool) (hp : p.toNat + n < 2 ^ 32) :
    ∃ mid', Claim.engineRun (2 * n)
        (reading (List.replicate n (.byte 0xFF) ++ rest) (br.holding [.byte 0xFF] start p) mid s) =
      some (reading rest (br.holding [.byte 0xFF] start (p + BitVec.ofNat 32 n)) mid' s) := by
  induction n generalizing p mid with
  | zero => exact ⟨mid, by simp [Claim.engineRun]⟩
  | succ n ih =>
    have hp1 : p.toNat + 1 < 2 ^ 32 := by omega
    obtain ⟨mid', hrun⟩ := ih (p := p + 1) true (by rw [toNat_add_one hp1]; omega)
    refine ⟨mid', ?_⟩
    rw [Nat.mul_succ, Nat.add_comm, List.replicate_succ, List.cons_append,
      engineRun_add (engineRun_fillAfterFF hst mid hp1), hrun, add_one_add_ofNat]

end Run

/-- R262: `FetchByte()` drops the bytes of a 0xFF run but the last, which the next entry decides on. -/
theorem engineRun_run {n : Nat} {rest : List InEntry} (hop : nextOp s = .inPop) (hw : s.br.window = [])
    (hin : s.inFifo = List.replicate (n + 1) (.byte 0xFF) ++ rest) (hp : s.br.p.toNat + n + 1 < 2 ^ 32) :
    ∃ mid, Claim.engineRun (2 * n + 1) s =
      some (reading rest (s.br.holding [.byte 0xFF] s.br.p (s.br.p + BitVec.ofNat 32 (n + 1))) mid s) := by
  have hp1 : s.br.p.toNat + 1 < 2 ^ 32 := by omega
  obtain ⟨mid, hrun⟩ := engineRun_fillsAfterFF (start := s.br.p) (p := s.br.p + 1) (br := s.br) (rest := rest)
    (scan_of_nextOp_inPop hop) n false (by rw [toNat_add_one hp1]; omega)
  refine ⟨mid, ?_⟩
  rw [engineRun_succ (engineStep_inPop hop), inPop_byte hin hp1, hw, ← add_one_add_ofNat]
  exact hrun

/-- Settles O31: a run is taken up to its last 0xFF, by induction on its length, and the next entry completes the token. -/
theorem aFillRunIsOneToken : Obligations.AFillRunIsOneToken := by
  intro s hop hw kept
  have hst := scan_of_nextOp_inPop hop
  refine ⟨fun x rest hin hx hp => ?_, fun rest hin => ?_, fun n x rest hin hx hp => ?_, fun n rest hin hp => ?_⟩
  · have hpop := inPop_byte hin hp
    rw [hw] at hpop
    have hcomplete : windowComplete [.byte x] = true := by simpa [windowComplete] using hx
    exact ⟨_, engineRun_token hop hst hpop hcomplete (exec_token_data hx _), rfl, rfl, rfl, rfl, rfl, rfl, rfl,
      rfl, rfl⟩
  · have hpop := inPop_eof hin
    rw [hw] at hpop
    exact ⟨_, engineRun_token hop hst hpop rfl (exec_token_end _), rfl, rfl, rfl, rfl, rfl, rfl, rfl, rfl, rfl⟩
  · obtain ⟨mid, hrun⟩ := engineRun_run hop hw hin (by omega)
    have hlast : (s.br.p + BitVec.ofNat 32 (n + 1)).toNat + 1 < 2 ^ 32 := by
      simp only [BitVec.toNat_add, BitVec.toNat_ofNat]
      omega
    by_cases h0 : x = 0
    · subst h0
      exact ⟨_, (engineRun_add hrun 2).trans (engineRun_byteAfterFF hst mid hlast (exec_token_stuffed _)), rfl,
        add_ofNat_add_one _ _, fun _ => ⟨rfl, rfl, rfl, rfl⟩, fun hne => absurd rfl hne, rfl, rfl, rfl⟩
    · exact ⟨_, (engineRun_add hrun 2).trans (engineRun_byteAfterFF hst mid hlast (exec_token_marker h0 hx _)), rfl,
        add_ofNat_add_one _ _, fun he => absurd he h0, fun _ => ⟨rfl, rfl, rfl, rfl⟩, rfl, rfl, rfl⟩
  · obtain ⟨mid, hrun⟩ := engineRun_run hop hw hin hp
    exact ⟨_, (engineRun_add hrun 2).trans (engineRun_eofAfterFF hst mid), rfl, rfl, rfl, rfl, rfl, rfl, rfl, rfl, rfl⟩

/-! ### IN_DATA writes -/

theorem acceptsInput_iff (s : State) :
    acceptsInput s = true ↔ s.st = .scan ∧ s.eofSeen = false ∧ s.inFifo.length < s.par.inDepth := by
  simp [acceptsInput, and_assoc]

theorem exec_inDataWr_byte {v : Word} (ha : acceptsInput s = true) (hv : v.getLsbD 8 = false) :
    exec (.inDataWr v) s = .next { s with inFifo := s.inFifo ++ [.byte (v.extractLsb' 0 8)] } := by
  have hbyte : v.setWidth 8 = v.extractLsb' 0 8 := BitVec.setWidth_eq_extractLsb' (by decide)
  rw [exec, execInDataWr, if_pos ha, hv, hbyte]
  rfl

theorem exec_inDataWr_eof {v : Word} (ha : acceptsInput s = true) (hv : v.getLsbD 8 = true) :
    exec (.inDataWr v) s = .next { s with inFifo := s.inFifo ++ [.eof], eofSeen := true } := by
  rw [exec, execInDataWr, if_pos ha, if_pos hv]

theorem exec_inDataWr_dropped (v : Word) (ha : acceptsInput s = false) :
    exec (.inDataWr v) s = .next { s with intStatus := s.intStatus ||| 0x20 } := by
  rw [exec, execInDataWr, if_neg (by simp [ha]), setInt, intUpdate_set]
  rfl

/-- Settles O23: a write is dropped where one of the three conditions to accept it fails. -/
theorem inDataWritesEnterOrAreDropped : Obligations.InDataWritesEnterOrAreDropped := by
  refine ⟨fun v => rfl, fun s v => ⟨fun hst heof hroom => ?_, fun hdrop => exec_inDataWr_dropped v ?_⟩⟩
  · have ha := (acceptsInput_iff s).mpr ⟨hst, heof, hroom⟩
    exact ⟨exec_inDataWr_byte ha, exec_inDataWr_eof ha⟩
  · rw [← Bool.not_eq_true, acceptsInput_iff]
    rintro ⟨hst, heof, hroom⟩
    rcases hdrop with h | h | h
    · exact h hst
    · exact Bool.false_ne_true (heof.symm.trans h)
    · exact Nat.not_lt.mpr h hroom

/-! ### A magnitude field that waited -/

/-- R267: a value of `n` bits and `k` bits more make a value of `n + k` bits. -/
theorem append_bits_lt {v x n k : Nat} (hv : v < 2 ^ n) (hx : x < 2 ^ k) : v * 2 ^ k + x < 2 ^ (n + k) :=
  calc v * 2 ^ k + x < v * 2 ^ k + 2 ^ k := Nat.add_lt_add_left hx _
    _ = (v + 1) * 2 ^ k := (Nat.succ_mul _ _).symm
    _ ≤ 2 ^ n * 2 ^ k := Nat.mul_le_mul_right _ hv
    _ = 2 ^ (n + k) := (pow_add ..).symm

/-- The first `a` bits of a byte, as a number. -/
theorem div_two_pow_lt (b : Byte) {a : Nat} (ha : a ≤ 8) : b.toNat / 2 ^ (8 - a) < 2 ^ a := by
  rw [Nat.div_lt_iff_lt_mul (Nat.two_pow_pos _), ← pow_add, Nat.add_sub_cancel' ha]
  exact b.isLt

/-- R303, R311: the tail of a magnitude field that reads `field`. -/
theorem magnitudeDone_spec {bp : BlockPos} (hbp : currentBlock s = .ok bp) (dc : Bool) (n : Nat) {field : Nat}
    (hfield : field < 2 ^ 16) :
    (dc = true → magnitudeDone dc n (BitVec.ofNat 16 field) s =
      .ok (Claim.afterDc bp.slot.cidx (extend field n) s)) ∧
    (dc = false → magnitudeDone dc n (BitVec.ofNat 16 field) s =
      .ok (Claim.afterAc s.seq.k (extend field n) s)) := by
  have hval : (BitVec.ofNat 16 field).toNat = field := by rw [BitVec.toNat_ofNat, Nat.mod_eq_of_lt hfield]
  constructor
  · rintro rfl
    rw [magnitudeDone, if_pos rfl, dcDoneHere, hbp, hval]
    rfl
  · rintro rfl
    rw [magnitudeDone, if_neg Bool.false_ne_true, hval]
    rfl

/-- R266: the fetched byte becomes the byte at hand, its last `k` bits unread. -/
def withByte (b : Byte) (k : Nat) (s : State) : State :=
  { s with br := { s.br with cur := some b, nbits := k, byte := none } }

section Fetched

variable {dc : Bool} {n left : Nat} {v : Half} {b : Byte} (hn : s.br.nbits = 0) (hb : s.br.byte = some b)
include hn hb

/-- R266, R267: with no bit left, a field goes on with the bits of the byte fetched for it. -/
theorem readMagnitude_fetched (hl : 0 < left) :
    readMagnitude dc n left v s = readMagnitude dc n left v (withByte b 8 s) := by
  obtain ⟨l, rfl⟩ : ∃ l, left = l + 1 := ⟨left - 1, by omega⟩
  have hfirst : readBit s = .ok (some (b.getLsbD 7, withByte b 7 s)) := by simp [readBit, hn, hb, withByte]
  have hsecond : readBit (withByte b 8 s) = .ok (some (b.getLsbD 7, withByte b 7 s)) := rfl
  rw [readMagnitude, readMagnitude, hfirst, hsecond]

/-- R266, R267: the fetched byte's first `a` bits go to the field. -/
theorem readMagnitude_byte {a : Nat} (ha : a ≤ 8) (hl : 0 < a + left) :
    readMagnitude dc n (a + left) v s =
      readMagnitude dc n left (BitVec.ofNat 16 (v.toNat * 2 ^ a + b.toNat / 2 ^ (8 - a))) (withByte b (8 - a) s) := by
  rw [readMagnitude_fetched hn hb hl, readMagnitude_cur (n := 8) rfl ha rfl, Nat.mod_eq_of_lt (div_two_pow_lt b ha)]
  rfl

/-- R266, R267: a byte completes a field that needs 8 bits at most. -/
theorem readMagnitude_byte_done (h0 : 0 < left) (h8 : left ≤ 8) :
    readMagnitude dc n left v s =
      magnitudeDone dc n (BitVec.ofNat 16 (v.toNat * 2 ^ left + b.toNat / 2 ^ (8 - left)))
        (withByte b (8 - left) s) :=
  readMagnitude_byte (left := 0) hn hb h8 h0

/-- R260, R266, R267: a field that needs more than 8 bits takes the byte and waits for the next. -/
theorem readMagnitude_byte_wait (hm : s.br.mode = .data) (h8 : 8 < left) :
    readMagnitude dc n left v s =
      .ok (setBits (.mag dc n (n - (left - 8)) (BitVec.ofNat 16 (v.toNat * 256 + b.toNat))) (withByte b 0 s)) := by
  obtain ⟨l, rfl⟩ : ∃ l, left = 8 + l := ⟨left - 8, by omega⟩
  rw [readMagnitude_byte hn hb le_rfl (by omega), Nat.add_sub_cancel_left, Nat.sub_self, Nat.pow_zero, Nat.div_one]
  exact readMagnitude_wait rfl rfl hm (by omega)

end Fetched

/-- Settles O35: the missing bits are the first of the fetched byte, or all of them and a wait, or the fill. -/
theorem aWaitingFieldGoesOnWithTheNextByte : Obligations.AWaitingFieldGoesOnWithTheNextByte := by
  intro s dc t n v bp hbits hnt ht hv hn hbp
  have htake : takeBits s = readMagnitude dc t (t - n) v s := by rw [takeBits, hbits]
  have hmissing : 0 < t - n := Nat.sub_pos_of_lt hnt
  have hlt : ∀ x, x < 2 ^ (t - n) → v.toNat * 2 ^ (t - n) + x < 2 ^ 16 := fun x hx =>
    (append_bits_lt hv hx).trans_le (Nat.pow_le_pow_right (by decide) (by omega))
  rw [htake]
  refine ⟨fun b hb hm => ⟨fun hle => ?_, fun hgt => ?_⟩, fun hb hm => ?_⟩
  · rw [readMagnitude_byte_done hn hb hmissing hle]
    exact magnitudeDone_spec (s := withByte b (8 - (t - n)) s) hbp dc t (hlt _ (div_two_pow_lt b hle))
  · have hread : t - (t - n - 8) = n + 8 := by omega
    rw [readMagnitude_byte_wait hn hb hm hgt, hread, Nat.sub_eq_zero_of_le hgt.le]
    rfl
  · have hfill : Claim.filled s = { s with br := { s.br with fillUsed := true } } := by simp [Claim.filled, ← hn]
    rw [readMagnitude_fill hn hb hm hmissing, hfill]
    exact magnitudeDone_spec (s := { s with br := { s.br with fillUsed := true } }) hbp dc t
      (hlt _ (Nat.sub_lt (Nat.two_pow_pos _) Nat.one_pos))

end Sys2Proof.Machine
end

section
/-! PROOFS. The input side of a state (R69, R261), which no operation of the engine but `InPop()` looks at, and so an
accepted IN_DATA write commutes with the engine (O29). -/
namespace Sys2Proof.Machine

variable {s t : State} {fifo : List InEntry} {eof : Bool} {depth : Nat}

/-! ### A state with another input side -/

/-- R69, R455, R337: the state with another input FIFO and EOF_SEEN, where a scan runs for them to feed (what leaves SCAN
flushes them), and another IN_DEPTH. -/
def State.refill (fifo : List InEntry) (eof : Bool) (depth : Nat) (s : State) : State :=
  { s with
    inFifo := if s.st = .scan then fifo else s.inFifo
    eofSeen := if s.st = .scan then eof else s.eofSeen
    par := { s.par with inDepth := depth } }

/-- A state is its own, refilled with what it has. -/
theorem State.refill_self (s : State) : s.refill s.inFifo s.eofSeen s.par.inDepth = s := by
  simp [State.refill]

@[simp] theorem refill_br : (s.refill fifo eof depth).br = s.br := rfl

@[simp] theorem refill_seq : (s.refill fifo eof depth).seq = s.seq := rfl

@[simp] theorem refill_nextRst : (s.refill fifo eof depth).nextRst = s.nextRst := rfl

@[simp] theorem refill_trailing : (s.refill fifo eof depth).trailing = s.trailing := rfl

@[simp] theorem refill_blk : (s.refill fifo eof depth).blk = s.blk := rfl

@[simp] theorem refill_tabs : (s.refill fifo eof depth).tabs = s.tabs := rfl

@[simp] theorem refill_scan : (s.refill fifo eof depth).scan = s.scan := rfl

@[simp] theorem refill_m : (s.refill fifo eof depth).m = s.m := rfl

@[simp] theorem refill_idct : (s.refill fifo eof depth).par.idct = s.par.idct := rfl

@[simp] theorem snapshots_refill : snapshots (s.refill fifo eof depth) = snapshots s := rfl

@[simp] theorem currentBlock_refill : currentBlock (s.refill fifo eof depth) = currentBlock s := rfl

@[simp] theorem currentHuff_refill : currentHuff (s.refill fifo eof depth) = currentHuff s := rfl

@[simp] theorem nextOp_refill : nextOp (s.refill fifo eof depth) = nextOp s := rfl

@[simp] theorem engineInstr_refill : engineInstr (s.refill fifo eof depth) = engineInstr s := rfl

@[simp] theorem runOverrun_refill (r : BitVec 4) : runOverrun r (s.refill fifo eof depth) = runOverrun r s := rfl

/-- An operation of the engine that does not look at the input side. -/
def IgnoresInput (op : State → Except Fault State) : Prop :=
  ∀ fifo eof depth s, op (s.refill fifo eof depth) = (op s).map (State.refill fifo eof depth)

theorem answer_map (g : State → State) (r : Except Fault State) : answer (r.map g) = mapNext g (answer r) := by
  cases r <;> rfl

theorem mapNext_mapNext (g h : State → State) (o : Host.Outcome State Fault Refusal) :
    mapNext g (mapNext h o) = mapNext (g ∘ h) o := by
  cases o <;> rfl

/-! ### The operations that do not look at it -/

theorem dcDoneHere_ignoresInput (d : Int) : IgnoresInput (dcDoneHere d) := by
  intro fifo eof depth s
  unfold dcDoneHere
  rw [currentBlock_refill]
  split <;> rfl

theorem magnitudeDone_ignoresInput (dc : Bool) (n : Nat) (v : Half) : IgnoresInput (magnitudeDone dc n v) := by
  intro fifo eof depth s
  cases dc
  · rfl
  · exact dcDoneHere_ignoresInput _ fifo eof depth s

/-- R266. -/
theorem readBit_refill : readBit (s.refill fifo eof depth) =
    (readBit s).map (Option.map (Prod.map id (State.refill fifo eof depth))) := by
  unfold readBit State.refill
  simp only
  split
  · split
    · rfl
    · split <;> rfl
  · split <;> rfl

/-- R267. -/
theorem readMagnitude_ignoresInput (dc : Bool) (n left : Nat) (v : Half) : IgnoresInput (readMagnitude dc n left v) := by
  intro fifo eof depth s
  induction left generalizing v s with
  | zero => exact magnitudeDone_ignoresInput dc n v fifo eof depth s
  | succ left ih =>
    rw [readMagnitude, readMagnitude, readBit_refill]
    rcases readBit s with e | _ | ⟨bit, u⟩
    · rfl
    · rfl
    · exact ih (pushBit v bit) u

/-- R300, R301. -/
theorem huffBit_ignoresInput (code : Half) (len : Nat) : IgnoresInput (huffBit code len) := by
  intro fifo eof depth s
  unfold huffBit
  rw [currentHuff_refill]
  rcases currentHuff s with e | h
  · rfl
  · simp only
    rcases lookup h len code with e | _ | sym
    · rfl
    · simp only
      split <;> rfl
    · rfl

theorem takeBits_ignoresInput : IgnoresInput takeBits := by
  intro fifo eof depth s
  rw [takeBits, takeBits, refill_seq, readBit_refill]
  rcases s.seq.bits with ⟨code, len⟩ | b | ⟨dc, n, k, v⟩
  · rcases readBit s with e | _ | ⟨bit, u⟩
    · rfl
    · rfl
    · exact huffBit_ignoresInput (pushBit code bit) (len + 1) fifo eof depth u
  · rfl
  · exact readMagnitude_ignoresInput dc n (n - k) v fifo eof depth s

/-- R302, R325: an MCU begins where it has a first block. -/
theorem beginMcu_eq (s : State) :
    beginMcu s = (currentBlock { s with seq := { s.seq with b := 0 } }).map fun _ => startBlock 0 s := by
  unfold beginMcu
  split <;> simp_all [Except.map]

theorem beginMcu_ignoresInput : IgnoresInput beginMcu := by
  intro fifo eof depth s
  rw [beginMcu_eq, beginMcu_eq]
  change Except.map _ (currentBlock { s with seq := { s.seq with b := 0 } }) = _
  cases currentBlock { s with seq := { s.seq with b := 0 } } <;> rfl

/-- R330: the checks look at the reader and NEXT_RST alone. -/
theorem restartJudge_ignoresInput : IgnoresInput restartJudge := by
  intro fifo eof depth s
  unfold restartJudge
  rw [refill_br, refill_nextRst]
  split
  · rfl
  · split
    · rfl
    · rcases s.br.marker with _ | x
      · rfl
      · simp only
        split
        · rfl
        · split
          · rfl
          · exact beginMcu_ignoresInput fifo eof depth
              { consumeMarker s with nextRst := s.nextRst + 1, pred := ⟨0, 0, 0⟩ }

theorem storeSamples_ignoresInput (f : FrameSnap) (bp : BlockPos) (S : List Byte) :
    IgnoresInput (storeSamples f bp S) := by
  intro fifo eof depth s
  unfold storeSamples
  split
  · generalize blockCells bp.slot.cidx bp.bxp bp.byp S = cells
    rfl
  · rfl

/-- R360. -/
theorem transformAndStore_ignoresInput (f : FrameSnap) (bp : BlockPos) : IgnoresInput (transformAndStore f bp) := by
  intro fifo eof depth s
  unfold transformAndStore
  rw [refill_blk, refill_tabs, refill_idct]
  split
  · rfl
  · next coef _ =>
    split
    · rfl
    · next q _ =>
      generalize dequant coef q = dq
      exact storeSamples_ignoresInput f bp (idct s.par.idct dq) fifo eof depth
        { s with blk := transformWork s.par.idct dq s.blk }

theorem storeBlock_ignoresInput : IgnoresInput storeBlock := by
  intro fifo eof depth s
  unfold storeBlock
  rw [snapshots_refill, currentBlock_refill, refill_m, refill_seq]
  split
  · rfl
  · rfl
  · next f sc bp _ _ =>
    rw [transformAndStore_ignoresInput]
    rcases transformAndStore f bp s with e | u
    · rfl
    · simp only [Except.map]
      split <;> rfl

theorem mcuDone_ignoresInput : IgnoresInput mcuDone := by
  intro fifo eof depth s
  unfold mcuDone
  rw [refill_scan, refill_m]
  rcases s.scan with _ | sc
  · rfl
  · simp only
    split <;> split <;> rfl

/-- R337: a complete scan leaves an empty FIFO, whatever it held. -/
theorem completeScan_ignoresInput (x : Byte) : IgnoresInput (completeScan x) := by
  intro fifo eof depth s
  unfold completeScan
  rw [refill_scan]
  rcases s.scan with _ | sc <;> rfl

theorem endJudge_ignoresInput : IgnoresInput endJudge := by
  intro fifo eof depth s
  unfold endJudge
  rw [refill_br, refill_seq, refill_nextRst, refill_trailing]
  split
  · rfl
  · rcases s.br.marker with _ | x
    · rfl
    · simp only
      split
      · split <;> rfl
      · exact completeScan_ignoresInput x fifo eof depth s

theorem engineOther_ignoresInput (hst : s.st = .scan) (hop : nextOp s ≠ .inPop) :
    engineOther (nextOp s) (s.refill fifo eof depth) =
      (engineOther (nextOp s) s).map (State.refill fifo eof depth) := by
  have hspec := nextOp_spec s
  cases h : nextOp s <;> rw [h] at hspec hop
  case inPop => exact absurd rfl hop
  case outPush | convertDone => exact absurd (hst.symm.trans hspec.1) (by decide)
  case noStep | token | symbol | align | trail => rfl
  case beginMcu => exact beginMcu_ignoresInput fifo eof depth s
  case restartJudge => exact restartJudge_ignoresInput fifo eof depth s
  case readBits => exact takeBits_ignoresInput fifo eof depth s
  case storeBlock => exact storeBlock_ignoresInput fifo eof depth s
  case mcuDone => exact mcuDone_ignoresInput fifo eof depth s
  case endJudge => exact endJudge_ignoresInput fifo eof depth s

theorem answer_refill {op : State → Except Fault State} (h : IgnoresInput op) :
    answer (op (s.refill fifo eof depth)) = mapNext (State.refill fifo eof depth) (answer (op s)) := by
  rw [h, answer_map]

theorem exec_refill_token {i : Instr} (hi : tokenInstr i = true) :
    exec i (s.refill fifo eof depth) = mapNext (State.refill fifo eof depth) (exec i s) := by
  cases i
  case stuffed | fillRun | rstN | marker | dangling | data | endTok => rfl
  all_goals exact absurd hi Bool.false_ne_true

theorem exec_refill_symbol {i : Instr} (hi : symInstr i = true) :
    exec i (s.refill fifo eof depth) = mapNext (State.refill fifo eof depth) (exec i s) := by
  cases i
  case dcZero => exact answer_refill (dcDoneHere_ignoresInput 0)
  case dcDiffLow t => exact answer_refill (readMagnitude_ignoresInput true t.toNat t.toNat 0)
  case dcDiffHigh t => exact answer_refill (readMagnitude_ignoresInput true t.toNat t.toNat 0)
  case dcIllegal | acEob => rfl
  case acZrl =>
    rw [exec, exec, execAcZrl, execAcZrl, refill_seq]
    split <;> rfl
  case acRunOnly r =>
    rw [exec, exec, execAcRunOnly, execAcRunOnly, runOverrun_refill]
    split <;> rfl
  case acRunValue r z =>
    rw [exec, exec, execAcRunValue, execAcRunValue, runOverrun_refill]
    split
    · rfl
    · exact answer_refill (s := skipRun r s) (readMagnitude_ignoresInput false z.toNat z.toNat 0)
  all_goals exact absurd hi Bool.false_ne_true

/-- R13, R338: an operation other than `InPop()` does the same whatever the input side. -/
theorem engineStep_refill (hst : s.st = .scan) (hop : nextOp s ≠ .inPop) :
    engineStep (s.refill fifo eof depth) = mapNext (State.refill fifo eof depth) (engineStep s) := by
  have hmark : markStep (nextOp s) ∘ State.refill fifo eof depth =
      State.refill fifo eof depth ∘ markStep (nextOp s) := rfl
  unfold engineStep
  rw [nextOp_refill, engineInstr_refill, mapNext_mapNext, ← hmark, ← mapNext_mapNext]
  congr 1
  split
  · next i hi =>
    obtain ⟨-, rfl⟩ | ⟨-, b, -, rfl⟩ := engineInstr_eq_some hi
    · exact exec_refill_token (decodeToken_token _)
    · exact exec_refill_symbol (symbolInstr_sym _ _)
  · rw [engineOther_ignoresInput hst hop, answer_map]

/-- R69, R338: an operation other than `InPop()` that leaves the scan going leaves the input side as it is. -/
theorem engineStep_input (hst : s.st = .scan) (hop : nextOp s ≠ .inPop) (he : engineStep s = .next t)
    (ht : t.st = .scan) :
    t.inFifo = s.inFifo ∧ t.eofSeen = s.eofSeen ∧ t.par.inDepth = s.par.inDepth := by
  have h := engineStep_refill (fifo := s.inFifo) (eof := s.eofSeen) (depth := s.par.inDepth) hst hop
  rw [State.refill_self, he] at h
  injection h with h
  have hfifo := congrArg State.inFifo h
  have heof := congrArg State.eofSeen h
  have hdepth := congrArg (·.par.inDepth) h
  simp only [State.refill, ht, if_true] at hfifo heof hdepth
  exact ⟨hfifo, heof, hdepth⟩

/-! ### A write before the engine, and after it -/

/-- R261: the state after an accepted IN_DATA write of `v`. -/
def State.entered (v : Word) (s : State) : State :=
  s.refill (s.inFifo ++ [if v.getLsbD 8 then .eof else .byte (v.setWidth 8)]) (v.getLsbD 8 || s.eofSeen) s.par.inDepth

theorem exec_inDataWr_accepted (v : Word) (ha : acceptsInput s = true) : exec (.inDataWr v) s = .next (s.entered v) := by
  obtain ⟨hst, -, -⟩ := (acceptsInput_iff s).mp ha
  rw [exec, execInDataWr, if_pos ha]
  cases hv : v.getLsbD 8 <;> simp only [State.entered, State.refill, hst, hv] <;> rfl

/-- R260: `InPop()` takes the oldest entry, a write adds the youngest. -/
theorem inPop_entered (v : Word) (hst : s.st = .scan) (hne : s.inFifo ≠ []) :
    inPop (s.entered v) = (inPop s).entered v := by
  rcases hfifo : s.inFifo with _ | ⟨_ | _, rest⟩
  · exact absurd hfifo hne
  · simp [inPop, State.entered, State.refill, hst, hfifo]
  · simp [inPop, State.entered, State.refill, hst, hfifo]

theorem inPop_accepts (ha : acceptsInput s = true) : acceptsInput (inPop s) = true := by
  rw [acceptsInput_iff] at ha ⊢
  unfold inPop
  simp only
  split
  · exact ha
  · exact ha
  · next b rest e =>
    rw [e, List.length_cons] at ha
    exact ⟨ha.1, ha.2.1, by simp only; omega⟩

/-- R338: a write around `InPop()`. -/
theorem engineStep_entered_inPop (v : Word) (hne : s.inFifo ≠ []) (hop : nextOp s = .inPop) :
    engineStep (s.entered v) = .next ((Claim.betweenSteps (inPop s)).entered v) := by
  have hop' : nextOp (s.entered v) = .inPop := hop
  rw [engineStep_inPop hop', inPop_entered v (scan_of_nextOp_inPop hop) hne]
  rfl

/-- R338: a write around any other operation. -/
theorem engineStep_entered_other (v : Word) (ha : acceptsInput s = true) (hop : nextOp s ≠ .inPop)
    (he : engineStep s = .next t) (ht : t.st = .scan) :
    acceptsInput t = true ∧ engineStep (s.entered v) = .next (t.entered v) := by
  obtain ⟨hst, heof, hroom⟩ := (acceptsInput_iff s).mp ha
  obtain ⟨hfifo, hseen, hdepth⟩ := engineStep_input hst hop he ht
  refine ⟨(acceptsInput_iff t).mpr ⟨ht, hseen.trans heof, by rwa [hfifo, hdepth]⟩, ?_⟩
  rw [State.entered, engineStep_refill hst hop, he, mapNext, State.entered, hfifo, hseen, hdepth]

/-- Settles O29: the write appends to the FIFO; `InPop()` takes the other end of it, and no other operation looks at it. -/
theorem inputWritesCommuteWithTheEngine : Obligations.InputWritesCommuteWithTheEngine := by
  intro s t v hst hr heof hroom he ht
  have ha := (acceptsInput_iff s).mpr ⟨hst, heof, hroom⟩
  have hafter : acceptsInput t = true ∧ engineStep (s.entered v) = .next (t.entered v) := by
    by_cases hop : nextOp s = .inPop
    · obtain ⟨-, hfed, -⟩ := (engineReady_iff s).mp hr
      have heq := (engineStep_inPop hop).symm.trans he
      injection heq with heq
      subst heq
      exact ⟨inPop_accepts ha, engineStep_entered_inPop v (hfed hop) hop⟩
    · exact engineStep_entered_other v ha hop he ht
  exact ⟨s.entered v, t.entered v, exec_inDataWr_accepted v ha, hafter.2, exec_inDataWr_accepted v hafter.1, rfl⟩

end Sys2Proof.Machine
end

section
/-! PROOFS. Symbols (R300-R312): one more bit of a code word (O32), the DC symbols (O33, O34, O36), the AC symbols (O37-O39)
and the sign extension of a magnitude field (O40). -/
namespace Sys2Proof.Machine

variable {s : State}

/-! ### Symbols that read no bit -/

theorem Tri.set_get {α : Type} (t : Tri α) (i : Nat) : t.set i (t.get i) = t := by
  unfold Tri.set Tri.get
  split_ifs <;> rfl

/-- Settles O33: difference 0, wrapped, is the predictor itself, which the predictors keep. -/
theorem dcZeroRepeatsThePredictor : Obligations.DcZeroRepeatsThePredictor := by
  intro s bp hbp
  have hsame : wrap16 ((s.pred.get bp.slot.cidx).toInt + 0) = s.pred.get bp.slot.cidx := by
    rw [add_zero, wrap16, BitVec.ofInt_toInt]
  have hdone : dcDoneHere 0 s = .ok (dcDone bp.slot.cidx 0 s) := by rw [dcDoneHere, hbp]
  rw [exec, execDcZero, hdone, dcDone, hsame, Tri.set_get]
  rfl

/-- Settles O36: the row's own effect, and the last row of the decoder. -/
theorem dcCategoriesAboveElevenAreErrors : Obligations.DcCategoriesAboveElevenAreErrors :=
  ⟨fun _ _ => rfl, fun _ h => decodeDc_dcIllegal h⟩

theorem exec_acZrl_overrun (h : 64 < s.seq.k + 16) :
    exec .acZrl s = .next (raise .invalidHuffmanCode 0x03 s.seq.k s) := by
  rw [exec, execAcZrl, if_pos h]
  rfl

/-- Settles O37: each run fits the block, or is ZRL's overrun. -/
theorem acSymbolsWithoutBitsMoveTheCursor : Obligations.AcSymbolsWithoutBitsMoveTheCursor := by
  refine ⟨by decide, by decide, fun r h1 h14 => ?_, fun s =>
    ⟨rfl, fun hle => ?_, exec_acZrl_overrun, fun r hle => ?_⟩⟩
  · have hword : BitVec.ofNat 8 (16 * r.toNat) = r ++ 0#4 := by decide +revert
    rw [hword, decodeAc_acRunOnly ⟨h1, h14⟩]
  · rw [exec, execAcZrl, if_neg (Nat.not_lt.mpr hle)]
    rfl
  · have hfits : runOverrun r s = false := decide_eq_false (Nat.not_lt.mpr hle)
    rw [exec, execAcRunOnly, hfits]
    rfl

/-- Settles O39: the run is checked before anything else. -/
theorem runsPastTheLastCoefficientAreErrors : Obligations.RunsPastTheLastCoefficientAreErrors := by
  intro s r sz overrun
  refine ⟨fun h => ?_, exec_acZrl_overrun⟩
  have hover : runOverrun r s = true := decide_eq_true h
  constructor
  · rw [exec, execAcRunValue, hover]
    rfl
  · rw [exec, execAcRunOnly, hover]
    rfl

/-! ### Sign extension -/

/-- R304: the two halves of the fields of `t` bits, told apart by the first bit. -/
theorem extend_halves {v t : Nat} (ht : 1 ≤ t) (hv : v < 2 ^ t) :
    (v.testBit (t - 1) = true ∧ 2 ^ (t - 1) ≤ v ∧ extend v t = v) ∨
    (v.testBit (t - 1) = false ∧ v < 2 ^ (t - 1) ∧ extend v t = (v : Int) - (2 ^ t - 1)) := by
  cases hbit : v.testBit (t - 1)
  · have hlow : v < 2 ^ (t - 1) := by
      refine Nat.lt_pow_two_of_testBit v fun i hi => ?_
      rcases hi.eq_or_lt with rfl | hlt
      · exact hbit
      · exact Nat.testBit_lt_two_pow (hv.trans_le (Nat.pow_le_pow_right two_pos (by omega)))
    exact .inr ⟨rfl, hlow, extend_lower ht hlow⟩
  · have hhigh := Nat.ge_two_pow_of_testBit hbit
    exact .inl ⟨rfl, hhigh, extend_upper ht hhigh hv⟩

/-- Settles O40: the halves lie on either side of 0, and in each a field is its value shifted. -/
theorem signExtensionSplitsTheRange : Obligations.SignExtensionSplitsTheRange := by
  refine ⟨extend_zero, fun t v ht h15 hv => ?_⟩
  have hdouble : (2 : Int) ^ t = 2 * 2 ^ (t - 1) := by rw [← pow_succ', Nat.sub_add_cancel ht]
  have hle : 2 ^ t ≤ 2 ^ 15 := Nat.pow_le_pow_right two_pos h15
  have hcast : ((2 ^ (t - 1) : Nat) : Int) = 2 ^ (t - 1) := Nat.cast_pow ..
  have hcast' : ((2 ^ t : Nat) : Int) = 2 ^ t := Nat.cast_pow ..
  have hpos : 0 < 2 ^ (t - 1) := Nat.two_pow_pos _
  have hinj : ∀ w, w < 2 ^ t → extend w t = extend v t → w = v := by
    intro w hw heq
    obtain ⟨-, hhalf, hval⟩ | ⟨-, hhalf, hval⟩ := extend_halves ht hv <;>
      obtain ⟨-, hhalf', hval'⟩ | ⟨-, hhalf', hval'⟩ := extend_halves ht hw <;> omega
  have hfits : ∀ x : Int, -32768 ≤ x → x < 32768 → (BitVec.ofInt 16 x).toInt = x := fun _ =>
    BitVec.toInt_ofInt_eq_self (w := 16) (by decide)
  obtain ⟨hbit, hhalf, hval⟩ | ⟨hbit, hhalf, hval⟩ := extend_halves ht hv
  · exact ⟨fun _ => ⟨hval, by omega, by omega⟩, fun h => absurd (hbit.symm.trans h) (by decide), by omega,
      hfits _ (by omega) (by omega), hinj⟩
  · exact ⟨fun h => absurd (hbit.symm.trans h) (by decide), fun _ => ⟨hval, by omega, by omega⟩, by omega,
      hfits _ (by omega) (by omega), hinj⟩

/-! ### Symbols with magnitude bits -/

/-- The bits a byte of which `n` are unread gives first. -/
theorem div_mod_two_pow (b : Nat) {a n : Nat} (ha : a ≤ n) : b % 2 ^ n / 2 ^ (n - a) = b / 2 ^ (n - a) % 2 ^ a := by
  rw [← Nat.mod_mul_right_div_self, ← pow_add, Nat.sub_add_cancel ha]

theorem unread_lt (s : State) : Claim.unread s < 2 ^ s.br.nbits := Nat.mod_lt _ (Nat.two_pow_pos _)

/-- R266, R267: a field that begins with `a` of the unread bits. -/
theorem readMagnitude_unread {dc : Bool} {t a left : Nat} (ha : a ≤ s.br.nbits)
    (hcur : s.br.cur.isSome = true ∨ s.br.nbits = 0) :
    readMagnitude dc t (a + left) 0 s = readMagnitude dc t left (BitVec.ofNat 16 (Claim.unread s / 2 ^ (s.br.nbits - a)))
      (Claim.leftBits (s.br.nbits - a) s) := by
  by_cases hn : s.br.nbits = 0
  · obtain rfl : a = 0 := by omega
    have hleft : Claim.leftBits 0 s = s := by simp [Claim.leftBits, ← hn]
    simp [Claim.unread, hn, hleft, Nat.mod_one]
  · obtain ⟨b, hb⟩ := Option.isSome_iff_exists.mp (hcur.resolve_right hn)
    rw [readMagnitude_cur rfl ha hb, ← div_mod_two_pow _ ha]
    simp [Claim.unread, Claim.leftBits, hb]

/-- R267: the bits at hand complete the field. -/
theorem readMagnitude_atHand {dc : Bool} {t : Nat} {b : Byte} (hb : s.br.cur = some b) (hle : t ≤ s.br.nbits) :
    readMagnitude dc t t 0 s = magnitudeDone dc t (BitVec.ofNat 16 (Claim.unread s / 2 ^ (s.br.nbits - t)))
      (Claim.leftBits (s.br.nbits - t) s) :=
  readMagnitude_unread (left := 0) hle (.inl (by simp [hb]))

theorem atHand_lt {t : Nat} (hle : t ≤ s.br.nbits) : Claim.unread s / 2 ^ (s.br.nbits - t) < 2 ^ t := by
  rw [Nat.div_lt_iff_lt_mul (Nat.two_pow_pos _), ← pow_add, Nat.add_sub_cancel' hle]
  exact unread_lt s

theorem filled_lt {t : Nat} (hlt : s.br.nbits < t) :
    Claim.unread s * 2 ^ (t - s.br.nbits) + (2 ^ (t - s.br.nbits) - 1) < 2 ^ t := by
  have h := append_bits_lt (unread_lt s) (Nat.sub_lt (Nat.two_pow_pos (t - s.br.nbits)) Nat.one_pos)
  rwa [Nat.add_sub_cancel' hlt.le] at h

section Short

variable {dc : Bool} {t : Nat} (hlt : s.br.nbits < t) (hcur : s.br.cur.isSome = true ∨ s.br.nbits = 0)
  (hbyte : s.br.byte = none)
include hlt hcur

/-- R267: a field longer than the bits at hand takes them all. -/
theorem readMagnitude_short :
    readMagnitude dc t t 0 s =
      readMagnitude dc t (t - s.br.nbits) (BitVec.ofNat 16 (Claim.unread s)) (Claim.leftBits 0 s) := by
  have h := readMagnitude_unread (dc := dc) (t := t) (left := t - s.br.nbits) le_rfl hcur
  rwa [Nat.add_sub_cancel' hlt.le, Nat.sub_self, pow_zero, Nat.div_one] at h

include hbyte

/-- R266, R267: past the data, fill bits complete the field. -/
theorem readMagnitude_filled (ht : t ≤ 16) (hm : s.br.mode ≠ .data) :
    readMagnitude dc t t 0 s = magnitudeDone dc t
      (BitVec.ofNat 16 (Claim.unread s * 2 ^ (t - s.br.nbits) + (2 ^ (t - s.br.nbits) - 1))) (Claim.filled s) := by
  have hunread : (BitVec.ofNat 16 (Claim.unread s)).toNat = Claim.unread s :=
    Nat.mod_eq_of_lt ((unread_lt s).trans_le (Nat.pow_le_pow_right two_pos (by omega)))
  rw [readMagnitude_short hlt hcur,
    readMagnitude_fill (s := Claim.leftBits 0 s) rfl hbyte hm (Nat.sub_pos_of_lt hlt), hunread]
  rfl

/-- R260, R267: in the data, the field waits with the bits it has. -/
theorem readMagnitude_waits (hm : s.br.mode = .data) :
    readMagnitude dc t t 0 s =
      .ok (setBits (.mag dc t s.br.nbits (BitVec.ofNat 16 (Claim.unread s))) (Claim.leftBits 0 s)) := by
  rw [readMagnitude_short hlt hcur,
    readMagnitude_wait (s := Claim.leftBits 0 s) rfl hbyte hm (Nat.sub_pos_of_lt hlt), Nat.sub_sub_self hlt.le]

end Short

/-- R266, R267: what becomes of a symbol with a field of `t` bits whose value `after` takes on: the bits at hand or the fill
complete it, or it waits. -/
theorem answer_readMagnitude {dc : Bool} {t : Nat} (ht : t ≤ 16) {after : Int → State → State}
    (hdone : ∀ br field, field < 2 ^ t → magnitudeDone dc t (BitVec.ofNat 16 field) { s with br := br } =
      .ok (after (extend field t) { s with br := br })) :
    (∀ b, s.br.cur = some b → t ≤ s.br.nbits → answer (readMagnitude dc t t 0 s) =
      .next (after (extend (Claim.unread s / 2 ^ (s.br.nbits - t)) t) (Claim.leftBits (s.br.nbits - t) s))) ∧
    (s.br.nbits < t → s.br.cur.isSome = true ∨ s.br.nbits = 0 → s.br.byte = none →
      (s.br.mode ≠ .data → answer (readMagnitude dc t t 0 s) = .next (after
        (extend (Claim.unread s * 2 ^ (t - s.br.nbits) + (2 ^ (t - s.br.nbits) - 1)) t) (Claim.filled s))) ∧
      (s.br.mode = .data → answer (readMagnitude dc t t 0 s) =
        .next (setBits (.mag dc t s.br.nbits (BitVec.ofNat 16 (Claim.unread s))) (Claim.leftBits 0 s)))) := by
  refine ⟨fun b hb hle => ?_, fun hlt hcur hbyte => ⟨fun hm => ?_, fun hm => ?_⟩⟩
  · rw [readMagnitude_atHand hb hle]
    exact congrArg answer (hdone _ _ (atHand_lt hle))
  · rw [readMagnitude_filled hlt hcur hbyte ht hm]
    exact congrArg answer (hdone _ _ (filled_lt hlt))
  · rw [readMagnitude_waits hlt hcur hbyte hm]
    rfl

/-- Settles O34: the field's value goes to the predictor of the current block's component. -/
theorem dcDifferencesUpdateThePredictor : Obligations.DcDifferencesUpdateThePredictor := by
  intro s i t bp hi hbp
  have hexec : exec i s = answer (readMagnitude true t.toNat t.toNat 0 s) := by
    obtain ⟨rfl, -⟩ | ⟨rfl, -⟩ := hi <;> rfl
  have ht : t.toNat ≤ 16 := by omega
  rw [hexec]
  refine answer_readMagnitude ht (after := Claim.afterDc bp.slot.cidx) fun br field hfield => ?_
  obtain ⟨hdc, -⟩ := magnitudeDone_spec (s := { s with br := br }) hbp true t.toNat
    (hfield.trans_le (Nat.pow_le_pow_right two_pos ht))
  exact hdc rfl

/-- Settles O38: the field's value goes to the coefficient past the zero run. -/
theorem acRunValuesStoreACoefficient : Obligations.AcRunValuesStoreACoefficient := by
  intro s r sz _ hrun
  have hexec : exec (.acRunValue r sz) s = answer (readMagnitude false sz.toNat sz.toNat 0 (skipRun r s)) := by
    have hfits : runOverrun r s = false := decide_eq_false (Nat.not_lt.mpr hrun)
    rw [exec, execAcRunValue, hfits]
    rfl
  rw [hexec]
  refine answer_readMagnitude (s := skipRun r s) sz.isLt.le (after := Claim.afterAc (s.seq.k + r.toNat))
    fun br field hfield => ?_
  have hval : (BitVec.ofNat 16 field).toNat = field :=
    Nat.mod_eq_of_lt (hfield.trans_le (Nat.pow_le_pow_right two_pos sz.isLt.le))
  rw [magnitudeDone, if_neg Bool.false_ne_true, hval]
  rfl

/-! ### One more bit of a code word -/

/-- R322: the table in use is the slot's. -/
theorem currentHuff_eq {bp : BlockPos} (hbp : currentBlock s = .ok bp) (h : HuffTable) :
    (s.seq.phase = .blockDc → s.tabs.dc.get bp.slot.td = some h → currentHuff s = .ok h) ∧
    (s.seq.phase ≠ .blockDc → s.tabs.ac.get bp.slot.ta = some h → currentHuff s = .ok h) := by
  unfold currentHuff
  rw [hbp]
  exact ⟨fun hp ht => by simp [hp, ht], fun hp ht => by simp [hp, ht]⟩

/-- R300: a code of `len + 1` bits in the range of its row. -/
def HuffRow.Hit (row : HuffRow) (code : Half) : Prop :=
  0 < row.num ∧ row.first.toNat ≤ code.toNat ∧ code.toNat < row.first.toNat + row.num

theorem lookup_hit {h : HuffTable} (hs : h.sound) {len : Nat} {code : Half} {row : HuffRow}
    (hrow : h.rows[len]? = some row) (hhit : row.Hit code) :
    ∃ v, h.vals[row.off + (code.toNat - row.first.toNat)]? = some v ∧
      lookup h (len + 1) code = .ok (some v) := by
  obtain ⟨hnum, hfirst, hlast⟩ := hhit
  have hlen := hs row (List.mem_of_getElem? hrow)
  have hlt : row.off + (code.toNat - row.first.toNat) < h.vals.length := by omega
  have hval := List.getElem?_eq_getElem hlt
  refine ⟨_, hval, ?_⟩
  rw [lookup, Nat.add_sub_cancel, hrow]
  simp only
  rw [if_pos ⟨hnum, hfirst, hlast⟩, Nat.add_sub_assoc hfirst, hval]

theorem lookup_miss {h : HuffTable} {len : Nat} {code : Half}
    (hmiss : ∀ row, h.rows[len]? = some row → ¬ row.Hit code) :
    lookup h (len + 1) code = .ok none := by
  rw [lookup, Nat.add_sub_cancel]
  split
  · rfl
  · next row hrow => exact if_neg (hmiss row hrow)

/-- Settles O32: the bit read, the code is looked up among those of its length. -/
theorem huffmanDecodingReadsOneBitMore : Obligations.HuffmanDecodingReadsOneBitMore := by
  refine ⟨fun s bp h hbp => currentHuff_eq hbp h, ?_⟩
  intro s s1 code len bit h hbits hlen hread hhuff hs code' hit
  have htake : takeBits s = huffBit code' (len + 1) s1 := by
    rw [takeBits, hbits]
    simp only
    rw [hread]
    exact congrArg (huffBit · (len + 1) s1) (pushBit_ofNat code bit)
  refine ⟨fun row hrow hrowHit => ?_, fun hmiss => ?_⟩
  · obtain ⟨v, hval, hlook⟩ := lookup_hit hs hrow hrowHit
    refine ⟨v, hval, ?_⟩
    rw [htake, huffBit, hhuff]
    simp only
    rw [hlook]
    rfl
  · have hnone : takeBits s = if 16 ≤ len + 1 then .ok (raise .invalidHuffmanCode 0x01 (classArg s1) s1)
        else .ok (setBits (.huff code' (len + 1)) s1) := by
      rw [htake, huffBit, hhuff]
      simp only
      rw [lookup_miss hmiss]
    rw [hnone]
    exact ⟨fun h16 => if_neg (Nat.not_le.mpr h16), fun h16 => if_pos h16.ge⟩

end Sys2Proof.Machine
end

section
/-! PROOFS. The scan procedure between blocks (R320-R337): the store of a block in its place (O44), the end of an MCU (O43),
the restart check (O41) and the end search (O42). -/
namespace Sys2Proof.Machine

variable {s : State} {f : FrameSnap} {sc : ScanSnap}

/-! ### The blocks of an MCU -/

/-- R320: how many blocks a slot puts into an MCU, none where it names no component. -/
theorem slotBlocks_length_eq (f : FrameSnap) (mx my : Nat) (sl : ScanSlot) :
    (slotBlocks f mx my sl).length = match f.comps[sl.cidx]? with | some c => c.h * c.v | none => 0 := by
  split
  · next c hc => exact slotBlocks_length mx my hc
  · next hc => simp [slotBlocks, hc]

theorem blocksBefore_eq (f : FrameSnap) (mx my : Nat) (slots : List ScanSlot) (j : Nat) :
    Claim.blocksBefore f slots j = ((slots.take j).map fun sl => (slotBlocks f mx my sl).length).sum := by
  simp only [slotBlocks_length_eq]
  rfl

theorem slots_ne_singleton (h : 1 < sc.slots.length) (sl : ScanSlot) : sc.slots ≠ [sl] := by
  rintro e
  simp [e] at h

theorem mcuBlocks_single {sl : ScanSlot} {c : FrameComp} (hs : sc.slots = [sl]) (hc : f.comps[sl.cidx]? = some c)
    (m : Nat) : mcuBlocks f sc m = [⟨sl, c, m % sc.srow, m / sc.srow⟩] := by
  simp [mcuBlocks, hs, hc]

theorem mcuBlocks_length (h : 1 < sc.slots.length) (m : Nat) :
    (mcuBlocks f sc m).length = Claim.blocksBefore f sc.slots sc.slots.length := by
  rw [mcuBlocks_several (slots_ne_singleton h), List.length_flatMap, blocksBefore_eq f (m % sc.srow) (m / sc.srow),
    List.take_length]

/-- R320: slot by slot, row by row, column by column. -/
theorem mcuBlocks_getElem? (h : 1 < sc.slots.length) (m : Nat) {j : Nat} {sl : ScanSlot} {c : FrameComp} {y x : Nat}
    (hj : sc.slots[j]? = some sl) (hc : f.comps[sl.cidx]? = some c) (hy : y < c.v) (hx : x < c.h) :
    (mcuBlocks f sc m)[Claim.blocksBefore f sc.slots j + y * c.h + x]? =
      some ⟨sl, c, m % sc.srow * c.h + x, m / sc.srow * c.v + y⟩ := by
  rw [mcuBlocks_several (slots_ne_singleton h), blocksBefore_eq f (m % sc.srow) (m / sc.srow), Nat.add_assoc]
  exact getElem?_flatMap _ hj (slotBlocks_getElem? _ _ hc hy hx)

theorem blockInPlane_iff (f : FrameSnap) (bp : BlockPos) :
    blockInPlane f bp = true ↔ 8 * bp.byp + 8 ≤ f.ph bp.comp ∧ 8 * bp.bxp + 8 ≤ f.pw bp.comp := by
  simp [blockInPlane]

/-! ### The store of a block -/

theorem allWritten_map_some {α : Type} (l : List α) : allWritten (l.map some) = some l := by
  induction l with
  | nil => rfl
  | cons a l ih => rw [List.map_cons, allWritten, ih]

/-- R102: the samples of one block lie at different addresses, wherever the block is. -/
theorem blockCells_pairwise (c bxp byp : Nat) (S : List Byte) :
    (blockCells c bxp byp S).Pairwise fun a b => a.1 ≠ b.1 := by
  rw [blockCells, List.pairwise_map]
  refine List.pairwise_lt_range.imp fun {i j} hij => ?_
  simp only [planeAddr]
  omega

theorem read_blockCells (m : Memory) (c bxp byp : Nat) (S : List Byte) {y x : Nat} (hy : y < 8) (hx : x < 8) :
    Memory.read (Memory.writeAll m (blockCells c bxp byp S)) (planeAddr c (8 * byp + y) (8 * bxp + x)) =
      some (S.getD (8 * y + x) 0) := by
  have hread := Memory.read_writeAll_mem (m := m) (blockCells_mem c bxp byp S hy hx) (blockCells_pairwise c bxp byp S)
  exact hread

theorem read_outside_blockCells (m : Memory) (c bxp byp : Nat) (S : List Byte) {a : Nat}
    (ha : ∀ y x, y < 8 → x < 8 → a ≠ planeAddr c (8 * byp + y) (8 * bxp + x)) :
    Memory.read (Memory.writeAll m (blockCells c bxp byp S)) a = Memory.read m a := by
  refine Memory.read_writeAll_other fun e he => ?_
  obtain ⟨y, x, hy, hx, rfl⟩ := mem_blockCells he
  exact (ha y x hy hx).symm

theorem transformAndStore_eq {bp : BlockPos} {coef q : List Half} (hcoef : s.blk.coef = coef.map some)
    (hq : s.tabs.qt.get bp.comp.tq = some q) (hin : blockInPlane f bp = true) :
    transformAndStore f bp s = .ok { s with
      blk := transformWork s.par.idct (dequant coef q) s.blk
      planes := Memory.writeAll s.planes
        (blockCells bp.slot.cidx bp.bxp bp.byp (idct s.par.idct (dequant coef q))) } := by
  rw [transformAndStore, hcoef, allWritten_map_some, hq]
  exact if_pos hin

/-- R325, R360: where the block's samples go, and where the cursor goes. -/
theorem storeBlock_eq {bp : BlockPos} {blk : BlockWork} {planes : Memory} (hf : s.frame = some f) (hsc : s.scan = some sc)
    (hbp : currentBlock s = .ok bp) (ht : transformAndStore f bp s = .ok { s with blk := blk, planes := planes }) :
    ∃ blk' seq, storeBlock s = .ok { s with planes := planes, blk := blk', seq := seq } ∧ seq.b = s.seq.b + 1 ∧
      (s.seq.b + 1 < (mcuBlocks f sc s.m).length → seq.phase = .blockDc ∧ blk'.coef = List.replicate 64 (some 0)) ∧
      ((mcuBlocks f sc s.m).length ≤ s.seq.b + 1 → seq.phase = s.seq.phase) := by
  unfold storeBlock
  rw [snapshots_eq_ok.mpr ⟨hf, hsc⟩, hbp]
  simp only
  rw [ht]
  simp only
  split
  · next hlt => exact ⟨_, _, rfl, rfl, fun _ => ⟨rfl, rfl⟩, fun hle => absurd hlt (Nat.not_lt.mpr hle)⟩
  · next hge => exact ⟨_, _, rfl, rfl, fun hlt => absurd hlt hge, fun _ => rfl⟩

/-- Settles O44: a block's place in its MCU, its cells in memory, and the cursor after it. -/
theorem blocksAreStoredInTheirPlace : Obligations.BlocksAreStoredInTheirPlace := by
  refine ⟨fun f sc m => ⟨rfl, fun sl c hs hc => mcuBlocks_single hs hc m, fun h => ⟨mcuBlocks_length h m, ?_⟩⟩,
    fun f sc tabs hf hsc => ⟨?_, fun m hm bp hbp => ?_⟩, fun s bp => currentBlock_eq_ok, ?_⟩
  · exact fun j sl c y x hj hc hy hx => mcuBlocks_getElem? h m hj hc hy hx
  · have hgrid := hsc.grid
    have h := gridIs_scanGrid hf sc.slots
    rwa [← hgrid] at h
  · exact (blockInPlane_iff f bp).mp (blockInPlane_of_mem hf hsc hm hbp)
  · intro s f sc bp coef q hf hsc hbp hcoef hq hy hx samples addr
    have ht := transformAndStore_eq hcoef hq ((blockInPlane_iff f bp).mpr ⟨hy, hx⟩)
    obtain ⟨blk, seq, hstore, hb, hnext, hlast⟩ := storeBlock_eq hf hsc hbp ht
    have hread := fun y x => read_blockCells s.planes bp.slot.cidx bp.bxp bp.byp samples (y := y) (x := x)
    have hother := fun a => read_outside_blockCells s.planes bp.slot.cidx bp.bxp bp.byp samples (a := a)
    generalize blockCells bp.slot.cidx bp.bxp bp.byp samples = cells at hstore hread hother
    exact ⟨_, hstore, hread, hother, Memory.writeAll_wf cells, hb, hnext, hlast, rfl⟩

/-! ### The end of an MCU -/

/-- R326: the last MCU of a row counts the row. -/
theorem mcuCounted_rowEnd (h : (s.m + 1) % sc.srow = 0) : mcuCounted sc s =
    { s with mcuCount := s.mcuCount + 1, rows := s.rows + 1, intStatus := s.intStatus ||| 0x08 } := by
  rw [mcuCounted, if_pos h, setInt, intUpdate_set]
  rfl

theorem mcuCounted_inRow (h : (s.m + 1) % sc.srow ≠ 0) : mcuCounted sc s = { s with mcuCount := s.mcuCount + 1 } :=
  if_neg h

/-- R325, R335: where the cursor goes after MCU `m`. -/
def cursorAfter (sc : ScanSnap) (m : Nat) : Sequencer :=
  if m + 1 < sc.smcus then Sequencer.initial
  else { Sequencer.initial with phase := .endSearch, mayRst := mayEndRst sc }

theorem mcuDone_eq (hsc : s.scan = some sc) : mcuDone s = .ok { mcuCounted sc s with seq := cursorAfter sc s.m } := by
  unfold mcuDone mcuCounted cursorAfter
  rw [hsc]
  simp only
  split <;> split <;> rfl

theorem cursorAfter_cases (sc : ScanSnap) (m : Nat) :
    (m + 1 < sc.smcus → (cursorAfter sc m).phase = .restartCheck) ∧
    (sc.smcus ≤ m + 1 → (cursorAfter sc m).phase = .endSearch ∧
      ((cursorAfter sc m).mayRst = true ↔ sc.ri ≠ 0 ∧ sc.smcus % sc.ri.toNat = 0)) ∧
    (cursorAfter sc m).b = 0 ∧ (cursorAfter sc m).k = 0 ∧ (cursorAfter sc m).bits = .huff 0 0 := by
  unfold cursorAfter
  split
  · next hlt => exact ⟨fun _ => rfl, fun hle => absurd hlt (Nat.not_lt.mpr hle), rfl, rfl, rfl⟩
  · next hge => exact ⟨fun hlt => absurd hlt hge, fun _ => ⟨rfl, by simp [mayEndRst]⟩, rfl, rfl, rfl⟩

/-- Settles O43: what the MCU's place in its row and in the scan decides. -/
theorem mcusAndRowsAreCounted : Obligations.McusAndRowsAreCounted := by
  intro s sc hsc hlt
  have hcount : (s.mcuCount + 1).toNat = s.mcuCount.toNat + 1 := toNat_add_one hlt
  obtain ⟨hnext, hend, hb, hk, hbits⟩ := cursorAfter_cases sc s.m
  rw [State.m, ← hcount] at hnext hend
  by_cases hrow : (s.m + 1) % sc.srow = 0
  · rw [mcuDone_eq hsc, mcuCounted_rowEnd hrow]
    rw [State.m, ← hcount] at hrow
    exact ⟨_, rfl, hcount, fun _ => ⟨rfl, rfl⟩, fun h => absurd hrow h, hnext, hend, hb, hk, hbits, rfl⟩
  · rw [mcuDone_eq hsc, mcuCounted_inRow hrow]
    rw [State.m, ← hcount] at hrow
    exact ⟨_, rfl, hcount, fun h => absurd h hrow, fun _ => ⟨rfl, rfl⟩, hnext, hend, hb, hk, hbits, rfl⟩

/-! ### Restart markers -/

theorem isRst_of_outside {x : Byte} (h : x.toNat < 0xD0 ∨ 0xD7 < x.toNat) : isRst x = false := by
  revert x
  decide

/-- R146: the code 0xD0 + n is RSTn. -/
theorem isRst_rstNum_of_code {x : Byte} {n : BitVec 3} (h : x = BitVec.ofNat 8 (0xD0 + n.toNat)) :
    isRst x = true ∧ rstNum x = n := by
  subst h
  revert n
  decide

/-! ### The restart check -/

theorem restartNow_iff (hsc : s.scan = some sc) :
    s.restartNow = true ↔ sc.ri ≠ 0 ∧ 0 < s.mcuCount.toNat ∧ s.mcuCount.toNat % sc.ri.toNat = 0 := by
  simp only [State.restartNow, hsc, restartDue, decide_eq_true_eq]
  rfl

theorem nextOp_restartCheck (hst : s.st = .scan) (hw : s.br.window = []) (hp : s.seq.phase = .restartCheck) :
    nextOp s = if !s.restartNow then .beginMcu
      else if s.br.nbits ≠ 0 then .align
      else if s.br.byte.isSome then .restartJudge
      else fetchThen s.br .restartJudge := by
  rw [nextOp_scan hst]
  simp [scanOp, hw, windowComplete_nil, hp]

theorem beginMcu_of_block {bp : BlockPos} (hbp : currentBlock { s with seq := { s.seq with b := 0 } } = .ok bp) :
    beginMcu s = .ok (startBlock 0 s) := by
  rw [beginMcu_eq, hbp]
  rfl

/-- R330: the checks at a marker. -/
theorem restartJudge_marker {x : Byte} (hbyte : s.br.byte = none) (hm : s.br.mode = .marker) (hx : s.br.marker = some x) :
    restartJudge s = if !isRst x then .ok (raise .restartSequenceError 0x02 x.toNat s)
      else if rstNum x ≠ s.nextRst then .ok (raise .restartSequenceError 0x01 (rstNum x).toNat s)
      else acceptRestart s := by
  simp [restartJudge, hbyte, hm, hx]

/-- Settles O41: the operation that is next, then the checks in the order `restartJudge` makes them. -/
theorem restartBoundariesAreChecked : Obligations.RestartBoundariesAreChecked := by
  refine ⟨fun s sc => restartNow_iff, fun s hst hw hp hdue => ⟨?_, fun bp => beginMcu_of_block⟩,
    fun s hst hw hp hdue => ?_, fun s => ⟨fun hbyte => if_pos hbyte, fun hbyte hend => ?_, fun x hbyte hm hx => ?_⟩⟩
  · simp [nextOp_restartCheck hst hw hp, hdue]
  · have hop := nextOp_restartCheck hst hw hp
    rw [hdue] at hop
    refine ⟨fun hn => ⟨by simp [hop, hn], rfl⟩, fun hn hbyte hm => by simp [hop, hn, hbyte, fetchThen, hm],
      fun hn hat => ?_⟩
    rcases hat with hbyte | hm
    · simp [hop, hn, hbyte]
    · simp [hop, hn, fetchThen, hm]
  · simp [restartJudge, hbyte, hend]
  · have hjudge := restartJudge_marker hbyte hm hx
    refine ⟨fun hout => by simp [hjudge, isRst_of_outside hout], fun n hn => ?_⟩
    obtain ⟨hrst, hnum⟩ := isRst_rstNum_of_code hn
    rw [hjudge, hrst, hnum]
    refine ⟨fun hne => if_pos hne, fun heq bp hbp => ?_⟩
    rw [if_neg (not_not.mpr heq)]
    exact beginMcu_of_block (s := { consumeMarker s with nextRst := s.nextRst + 1, pred := ⟨0, 0, 0⟩ }) hbp

/-! ### The end search -/

theorem nextOp_endSearch (hst : s.st = .scan) (hw : s.br.window = []) (hp : s.seq.phase = .endSearch) :
    nextOp s = if s.br.nbits ≠ 0 then .align
      else if s.br.byte.isSome then .trail
      else fetchThen s.br .endJudge := by
  rw [nextOp_scan hst]
  simp [scanOp, hw, windowComplete_nil, hp]

theorem trail_of_ne_max (h : s.trailing ≠ BitVec.allOnes 32) :
    trail s = { s with br := { s.br with byte := none }, trailing := s.trailing + 1 } := by
  simp only [trail, countUp, countUsed, if_neg h]

/-- R335, R336: the checks at a marker. -/
theorem endJudge_marker {x : Byte} (hm : s.br.mode = .marker) (hx : s.br.marker = some x) :
    endJudge s = if isRst x then
        if s.seq.mayRst ∧ rstNum x = s.nextRst ∧ s.trailing = 0 then
          .ok { consumeMarker s with nextRst := s.nextRst + 1, seq := { s.seq with mayRst := false } }
        else .ok (raise .restartSequenceError 0x03 (rstNum x).toNat s)
      else completeScan x s := by
  simp [endJudge, hm, hx]

theorem getLsbD_one_shiftLeft (k : Nat) {i : Nat} (hi : i < 3) : (1#3 <<< k).getLsbD i = true ↔ k = i := by
  simp only [BitVec.getLsbD_shiftLeft, BitVec.getLsbD_one, Bool.and_eq_true, Bool.not_eq_true', decide_eq_true_eq,
    decide_eq_false_iff_not]
  omega

theorem getLsbD_foldl_done (slots : List ScanSlot) (m : BitVec 3) {i : Nat} (hi : i < 3) :
    (slots.foldl (fun m sl => m ||| (1#3 <<< sl.cidx)) m).getLsbD i = true ↔
      m.getLsbD i = true ∨ ∃ sl ∈ slots, sl.cidx = i := by
  induction slots generalizing m with
  | nil => simp
  | cons a slots ih =>
    rw [List.foldl_cons, ih, BitVec.getLsbD_or, Bool.or_eq_true, getLsbD_one_shiftLeft _ hi]
    simp [or_assoc]

/-- R337: a component is done once a scan of it completes, and stays done. -/
theorem getLsbD_or_doneMask (old : BitVec 3) (slots : List ScanSlot) {i : Nat} (hi : i < 3) :
    (old ||| doneMask slots).getLsbD i = true ↔ old.getLsbD i = true ∨ ∃ sl ∈ slots, sl.cidx = i := by
  have hmask := getLsbD_foldl_done slots 0 hi
  rw [BitVec.getLsbD_or, Bool.or_eq_true, doneMask, hmask]
  simp

/-- R46: MARKER with VALID set. -/
theorem valid_append_code (x : Byte) : 1#1 ++ x = BitVec.ofNat 9 (256 + x.toNat) := by
  revert x
  decide

theorem completeScan_eq (x : Byte) (hsc : s.scan = some sc) : completeScan x s = .ok { s with
    markerReg := 1#1 ++ x, compDone := s.compDone ||| doneMask sc.slots, inFifo := [], eofSeen := false, st := .frame
    intStatus := s.intStatus ||| 0x01 } := by
  unfold completeScan
  split
  · next h => simp [h] at hsc
  · next sc' h =>
    obtain rfl : sc' = sc := Option.some.inj (h.symm.trans hsc)
    rw [setInt, intUpdate_set]
    rfl

/-- Settles O42: the operation that is next, then what `endJudge` makes of END, of an RSTn and of any other marker. -/
theorem theEndSearchFindsTheStopMarker : Obligations.TheEndSearchFindsTheStopMarker := by
  refine ⟨fun s hst hw hp => ?_, fun s => trail_of_ne_max, fun s => ⟨fun hend => if_pos hend, fun x hm hx =>
    ⟨fun n hn => ?_, fun hout sc hsc => ?_⟩⟩⟩
  · have hop := nextOp_endSearch hst hw hp
    exact ⟨fun hn => ⟨by simp [hop, hn], rfl⟩, fun hn hbyte => by simp [hop, hn, hbyte],
      fun hn hbyte hm => by simp [hop, hn, hbyte, fetchThen, hm],
      fun hn hbyte hm => by simp [hop, hn, hbyte, fetchThen, hm]⟩
  · obtain ⟨hrst, hnum⟩ := isRst_rstNum_of_code hn
    rw [endJudge_marker hm hx, hrst, hnum, if_pos rfl]
    refine ⟨fun hmay heq htrail => if_pos ⟨hmay, heq, htrail⟩, fun hnot => if_neg ?_⟩
    rintro ⟨hmay, heq, htrail⟩
    rcases hnot with h | h | h
    · exact Bool.false_ne_true (h.symm.trans hmay)
    · exact h heq
    · exact h htrail
  · rw [endJudge_marker hm hx, isRst_of_outside hout, if_neg Bool.false_ne_true, completeScan_eq x hsc]
    exact ⟨_, rfl, valid_append_code x, rfl, rfl, rfl, rfl, fun i hi => getLsbD_or_doneMask _ _ hi, rfl⟩

end Sys2Proof.Machine
end

section
/-! PROOFS. The inverse transform (O46): the tolerance of R365 against the real ideal transform, through the integers its
scaled value may round to, and the FIXED transform of a block with a DC coefficient alone (R371), one pass after the other. -/
namespace Sys2Proof.Machine

/-! ### The tolerance -/

/-- R365: `r` is a nearest integer of the ideal value at sample `n`, as far as the slack of its rounded factors tells. -/
def RoundsTo (dq : List Half) (n : Nat) (r : Int) : Prop :=
  |2 ^ 120 * r - idealScaled dq n| ≤ 2 ^ 119 + idealSlack

/-- The least integer the ideal value rounds to. -/
def leastRound (dq : List Half) (n : Nat) : Int := -((idealSlack + 2 ^ 119 - idealScaled dq n) / 2 ^ 120)

/-- The greatest integer the ideal value rounds to. -/
def greatestRound (dq : List Half) (n : Nat) : Int := (idealScaled dq n + idealSlack + 2 ^ 119) / 2 ^ 120

theorem toleranceLow_eq (dq : List Half) (n : Nat) : toleranceLow dq n = levelOf (leastRound dq n) - 2 := rfl

theorem toleranceHigh_eq (dq : List Half) (n : Nat) : toleranceHigh dq n = levelOf (greatestRound dq n) + 2 := rfl

theorem roundsTo_iff {dq : List Half} {n : Nat} {r : Int} :
    RoundsTo dq n r ↔ leastRound dq n ≤ r ∧ r ≤ greatestRound dq n := by
  rw [RoundsTo, leastRound, greatestRound, idealSlack, abs_le]
  omega

/-- The two ends are integers the value rounds to, equal or neighbours: the slack is less than half a level. -/
theorem leastRound_le_greatestRound (dq : List Half) (n : Nat) :
    leastRound dq n ≤ greatestRound dq n ∧ greatestRound dq n ≤ leastRound dq n + 1 := by
  rw [leastRound, greatestRound, idealSlack]
  omega

theorem levelOf_mono {r r' : Int} (h : r ≤ r') : levelOf r ≤ levelOf r' :=
  min_le_min_right _ (max_le_max_right _ (add_le_add_left h _))

theorem levelOf_succ_le (r : Int) : levelOf (r + 1) ≤ levelOf r + 1 := by
  rw [levelOf, levelOf]
  omega

/-- R365: the sample kept is within 2 levels of one of the ends. -/
theorem withinTolerance_near (dq : List Half) (n : Nat) (b : Byte) :
    ∃ r, RoundsTo dq n r ∧ |((withinTolerance dq n b).toNat : Int) - levelOf r| ≤ 2 := by
  obtain ⟨hlow, hhigh, -⟩ := withinTolerance_spec dq n b
  rw [toleranceLow_eq] at hlow
  rw [toleranceHigh_eq] at hhigh
  obtain ⟨hle, hsucc⟩ := leastRound_le_greatestRound dq n
  have hnext := (levelOf_mono hsucc).trans (levelOf_succ_le _)
  by_cases h : ((withinTolerance dq n b).toNat : Int) ≤ levelOf (leastRound dq n) + 2
  · exact ⟨leastRound dq n, roundsTo_iff.mpr ⟨le_rfl, hle⟩, abs_le.mpr ⟨by omega, by omega⟩⟩
  · exact ⟨greatestRound dq n, roundsTo_iff.mpr ⟨hle, le_rfl⟩, abs_le.mpr ⟨by omega, by omega⟩⟩

/-- R365: a sample within 2 levels of an integer the ideal value rounds to is kept. -/
theorem withinTolerance_eq_self {dq : List Half} {n : Nat} {b : Byte} {r : Int} (hr : RoundsTo dq n r)
    (hb : |(b.toNat : Int) - levelOf r| ≤ 2) : withinTolerance dq n b = b := by
  obtain ⟨-, -, hkept⟩ := withinTolerance_spec dq n b
  obtain ⟨hleast, hgreatest⟩ := roundsTo_iff.mp hr
  have hlow := levelOf_mono hleast
  have hhigh := levelOf_mono hgreatest
  obtain ⟨hb1, hb2⟩ := abs_le.mp hb
  exact hkept (by rw [toleranceLow_eq]; omega) (by rw [toleranceHigh_eq]; omega)

/-- R365: the scaled value against the ideal value as the claim writes it. -/
theorem idealScaled_near_idealSample (dq : List Half) {y x : Nat} (hx : x < 8) :
    |(idealScaled dq (8 * y + x) : ℝ) - 2 ^ 120 * Claim.idealSample dq y x| ≤ 2 ^ 82 :=
  idealScaled_close dq hx

/-- `RoundsTo` over the reals. -/
theorem roundsTo_iff_real {dq : List Half} {n : Nat} {r : Int} :
    RoundsTo dq n r ↔ |2 ^ 120 * (r : ℝ) - (idealScaled dq n : ℝ)| ≤ 2 ^ 119 + 2 ^ 82 := by
  rw [RoundsTo, idealSlack]
  exact_mod_cast Iff.rfl

/-- R365: an integer nearest to the ideal value is one the scaled value rounds to. -/
theorem roundsTo_of_nearest {dq : List Half} {y x : Nat} (hx : x < 8) {r : Int}
    (hr : |(r : ℝ) - Claim.idealSample dq y x| ≤ 1 / 2) : RoundsTo dq (8 * y + x) r := by
  have hclose := idealScaled_near_idealSample dq (y := y) hx
  rw [roundsTo_iff_real]
  rw [abs_le] at *
  constructor <;> linarith

/-- R365: an integer the scaled value rounds to is nearest to the ideal value, up to twice the slack. -/
theorem nearest_of_roundsTo {dq : List Half} {y x : Nat} (hx : x < 8) {r : Int} (hr : RoundsTo dq (8 * y + x) r) :
    |(r : ℝ) - Claim.idealSample dq y x| ≤ 1 / 2 + 1 / 2 ^ 37 := by
  have hclose := idealScaled_near_idealSample dq (y := y) hx
  rw [roundsTo_iff_real] at hr
  rw [abs_le] at *
  constructor <;> linarith

theorem idct_other_getElem? (id : Nat) (dq : List Half) {n : Nat} (hn : n < 64) :
    (idct (.other id) dq)[n]? = some (withinTolerance dq n (Config.idctOther id dq n)) := by
  simp [idct, hn]

/-! ### A DC coefficient alone -/

/-- A block with the DC coefficient `d` and no other. -/
def dcBlock (d : Half) : List Half := d :: List.replicate 63 0

@[simp] theorem dcBlock_zero (d : Half) : (dcBlock d).getD 0 0 = d := rfl

theorem dcBlock_of_pos (d : Half) {i : Nat} (hi : 0 < i) : (dcBlock d).getD i 0 = 0 := by
  obtain ⟨j, rfl⟩ := Nat.exists_eq_succ_of_ne_zero hi.ne'
  rw [dcBlock, List.getD_cons_succ, List.getD_eq_getElem?_getD,
    List.getElem?_getD_replicate_default_eq]

/-- R366: the first column of `K`. -/
theorem kAt_zero {x : Nat} (hx : x < 8) : kAt x 0 = 1448 := by
  have key : ∀ x : Fin 8, kAt x 0 = 1448 := by decide
  exact key ⟨x, hx⟩

/-- A row of `K` against values that are 0 but for the first. -/
theorem sum8_kAt_single {x : Nat} (hx : x < 8) {d : Nat → Int} (hd : ∀ u, 0 < u → u < 8 → d u = 0) :
    (sum8 fun u => kAt x u * d u) = 1448 * d 0 := by
  rw [sum8_eq, Finset.sum_eq_single_of_mem 0 (by simp), kAt_zero hx]
  intro u hu h0
  rw [hd u (Nat.pos_of_ne_zero h0) (Finset.mem_range.mp hu), mul_zero]

/-- R367: the accumulators of the first row see the DC coefficient, the others see zeros. -/
theorem rowAcc_dcBlock (d : Half) (v : Nat) {x : Nat} (hx : x < 8) :
    rowAcc (dcBlock d) v x = 1448 * ((dcBlock d).getD (8 * v) 0).toInt :=
  sum8_kAt_single hx fun u hu _ => by rw [dcBlock_of_pos d (by omega)]; rfl

/-- R371: the row pass leaves `g` in the first row. -/
theorem rowPass_dcBlock_zero (d : Half) {x : Nat} (hx : x < 8) :
    (rowPass (dcBlock d)).getD (8 * 0 + x) 0 = (1448 * d.toInt + 128) / 256 := by
  rw [rowPass_getD _ (by decide) hx, rowAcc_dcBlock d 0 hx, Nat.mul_zero, dcBlock_zero]

theorem rowPass_dcBlock_of_pos (d : Half) {v x : Nat} (h0 : 0 < v) (hv : v < 8) (hx : x < 8) :
    (rowPass (dcBlock d)).getD (8 * v + x) 0 = 0 := by
  rw [rowPass_getD _ hv hx, rowAcc_dcBlock d v hx, dcBlock_of_pos d (by omega)]
  rfl

/-- R371: every accumulator of the column pass is `1448 * g`. -/
theorem colAcc_dcBlock (d : Half) {y x : Nat} (hy : y < 8) (hx : x < 8) :
    colAcc (rowPass (dcBlock d)) y x = 1448 * ((1448 * d.toInt + 128) / 256) := by
  rw [colAcc, sum8_kAt_single hy fun v h0 hv => rowPass_dcBlock_of_pos d h0 hv hx, rowPass_dcBlock_zero d hx]

/-- R368: a sample of the FIXED transform. -/
theorem idctFixed_getD (dq : List Half) {n : Nat} (hn : n < 64) :
    (idctFixed dq).getD n 0 = sampleOf (colAcc (rowPass dq) (n / 8) (n % 8)) := by
  simp [idctFixed, colPass, hn]

theorem idctFixed_dcBlock (d : Half) {n : Nat} (hn : n < 64) :
    (idctFixed (dcBlock d)).getD n 0 = sampleOf (1448 * ((1448 * d.toInt + 128) / 256)) := by
  rw [idctFixed_getD _ hn, colAcc_dcBlock d (by omega) (by omega)]

/-- Settles O46: the tolerance lies around the integers the ideal value rounds to, and each pass of FIXED takes a DC
coefficient alone to its multiple by the first column of `K`. -/
theorem dcOnlyBlocksAreFlat : Obligations.DcOnlyBlocksAreFlat := by
  refine ⟨rfl, fun _ => rfl, fun id dq n hn => idct_other_getElem? id dq hn, fun dq y x b _ hx => ⟨?_, fun r hr hb => ?_⟩,
    fun d n hn => idctFixed_dcBlock d hn⟩
  · obtain ⟨r, hr, hb⟩ := withinTolerance_near dq (8 * y + x) b
    exact ⟨r, nearest_of_roundsTo hx hr, hb⟩
  · exact withinTolerance_eq_self (roundsTo_of_nearest hx hr) hb

end Sys2Proof.Machine
end

section
/-! PROOFS. Upsampling, colour conversion and output (44_upsample_color.md): the three channels of a pixel (O47), the
sample of a component under a pixel (O48), and the count of the bytes a conversion pushes (O49). -/
namespace Sys2Proof.Machine

variable {s t : State} {f : FrameSnap} {c : FrameComp} {i row col x y : Nat}

/-! ### The colour conversion -/

/-- R9. -/
theorem clamp8_toNat (a : Int) : ((clamp8 a).toNat : Int) = min (max a 0) 255 := by
  simp only [clamp8, BitVec.toNat_ofNat]
  omega

theorem clamp8_natCast {n : Nat} (h : n ≤ 255) : clamp8 n = BitVec.ofNat 8 n := by
  have hclamp : (min (max (n : Int) 0) 255).toNat = n := by omega
  rw [clamp8, hclamp]

/-- R420: neutral chroma leaves each channel at the luma. -/
theorem csc_grey (h : y ≤ 255) : csc y 128 128 = [BitVec.ofNat 8 y, BitVec.ofNat 8 y, BitVec.ofNat 8 y] := by
  have hred : cscRed y 128 = BitVec.ofNat 8 y := by rw [← clamp8_natCast h]; simp [cscRed]
  have hgreen : cscGreen y 128 128 = BitVec.ofNat 8 y := by rw [← clamp8_natCast h]; simp [cscGreen]
  have hblue : cscBlue y 128 = BitVec.ofNat 8 y := by rw [← clamp8_natCast h]; simp [cscBlue]
  rw [csc, hred, hgreen, hblue]

/-- Settles O47: each channel is a clamp, whose value is the formula's; neutral chroma adds nothing to the luma. -/
theorem greyChromaGivesGrey : Obligations.GreyChromaGivesGrey := fun y hy =>
  ⟨csc_grey hy, fun cb cr _ _ => ⟨cscRed y cr, cscGreen y cb cr, cscBlue y cb, rfl, clamp8_toNat _, clamp8_toNat _,
    clamp8_toNat _⟩⟩

/-! ### A sample has 8 bits -/

theorem planeRead_le {v : Nat} (h : planeRead s f i row col = .ok v) : v ≤ 255 := by
  unfold planeRead at h
  split at h
  · cases h
  · split at h
    · split at h
      · next b _ => injection h with h; have := b.isLt; omega
      · cases h
    · cases h

/-- R403: the triangle step is a mean. -/
theorem triangle_le {near far : Nat} (hn : near ≤ 255) (hf : far ≤ 255) : triangle near far ≤ 255 := by
  unfold triangle
  omega

theorem sampleVert_le {v : Nat} (h : sampleVert s f i c col y = .ok v) : v ≤ 255 := by
  unfold sampleVert at h
  split at h
  · split at h
    · next near far hn hf => injection h with h; exact h ▸ triangle_le (planeRead_le hn) (planeRead_le hf)
    · cases h
    · cases h
  · exact planeRead_le h

theorem sampleBilinear_le {v : Nat} (h : sampleBilinear s f i c x y = .ok v) : v ≤ 255 := by
  unfold sampleBilinear at h
  split at h
  · split at h
    · next near far hn hf => injection h with h; exact h ▸ triangle_le (sampleVert_le hn) (sampleVert_le hf)
    · cases h
    · cases h
  · exact sampleVert_le h

theorem sample_le {mode : BitVec 1} {v : Nat} (h : sample s f mode i x y = .ok v) : v ≤ 255 := by
  unfold sample at h
  split at h
  · cases h
  · split at h
    · exact planeRead_le h
    · exact sampleBilinear_le h

/-! ### The sample of a component under a pixel -/

theorem farOf_eq_neighbour (p n : Nat) : Claim.farOf p n = neighbour p n := by
  simp [Claim.farOf, neighbour]

section Component

variable (hc : f.comps[i]? = some c)
include hc

/-- R102: a written sample of the valid region is what a read of its plane returns. -/
theorem planeRead_of_read (hf : f.Sound) {b : Byte} (hrow : row < f.chgt c) (hcol : col < f.cwid c)
    (hb : Memory.read s.planes (planeAddr i row col) = some b) : planeRead s f i row col = .ok b.toNat := by
  simp [planeRead, hc, hb, lt_of_lt_of_le hrow hf.chgt_le_ph, lt_of_lt_of_le hcol hf.cwid_le_pw]

/-- R402. -/
theorem sample_box (hf : f.Sound) {b : Byte} (hx : x < f.fw.toNat) (hy : y < f.fh.toNat)
    (hb : Memory.read s.planes (planeAddr i (y * c.v / f.vmax) (x * c.h / f.hmax)) = some b) :
    sample s f 0 i x y = .ok b.toNat := by
  have hm := List.mem_of_getElem? hc
  have hread := planeRead_of_read hc hf (hf.boxRow_lt hm hy) (hf.boxCol_lt hm hx) hb
  simpa [sample, hc, sampleBox] using hread

/-- R403: a component whose lines are not doubled takes the line of the box index. -/
theorem sampleVert_box (hf : f.Sound) {b : Byte} (hy : y < f.fh.toNat) (hcol : col < f.cwid c) (hratio : f.vmax ≠ 2 * c.v)
    (hb : Memory.read s.planes (planeAddr i (y * c.v / f.vmax) col) = some b) :
    sampleVert s f i c col y = .ok b.toNat := by
  have hread := planeRead_of_read hc hf (hf.boxRow_lt (List.mem_of_getElem? hc) hy) hcol hb
  rw [sampleVert, if_neg hratio, hread]

/-- R403: a component of half the lines takes the triangle of the line under the pixel and of its neighbour. -/
theorem sampleVert_triangle (hf : f.Sound) {near far : Byte} (hy : y < f.fh.toNat) (hcol : col < f.cwid c)
    (hratio : f.vmax = 2 * c.v) (hnear : Memory.read s.planes (planeAddr i (y / 2) col) = some near)
    (hfar : Memory.read s.planes (planeAddr i (neighbour y (f.chgt c)) col) = some far) :
    sampleVert s f i c col y = .ok (triangle near.toNat far.toNat) := by
  obtain ⟨-, -, hv, -⟩ := hf.factors c (List.mem_of_getElem? hc)
  have hrow : y / 2 < f.chgt c := half_lt hy hv hratio
  rw [sampleVert, if_pos hratio, planeRead_of_read hc hf hrow hcol hnear,
    planeRead_of_read hc hf (neighbour_lt hrow) hcol hfar]

theorem sample_bilinear : sample s f 1 i x y = sampleBilinear s f i c x y := by
  simp [sample, hc]

/-- R403: a component whose columns are not doubled takes the column of the box index. -/
theorem sample_column (hratio : f.hmax ≠ 2 * c.h) : sample s f 1 i x y = sampleVert s f i c (x * c.h / f.hmax) y := by
  rw [sample_bilinear hc, sampleBilinear, if_neg hratio]

/-- R403: a component of half the columns takes the triangle of two columns. -/
theorem sample_triangle {near far : Nat} (hratio : f.hmax = 2 * c.h) (hnear : sampleVert s f i c (x / 2) y = .ok near)
    (hfar : sampleVert s f i c (neighbour x (f.cwid c)) y = .ok far) :
    sample s f 1 i x y = .ok (triangle near far) := by
  rw [sample_bilinear hc, sampleBilinear, if_pos hratio, hnear, hfar]

end Component

/-! ### Grey frames -/

/-- R422: the one component of a grey frame has the frame's own factors. -/
theorem FrameSnap.grey_component (hnf : f.nf = 1) : ∃ c, f.comps[0]? = some c ∧ f.hmax = c.h ∧ f.vmax = c.v := by
  obtain ⟨c, hcomps⟩ := List.length_eq_one_iff.mp hnf
  exact ⟨c, by simp [hcomps], by simp [FrameSnap.hmax, hcomps], by simp [FrameSnap.vmax, hcomps]⟩

/-- R422: both modes read a grey frame one to one: no ratio is 2, and the box index is the position itself. -/
theorem sample_grey (hf : f.Sound) (hnf : f.nf = 1) (mode : BitVec 1) (hx : x < f.fw.toNat) (hy : y < f.fh.toNat)
    {b : Byte} (hb : Memory.read s.planes (planeAddr 0 y x) = some b) : sample s f mode 0 x y = .ok b.toNat := by
  obtain ⟨c, hc, hh, hv⟩ := FrameSnap.grey_component hnf
  have hm := List.mem_of_getElem? hc
  obtain ⟨hhpos, -, hvpos, -⟩ := hf.factors c hm
  have hboxCol : x * c.h / f.hmax = x := by rw [hh, Nat.mul_div_cancel _ hhpos]
  have hboxRow : y * c.v / f.vmax = y := by rw [hv, Nat.mul_div_cancel _ hvpos]
  have hcol : x < f.cwid c := hboxCol ▸ hf.boxCol_lt hm hx
  obtain rfl | rfl : mode = 0 ∨ mode = 1 := by revert mode; decide
  · exact sample_box hc hf hx hy (by rwa [hboxRow, hboxCol])
  · rw [sample_column hc (by omega), hboxCol]
    exact sampleVert_box hc hf hy hcol (by omega) (by rwa [hboxRow])

theorem pixel_grey (hnf : f.nf = 1) {mode : BitVec 1} {b : Byte} (h : sample s f mode 0 x y = .ok b.toNat) :
    pixel s f mode x y = .ok [b] := by
  simp [pixel, hnf, h]

theorem pixel_colour (hnf : f.nf ≠ 1) {mode : BitVec 1} {v0 v1 v2 : Nat} (h0 : sample s f mode 0 x y = .ok v0)
    (h1 : sample s f mode 1 x y = .ok v1) (h2 : sample s f mode 2 x y = .ok v2) :
    pixel s f mode x y = .ok (csc v0 v1 v2) := by
  simp [pixel, hnf, h0, h1, h2]

/-- Settles O48: a read of the valid region returns the sample there, and each filter is its rule over such reads. -/
theorem grayscaleFramesAreReadOneToOne : Obligations.GrayscaleFramesAreReadOneToOne := by
  refine ⟨fun s f mode x y b hf hnf hx hy hb => pixel_grey hnf (sample_grey hf hnf mode hx hy hb),
    fun s f mode x y v0 v1 v2 hnf => pixel_colour hnf, fun s f mode i x y v => sample_le,
    fun s f i c x y hf hc hx hy => ?_⟩
  simp only [farOf_eq_neighbour]
  exact ⟨fun b hb => sample_box hc hf hx hy hb,
    fun col b hcol hratio hb => sampleVert_box hc hf hy hcol hratio hb,
    fun col near far hcol hratio hnear hfar => sampleVert_triangle hc hf hy hcol hratio hnear hfar,
    sample_column hc, fun near far hratio hnear hfar => sample_triangle hc hratio hnear hfar⟩

/-! ### The conversion cursor -/

section Cursor

variable {cv : ConvCursor}

theorem advance_channel (h : cv.ch + 1 < f.nf) : advance f cv = { cv with ch := cv.ch + 1 } := if_pos h

theorem advance_pixel (hch : f.nf ≤ cv.ch + 1) (hx : cv.x + 1 < f.fw.toNat) :
    advance f cv = { cv with x := cv.x + 1, ch := 0 } := by
  rw [advance, if_neg (Nat.not_lt.mpr hch), if_pos hx]

theorem advance_line (hch : f.nf ≤ cv.ch + 1) (hx : f.fw.toNat ≤ cv.x + 1) :
    advance f cv = { x := 0, y := cv.y + 1, ch := 0 } := by
  rw [advance, if_neg (Nat.not_lt.mpr hch), if_neg (Nat.not_lt.mpr hx)]

/-- R430: from a byte of the image the cursor goes to a byte of the image or to its end. -/
theorem advance_inside (hy : cv.y < f.fh.toNat) : (advance f cv).y ≤ f.fh.toNat ∧
    ((advance f cv).y = f.fh.toNat → (advance f cv).x = 0 ∧ (advance f cv).ch = 0) := by
  unfold advance
  split
  · exact ⟨hy.le, fun h => absurd h hy.ne⟩
  · split
    · exact ⟨hy.le, fun h => absurd h hy.ne⟩
    · exact ⟨hy, fun _ => ⟨rfl, rfl⟩⟩

/-- R430: the cursor moves on by one byte of the image. -/
theorem bytesBefore_advance (hx : cv.x < f.fw.toNat) (hch : cv.ch < f.nf) :
    Claim.bytesBefore f (advance f cv) = Claim.bytesBefore f cv + 1 := by
  unfold Claim.bytesBefore
  by_cases h1 : cv.ch + 1 < f.nf
  · rw [advance_channel h1]
    exact (Nat.add_assoc _ _ _).symm
  · have hnf : f.nf = cv.ch + 1 := by omega
    by_cases h2 : cv.x + 1 < f.fw.toNat
    · rw [advance_pixel hnf.le h2, hnf]
      ring
    · have hfw : f.fw.toNat = cv.x + 1 := by omega
      rw [advance_line hnf.le hfw.le, hnf, hfw]
      ring

/-- R432: fewer bytes than the image has lie before a byte of it. -/
theorem bytesBefore_lt (hx : cv.x < f.fw.toNat) (hch : cv.ch < f.nf) (hy : cv.y < f.fh.toNat) :
    Claim.bytesBefore f cv < f.fw.toNat * f.fh.toNat * f.nf := by
  have hpixel : cv.y * f.fw.toNat + cv.x < f.fh.toNat * f.fw.toNat := by
    rw [Nat.mul_comm cv.y]
    exact Nat.mul_add_lt_mul_of_lt_of_lt hy hx
  rw [Claim.bytesBefore, Nat.mul_comm _ f.nf, Nat.mul_comm f.fw.toNat]
  exact Nat.mul_add_lt_mul_of_lt_of_lt hpixel hch

theorem bytesBefore_end (hx : cv.x = 0) (hch : cv.ch = 0) (hy : cv.y = f.fh.toNat) :
    Claim.bytesBefore f cv = f.fw.toNat * f.fh.toNat * f.nf := by
  rw [Claim.bytesBefore, hx, hch, hy, Nat.add_zero, Nat.add_zero, Nat.mul_comm f.fh.toNat]

end Cursor

/-! ### One push -/

/-- R430, R431: the push of the byte of the cursor's channel, where the pixel is known. -/
theorem outPush_eq {mode : BitVec 1} {bytes : List Byte} {b : Byte} (hf : s.frame = some f) (hm : s.cvMode = some mode)
    (hp : pixel s f mode s.conv.x s.conv.y = .ok bytes) (hb : bytes[s.conv.ch]? = some b) :
    outPush s = .ok { pushOut b s with conv := advance f s.conv } := by
  simp [outPush, hf, hm, hp, hb]

/-! ### The count of the pushed bytes -/

/-- Outside CONVERT there is no count to keep. -/
theorem countInv_outside (h : s.st ≠ .convert) : Claim.CountInv s := fun hst => absurd hst h

theorem countInv_congr (h : Claim.CountInv s) (hst : t.st = s.st) (hframe : t.frame = s.frame) (hconv : t.conv = s.conv)
    (hcount : t.outCount = s.outCount) : Claim.CountInv t := by
  unfold Claim.CountInv
  rw [hst, hframe, hconv, hcount]
  exact h

theorem count_raise (k : ErrKind) (d : Byte) (a : Nat) (s : State) : Claim.CountInv (raise k d a s) :=
  countInv_outside (by simp)

theorem count_loadQt (h : Claim.CountInv s) (id : BitVec 2) : Claim.CountInv (loadQt id s) := by
  unfold loadQt
  split
  · exact count_raise _ _ _ _
  · exact countInv_congr h rfl rfl rfl rfl

theorem count_loadHt (h : Claim.CountInv s) (id : BitVec 2) (k : BitVec 1) : Claim.CountInv (loadHt id k s) := by
  unfold loadHt
  split
  · exact count_raise _ _ _ _
  · unfold installHt
    split <;> exact countInv_congr h rfl rfl rfl rfl

theorem count_startFrame (s : State) : Claim.CountInv (startFrame s) := by
  unfold startFrame
  simp only
  split
  · exact count_raise _ _ _ _
  · exact countInv_outside (by simp)

theorem count_startScan (f : FrameSnap) (s : State) : Claim.CountInv (startScan f s) := by
  unfold startScan
  split
  · exact count_raise _ _ _ _
  · exact countInv_outside (by simp)

/-- R231: a conversion starts before the first byte, with the count at 0. -/
theorem count_convert (hl : LiveInv s) (hst : s.st = .frame) (hf : s.frame = some f) : Claim.CountInv (convert f s) := by
  obtain ⟨g, hg, hfs, -⟩ := hl.frame (.inl hst)
  obtain rfl : f = g := Option.some.inj (hf.symm.trans hg)
  have hnf : 0 < f.nf := by rcases hfs.nf with e | e <;> simp [e]
  unfold convert
  split
  · exact count_raise _ _ _ _
  · exact fun _ => ⟨f, hf, hnf, hfs.fw_pos, hnf, Nat.zero_le _, fun _ => ⟨rfl, rfl⟩,
      fun _ => by simp [Claim.bytesBefore]⟩

/-- R201-R261: of the host's instructions CONVERT alone starts a conversion, and a conversion that goes on is left as it
was. -/
theorem count_exec_host {i : Instr} (hi : hostInstr i = true) (hl : LiveInv s) (h : Claim.CountInv s)
    (he : exec i s = .next t) : Claim.CountInv t := by
  have hreject : Claim.CountInv (reject s) := countInv_congr h rfl rfl rfl rfl
  cases i
  case nop => injection he with he; exact he ▸ h
  case loadQt id => injection he with he; subst he; split; exacts [count_loadQt h id, hreject]
  case loadHt id k => injection he with he; subst he; split; exacts [count_loadHt h id k, hreject]
  case startFrame => injection he with he; subst he; split; exacts [count_startFrame s, hreject]
  case startScan =>
    obtain ⟨f, -, -, rfl⟩ | rfl := exec_startScan he
    exacts [count_startScan f s, hreject]
  case convert =>
    obtain ⟨f, hst, hf, rfl⟩ | rfl := exec_convert he
    exacts [count_convert hl hst hf, hreject]
  case abort => injection he with he; subst he; exact countInv_outside (by simp)
  case cmdRejected => injection he with he; exact he ▸ hreject
  case tblDataWr => injection he with he; subst he; split <;> exact countInv_congr h rfl rfl rfl rfl
  case inDataWr =>
    injection he with he; subst he; split
    · split <;> exact countInv_congr h rfl rfl rfl rfl
    · exact countInv_congr h rfl rfl rfl rfl
  case outDataRd | intStatusWr => injection he with he; subst he; exact countInv_congr h rfl rfl rfl rfl
  case ctrlSoftReset =>
    injection he with he; subst he; split
    · exact countInv_outside (by simp)
    · exact countInv_congr h rfl rfl rfl rfl
  all_goals exact absurd hi Bool.false_ne_true

theorem count_hostAccess (hl : LiveInv s) (h : Claim.CountInv s) {a : Access} (he : hostAccess a s = .next t) :
    Claim.CountInv t := by
  obtain ⟨off, -, ⟨i, hi, he⟩ | rfl | rfl⟩ := hostAccess_next he
  · exact count_exec_host (decodeAccess_host hi) hl h he
  · exact countInv_congr h rfl rfl rfl rfl
  · exact countInv_congr h rfl rfl rfl rfl

/-- R431, R432: a push counts the byte the cursor passes. -/
theorem count_outPush (hl : LiveInv s) (h : Claim.CountInv s) (hop : nextOp s = .outPush) (he : outPush s = .ok t) :
    Claim.CountInv t := by
  have hspec := nextOp_spec s
  rw [hop] at hspec
  obtain ⟨hst, hyof⟩ := hspec
  obtain ⟨f, hf, hnf, hx, hch, -, -, hcount⟩ := h hst
  obtain ⟨g, hg, hfs, -⟩ := hl.frame (.inr (.inr hst))
  obtain rfl : f = g := Option.some.inj (hf.symm.trans hg)
  have hy := hyof f hf
  obtain ⟨g, mode, bytes, hg, -, -, rfl⟩ := outPush_ok he
  obtain rfl : f = g := Option.some.inj (hf.symm.trans hg)
  obtain ⟨hx', hch'⟩ := advance_lt hfs hx hch
  obtain ⟨hy', hend⟩ := advance_inside hy
  refine fun _ => ⟨f, hf, hnf, hx', hch', hy', hend, fun hsize => ?_⟩
  have hroom : s.outCount.toNat + 1 < 2 ^ 32 := by
    have := bytesBefore_lt hx hch hy
    rw [hcount hsize]
    omega
  calc (countUp s.outCount s.freeUsed).toNat = s.outCount.toNat + 1 := by
        rw [(countUp_of_lt hroom _).1, toNat_add_one hroom]
    _ = Claim.bytesBefore f (advance f s.conv) := by rw [hcount hsize, bytesBefore_advance hx hch]

theorem nextOp_of_convert (hst : s.st = .convert) : nextOp s = .outPush ∨ nextOp s = .convertDone := by
  simp only [nextOp, hst, convertOp]
  split
  · exact .inl rfl
  · split
    · exact .inl rfl
    · exact .inr rfl

/-- R430: in CONVERT the engine stands at no instruction, and runs the operation that is next. -/
theorem engineStep_inConvert (hst : s.st = .convert) (he : engineStep s = .next t) :
    ∃ u, engineOther (nextOp s) s = .ok u ∧ t = markStep (nextOp s) u := by
  obtain ⟨u, rfl, ⟨i, hi, -⟩ | ⟨-, hu⟩⟩ := engineStep_next he
  · obtain ⟨hop, -⟩ | ⟨hop, -⟩ := engineInstr_eq_some hi <;> simpa [hop] using nextOp_of_convert hst
  · exact ⟨u, hu, rfl⟩

/-- R13, R430: the one engine operation after which the state is CONVERT is a push. -/
theorem engineStep_toConvert (hr : engineReady s = true) (he : engineStep s = .next t) (ht : t.st = .convert) :
    nextOp s = .outPush ∧ ∃ u, outPush s = .ok u ∧ t = markStep .outPush u := by
  obtain ⟨hbusy, -⟩ := (engineReady_iff s).mp hr
  have hframe : s.st ≠ .frame := fun e => hbusy ((nextOp_noStep_iff s).mpr (.inr (.inl e)))
  have hst : s.st = .convert := by
    simpa [OnGraph, ht, hframe, eq_comm] using (moves_engineStep he).graph
  obtain ⟨u, hu, rfl⟩ := engineStep_inConvert hst he
  obtain hop | hop := nextOp_of_convert hst <;> rw [hop] at hu ⊢
  · exact ⟨rfl, u, hu, rfl⟩
  · injection hu with hu
    subst hu
    simp at ht

theorem count_engineStep (hl : LiveInv s) (h : Claim.CountInv s) (hr : engineReady s = true)
    (he : engineStep s = .next t) : Claim.CountInv t := by
  by_cases ht : t.st = .convert
  · obtain ⟨hop, u, hu, rfl⟩ := engineStep_toConvert hr he ht
    exact countInv_congr (count_outPush hl h hop hu) rfl rfl rfl rfl
  · exact countInv_outside ht

/-- R432: every step keeps the count. -/
theorem count_step (hl : LiveInv s) (h : Claim.CountInv s) (hstep : step s = .next t) : Claim.CountInv t := by
  obtain ⟨r, m, ⟨hr, he⟩ | rfl | ⟨a, -, -, he⟩ | ⟨-, -, rfl⟩⟩ := step_next hstep
  · exact count_engineStep (live_turns hl r m) (countInv_congr h rfl rfl rfl rfl) hr he
  · exact countInv_congr h rfl rfl rfl rfl
  · exact count_hostAccess (live_turns hl r m) (countInv_congr h rfl rfl rfl rfl) he
  · exact countInv_outside (by simp)

/-- R433: a conversion ends at the image's end. -/
theorem count_convertDone (h : Claim.CountInv s) (hop : nextOp s = .convertDone) : ∃ f, s.frame = some f ∧
    (f.fw.toNat * f.fh.toNat * f.nf < 2 ^ 32 → s.outCount.toNat = f.fw.toNat * f.fh.toNat * f.nf) := by
  have hspec := nextOp_spec s
  rw [hop] at hspec
  obtain ⟨hst, g, hg, hpast⟩ := hspec
  obtain ⟨f, hf, -, -, -, hy, hend, hcount⟩ := h hst
  obtain rfl : f = g := Option.some.inj (hf.symm.trans hg)
  have hlast : s.conv.y = f.fh.toNat := le_antisymm hy hpast
  obtain ⟨hx, hch⟩ := hend hlast
  exact ⟨f, hf, fun hsize => by rw [hcount hsize, bytesBefore_end hx hch hlast]⟩

theorem convertDone_eq (s : State) : convertDone s = { s with st := .idle, intStatus := s.intStatus ||| 0x02 } := by
  rw [convertDone, setInt, intUpdate_set]
  rfl

/-- Settles O49: a push counts the byte its cursor passes, a conversion starts at 0, and nothing else touches either. -/
theorem aConversionPushesTheWholeImage : Obligations.AConversionPushesTheWholeImage := by
  refine ⟨fun s f mode bytes b _ hop hroom hf hm hp hb => ?_, fun s t hl h => count_step hl h, fun s _ h hop => ?_⟩
  · have hpush := outPush_eq hf hm hp hb
    refine ⟨_, hpush, (engineReady_iff s).mpr ⟨by simp [hop], by simp [hop], fun _ => hroom⟩,
      engineStep_between hop rfl hpush, rfl, fun hcount => countUp_of_lt hcount _, advance_channel, advance_pixel,
      advance_line, rfl⟩
  · obtain ⟨f, hf, htotal⟩ := count_convertDone h hop
    exact ⟨f, hf, htotal, convertDone_eq s⟩

end Sys2Proof.Machine
end

section
/-! PROOFS. The error state: an error recorded is kept until ABORT or a reset leaves ERROR for IDLE (O51), and what error entry
does to each field (O50). -/
namespace Sys2Proof.Machine

variable {s t : State}

/-! ### Leaving the error state -/

/-- R457: the engine state and the recorded error are as before. -/
structure ErrorKept (s t : State) : Prop where
  st : t.st = s.st
  err : t.err = s.err
  errPos : t.errPos = s.errPos

/-- R458: in ERROR every command but NOP and ABORT is rejected, and the accesses with side effects touch neither the engine
state nor the error, but for a soft reset. -/
theorem exec_host_inError {i : Instr} (hst : s.st = .error) (hi : hostInstr i = true) (he : exec i s = .next t) :
    ErrorKept s t ∨ (i = .abort ∧ t = abortFrame s) ∨
      ∃ v, i = .ctrlSoftReset v ∧ v.getLsbD 0 = true ∧ t = resetAction s := by
  have hidle : s.st ≠ .idle := by simp [hst]
  have hframe : s.st ≠ .frame := by simp [hst]
  have hload : ¬ acceptsLoad s.st = true := by simp [acceptsLoad, hst]
  have hreject : ErrorKept s (reject s) := ⟨rfl, rfl, rfl⟩
  cases i
  case ctrlSoftReset v =>
    injection he with he; subst he; split
    · next hv => exact .inr (.inr ⟨v, rfl, hv, rfl⟩)
    · exact .inl ⟨rfl, rfl, rfl⟩
  case abort => injection he with he; exact .inr (.inl ⟨rfl, he.symm⟩)
  all_goals left
  case loadQt | loadHt => injection he with he; rw [if_neg hload] at he; exact he ▸ hreject
  case startFrame => injection he with he; rw [if_neg hidle] at he; exact he ▸ hreject
  case startScan =>
    obtain ⟨f, e, -, -⟩ | rfl := exec_startScan he
    exacts [absurd e hframe, hreject]
  case convert =>
    obtain ⟨f, e, -, -⟩ | rfl := exec_convert he
    exacts [absurd e hframe, hreject]
  case cmdRejected => injection he with he; exact he ▸ hreject
  case nop => injection he with he; exact he ▸ ⟨rfl, rfl, rfl⟩
  case tblDataWr => injection he with he; subst he; split <;> exact ⟨rfl, rfl, rfl⟩
  case inDataWr =>
    injection he with he; subst he; split
    · split <;> exact ⟨rfl, rfl, rfl⟩
    · exact ⟨rfl, rfl, rfl⟩
  case outDataRd | intStatusWr => injection he with he; subst he; exact ⟨rfl, rfl, rfl⟩
  all_goals exact absurd hi Bool.false_ne_true

/-- R250: of the bus accesses a write of CMD alone is an ABORT. -/
theorem decodeAccess_eq_abort {w : Bool} {off : Byte} {d : Word} (h : decodeAccess w off d = .ok .abort) :
    w = true ∧ off = 0x08 ∧ decodeCmd d = .abort := by
  unfold decodeAccess decodeRegAccess at h
  split at h
  · next hcmd => exact ⟨hcmd.1, hcmd.2, Except.ok.inj h⟩
  · grind

theorem hostAccess_inError {a : Access} (hst : s.st = .error) (he : hostAccess a s = .next t) :
    ErrorKept s t ∨ (WritesAt a s.par.regBase 0x08 ∧ decodeCmd a.data = .abort ∧ t = abortFrame s) ∨
      (WritesAt a s.par.regBase 0x04 ∧ a.data.getLsbD 0 = true ∧ t = resetAction s) := by
  obtain ⟨h1, h2, hw⟩ := hostAccess_taken he
  obtain ⟨off, rfl, ⟨i, hi, he⟩ | rfl | rfl⟩ := hostAccess_next he
  · obtain hkept | ⟨rfl, rfl⟩ | ⟨v, rfl, hv, rfl⟩ := exec_host_inError hst (decodeAccess_host hi) he
    · exact .inl hkept
    · obtain ⟨hwr, hoff, hcmd⟩ := decodeAccess_eq_abort hi
      exact .inr (.inl ⟨⟨hwr, addr_of_offset h1 h2 hoff, hw⟩, hcmd, rfl⟩)
    · obtain ⟨hwr, hoff, rfl⟩ := decodeAccess_eq_ctrl hi
      exact .inr (.inr ⟨⟨hwr, addr_of_offset h1 h2 hoff, hw⟩, hv, rfl⟩)
  · exact .inl ⟨rfl, rfl, rfl⟩
  · exact .inl ⟨rfl, rfl, rfl⟩

/-- R458: in ERROR the engine takes no step. -/
theorem engineReady_inError (hst : s.st = .error) : engineReady s = false := by
  simp [engineReady, nextOp, hst]

/-- Settles O51: the engine stands still in ERROR, and of the moves of the outside world ABORT and the two resets alone change
the engine state or the recorded error. -/
theorem onlyAbortOrResetLeavesError : Obligations.OnlyAbortOrResetLeavesError := by
  intro s t hst hstep
  obtain ⟨r, m, ⟨hr, -⟩ | rfl | ⟨a, ht, hm, he⟩ | ⟨⟨l, ht⟩, hm, rfl⟩⟩ := step_next hstep
  · exact absurd hr (by simp [engineReady_inError, hst])
  · exact .inl ⟨hst, rfl, rfl⟩
  · obtain hkept | ⟨hw, hcmd, rfl⟩ | ⟨hw, hd, rfl⟩ := hostAccess_inError (s := { s with turns := r, mid := m }) hst he
    · exact .inl ⟨hkept.st.trans hst, hkept.err, hkept.errPos⟩
    · exact .inr (.inr ⟨rfl, rfl, rfl, hostWriteNext_of_writes ht hm hw, by simpa [nextWriteData, ht] using hcmd⟩)
    · exact .inr (.inl ⟨rfl, resetNext_of_ctrl ht hm hw hd⟩)
  · exact .inr (.inl ⟨rfl, by simp [resetNext, ht, hm]⟩)

/-! ### Error entry -/

/-- R35: the fields of ERR are the error's kind, detail and argument, and the bits between and above them are 0. -/
theorem errWord_fields (kind : ErrKind) (detail : Byte) (arg : Nat) :
    (errWord kind detail arg).extractLsb' 0 4 = kind.code ∧ (errWord kind detail arg).extractLsb' 4 4 = 0 ∧
    (errWord kind detail arg).extractLsb' 8 8 = detail ∧
    (errWord kind detail arg).extractLsb' 16 8 = BitVec.ofNat 8 arg ∧
    (errWord kind detail arg).extractLsb' 24 8 = 0 := by
  unfold errWord
  refine ⟨BitVec.extractLsb'_append_eq_right, ?_, ?_, ?_, ?_⟩ <;>
    simp only [BitVec.extractLsb'_append_eq_of_le, Nat.reduceLeDiff, Nat.reduceSub]
  · exact BitVec.extractLsb'_append_eq_right
  · exact BitVec.extractLsb'_append_eq_right
  · exact BitVec.extractLsb'_append_eq_right
  · exact BitVec.extractLsb'_eq_self

/-- Settles O50: the fields error entry writes are those of `raise_fields`, with ERR's own fields of R35, and every other field
is the old one. -/
theorem errorEntryRecordsTheError : Obligations.ErrorEntryRecordsTheError := by
  intro kind detail arg s
  obtain ⟨hkind, hlow, hdetail, harg, hhigh⟩ := errWord_fields kind detail arg
  exact ⟨_, rfl, hkind, hlow, hdetail, harg, hhigh, fun hscan => if_pos hscan, fun hscan => if_neg hscan, rfl, rfl, rfl,
    intUpdate_set _ _, rfl⟩

end Sys2Proof.Machine
end

section
/-! PROOFS. Holds and reset: the two places where the engine waits for the host and the ways each wait ends (O28), and a write
of CTRL (O7). -/
namespace Sys2Proof.Machine

variable {s t : State}

/-! ### The two holds -/

/-- R520: a busy engine that cannot step waits for input or for room in the output FIFO. -/
theorem engineReady_eq_false_iff (hst : s.st = .scan ∨ s.st = .convert) :
    engineReady s = false ↔ inWait s = true ∨ outWait s = true := by
  have hstep : decide (nextOp s ≠ .noStep) = true := decide_eq_true (nextOp_ne_noStep hst)
  rw [engineReady, hstep, Bool.true_and, Bool.and_eq_false_iff, Bool.not_eq_false', Bool.not_eq_false']

/-- R23, R520: an engine that runs neither a scan nor a conversion waits for nothing. -/
theorem not_waiting_of_idle (h : s.st = .idle) : inWait s = false ∧ outWait s = false := by
  simp [inWait, outWait, h]

theorem acceptsInput_of_inWait (hwait : inWait s = true) (heof : s.eofSeen = false) (hdepth : 0 < s.par.inDepth) :
    acceptsInput s = true := by
  obtain ⟨hst, -, hempty⟩ := (inWait_iff s).mp hwait
  exact (acceptsInput_iff s).mpr ⟨hst, heof, by rwa [hempty]⟩

/-- R260, R261: an accepted IN_DATA write leaves the input FIFO with an entry for `InPop()`. -/
theorem engineReady_entered (hwait : inWait s = true) (v : Word) : engineReady (s.entered v) = true := by
  obtain ⟨hst, hop, -⟩ := (inWait_iff s).mp hwait
  have hop' : nextOp (s.entered v) = .inPop := hop
  have hfed : (s.entered v).inFifo ≠ [] := by simp [State.entered, State.refill, hst]
  exact (engineReady_iff _).mpr ⟨by simp [hop'], fun _ => hfed, by simp [hop']⟩

/-- R431: the read of OUT_DATA that pops leaves a full output FIFO with room for `OutPush`. -/
theorem engineReady_popped (hwait : outWait s = true) (hfull : s.outFifo.length = s.par.outDepth)
    (hdepth : 0 < s.par.outDepth) (w : Word) :
    engineReady { s with rdata := w, outFifo := s.outFifo.tail } = true := by
  obtain ⟨-, hop, -⟩ := (outWait_iff s).mp hwait
  have hop' : nextOp { s with rdata := w, outFifo := s.outFifo.tail } = .outPush := hop
  have hroom : s.outFifo.tail.length < s.par.outDepth := by rw [List.length_tail]; omega
  exact (engineReady_iff _).mpr ⟨by simp [hop'], by simp [hop'], fun _ => hroom⟩

/-- R240, R500: ABORT and reset leave the engine IDLE. -/
theorem idle_of_abort_or_reset (h : exec .abort s = .next t ∨ exec (.ctrlSoftReset 1) s = .next t) : t.st = .idle := by
  rcases h with h | h <;> injection h with h <;> subst h <;> rfl

/-- Settles O28: the two waits are all that keeps a busy engine from its next operation, and each goes with what it waits
for, or with the scan or conversion itself. -/
theorem theEngineHoldsAtTwoPlacesOnly : Obligations.TheEngineHoldsAtTwoPlacesOnly := by
  intro s hst
  refine ⟨?_, fun hr => (step_hold hr).1, fun hwait v t heof hdepth he => ?_, fun hwait t hfull hdepth he => ?_,
    fun t h => not_waiting_of_idle (idle_of_abort_or_reset h)⟩
  · rw [engineReady_eq_false_iff hst, inWait_iff, outWait_iff]
  · rw [exec_inDataWr_accepted v (acceptsInput_of_inWait hwait heof hdepth)] at he
    injection he with he
    exact he ▸ engineReady_entered hwait v
  · injection he with he
    exact he ▸ engineReady_popped hwait hfull hdepth _

/-! ### Reset -/

theorem exec_ctrl_reset {v : Word} (hv : v.getLsbD 0 = true) :
    exec (.ctrlSoftReset v) s = .next (resetAction s) := by
  rw [exec, execCtrlSoftReset, if_pos hv]

theorem exec_ctrl_noReset {v : Word} (hv : v.getLsbD 0 = false) :
    exec (.ctrlSoftReset v) s = .next { s with regs := { s.regs with upsMode := v.extractLsb' 1 1 } } := by
  rw [exec, execCtrlSoftReset, if_neg (Bool.eq_false_iff.mp hv)]

/-- R500: the power-on move is the reset action, whatever is still in the list. -/
theorem step_powerOn {rest : List Turn} (ht : s.turns = .powerOn :: rest) (hm : s.mid = false) :
    step s = .next { resetAction s with turns := rest } := by
  rw [step_eq_move (.inl hm), move, ht]
  rfl

/-- R500: a reset machine reads as the machine right after power-on, but for FIFO_STATUS, which shows the parameters. -/
theorem regRead_resetAction (s : State) {r : Reg} (h : r ≠ .fifoStatus) :
    regRead (resetAction s) r = regRead State.reset r := by
  cases r
  case fifoStatus => exact absurd rfl h
  all_goals rfl

/-- R24: the reset column of the register map. -/
theorem regRead_reset {r : Reg} : r ≠ .id → r ≠ .fifoStatus → regRead State.reset r = 0 := by
  cases r <;> decide

/-- R75: at reset the interrupt line is low. -/
theorem irq_resetAction (s : State) : irq (resetAction s) = false := irqIsTheEnabledOr.2

theorem Quad.get_const {α : Type} (a : α) (i : BitVec 2) : Quad.get ⟨a, a, a, a⟩ i = a := by
  simp [Quad.get]

/-- R60, R61: no table has been written. -/
theorem tables_empty_get (i : BitVec 2) :
    Tables.empty.qt.get i = none ∧ Tables.empty.dc.get i = none ∧ Tables.empty.ac.get i = none :=
  ⟨Quad.get_const none i, Quad.get_const none i, Quad.get_const none i⟩

/-- Settles O7: the reset action is R24's reset column and R77's values, a field at a time. -/
theorem resetAndCtrlWrites : Obligations.ResetAndCtrlWrites := by
  refine ⟨fun s v hv => ⟨resetAction s, exec_ctrl_reset hv, fun rest => step_powerOn, fun r hid hfifo => ?_, ?_⟩,
    fun s v => exec_ctrl_noReset⟩
  · exact (regRead_resetAction s hfifo).trans (regRead_reset hid hfifo)
  · exact ⟨rfl, rfl, irq_resetAction s, rfl, rfl, rfl, rfl, tables_empty_get, rfl, rfl, rfl, rfl, fun _ => rfl, rfl, rfl,
      rfl, rfl, rfl, rfl, rfl, rfl, rfl⟩

end Sys2Proof.Machine
end
